-- ==== Sys2Proof/Word.lean ====
section
/-! DEFINITION. The word types of PX-1: bytes, 32-bit set-up words and 64-bit core words. -/
namespace Sys2Proof

/-- A byte of memory, of a record or of a tile store. -/
abbrev Byte := BitVec 8

/-- A set-up register word: every set-up register takes aligned 4-byte accesses (R319). -/
abbrev Word32 := BitVec 32

/-- A core word: the cores are RV64 (R176). -/
abbrev Word64 := BitVec 64

end Sys2Proof
end

