-- ==== Sys2Proof/Syntax.lean ====
section
/-! DEFINITION. The commands of PX-1: one constructor of `Instr` per row of spec/opcode_table.json, with the operands
that the row's rules give it, and the small types those operands need. -/
namespace Sys2Proof

/-- Privilege mode of a core (R176: M and U). -/
inductive Priv where
  | m | u
  deriving DecidableEq, Repr

/-- Where a core executes a command: the core's agent number under R362 (a Trowel is its Tile, a control core is
192 + k, the Kiln is 200), the address of the instruction, the privilege mode and the bits of the instruction. -/
structure Site where
  core : Nat
  pc   : Word64
  mode : Priv
  bits : Word32
  deriving DecidableEq, Repr

/-- Whether the encoding of a load or store belongs to an extension that R176 lists (R177). -/
inductive Encoding where
  /-- The encoding is one that the core implements. -/
  | listed
  /-- The encoding belongs to an absent extension, or is an unlisted encoding in custom-0 (R177, R209). -/
  | absent
  deriving DecidableEq, Repr

/-- Width of a core access in bytes. -/
inductive Width where
  | b1 | b2 | b4 | b8
  deriving DecidableEq, Repr

/-- Destination of a core load: an integer register, a floating-point register of a control core (R176), or the
instruction fetch of the core. -/
inductive Dest where
  | x (r : BitVec 5)
  | f (r : BitVec 5)
  | fetch
  deriving DecidableEq, Repr

/-- The AMO instructions of R413. -/
inductive AmoOp where
  | add | and | or | xor | min | max | minu | maxu | swap
  deriving DecidableEq, Repr

/-- How a CSR instruction writes (RV64 Zicsr): write, set bits, clear bits. -/
inductive CsrWrite where
  | rw (v : Word64)
  | rs (v : Word64)
  | rc (v : Word64)
  deriving DecidableEq, Repr

/-- Who performs a set-up register access (R687). -/
inductive RegAgent where
  | host
  | core (k : Nat)
  | kiln
  | sideband
  deriving DecidableEq, Repr

/-- Status of a remote operation (R288). -/
inductive RStatus where
  | ok | poison | notarget | denied | refused | noroute | timeout | hostabsent
  deriving DecidableEq, Repr

/-- The source of an operation on memory (R283, R358). -/
inductive Src where
  | core (agent : Nat)
  | mover (tile : Nat)
  | hod (engine : Nat)
  | jegon (port : Nat)
  | bond (port : Nat)
  | host
  | securing
  | lintel
  deriving DecidableEq, Repr

/-- An identifier on a path of R383: the path (row of the table), the issuing unit, the index and the generation. -/
structure OpId where
  path  : Nat
  unit  : Nat
  index : Nat
  gen   : Nat
  deriving DecidableEq, Repr

/-- Kind of a remote operation (R285). -/
inductive OpKind where
  | get | put | atomic | fetching
  deriving DecidableEq, Repr

/-- Poison marks of the data of an operation, one for each 64 bytes (R285, R425): mark i is that of sector i of the 256-byte line in
which the operation lies. -/
abbrev Marks := BitVec 4

/-- A response to a remote operation as it reaches its source (R284, R287, R288). -/
structure Response where
  id     : OpId
  status : RStatus
  data   : List Byte
  poison : Marks
  deriving DecidableEq, Repr

/-- A line of data as it crosses a wire, with its poison. -/
structure LineData where
  data   : List Byte
  poison : Bool
  deriving DecidableEq, Repr

/-- A line that stands under the identifier of the request for it (R383). -/
structure LineId where
  id : OpId
  pa : Nat
  deriving DecidableEq, Repr

/-- The traffic class (R354) and the identifier (R383) of a line request or write-back. -/
structure LineTag where
  tc : BitVec 2
  id : OpId
  deriving DecidableEq, Repr

/-- The fields of R285 by which an operation is ordered, classed and relayed: `ORD`, `TC`, `SRC`, `DST` and `HOP`. -/
structure Envelope where
  ord : Bool
  tc  : BitVec 2
  src : Nat
  dst : Nat
  hop : Nat
  deriving DecidableEq, Repr

/-- A get or a put that reaches a Grout home (R285, R406): `en` are the byte enables of a write. -/
structure HomeOp where
  src    : Src
  id     : OpId
  env    : Envelope
  pa     : Nat
  data   : List Byte
  en     : List Bool
  poison : Marks
  deriving DecidableEq, Repr

/-- An atomic that reaches a Grout home (R285, R406, R409). -/
structure Atomic where
  src       : Src
  id        : OpId
  env       : Envelope
  pa        : Nat
  size      : Nat
  operand   : List Byte
  comparand : List Byte
  fetching  : Bool
  poison    : Marks
  deriving DecidableEq, Repr

/-- For whom a probe is sent: a requester agent under the identifier of its request, or the home itself (R366, R383), with the traffic
class of the request (R354). -/
inductive ProbeFor where
  | home (tc : BitVec 2)
  | agent (n : Nat) (id : OpId) (tc : BitVec 2)
  deriving DecidableEq, Repr

/-- Answer to a probe (R366). -/
inductive Answer where
  | clean | miss | evicting | forwarded | toHome
  deriving DecidableEq, Repr

/-- Line states of a caching agent (R363). -/
inductive LState where
  | m | o | e | s | i
  deriving DecidableEq, Repr

/-- What the completion of a request says: the state granted, and whether the data comes from an owner (R368), under the identifier of
the request. -/
structure Granted where
  grant     : LState
  fromOwner : Bool
  id        : OpId
  deriving DecidableEq, Repr

/-- The thresholds of `BND_SEC_CTL` by which the securing engine assigns tensors (R592, R605). -/
structure SecLimits where
  dense     : BitVec 8
  smallLog2 : BitVec 8
  deriving DecidableEq, Repr

/-- CXL.cache state of the block for a host line (R379). -/
inductive HState where
  | i | s | e | m
  deriving DecidableEq, Repr

/-- The host's back-invalidate response (R380). -/
inductive BiAnswer where
  | i | s
  deriving DecidableEq, Repr

/-- The snoop that a host read over CXL.mem asks for (R380): none of the line's states changes, the host gets a shared copy, or it gets
the only copy. -/
inductive MemSnp where
  | cur | data | inv
  deriving DecidableEq, Repr

/-- The host's state of a line of device memory (R380): invalid, shared, or any. -/
inductive MemState where
  | i | s | a
  deriving DecidableEq, Repr

/-- What the outer code finds when a stack read returns (R423). The poison pattern itself stands in the stack. -/
inductive ReadOutcome where
  | clean
  | corrected (symbols : Nat)
  | uncorrectable
  deriving DecidableEq, Repr

/-- What a stack shows when it is trained (R414 to R416): height and density codes of R439, metadata support, the
highest rate code that it supports, and for each rate code the channels that fail training. -/
structure StackInfo where
  height   : BitVec 2
  density  : BitVec 2
  metadata : Bool
  maxRate  : Nat
  failing  : List (Nat × Word32)
  deriving DecidableEq, Repr

/-- Place of a DRAM row (R443, R444). -/
structure DramPlace where
  channel : BitVec 5
  pc      : BitVec 1
  bank    : BitVec 4
  row     : BitVec 18
  column  : BitVec 6
  deriving DecidableEq, Repr

/-- Permissions of a translation (R454). -/
structure Perm where
  r : Bool
  w : Bool
  x : Bool
  deriving DecidableEq, Repr

/-- A host translation completion (R460): success with the range in bytes, the permissions and the U bit, or a failure
(Unsupported Request or Completer Abort). -/
inductive XltResult where
  | success (phys : Nat) (range : Nat) (perm : Perm) (untranslatedOnly : Bool)
  | failure
  deriving DecidableEq, Repr

/-- A page-request response (R464, R465). -/
inductive PageResponse where
  | success | invalidRequest | responseFailure
  deriving DecidableEq, Repr

/-- What a Jegon engine places on `REQ` (the port table of file 01, R338, R475). -/
inductive JegonKind where
  | shareRd
  | ownRd
  | writeBack (data : List Byte)
  | get (len : Nat)
  | put (data : List Byte)
  | atomic (gop : Nat) (size : Nat) (operand comparand : List Byte) (fetching : Bool)
  | barrier
  deriving DecidableEq, Repr

/-- A message on `REQ` of a Jegon port: its tag, the context that it acts for (R24), the address-type bit (R475), the
address, the traffic class, the ordered bit and the kind. -/
structure JegonMsg where
  tag        : Nat
  ctx        : Nat
  translated : Bool
  addr       : Nat
  tc         : BitVec 2
  ord        : Bool
  kind       : JegonKind
  deriving DecidableEq, Repr

/-- Resets that the host sends on its link (R506). -/
inductive LinkReset where
  | dlDown | hotReset | cxlReset | secondaryBusReset
  deriving DecidableEq, Repr

/-- Host configuration fields that the rules name (R452, R480, R501, R503). -/
inductive ConfigField where
  | atsEnable (b : Bool)
  | atsStu (v : Nat)
  | pasidEnable (b : Bool)
  | priDisable
  | cacheEnable (b : Bool)
  | memEnable (b : Bool)
  | viralEnable (b : Bool)
  | msixEntry (vector : Nat) (addr : Nat) (data : Word32)
  | msixMask (vector : Nat)
  deriving DecidableEq, Repr

/-- The fields of a capability frame (R563). -/
structure Capability where
  level    : Nat
  laneMask : BitVec 3
  rateMask : BitVec 3
  self     : Nat
  valid    : Bool
  port     : Nat
  deriving DecidableEq, Repr

/-- A message in a data frame of a Bond link (R285, R566): an operation or a response. -/
inductive BondMsg where
  | op (kind : OpKind) (gop : Nat) (ord : Bool) (tc : BitVec 2) (src dst hop : Nat) (offset len : Nat)
       (data comparand : List Byte) (poison : Marks) (id : OpId) (srcPort : Nat) (vc1 : Bool)
  | rsp (dst : Nat) (id : OpId) (srcPort : Nat) (status : RStatus) (data : List Byte) (poison : Marks) (vc1 : Bool)
  deriving DecidableEq, Repr

/-- A frame as the receiver sees it (R566 to R568): outcome of the CRC and of the tag, whether a failed tag is the fourth within 1 s,
`VERSION`, key of the pair, `SEQ`, `ACK`, returned credits and the messages that it carries. -/
structure Frame where
  crcOk   : Bool
  tagOk   : Bool
  fourth  : Bool
  version : Byte
  key     : Bool
  seq     : BitVec 16
  ack     : BitVec 16
  crdVc   : BitVec 4
  crdN    : Nat
  msgs    : List BondMsg
  deriving DecidableEq, Repr

/-- The outcome of keying a Bond port between two Kilns (R642): the partner's chain verifies, its measurement 3, its
`SELF`, and the export master secret of the session as a number. -/
structure Keying where
  chainOk  : Bool
  version  : Nat
  self     : Nat
  secret   : Nat
  deriving DecidableEq, Repr

/-- Level-sensitive inputs of R629, numbered as in `FLT_INPUT_STATE` (R632). -/
inductive InPin where
  | throttleReq | extStop
  | stackHot (n : Nat)
  deriving DecidableEq, Repr

/-- The partitions (file 00). -/
inductive Part where
  | course | plinth | lintel
  deriving DecidableEq, Repr

/-- What leaves a reset (R672). -/
inductive ResetUnit where
  | plinth
  | courses
  | course (c : Nat)
  | jegon (p : Nat)
  deriving DecidableEq, Repr

/-- Where an SPDM request comes from (R640). -/
inductive Transport where
  | doe
  | mctp
  | bond (port : Nat)
  deriving DecidableEq, Repr

/-- An SPDM request as the Kiln takes it: its transport, its session (0 outside a session) and its payload. -/
structure Spdm where
  transport : Transport
  session   : Nat
  payload   : List Byte
  deriving DecidableEq, Repr

/-- Straps (R34, R42). -/
structure Straps where
  feedGroup    : BitVec 6
  sbAddr       : BitVec 7
  kilnRecovery : Bool
  deriving DecidableEq, Repr

/-- Fuse values that the Kiln reads (R635, R636, R638, R702). -/
structure Fuses where
  minVersion   : Nat
  licenseeKey  : Bool
  manuf        : BitVec 11
  deviceSecret : Nat
  deriving DecidableEq, Repr

/-- A Kiln firmware image as the ROM judges it (R635): signature, security version, recovery mark, and its bytes' digest
input. -/
structure KilnImage where
  selfTest  : Bool
  signed    : Bool
  version   : Nat
  recovery  : Bool
  digest    : Nat
  deriving DecidableEq, Repr

/-- The result of a crossing test (R29): the largest count of failed signals in one group of 32, and spares in use. -/
structure CrossTest where
  worst  : Nat
  spares : Nat
  deriving DecidableEq, Repr

/-- DMI operation of the RISC-V Debug Specification (R680): no operation, read, write. -/
inductive DmiOp where
  | nop | read
  | write (v : Word32)
  deriving DecidableEq, Repr

/-- A vendor-defined TDISP message (R653). -/
inductive TdispVendor where
  | slotAssign (pasid : Nat)
  | slotRelease (slot : Nat)
  | granuleSet (first count : Nat) (entry : BitVec 16)
  | ctxCreate (ctx : Nat) (record : Nat)
  | ctxDestroy (ctx : Nat)
  deriving DecidableEq, Repr

/-- The commands of PX-1, one constructor per row of the opcode table, in the table's order. -/
inductive Instr where
  -- Tile extension (R208)
  | tdld (at_ : Site) (td : BitVec 5) (rs1 : Word64)
  | tcmd (at_ : Site) (rd : BitVec 5) (rs1 rs2 : Word64)
  | twait (at_ : Site) (rd c : BitVec 5) (rs1 : Word64)
  | tcntRd (at_ : Site) (rd c : BitVec 5)
  | tcntWr (at_ : Site) (c : BitVec 5) (rs1 : Word64)
  | ttok (at_ : Site) (rs1 : Word64)
  | tflags (at_ : Site) (rd : BitVec 5) (rs1 : Word64)
  | tbar (at_ : Site) (rd : BitVec 5)
  | terr (at_ : Site) (rd : BitVec 5)
  -- Core accesses, fences, CSRs, interrupts (files 05, 08)
  | coreLoad (at_ : Site) (enc : Encoding) (rd : Dest) (width : Width) (sext : Bool) (addr : Word64)
  | coreStore (at_ : Site) (enc : Encoding) (width : Width) (addr value : Word64)
  | coreAmo (at_ : Site) (rd : BitVec 5) (op : AmoOp) (dbl : Bool) (addr value : Word64)
  | lr (at_ : Site) (rd : BitVec 5) (dbl : Bool) (addr : Word64)
  | sc (at_ : Site) (rd : BitVec 5) (dbl : Bool) (addr value : Word64)
  | fence (at_ : Site) (pred succ : BitVec 4)
  | fenceTso (at_ : Site)
  | fenceI (at_ : Site)
  | customCsrAccess (at_ : Site) (csr : BitVec 12) (rd : BitVec 5) (wr : Option CsrWrite)
  | externalInterrupt (at_ : Site)
  | timerInterrupt (at_ : Site)
  | ntBufferIdleFlush (core line : Nat)
  | lrDeferralExpiry (core : Nat)
  | storeLateFault (at_ : Site) (addr : Word64) (status : RStatus)
  -- Unit commands of a Tile (files 02 to 07)
  | commandComplete (tile seq : Nat)
  | mma (tile seq : Nat)
  | gmma (tile seq : Nat)
  | round (tile seq : Nat)
  | add (tile seq : Nat)
  | sub (tile seq : Nat)
  | mul (tile seq : Nat)
  | fma (tile seq : Nat)
  | div (tile seq : Nat)
  | sqrt (tile seq : Nat)
  | min (tile seq : Nat)
  | max (tile seq : Nat)
  | minnum (tile seq : Nat)
  | maxnum (tile seq : Nat)
  | scaleb (tile seq : Nat)
  | rint (tile seq : Nat)
  | neg (tile seq : Nat)
  | abs (tile seq : Nat)
  | copysign (tile seq : Nat)
  | class (tile seq : Nat)
  | cmp (tile seq : Nat)
  | sel (tile seq : Nat)
  | convert (tile seq : Nat)
  | twosum (tile seq : Nat)
  | twoprod (tile seq : Nat)
  | padd (tile seq : Nat)
  | pmul (tile seq : Nat)
  | pfma (tile seq : Nat)
  | exp (tile seq : Nat)
  | exp2 (tile seq : Nat)
  | log (tile seq : Nat)
  | log2 (tile seq : Nat)
  | rcp (tile seq : Nat)
  | rsqrt (tile seq : Nat)
  | sin (tile seq : Nat)
  | cos (tile seq : Nat)
  | tanh (tile seq : Nat)
  | sigmoid (tile seq : Nat)
  | erf (tile seq : Nat)
  | rsum (tile seq : Nat)
  | rsumsq (tile seq : Nat)
  | rmax (tile seq : Nat)
  | rmin (tile seq : Nat)
  | softmax (tile seq : Nat)
  | copy (tile seq : Nat)
  | gather (tile seq : Nat)
  | scatter (tile seq : Nat)
  | scatterRed (tile seq : Nat)
  | red (tile seq : Nat)
  | amo (tile seq : Nat)
  -- Remote operations (file 07)
  | remoteResponse (rsp : Response)
  | remoteTimeout (id : OpId)
  | lintelCompletionTimeout (id : OpId)
  -- Requests at a home (files 09, 10)
  | shareRd (agent pa : Nat) (tag : LineTag)
  | ownRd (agent pa : Nat) (tag : LineTag)
  | dirtyEv (agent pa : Nat) (line : LineData) (tag : LineTag)
  | peekRd (op : HomeOp) (len : Nat)
  | pushWr (op : HomeOp)
  | gopAdd (a : Atomic)
  | gopAnd (a : Atomic)
  | gopOr (a : Atomic)
  | gopXor (a : Atomic)
  | smin (a : Atomic)
  | smax (a : Atomic)
  | umin (a : Atomic)
  | umax (a : Atomic)
  | swap (a : Atomic)
  | cas (a : Atomic)
  | fadd32 (a : Atomic)
  | fadd64 (a : Atomic)
  | fmax (a : Atomic)
  | xadd (a : Atomic)
  | bxor (a : Atomic)
  -- Probes and completions (file 09)
  | prbShare (agent pa : Nat) (for_ : ProbeFor)
  | prbTake (agent pa : Nat) (for_ : ProbeFor)
  | prbKill (agent pa : Nat) (for_ : ProbeFor)
  | prbPeek (agent pa : Nat) (for_ : ProbeFor)
  | probeAnswer (agent pa : Nat) (ans : Answer) (dirty : Bool) (data : List Byte) (poison : Bool)
  | forwardedData (agent pa : Nat) (dirty : Bool) (line : LineData) (id : OpId)
  | requestCompletion (agent pa : Nat) (done : Granted)
  | completionAck (agent pa : Nat)
  | writebackAck (agent : Nat) (line : LineId)
  | arbiterAgeExpiry (index : Nat)
  | identifierQuarantineEnd (path unit index : Nat)
  -- Host coherence (files 09, 12)
  | hostSnpInv (hpa : Nat)
  | hostSnpData (hpa : Nat)
  | hostSnpCur (hpa : Nat)
  | hostCacheResponse (line : LineId) (state : HState) (data : List Byte) (poison : Bool)
  | memRd (tag hpa : Nat) (snp : MemSnp)
  | memWr (tag hpa : Nat) (line : LineData) (en : List Bool) (keeps : MemState)
  | memSpecRd (hpa : Nat)
  | birsp (line : LineId) (ans : BiAnswer)
  | biTimeout (pa : Nat)
  -- Grout and Plinth (file 10)
  | prefetchHint (line : Nat) (tc : BitVec 2)
  | streamRunEnd (src : Src) (write : Bool) (next : Nat)
  | stackReadDone (line : LineId) (outcome : ReadOutcome) (place : DramPlace)
  | writeDrain (stack : Nat)
  | drainReadInterrupt (stack pa : Nat)
  | scrubRead (stack : Nat) (outcome : ReadOutcome) (place : DramPlace)
  | stackTempSample (stack temp : Nat) (held10ms : Bool)
  | stackChannelFail (stack channel : Nat)
  | plnNegStart (agent : RegAgent) (stack : Nat)
  | stackTrainingDone (stack : Nat) (info : StackInfo)
  | negHoldRelease (agent : RegAgent) (stack : Nat)
  | stackLive (stack : Nat) (failed : Word32)
  | hdmTopSet
  | repairGo (agent : RegAgent) (stack : Nat) (value : Word32)
  | repairDone (stack : Nat) (result : BitVec 2)
  | ieee1500Go (agent : RegAgent) (stack : Nat) (value : Word32)
  | ieee1500Done (stack : Nat) (captured : List Word32)
  | tempThresholdWrite (agent : RegAgent) (stack : Nat) (value : Word32)
  | cleanAll (agent : RegAgent) (slice : Nat)
  | flushAll (agent : RegAgent) (slice : Nat)
  | cleanRange (agent : RegAgent) (slice : Nat)
  | flushRange (agent : RegAgent) (slice : Nat)
  | maintenanceDone (slice : Nat)
  -- Translation (file 11)
  | translationCompletion (pasid va : Nat) (result : XltResult)
  | pageRequestResponse (prg : Nat) (resp : PageResponse)
  | pageRequestTimeout (prg : Nat)
  | atsInvalidateRequest (tag pasid : Nat) (global : Bool) (va len : Nat)
  | invalidateCompletion (tag : Nat)
  | priEnable
  -- Jegon ports (files 01, 11, 18)
  | jegonReq (port : Nat) (msg : JegonMsg)
  | jegonBarrier (port tag : Nat)
  | jegonSnprsp (port pa : Nat) (ans : Answer) (dirty : Bool) (data : List Byte) (poison : Bool)
  | jegonSnoopTimeout (port pa : Nat)
  | jegonXltRequest (port tag ctx va : Nat) (perm : Perm)
  | jegonInvalidateAck (port vbase : Nat)
  | jegonXltTimeout (port vbase : Nat)
  | jegonQuiesceAck (port : Nat)
  | jegonFaultReport (port : Nat) (source : BitVec 4) (level : BitVec 3) (ctx : Option Nat) (loss : Bool)
  | jegEnableWrite (agent : RegAgent) (port : Nat) (en : Bool)
  | jegReset (agent : RegAgent) (port : Nat)
  -- Host link (file 12)
  | linkTrained (width rate : Nat) (cxl flit256 : Bool)
  | linkDown
  | linkRestored
  | hostLinkReset (kind : LinkReset)
  | hostAbsentEntry
  | rearm (agent : RegAgent)
  | functionLevelReset
  | hdmDecoderCommit (base size : Nat)
  | configWrite (field : ConfigField)
  | cxlIoUnsupported (tag addr : Nat)
  | doorbellRereadDone (line : LineId) (data : List Byte) (poison : Bool)
  | doorbellPoll
  | deviceDoorbellRing (pa : Nat)
  | hodCopy (engine ring : Nat)
  | hodFill (engine ring : Nat)
  | hodReduce (engine ring : Nat)
  | hodComplete (engine ring seq : Nat)
  | irqHoldoffExpiry (vector : Nat)
  -- Contexts, rings, fences (file 13)
  | admqEnable (agent : RegAgent) (q : Nat)
  | admqDisable (agent : RegAgent) (q : Nat)
  | ctxCreate (q : Nat)
  | ctxDestroy (q : Nat)
  | ctxDestroyDone (ctx : Nat)
  | contextLossDone (ctx : Nat)
  | ringCreate (q : Nat)
  | ringDestroy (q : Nat)
  | ringDestroyDone (ring : Nat)
  | ringResume (q : Nat)
  | query (q : Nat)
  | pages (q : Nat)
  | fenceBind (q : Nat)
  | tileBind (q : Nat)
  | schedDone (q : Nat)
  | fenceWait (ring : Nat)
  | fenceWaitEvaluate (ring : Nat)
  | fenceWaitTimeout (ring : Nat)
  | fenceWaitPoll (ring : Nat)
  | schedEntry (ring : Nat)
  -- Bond links (file 14)
  | bondEnable (agent : RegAgent) (port : Nat) (value : Word32)
  | bondLanesTrained (port : Nat) (laneMask rateMask : BitVec 3)
  | capabilitySend (port : Nat)
  | capabilityFrame (port : Nat) (cap : Capability)
  | negotiationTimeout (port : Nat)
  | bondRestart (port : Nat)
  | bondKeysInstalled (port : Nat) (keying : Keying)
  | dataFrame (port : Nat) (frame : Frame)
  | heartbeatFrame (port : Nat) (frame : Frame)
  | fatalFrame (port : Nat) (frame : Frame)
  | replayTimeout (port : Nat)
  | bondRetrainDone (port : Nat) (inWindow : Bool)
  | portSilentTimeout (port : Nat)
  | heartbeatTimer (port : Nat)
  | keyNotReady (port : Nat)
  | routeWrite (agent : RegAgent) (chip : Nat) (value : Word32)
  | chipValidWrite (agent : RegAgent) (value : Word32)
  | arm (agent : RegAgent) (feedOvr : Bool) (lag : BitVec 2) (limits : SecLimits)
  | securingStop (agent : RegAgent) (value : Word32)
  | secureStep
  | restore
  | refill
  | resend
  | resync (step : Nat)
  -- Faults (file 15)
  | faultCollect (unit : Nat)
  | wiringFault (unit : Nat)
  | wiringPoll (unit : Nat)
  | fltLatchClear (agent : RegAgent) (level : Nat)
  | fltPendClear (agent : RegAgent) (word : Nat) (mask : Word32)
  | inputLevelChange (pin : InPin) (level : Bool)
  | stuckInput (pin : InPin)
  | inputMaskClear (agent : RegAgent) (mask : Word32)
  | mortarBridgeModuleLost (module : Nat)
  -- Kiln (file 16)
  | slotAssign (mb : Nat)
  | slotRelease (mb : Nat)
  | granuleSet (mb : Nat)
  | granuleChangeDone
  | certLoad (mb : Nat) (leafKey : Nat)
  | wdogPet (mb : Nat)
  | debugUnlock (mb : Nat)
  | watchdogExpiry (image : Option (List Byte)) (signed : Bool)
  | imagePost (mb : Nat) (final signed : Bool)
  | getVersion (m : Spdm)
  | getCapabilities (m : Spdm)
  | negotiateAlgorithms (m : Spdm) (version : Nat)
  | getDigests (m : Spdm)
  | getCertificate (m : Spdm) (offset len : Nat)
  | challenge (m : Spdm)
  | getMeasurements (m : Spdm) (index : Nat)
  | keyExchange (m : Spdm)
  | finish (m : Spdm) (verified : Bool)
  | heartbeat (m : Spdm)
  | keyUpdate (m : Spdm)
  | endSession (m : Spdm)
  | chunkGet (m : Spdm) (handle seq : Nat)
  | keyProg (m : Spdm) (cachemem : Bool) (key : Nat)
  | kSetGo (m : Spdm) (cachemem : Bool)
  | getTdispVersion (m : Spdm)
  | getTdispCapabilities (m : Spdm)
  | lockInterfaceRequest (m : Spdm)
  | getDeviceInterfaceReport (m : Spdm)
  | getDeviceInterfaceState (m : Spdm)
  | startInterfaceRequest (m : Spdm) (nonce : Nat)
  | stopInterfaceRequest (m : Spdm)
  | tdispVendorMessage (m : Spdm) (v : TdispVendor)
  -- Reset, clocks, power, debug (files 17, 18)
  | seal (agent : RegAgent)
  | coldReset
  | coldResetRelease (straps : Straps) (fuses : Fuses) (image : KilnImage)
  | pwrgoodRise (part : Part)
  | warm (agent : RegAgent)
  | plnRun (agent : RegAgent) (run : Bool)
  | crsRun (agent : RegAgent) (run : Bool) (tests : List (Nat × CrossTest))
  | plnReset (agent : RegAgent)
  | crsReset (agent : RegAgent)
  | courseReset (agent : RegAgent) (course : Nat)
  | resetRelease (unit : ResetUnit) (tests : List (Nat × CrossTest))
  | tileStoreClearDone (tile : Nat)
  | courseGateRequest (agent : RegAgent) (course : Nat)
  | coursePowerOff (course : Nat)
  | gatingRefused (course : Nat)
  | coursePowerOn (agent : RegAgent) (course : Nat)
  | coursePwrOk (course : Nat) (test : CrossTest)
  | clkPwrLimitWrite (agent : RegAgent) (value : Word32)
  | powerEstimate (watts stepW : Nat) (low100us steady1ms : Bool)
  | freqAck (course : Nat)
  | freqAckTimeout (course : Nat)
  | corrCapture (agent : RegAgent)
  | dmiAccess (addr : BitVec 7) (op : DmiOp)
  | dtmcsAccess (write : Option Word32)
  | idcode
  | registerWrite (agent : RegAgent) (off : Nat) (size : Nat) (value : Word64)
  | registerRead (agent : RegAgent) (off : Nat) (size : Nat)
  | msixVectorUnmask (vector : Nat)
  | jegonContextEndTimeout (port ctx : Nat)
  | nextKeyInstall (port : Nat)
  deriving DecidableEq, Repr

end Sys2Proof
end

