-- ==== Sys2Proof/Decode.lean ====
section
/-! DEFINITION. Commands as words. PX-1 is a block: the opcode table gives no row any bits (every row's `fields` is empty),
so no word spells a command. -/
namespace Sys2Proof

/-- The command that a word of the opcode table spells: none, since no row of the table has bits. -/
def decodeTableWord (_nbits _w : Nat) : Option Instr := none

end Sys2Proof
end

