-- ==== Sys2Proof/Config.lean ====
section
/-! DEFINITION. What the spec leaves open: the free values of the model. Each is a constant without a body, so that
nothing can compute it and no proof can rest on a value of it; a log entry names each one. -/
namespace Sys2Proof.Config

/-- DESIGN CHOICE (log 2): a free byte, for bytes that the spec calls undefined (R197, R494, R496). -/
opaque freeByte : Nat → Byte

/-- DESIGN CHOICE (log 3): how many cycles each clock domain counts while the block is idle; R661 assumes no ratio. -/
opaque cycles : Nat → Nat → Nat

/-- DESIGN CHOICE (log 89): the check bits that go wrong as time passes, by array and ticket: a word or entry of the array, and 1 for a
single error, 0 for none, any other value for an uncorrectable one (R173, R393). -/
opaque softError : Nat → Nat → Nat × BitVec 2

/-- DESIGN CHOICE (log 4): a free choice among several candidates, where the spec does not say which one is taken. -/
opaque pick : Nat → Nat

/-- DESIGN CHOICE (log 5): the value that a transcendental function returns, by function code, format code and
input bits (R153 to R155). The machine holds it inside the bound of R153. -/
opaque transcendental : Nat → Nat → Nat → Nat

/-- DESIGN CHOICE (log 86): the scale byte of an element that a broadcast index reaches outside its tensor, by index; R235 gives such
an index no group. -/
opaque strayScale : List Nat → Byte

/-- DESIGN CHOICE (log 6): the set of the snoop filter to which a line belongs; R374 gives no hash for it. -/
opaque filterSet : Nat → Nat

/-- DESIGN CHOICE (log 6): the age of a snoop-filter entry after a request, by its line and the ticket; R374 gives the field no update. -/
opaque filterAge : Nat → Nat → Nat

/-- DESIGN CHOICE (log 6): the set of the HDM directory to which a line belongs; R380 gives no hash for it. -/
opaque hdmSet : Nat → Nat

/-- DESIGN CHOICE (log 7): the hash that chooses a port for an unordered operation (R275). -/
opaque portHash : Nat → Nat

/-- DESIGN CHOICE (log 8): a fresh key from the entropy source, by the count of draws (R644, R642). -/
opaque freshKey : Nat → Nat

/-- DESIGN CHOICE (log 91): the bytes of a sector encrypted under AES-256-XTS, by key, tweak and plaintext (R643). -/
opaque xts : Nat → Nat → List Byte → Nat → Byte

/-- DESIGN CHOICE (log 91): what decryption under another key than that of the encryption gives, by key, tweak and ciphertext (R643,
R644). -/
opaque xtsInv : Nat → Nat → List Byte → Nat → Byte

/-- DESIGN CHOICE (log 9): the SHA-384 digest of a string of bytes, as a number (R637). -/
opaque sha384 : List Byte → Nat

/-- DESIGN CHOICE (log 9): the key that HKDF derives from its inputs (R638, R642). -/
opaque hkdf : Nat → List Nat → Nat

/-- DESIGN CHOICE (log 10): the bytes of an SPDM or TDISP answer whose contents file 16 does not lay down, by request
code and count of answers. -/
opaque answerBytes : Nat → Nat → List Byte

end Sys2Proof.Config
end

