-- ==== Sys2Proof/Machine/Flags.lean ====
section
/-! DEFINITION. Numbers and flags (file 02): the formats of R46, exact values, rounding and the sticky flags that it
raises, conversions. -/
namespace Sys2Proof.Machine

/-! ## Sticky flags (R72) -/

/-- Flags of R72, as an 8-bit word. -/
abbrev Flags := BitVec 8

def flagNX : Flags := 0x01
def flagUF : Flags := 0x02
def flagOF : Flags := 0x04
def flagDZ : Flags := 0x08
def flagNV : Flags := 0x10
def flagSAT : Flags := 0x20
def flagNANZ : Flags := 0x40

/-- `f` where the condition holds, otherwise no flag. -/
def flagIf (b : Bool) (f : Flags) : Flags := if b then f else 0

/-! ## Exact values -/

/-- A value that a code of a floating-point format stands for. A NaN keeps its sign, whether it is signalling, and its
payload below the quiet bit, aligned to the 51 bits of binary64. `fin s m e` is (-1)^s x m x 2^e; `m` = 0 is the zero of
sign `s`. -/
inductive FVal where
  | nan (sign sig : Bool) (payload : Nat)
  | inf (sign : Bool)
  | fin (sign : Bool) (mant : Nat) (exp : Int)
  deriving DecidableEq, Repr

/-- The quiet NaN without sign or payload. -/
def qnan : FVal := .nan false false 0

def FVal.isNan : FVal → Bool
  | .nan _ _ _ => true
  | _ => false

def FVal.isSig : FVal → Bool
  | .nan _ g _ => g
  | _ => false

def FVal.isInf : FVal → Bool
  | .inf _ => true
  | _ => false

def FVal.isZero : FVal → Bool
  | .fin _ 0 _ => true
  | _ => false

def FVal.isFin : FVal → Bool
  | .fin _ _ _ => true
  | _ => false

def FVal.sign : FVal → Bool
  | .nan s _ _ => s
  | .inf s => s
  | .fin s _ _ => s

/-- The value with its sign set. -/
def FVal.withSign (s : Bool) : FVal → FVal
  | .nan _ g p => .nan s g p
  | .inf _ => .inf s
  | .fin _ m e => .fin s m e

/-- The quieted value: a NaN keeps its sign and payload (R93). -/
def FVal.quiet : FVal → FVal
  | .nan s _ p => .nan s false p
  | v => v

/-! ## Formats (R46 to R56) -/

def fmtFB4 : Nat := 0x1
def fmtFB6 : Nat := 0x2
def fmtFB8e : Nat := 0x3
def fmtFB8r : Nat := 0x4
def fmtFB16 : Nat := 0x5
def fmtB16 : Nat := 0x6
def fmtB32 : Nat := 0x7
def fmtB64 : Nat := 0x8
def fmtPair : Nat := 0x9
def fmtI32 : Nat := 0xA
def fmtI64 : Nat := 0xB

/-- Element width in bits (R46); 0 for a reserved code. -/
def fmtWidth : Nat → Nat
  | 1 => 4 | 2 => 6 | 3 => 8 | 4 => 8 | 5 => 16 | 6 => 16 | 7 => 32 | 8 => 64 | 9 => 64 | 10 => 32 | 11 => 64
  | _ => 0

/-- Mantissa bits. -/
def fmtM : Nat → Nat
  | 1 => 1 | 2 => 2 | 3 => 3 | 4 => 2 | 5 => 7 | 6 => 10 | 7 => 23 | 8 => 52
  | _ => 0

/-- Exponent bits. -/
def fmtE : Nat → Nat
  | 1 => 2 | 2 => 3 | 3 => 4 | 4 => 5 | 5 => 8 | 6 => 5 | 7 => 8 | 8 => 11
  | _ => 0

/-- Exponent bias. -/
def fmtBias : Nat → Nat
  | 1 => 1 | 2 => 3 | 3 => 7 | 4 => 15 | 5 => 127 | 6 => 15 | 7 => 127 | 8 => 1023
  | _ => 0

/-- Whether the format has infinities (R50 to R55). -/
def fmtHasInf (f : Nat) : Bool := 4 ≤ f && f ≤ 8

/-- Whether the format has NaNs. -/
def fmtHasNan (f : Nat) : Bool := 3 ≤ f && f ≤ 8

/-- The code of the largest finite value ("Limits of every format"). -/
def fmtMaxCode (f : Nat) : Nat :=
  if fmtHasInf f then (2 ^ fmtE f - 1) * 2 ^ fmtM f - 1 else 2 ^ (fmtWidth f - 1) - 1

/-- The smallest normal exponent. -/
def fmtEmin (f : Nat) : Int := 1 - (fmtBias f : Int)

/-- The sign bit of a format. -/
def signCode (f : Nat) (s : Bool) : Nat := if s then 2 ^ (fmtWidth f - 1) else 0

/-- The format is one of the eight floating-point formats. -/
def fmtIsFloat (f : Nat) : Bool := 1 ≤ f && f ≤ 8

def fmtIsInt (f : Nat) : Bool := f == 10 || f == 11

/-- The code names a format (R46, R47). -/
def fmtValid (f : Nat) : Bool := 1 ≤ f && f ≤ 11

/-- FB4, FB6, FB8e, FB8r: the formats that may carry FBS (R46). -/
def fmtScalable (f : Nat) : Bool := 1 ≤ f && f ≤ 4

/-- Tensor-output formats of R46 outside the binary64 chain. -/
def fmtTensorOut (f : Nat) : Bool := (3 ≤ f && f ≤ 7) || f == 9

/-- The value of a code of one of the eight floating-point formats (R48 to R56). -/
def decodeFloat (f code : Nat) : FVal :=
  let m := code % 2 ^ fmtM f
  let e := code / 2 ^ fmtM f % 2 ^ fmtE f
  let s := code / 2 ^ (fmtWidth f - 1) % 2 == 1
  if f == fmtFB8e && code % 256 == 0x80 then qnan
  else if fmtHasInf f && e == 2 ^ fmtE f - 1 then
    if m == 0 then .inf s
    else
      let q := m / 2 ^ (fmtM f - 1) == 1
      .nan s (!q) (m % 2 ^ (fmtM f - 1) * 2 ^ (52 - fmtM f))
  else if e == 0 then .fin s m (fmtEmin f - fmtM f)
  else .fin s (2 ^ fmtM f + m) ((e : Int) - fmtBias f - fmtM f)

/-! ## Exact arithmetic -/

/-- The signed integer `mant` of a finite value at exponent `e0`, for `e0` at most its exponent. -/
def alignTo (s : Bool) (m : Nat) (e e0 : Int) : Int :=
  let n : Int := m * 2 ^ (e - e0).toNat
  if s then -n else n

/-- A finite value from a signed integer; `zs` is the sign of a zero. -/
def finOf (n : Int) (e : Int) (zs : Bool) : FVal :=
  if n = 0 then .fin zs 0 0 else .fin (decide (n < 0)) n.natAbs e

/-- The exact sum of two finite values; an exact zero sum has sign `zs` unless both addends are zeros of one sign. -/
def addFin (s1 : Bool) (m1 : Nat) (e1 : Int) (s2 : Bool) (m2 : Nat) (e2 : Int) (zs : Bool) : FVal :=
  if m1 = 0 ∧ m2 = 0 then .fin (if s1 = s2 then s1 else zs) 0 0
  else if m1 = 0 then .fin s2 m2 e2
  else if m2 = 0 then .fin s1 m1 e1
  else
    let e0 := min e1 e2
    finOf (alignTo s1 m1 e1 e0 + alignTo s2 m2 e2 e0) e0 zs

/-- The difference of two finite values as an exact value, zero positive. -/
def subVal : FVal → FVal → FVal
  | .fin s1 m1 e1, .fin s2 m2 e2 => addFin s1 m1 e1 (!s2) m2 e2 false
  | _, _ => qnan

/-- Compares the magnitudes m1 x 2^e1 and m2 x 2^e2. -/
def cmpMag (m1 : Nat) (e1 : Int) (m2 : Nat) (e2 : Int) : Ordering :=
  let e0 := min e1 e2
  compare (m1 * 2 ^ (e1 - e0).toNat) (m2 * 2 ^ (e2 - e0).toNat)

/-! ## Rounding (R65 to R71) -/

/-- Rounding modes of R65. -/
def rmRNE : Nat := 0
def rmRTZ : Nat := 1
def rmRDN : Nat := 2
def rmRUP : Nat := 3
def rmSR : Nat := 4

/-- Rounds the magnitude m x 2^(-sh) to an integer in a mode; `u` is the random number of R69. Answers the rounded integer
and whether it is exact. -/
def roundShift (mode u : Nat) (s : Bool) (m sh : Nat) : Nat × Bool :=
  let n := m / 2 ^ sh
  let r := m % 2 ^ sh
  if r = 0 then (n, true)
  else
    let up : Bool :=
      if mode = rmRNE then
        decide (2 ^ sh < 2 * r) || (decide (2 * r = 2 ^ sh) && decide (n % 2 = 1))
      else if mode = rmRTZ then false
      else if mode = rmRDN then s
      else if mode = rmRUP then !s
      else decide (2 ^ 24 ≤ r * 2 ^ 24 / 2 ^ sh + u)
    (if up then n + 1 else n, false)

/-- Floor of the binary logarithm of m x 2^e, for m > 0. -/
def exponentOf (m : Nat) (e : Int) : Int := e + (Nat.log2 m : Int)

/-- Rounds m x 2^e to a multiple of 2^q. -/
def roundAt (mode u : Nat) (s : Bool) (m : Nat) (e q : Int) : Nat × Bool :=
  if q ≤ e then (m * 2 ^ (e - q).toNat, true) else roundShift mode u s m (q - e).toNat

/-- The code and flags of an overflow (R78). -/
def overflowCode (f mode : Nat) (s : Bool) : Nat × Flags :=
  let toInf : Bool :=
    fmtHasInf f && (mode = rmRNE || mode = rmSR || (mode = rmRUP && !s) || (mode = rmRDN && s))
  let c := if toInf then fmtMaxCode f + 1 else fmtMaxCode f
  (signCode f s + c, flagOF ||| flagNX ||| flagIf (!fmtHasInf f) flagSAT)

/-- The zero of a format: FB8e has one zero (R80). -/
def zeroCode (f : Nat) (s : Bool) : Nat := if f = fmtFB8e then 0 else signCode f s

/-- Rounds a finite nonzero magnitude m x 2^e into a floating-point format (R77 to R79). -/
def roundFin (f mode u : Nat) (s : Bool) (m : Nat) (e : Int) : Nat × Flags :=
  let ex := exponentOf m e
  let q := max ex (fmtEmin f) - fmtM f
  let (n, exact) := roundAt mode u s m e q
  let code := (q + fmtM f - fmtEmin f).toNat * 2 ^ fmtM f + n
  let ovf := decide (fmtMaxCode f < code) ||
    (mode = rmSR && decide (fmtMaxCode f ≤ code) &&
      (match decodeFloat f (fmtMaxCode f) with
       | .fin _ mm me => cmpMag mm me m e = .lt
       | _ => false))
  if ovf then overflowCode f mode s
  else
    let tiny := decide (ex < fmtEmin f) &&
      (let (n', _) := roundAt mode u s m e (ex - fmtM f)
       cmpMag n' (ex - fmtM f) 1 (fmtEmin f) = .lt)
    let c := if n = 0 then zeroCode f s else signCode f s + code
    (c, flagIf (!exact) flagNX ||| flagIf (!exact && tiny) flagUF)

/-- The canonical quiet NaN of a format with NaNs (R56). -/
def canonNan (f : Nat) : Nat :=
  if f = fmtFB8e then 0x80 else (2 ^ fmtE f - 1) * 2 ^ fmtM f + 2 ^ (fmtM f - 1)

/-- Converts a value into one of the eight floating-point formats without FBS (R77 to R83). -/
def encodeFloat (f mode u : Nat) : FVal → Nat × Flags
  | .nan s g p =>
    if f = fmtFB4 || f = fmtFB6 then (0, flagNV ||| flagNANZ)
    else if f = fmtFB8e then (0x80, flagIf g flagNV)
    else (signCode f s + (2 ^ fmtE f - 1) * 2 ^ fmtM f + 2 ^ (fmtM f - 1) + p / 2 ^ (52 - fmtM f), flagIf g flagNV)
  | .inf s =>
    if fmtHasInf f then (signCode f s + fmtMaxCode f + 1, 0)
    else (signCode f s + fmtMaxCode f, flagOF ||| flagNX ||| flagSAT)
  | .fin s 0 _ => (zeroCode f s, 0)
  | .fin s m e => roundFin f mode u s m e

/-- RN: rounds a value into binary32, to nearest even. -/
def rn32 (v : FVal) : FVal := decodeFloat fmtB32 (encodeFloat fmtB32 rmRNE 0 v).1

/-! ## Pairs (R63, R64) -/

/-- A pair code from its parts: hi lies at the lower address. -/
def pairCode (hi lo : Nat) : Nat := hi + lo * 2 ^ 32

/-- The value of a pair, and the flags that reading it as a value raises (R63). The sum of two zeros is negative only
when both are, and parts that cancel give +0 in every rounding mode (DEDUCED, log 11). -/
def decodePair (code : Nat) : FVal × Flags :=
  let hi := decodeFloat fmtB32 (code % 2 ^ 32)
  let lo := decodeFloat fmtB32 (code / 2 ^ 32 % 2 ^ 32)
  match hi, lo with
  | .nan _ _ _, _ => (hi, 0)
  | _, .nan _ _ _ => (lo, 0)
  | .inf s, .inf t => if s = t then (.inf s, 0) else (qnan, flagNV)
  | .inf s, _ => (.inf s, 0)
  | _, .inf t => (.inf t, 0)
  | .fin s1 m1 e1, .fin s2 m2 e2 => (addFin s1 m1 e1 s2 m2 e2 false, 0)

/-- Writes a value as a pair (R64, R109): `hi` rounded to nearest even, `lo` the rounded rest; flags of `hi`. -/
def encodePair (v : FVal) : Nat × Flags :=
  let (hi, fl) := encodeFloat fmtB32 rmRNE 0 v
  match v, decodeFloat fmtB32 hi with
  | .fin s m e, .fin s' m' e' =>
    (pairCode hi (encodeFloat fmtB32 rmRNE 0 (subVal (.fin s m e) (.fin s' m' e'))).1, fl)
  | _, _ => (pairCode hi 0, fl)

/-! ## Integers (R85, R86, R704) -/

/-- Bits of an integer format. -/
def intBits (f : Nat) : Nat := fmtWidth f

/-- The integer that a code of INT32 or INT64 stands for. -/
def decodeInt (f code : Nat) : Int :=
  let w := intBits f
  let c := code % 2 ^ w
  if 2 ^ (w - 1) ≤ c then (c : Int) - 2 ^ w else c

/-- The code of an integer, saturated to the format, and `NV` where it lies outside (R85, R704). -/
def encodeInt (f : Nat) (n : Int) : Nat × Flags :=
  let w := intBits f
  if n < -(2 ^ (w - 1)) then (2 ^ (w - 1), flagNV)
  else if 2 ^ (w - 1) ≤ n then (2 ^ (w - 1) - 1, flagNV)
  else ((n % 2 ^ w).toNat, 0)

/-- Rounds a finite value to an integer. -/
def roundToInt (mode : Nat) (s : Bool) (m : Nat) (e : Int) : Int × Bool :=
  let (n, exact) := roundAt mode 0 s m e 0
  (if s then -(n : Int) else n, exact)

/-- Converts a floating-point value to an integer format (R85). -/
def floatToInt (f mode : Nat) : FVal → Nat × Flags
  | .nan _ _ _ => (0, flagNV)
  | .inf s => encodeInt f (if s then -(2 ^ 64) else 2 ^ 64)
  | .fin s m e => encodeInt f (roundToInt mode s m e).1

/-- The value of a code of any format of R46, and the flags that reading it raises. -/
def decodeAny (f code : Nat) : FVal × Flags :=
  if f = fmtPair then decodePair code
  else if fmtIsInt f then
    let n := decodeInt f code
    (.fin (decide (n < 0)) n.natAbs 0, 0)
  else (decodeFloat f code, 0)

/-- Converts a code of any format of R46 into any other without FBS (R77 to R86, R704). A pair that is converted to a pair
is taken by its value (DEDUCED, log 11). -/
def convertCode (src dst mode u code : Nat) : Nat × Flags :=
  if fmtIsInt src && fmtIsInt dst then encodeInt dst (decodeInt src code)
  else
    let (v, fl) := decodeAny src code
    let (c, fl') :=
      if dst = fmtPair then encodePair v
      else if fmtIsInt dst then floatToInt dst mode v
      else encodeFloat dst mode u v
    (c, fl ||| fl')

/-! ## Block scales (R57 to R59, R87 to R89) -/

/-- The value of a scaled element (R58, R101). -/
def scaleVal (fbs : Nat) (v : FVal) : FVal :=
  if fbs = 0xFF then qnan
  else match v with
    | .fin s m e => .fin s m (e + fbs - 127)
    | w => w

/-- The smallest integer k with m x 2^e at most M x 2^k, where M is the largest finite value of the format (R87). -/
def scaleExp (f m : Nat) (e : Int) : Int :=
  match decodeFloat f (fmtMaxCode f) with
  | .fin _ mm me =>
    let k0 := exponentOf m e - exponentOf mm me
    if cmpMag m e mm (me + k0) = .gt then k0 + 1 else k0
  | _ => 0

/-- The larger of two magnitudes. -/
def maxMag (a b : Nat × Int) : Nat × Int := if cmpMag a.1 a.2 b.1 b.2 = .lt then b else a

/-- The FBS code and the flags of a group of values (R87 to R89). -/
def groupScale (f : Nat) (vs : List FVal) : Nat × Flags :=
  if vs.any (fun v => !v.isFin) then
    (0xFF, flagIf (vs.any (fun v => v.isInf || v.isSig)) flagNV)
  else
    let amax := vs.foldl (fun a v => match v with | .fin _ m e => maxMag a (m, e) | _ => a) (0, 0)
    if amax.1 = 0 then (0x7F, 0)
    else ((max (-127) (min 127 (scaleExp f amax.1 amax.2)) + 127).toNat, 0)

/-- An element of a scaled group (R87, R89). -/
def encodeScaled (f mode u fbs : Nat) (v : FVal) : Nat × Flags :=
  if fbs = 0xFF then (0, 0)
  else match v with
    | .fin s m e => encodeFloat f mode u (.fin s m (e - ((fbs : Int) - 127)))
    | w => encodeFloat f mode u w

/-! ## The stochastic hash (R110) -/

def mix (z : Word64) : Word64 :=
  let z := (z ^^^ (z >>> 30)) * 0xBF58476D1CE4E5B9
  let z := (z ^^^ (z >>> 27)) * 0x94D049BB133111EB
  z ^^^ (z >>> 31)

/-- The random number of an element: seed and indices from dimension 0 up (R69, R110). -/
def srBits (seed : Word64) (ix : List Nat) : Nat :=
  let h := mix (seed ^^^ BitVec.ofNat 64 ix.length)
  let h := ix.foldl (fun h i => mix (h + 0x9E3779B97F4A7C15 + BitVec.ofNat 64 i)) h
  (h >>> 40).toNat % 2 ^ 24

end Sys2Proof.Machine
end

