-- ==== Sys2Proof/Machine/Arith.lean ====
section
/-! DEFINITION. Arithmetic on numbers (files 02, 03, 04): the operations of R90, pairs, the transcendental functions and the
exact sum with its records. -/
namespace Sys2Proof.Machine

/-! ## Operations of R90 -/

/-- The first NaN operand, quieted, and `NV` where an operand is signalling (R93). -/
def firstNan (vs : List FVal) : Option (FVal × Flags) :=
  match vs.find? FVal.isNan with
  | some v => some (v.quiet, flagIf (vs.any FVal.isSig) flagNV)
  | none => none

/-- The result of an invalid operation (R92). -/
def invalid : FVal × Flags := (qnan, flagNV)

/-- a + b as an exact value. -/
def addVal (mode : Nat) (a b : FVal) : FVal × Flags :=
  match firstNan [a, b] with
  | some r => r
  | none =>
    match a, b with
    | .inf s, .inf t => if s = t then (.inf s, 0) else invalid
    | .inf s, _ => (.inf s, 0)
    | _, .inf t => (.inf t, 0)
    | .fin s1 m1 e1, .fin s2 m2 e2 => (addFin s1 m1 e1 s2 m2 e2 (mode == rmRDN), 0)
    | _, _ => invalid

/-- The value with its sign changed. A NaN keeps its sign: a subtraction hands the NaN itself on (R93). -/
def negNum : FVal → FVal
  | .inf s => .inf (!s)
  | .fin s m e => .fin (!s) m e
  | v => v

/-- a x b as an exact value. -/
def mulVal (a b : FVal) : FVal × Flags :=
  match firstNan [a, b] with
  | some r => r
  | none =>
    let s := a.sign != b.sign
    match a, b with
    | .fin _ m1 e1, .fin _ m2 e2 => (.fin s (m1 * m2) (e1 + e2), 0)
    | _, _ => if a.isZero || b.isZero then invalid else (.inf s, 0)

/-- a x b is an infinity times a zero. -/
def infTimesZero (a b : FVal) : Bool := (a.isInf && b.isZero) || (a.isZero && b.isInf)

/-- a x b + c as an exact value; `ops` is the operand order for R93 (R129, R705). -/
def fmaVal (mode : Nat) (ops : List FVal) (a b c : FVal) : FVal × Flags :=
  match firstNan ops with
  | some (v, fl) => (v, fl ||| flagIf (infTimesZero a b) flagNV)
  | none =>
    let (p, fl) := mulVal a b
    if p.isNan then (p, fl) else addVal mode p c

/-- a / b, with a sticky low bit where it is inexact. -/
def divVal (a b : FVal) : FVal × Flags :=
  match firstNan [a, b] with
  | some r => r
  | none =>
    let s := a.sign != b.sign
    match a, b with
    | .inf _, .inf _ => invalid
    | .inf _, _ => (.inf s, 0)
    | _, .inf _ => (.fin s 0 0, 0)
    | .fin _ m1 e1, .fin _ m2 e2 =>
      if m2 = 0 then (if m1 = 0 then invalid else (.inf s, flagDZ))
      else if m1 = 0 then (.fin s 0 0, 0)
      else
        let sh := 160 + Nat.log2 m2
        let n := m1 * 2 ^ sh
        (.fin s (2 * (n / m2) + (if n % m2 = 0 then 0 else 1)) (e1 - e2 - (sh : Int) - 1), 0)
    | _, _ => invalid

/-- The integer square root of n, for a root below 2^bits. -/
def isqrt (bits n : Nat) : Nat :=
  (List.range bits).foldr (fun i (acc : Nat × Nat) =>
    -- `acc` holds the bit index from the top and the root so far
    let r := acc.2 + 2 ^ acc.1
    let _ := i
    (acc.1 - 1, if r * r ≤ n then r else acc.2)) (bits - 1, 0) |>.2

/-- The square root, with a sticky low bit where it is inexact. -/
def sqrtVal (a : FVal) : FVal × Flags :=
  match firstNan [a] with
  | some r => r
  | none =>
    match a with
    | .fin _ 0 _ => (a, 0)
    | .fin false m e =>
      let sh : Nat := if (e - 240) % 2 = 0 then 240 else 241
      let n := m * 2 ^ sh
      let r := isqrt 152 n
      (.fin false (2 * r + (if r * r = n then 0 else 1)) ((e - (sh : Int)) / 2 - 1), 0)
    | .inf false => (a, 0)
    | _ => invalid

/-- Numeric order of two values that are not NaNs. -/
def cmpVal : FVal → FVal → Ordering
  | .inf s, .inf t => if s = t then .eq else if s then .lt else .gt
  | .inf s, _ => if s then .lt else .gt
  | _, .inf t => if t then .gt else .lt
  | .fin s1 m1 e1, .fin s2 m2 e2 =>
    let e0 := min e1 e2
    compare (alignTo s1 m1 e1 e0) (alignTo s2 m2 e2 e0)
  | _, _ => .eq

/-- a counts below b, with -0 below +0. -/
def belowVal (a b : FVal) : Bool :=
  match cmpVal a b with
  | .lt => true
  | .eq => a.sign && !b.sign
  | .gt => false

/-- IEEE minimum (`lt` true) and maximum. -/
def minMaxVal (lt : Bool) (a b : FVal) : FVal × Flags :=
  match firstNan [a, b] with
  | some r => r
  | none => (if belowVal a b = lt then a else b, 0)

/-- IEEE minimumNumber and maximumNumber: a number wins over a NaN (DEDUCED, log 12). -/
def minMaxNumVal (lt : Bool) (a b : FVal) : FVal × Flags :=
  let fl := flagIf (a.isSig || b.isSig) flagNV
  if a.isNan && b.isNan then (a.quiet, fl)
  else if a.isNan then (b, fl)
  else if b.isNan then (a, fl)
  else (if belowVal a b = lt then a else b, fl)

/-- `SCALEB` (R706). -/
def scalebVal (a b : FVal) : FVal × Flags :=
  match firstNan [a, b] with
  | some r => r
  | none =>
    let n : Int := match b with
      | .inf s => if s then -8192 else 8192
      | .fin s m e => max (-8192) (min 8192 (roundToInt rmRTZ s m e).1)
      | _ => 0
    match a with
    | .fin s m e => (.fin s m (if m = 0 then e else e + n), 0)
    | _ => (a, 0)

/-- `RINT`: a zero result keeps the sign of the operand; no `NX`. -/
def rintVal (mode : Nat) (a : FVal) : FVal × Flags :=
  match firstNan [a] with
  | some r => r
  | none =>
    match a with
    | .fin s m e => (.fin s (roundToInt mode s m e).1.natAbs 0, 0)
    | _ => (a, 0)

/-- The class number of R142. -/
def classNum (f : Nat) (a : FVal) : Nat :=
  match a with
  | .nan _ g _ => if g then 0 else 1
  | .inf s => if s then 2 else 9
  | .fin s m _ =>
    if m = 0 then (if s then 5 else 6)
    else if m < 2 ^ fmtM f then (if s then 4 else 7)
    else (if s then 3 else 8)

/-- The predicates of R141. -/
def cmpPred (pred : Nat) (a b : FVal) : Bool × Flags :=
  let un := a.isNan || b.isNan
  let signaling := 2 ≤ pred && pred ≤ 5
  let fl := flagIf (if signaling then un else a.isSig || b.isSig) flagNV
  let r : Bool :=
    if un then pred == 1 || pred == 6
    else
      let o := cmpVal a b
      match pred with
      | 0 => o == .eq
      | 1 => o != .eq
      | 2 => o == .lt
      | 3 => o != .gt
      | 4 => o == .gt
      | 5 => o != .lt
      | _ => false
  (r, fl)

/-- The number 1 in a format. -/
def one : FVal := .fin false 1 0

/-- Rounds the exact result of an operation into its format and adds its flags. -/
def finish (f mode u : Nat) (r : FVal × Flags) : Nat × Flags :=
  let (c, fl) := encodeFloat f mode u r.1
  (c, r.2 ||| fl)

/-! ## Pairs (R144 to R150) -/

/-- Error-free sum (R144): RN of the sum and the rounding error. -/
def twoSum (a b : FVal) : FVal × FVal :=
  let v := (addVal rmRNE a b).1
  let hi := rn32 v
  (hi, if hi.isFin then rn32 (subVal v hi) else .fin false 0 0)

/-- Error-free product (R145). -/
def twoProd (a b : FVal) : FVal × FVal :=
  let v := (mulVal a b).1
  let hi := rn32 v
  (hi, if hi.isFin then rn32 (subVal v hi) else .fin false 0 0)

/-- The binary32 code of a value that binary32 represents. -/
def code32 (v : FVal) : Nat := (encodeFloat fmtB32 rmRNE 0 v).1

/-- `TWOSUM` on two binary32 codes (R144, R146). -/
def twosumCode (a b : Nat) : Nat × Flags :=
  let x := decodeFloat fmtB32 a
  let y := decodeFloat fmtB32 b
  let (h, lo) := twoSum x y
  (pairCode (code32 h) (code32 lo), if h.isFin then 0 else (finish fmtB32 rmRNE 0 (addVal rmRNE x y)).2)

/-- `TWOPROD` on two binary32 codes (R145, R146). -/
def twoprodCode (a b : Nat) : Nat × Flags :=
  let x := decodeFloat fmtB32 a
  let y := decodeFloat fmtB32 b
  let v := (mulVal x y).1
  let (h, lo) := twoProd x y
  let fl :=
    if h.isFin then flagIf (!(subVal (subVal v h) lo).isZero) (flagUF ||| flagNX)
    else (finish fmtB32 rmRNE 0 (mulVal x y)).2
  (pairCode (code32 h) (code32 lo), fl)

/-- RN of a sum, in a pair operation. -/
def rnAdd (a b : FVal) : FVal := rn32 (addVal rmRNE a b).1

/-- `padd` of R149, with every intermediate value. -/
def paddSteps (xh xl yh yl : FVal) : List FVal :=
  let (sh, sl) := twoSum xh yh
  let (th, tl) := twoSum xl yl
  let c := rnAdd sl th
  let (vh, vl) := twoSum sh c
  let w := rnAdd tl vl
  let (zh, zl) := twoSum vh w
  [zh, zl, w, vh, vl, c, th, tl, sh, sl]

/-- `pmul` of R149, with every intermediate value. -/
def pmulSteps (xh xl yh yl : FVal) : List FVal :=
  let (ch, cl1) := twoProd xh yh
  let t0 := rn32 (mulVal xl yl).1
  let t1 := rn32 (fmaVal rmRNE [xh, yl, t0] xh yl t0).1
  let cl2 := rn32 (fmaVal rmRNE [xl, yh, t1] xl yh t1).1
  let cl3 := rnAdd cl1 cl2
  let (zh, zl) := twoSum ch cl3
  [zh, zl, cl3, cl2, t1, t0, ch, cl1]

/-- The parts of a pair source: a binary32 source is (b, +0) (R147). -/
def pairParts (f code : Nat) : FVal × FVal :=
  if f = fmtPair then (decodeFloat fmtB32 (code % 2 ^ 32), decodeFloat fmtB32 (code / 2 ^ 32 % 2 ^ 32))
  else (decodeFloat fmtB32 code, .fin false 0 0)

/-- A pair source as R150 takes it: its hi part when both parts are finite, otherwise its value. -/
def pairAs32 (f code : Nat) : FVal × Flags :=
  let (h, l) := pairParts f code
  if h.isFin && l.isFin then (h, 0) else if f = fmtPair then decodePair code else (h, 0)

/-- The result of a pair operation: the steps' pair where every value is finite, otherwise (h, +0) of R150. -/
def pairResult (srcs steps : List FVal) (h : FVal × Flags) (reads : Flags) : Nat × Flags :=
  if srcs.all FVal.isFin && steps.all FVal.isFin then
    match steps with
    | zh :: zl :: _ => (pairCode (code32 zh) (code32 zl), 0)
    | _ => (0, 0)
  else
    let (c, fl) := finish fmtB32 rmRNE 0 h
    (pairCode c 0, fl ||| reads)

/-- `PADD` (R149, R150). -/
def paddCode (fa a fb b : Nat) : Nat × Flags :=
  let (xh, xl) := pairParts fa a
  let (yh, yl) := pairParts fb b
  let (va, ra) := pairAs32 fa a
  let (vb, rb) := pairAs32 fb b
  pairResult [xh, xl, yh, yl] (paddSteps xh xl yh yl) (addVal rmRNE va vb) (ra ||| rb)

/-- `PMUL` (R149, R150). -/
def pmulCode (fa a fb b : Nat) : Nat × Flags :=
  let (xh, xl) := pairParts fa a
  let (yh, yl) := pairParts fb b
  let (va, ra) := pairAs32 fa a
  let (vb, rb) := pairAs32 fb b
  pairResult [xh, xl, yh, yl] (pmulSteps xh xl yh yl) (mulVal va vb) (ra ||| rb)

/-- `PFMA` (R149, R150). -/
def pfmaCode (fa a fb b fc c : Nat) : Nat × Flags :=
  let (xh, xl) := pairParts fa a
  let (yh, yl) := pairParts fb b
  let (zh, zl) := pairParts fc c
  let ps := pmulSteps xh xl yh yl
  let (ph, pl) := match ps with | p :: q :: _ => (p, q) | _ => (qnan, qnan)
  let (va, ra) := pairAs32 fa a
  let (vb, rb) := pairAs32 fb b
  let (vc, rc) := pairAs32 fc c
  pairResult [xh, xl, yh, yl, zh, zl] (paddSteps ph pl zh zl ++ ps) (fmaVal rmRNE [va, vb, vc] va vb vc)
    (ra ||| rb ||| rc)

/-! ## Transcendental and reciprocal functions (R153 to R158)

The reference values are fixed-point numbers of `tP` fraction bits, computed with truncating integer arithmetic; their own
error lies far below every bound of R153. -/

/-- Fraction bits of the reference arithmetic. -/
def tP : Nat := 480

/-- Sum of z^(2k+1)/(2k+1) over k < n, with alternating signs where `alt`; z has p fraction bits. -/
def oddSeries (p n : Nat) (alt : Bool) (z : Int) : Int :=
  let z2 := z * z / 2 ^ p
  ((List.range n).foldl (fun (acc : Int × Int) (k : Nat) =>
    let t := acc.1 / (2 * k + 1)
    (acc.1 * z2 / 2 ^ p, acc.2 + (if alt && k % 2 == 1 then -t else t))) (z, 0)).2

/-- ln 2. -/
def ln2P : Int := 2 * oddSeries tP 170 false (2 ^ tP / 3)

/-- Pi with p fraction bits (Machin). -/
def piP (p : Nat) : Int :=
  16 * oddSeries p 160 true (2 ^ p / 5) - 4 * oddSeries p 60 true (2 ^ p / 239)

/-- Sum of r^n / n! for a fixed-point r in [0, 1). -/
def expSeries (r : Int) : Int :=
  ((List.range 120).foldl (fun (acc : Int × Int) (n : Nat) =>
    (acc.1 * r / 2 ^ tP / (n + 1), acc.2 + acc.1)) (2 ^ tP, 0)).2

/-- Sine (`k0` = 1) and cosine (`k0` = 0) of a fixed-point r in [0, 2): the terms r^n / n! for n of the parity of k0, with
alternating signs. -/
def sinSeries (k0 : Nat) (r : Int) : Int :=
  ((List.range 124).foldl (fun (acc : Int × Int) (n : Nat) =>
    let t := if n % 2 = k0 then (if n / 2 % 2 = 0 then acc.1 else -acc.1) else 0
    (acc.1 * r / 2 ^ tP / (n + 1), acc.2 + t)) (2 ^ tP, 0)).2

/-- A finite magnitude as a fixed-point number of p fraction bits. -/
def toFixed (p m : Nat) (e : Int) : Nat :=
  let sh := e + p
  if 0 ≤ sh then m * 2 ^ sh.toNat else m / 2 ^ (-sh).toNat

/-- A value from a signed fixed-point number that is known to be inexact: its low bit is sticky. -/
def ofFixed (n : Int) (e : Int) : FVal := .fin (decide (n < 0)) (2 * n.natAbs + 1) (e - 1)

/-- exp of a fixed-point x: mantissa with `tP` fraction bits in [1, 2) and binary exponent. -/
def expFixed (x : Int) : Int × Int :=
  let k := x / ln2P
  (expSeries (x - k * ln2P), k)

/-- Signed fixed-point form of a value. -/
def sFixed (s : Bool) (m : Nat) (e : Int) : Int := if s then -(toFixed tP m e : Int) else toFixed tP m e

/-- Function codes of R137. -/
def fnEXP : Nat := 0x30
def fnEXP2 : Nat := 0x31
def fnLOG : Nat := 0x32
def fnLOG2 : Nat := 0x33
def fnRCP : Nat := 0x34
def fnRSQRT : Nat := 0x35
def fnSIN : Nat := 0x36
def fnCOS : Nat := 0x37
def fnTANH : Nat := 0x38
def fnSIGMOID : Nat := 0x39
def fnERF : Nat := 0x3A

/-- ln of a positive value, in fixed point. -/
def lnFixed (m : Nat) (e : Int) : Int :=
  let k := exponentOf m e
  let y : Int := toFixed tP m (e - k)
  2 * oddSeries tP 170 false ((y - 2 ^ tP) * 2 ^ tP / (y + 2 ^ tP)) + k * ln2P

/-- Just below one. -/
def nearOne (s : Bool) : FVal := .fin s (2 ^ 400 - 1) (-400)

/-- A reference value of a function at a finite nonzero input that is no exact case. -/
def transRef (fn : Nat) (s : Bool) (m : Nat) (e : Int) : FVal :=
  let big : Bool := 11 ≤ exponentOf m e
  let x := sFixed s m e
  if fn = fnEXP then
    if big then .fin false 1 (if s then -6000 else 6000)
    else let (v, k) := expFixed x; ofFixed v (k - tP)
  else if fn = fnEXP2 then
    if big then .fin false 1 (if s then -6000 else 6000)
    else if (roundAt rmRTZ 0 s m e 0).2 then .fin false 1 (roundToInt rmRTZ s m e).1
    else
      let k := x / 2 ^ tP
      ofFixed (expSeries ((x - k * 2 ^ tP) * ln2P / 2 ^ tP)) (k - tP)
  else if fn = fnLOG then ofFixed (lnFixed m e) (-tP)
  else if fn = fnLOG2 then ofFixed (lnFixed m e * 2 ^ tP / ln2P) (-tP)
  else if fn = fnRCP then (divVal one (.fin s m e)).1
  else if fn = fnRSQRT then
    -- the exponent is made even first
    let m' := if e % 2 = 0 then m else 2 * m
    ofFixed (isqrt 602 (2 ^ 1200 / m') : Int) (-600 - e / 2)
  else if fn = fnSIN || fn = fnCOS then
    let w := tP + 160
    let hp := (piP w / 2).toNat
    let xw := toFixed w m e
    let n := xw / hp
    let r : Int := (xw % hp / 2 ^ 160 : Nat)
    let k := (n + (if fn = fnCOS then 1 else 0)) % 4
    let v := if k % 2 = 0 then sinSeries 1 r else sinSeries 0 r
    let v := if 2 ≤ k then -v else v
    ofFixed (if fn = fnSIN && s then -v else v) (-tP)
  else if fn = fnTANH then
    if 6 ≤ exponentOf m e then nearOne s
    else
      let (v, k) := expFixed (2 * (toFixed tP m e : Int))
      let ev := v * 2 ^ k.toNat
      let t := (ev - 2 ^ tP) * 2 ^ tP / (ev + 2 ^ tP)
      ofFixed (if s then -t else t) (-tP)
  else if fn = fnSIGMOID then
    if big then (if s then .fin false 1 (-6000) else nearOne false)
    else
      let (v, k) := expFixed (toFixed tP m e : Int)
      let ev := v * 2 ^ k.toNat
      if s then ofFixed (2 ^ (2 * tP + k.toNat + 8) / (2 ^ tP + ev)) (-(tP + k.toNat + 8 : Nat))
      else ofFixed (ev * 2 ^ tP / (2 ^ tP + ev)) (-tP)
  else
    -- ERF
    if 3 ≤ exponentOf m e then nearOne s
    else
      let a : Int := toFixed tP m e
      let a2 := a * a / 2 ^ tP
      let sum := ((List.range 400).foldl (fun (acc : Int × Int) (n : Nat) =>
        let t := acc.1 / (2 * n + 1)
        (acc.1 * a2 / 2 ^ tP / (n + 1), acc.2 + (if n % 2 = 1 then -t else t))) (a, 0)).2
      let rootPi : Int := isqrt 560 ((piP tP).toNat * 2 ^ tP)
      let t := 2 * sum * 2 ^ tP / rootPi
      ofFixed (if s then -t else t) (-tP)

/-- Special inputs and exact cases of a format (R153, R157): the value and its flags. `EXP2` of an integer whose result is too small to
be represented is no exact case. -/
def transSpecial (fn f : Nat) (v : FVal) : Option (FVal × Flags) :=
  match firstNan [v] with
  | some r => some r
  | none =>
    let s := v.sign
    let zero : FVal := .fin false 0 0
    match v with
    | .inf _ =>
      if fn = fnEXP || fn = fnEXP2 then some (if s then zero else v, 0)
      else if fn = fnLOG || fn = fnLOG2 || fn = fnRSQRT then
        if s then some invalid else some (if fn = fnRSQRT then zero else v, 0)
      else if fn = fnRCP then some (.fin s 0 0, 0)
      else if fn = fnSIN || fn = fnCOS then some invalid
      else if fn = fnSIGMOID then some (if s then zero else one, 0)
      else some (one.withSign s, 0)
    | .fin _ 0 _ =>
      if fn = fnEXP || fn = fnEXP2 || fn = fnCOS then some (one, 0)
      else if fn = fnLOG || fn = fnLOG2 then some (.inf true, flagDZ)
      else if fn = fnRCP || fn = fnRSQRT then some (.inf s, flagDZ)
      else if fn = fnSIGMOID then some (.fin false 1 (-1), 0)
      else some (v, 0)
    | .fin _ m e =>
      let k := exponentOf m e
      let pow2 : Bool := m = 2 ^ Nat.log2 m
      if fn = fnLOG || fn = fnLOG2 || fn = fnRSQRT then
        if s then some invalid
        else if fn = fnLOG && pow2 && k = 0 then some (zero, 0)
        else if fn = fnLOG2 && pow2 then some (finOf k 0 false, 0)
        else if fn = fnRSQRT && pow2 && k % 2 = 0 then some (.fin false 1 (-(k / 2)), 0)
        else none
      else if fn = fnRCP && pow2 then some (.fin s 1 (-k), 0)
      else if fn = fnEXP2 && k < 20 && (roundAt rmRTZ 0 s m e 0).2 &&
          decide (fmtEmin f - fmtM f ≤ (roundToInt rmRTZ s m e).1) then
        some (.fin false 1 (roundToInt rmRTZ s m e).1, 0)
      else none
    | _ => none

/-- The bound of R153 and R154 as a magnitude: `ulps` units in the last place of the reference, or the absolute bound of
`SIN` and `COS` above 2^19. -/
def transBound (fn f : Nat) (v ref : FVal) : Nat × Int :=
  let wide : Bool := match v with
    | .fin _ m e => cmpMag m e 1 19 = .gt
    | _ => false
  if f = fmtB32 && (fn = fnSIN || fn = fnCOS) && wide then (1, -20)
  else
    let n := if f = fmtB32 && !(fn = fnEXP2 || fn = fnLOG2 || fn = fnRCP || fn = fnRSQRT) then 2 else 1
    let ex := match ref with
      | .fin _ m e => exponentOf m e
      | _ => 0
    (n, max ex (fmtEmin f) - fmtM f)

/-- A transcendental or reciprocal function on a code of binary16, FB16 or binary32: specials and exact cases as R157 and
R153 give them, otherwise the free value of log 5 where it keeps the bound and the sign, and the rounded reference where it does not. A
reference that rounds to zero delivers that zero (R79). `UF` is judged on the rounding of the reference, whatever is delivered
(R71, R158). -/
def transCode (fn f code : Nat) : Nat × Flags :=
  let v := decodeFloat f code
  match transSpecial fn f v with
  | some r => finish f rmRNE 0 r
  | none =>
    match v with
    | .fin s m e =>
      let ref := transRef fn s m e
      let (rc, rf) := encodeFloat f rmRNE 0 ref
      if (decodeFloat f rc).isInf || (decodeFloat f rc).isZero then (rc, rf ||| flagNX)
      else
        let c := Config.transcendental fn f (code % 2 ^ fmtWidth f) % 2 ^ fmtWidth f
        let b := transBound fn f v ref
        match subVal (decodeFloat f c) ref with
        | .fin _ dm de =>
          if cmpMag dm de b.1 b.2 ≠ .gt && (decodeFloat f c).sign == ref.sign then (c, rf ||| flagNX)
          else (rc, rf ||| flagNX)
        | _ => (rc, rf ||| flagNX)
    | _ => (0, 0)

/-! ## Exact sums (file 03) -/

/-- An accumulator with its status (R103, R105, R114): `a` in units of 2^-300, the six status bits, the count. -/
structure Acc where
  a      : Int
  status : BitVec 6
  count  : Nat
  deriving DecidableEq, Repr

def stNAN : BitVec 6 := 0x01
def stSNAN : BitVec 6 := 0x02
def stPINF : BitVec 6 := 0x04
def stNINF : BitVec 6 := 0x08
def stINV : BitVec 6 := 0x10
def stLIM : BitVec 6 := 0x20

/-- The empty sum. -/
def Acc.zero : Acc := ⟨0, 0, 0⟩

/-- Two's complement at 640 bits (R103). -/
def wrap640 (a : Int) : Int :=
  let r := a % 2 ^ 640
  if 2 ^ 639 ≤ r then r - 2 ^ 640 else r

/-- The largest count (R114). -/
def countMax : Nat := 2 ^ 41 - 1

/-- The condition under which `LIM` is set (R115). -/
def limCond (a : Int) (count : Nat) : Bool :=
  decide (2 ^ 40 < count) || decide (a < -(2 ^ 626)) || decide (2 ^ 626 ≤ a)

/-- `LIM` set where R115 says so. -/
def Acc.lim (t : Acc) : Acc := if limCond t.a t.count then { t with status := t.status ||| stLIM } else t

/-- Adds the counted term x x y (R104, R105, R119). -/
def Acc.term (t : Acc) (x y : FVal) : Acc :=
  let t := { t with count := min countMax (t.count + 1) }
  if x.isSig || y.isSig then { t with status := t.status ||| stNAN ||| stSNAN }
  else if x.isNan || y.isNan then { t with status := t.status ||| stNAN }
  else if infTimesZero x y then { t with status := t.status ||| stINV }
  else match x, y with
    | .fin s m e, .fin s' m' e' => { t with a := wrap640 (t.a + alignTo (s != s') (m * m') (e + e') (-300)) }
    | _, _ => { t with status := t.status ||| (if x.sign != y.sign then stNINF else stPINF) }

/-- Adds a value as a term of its own (R98, R159). -/
def Acc.value (t : Acc) (x : FVal) : Acc := t.term x one

/-- The exact-state add (R120). -/
def Acc.join (t p : Acc) : Acc :=
  Acc.lim ⟨wrap640 (t.a + p.a), t.status ||| p.status, min countMax (t.count + p.count)⟩

/-- Rounds an accumulator into an output format (R106 to R109). `LIM` is judged here too (DEDUCED, log 13). The `hi` of a pair for a zero
sum takes the sign of R108, its `lo` is +0 (DEDUCED, log 11). -/
def Acc.round (t : Acc) (f mode u : Nat) : Nat × Flags :=
  let t := t.lim
  let has (b : BitVec 6) : Bool := t.status &&& b != 0
  let both := has stPINF && has stNINF
  if has stLIM || has stNAN || has stINV || both then
    let fl := flagIf (has stSNAN || has stINV || has stLIM || both) flagNV
    (if f = fmtPair then pairCode (canonNan fmtB32) 0 else canonNan f, fl)
  else
    let v : FVal :=
      if has stPINF then .inf false
      else if has stNINF then .inf true
      else finOf t.a (-300) (mode = rmRDN)
    if f = fmtPair then
      match v with
      | .fin _ 0 _ => (pairCode (signCode fmtB32 (mode = rmRDN)) 0, 0)
      | _ => encodePair v
    else encodeFloat f mode u v

/-- Little-endian bytes of a number (R14). -/
def leBytes : Nat → Nat → List Byte
  | 0, _ => []
  | n + 1, v => BitVec.ofNat 8 v :: leBytes n (v / 256)

/-- The number that little-endian bytes stand for (R14). -/
def leNat : List Byte → Nat
  | [] => 0
  | b :: bs => b.toNat + 256 * leNat bs

/-- The 96 bytes of a record (R113, R114), with `LIM` under R115. -/
def Acc.bytes (t : Acc) : List Byte :=
  let t := t.lim
  [0x01, 0x01] ++ leBytes 6 0 ++ leBytes 80 (t.a % 2 ^ 640).toNat ++
    leBytes 8 (t.status.toNat + t.count * 256)

/-- Reads a record of 96 bytes (R113 to R115); none where its `VERSION` or `KIND` is refused (R124). -/
def readRecord (bs : List Byte) : Option Acc :=
  if bs.getD 0 0 = 1 ∧ bs.getD 1 0 = 1 then
    let st := leNat ((bs.drop 88).take 8)
    some (Acc.lim ⟨wrap640 (leNat ((bs.drop 8).take 80)), BitVec.ofNat 6 st, st / 256 % 2 ^ 41⟩)
  else none

/-- One step of a binary64 chain (R127, R129 to R131). -/
def chainStep (mode : Nat) (d a b : FVal) : FVal × Flags :=
  let (c, fl) := finish fmtB64 mode 0 (fmaVal mode [d, a, b] a b d)
  (decodeFloat fmtB64 c, fl)

end Sys2Proof.Machine
end

