-- ==== Sys2Proof/Machine/State.lean ====
section
/-! DEFINITION. The state of PX-1 as plain data: every register, buffer, queue, counter, mode and pin that the spec
gives the block, the queue of waiting commands, and the state after reset. -/
namespace Sys2Proof.Machine

/-- A sparse table: pairs of a key and a value in one canonical form (keys strictly rising, no entry equal to what an
unlisted key reads as). The operations of Ops.lean read and write it. -/
abbrev Table (α : Type) := List (Nat × α)

/-! ## Stops -/

/-- Why the machine stops: the spec gives every command an effect, and none stops the machine. -/
inductive Fault where
  deriving DecidableEq, Repr

/-- Why a command has no meaning. -/
inductive Refusal where
  /-- Raised only by an arm of Dispatch.lean whose command has no meaning yet. Safe. -/
  | notModelled (mnemonic : String)
  deriving DecidableEq, Repr

/-! ## Build -/

/-- The build parameters (file 01). `stackMask c` is `COURSE_OVER_STACK` of Course c. No command changes them. -/
structure Build where
  courses        : Nat
  tilesPerCourse : Nat
  stackCount     : Nat
  bondPorts      : Nat
  jegonPorts     : Nat
  hodPairs       : Nat
  serdes         : Bool
  localFaults    : Bool
  bridgeModules  : Nat
  tensorClkMax   : Nat
  stackMask      : List Nat
  deriving DecidableEq, Repr

/-! ## Output -/

/-- Kinds of probe (R365, R366). -/
inductive Probe where
  | share | take | kill | peek
  deriving DecidableEq, Repr

/-- Requests of the block toward the host over CXL.cache (R478). -/
inductive CacheReq where
  | rdCurr | rdShared | rdOwn | rdOwnNoData
  | writeBack (data : List Byte) (poison : Bool)
  deriving DecidableEq, Repr

/-- What the block signals on `CTL` of a Jegon port. -/
inductive JegCtl where
  | quiesce | withdraw | quiesceAck | reset
  | contextLoss (ctx : Nat)
  deriving DecidableEq, Repr

/-- What the block sends: the messages of Mortar, of the host link, of the Bond and Jegon ports, interrupts, pins,
answers to register and debug reads. -/
inductive Msg where
  | ask (agent pa : Nat) (own : Bool) (tc : BitVec 2) (id : OpId)
  | evict (agent pa : Nat) (data : List Byte) (poison : Bool) (tc : BitVec 2) (id : OpId)
  | probe (agent pa : Nat) (kind : Probe) (for_ : ProbeFor)
  | answer (agent pa : Nat) (ans : Answer) (dirty : Bool) (data : List Byte) (poison : Bool) (tc : BitVec 2)
  | data (agent pa : Nat) (dirty : Bool) (data : List Byte) (poison : Bool) (tc : BitVec 2) (id : OpId)
  | completion (agent pa : Nat) (grant : LState) (fromOwner : Bool) (tc : BitVec 2) (id : OpId)
  | ack (agent pa : Nat) (tc : BitVec 2)
  | wbAck (agent pa : Nat) (tc : BitVec 2) (id : OpId)
  | response (dst : Src) (tc : BitVec 2) (rsp : Response)
  | operation (src : Src) (kind : OpKind) (gop : Nat) (env : Envelope) (pa len : Nat) (data comparand : List Byte)
      (poison : Marks) (id : OpId)
  | ntFlush (core line : Nat) (bytes : List Host.Cell) (env : Envelope) (id : OpId)
  | prefetch (line : Nat) (tc : BitVec 2)
  | stackRead (stack pa : Nat) (tc : BitVec 2) (id : OpId)
  | stackWrite (stack pa : Nat) (data : List Byte) (poison : Bool)
  | cache (hpa : Nat) (req : CacheReq) (tc : BitVec 2) (id : Option OpId)
  | snoopRsp (hpa : Nat) (state : HState) (data : Option (List Byte)) (poison : Bool)
  | memData (tag : Nat) (data : List Byte) (poison : Bool)
  | memDone (tag : Nat)
  | biSnp (pa : Nat) (inv : Bool) (tc : BitVec 2) (id : OpId)
  | ioUnsupported (tag : Nat)
  | ioWrite (hpa : Nat) (data : List Byte) (id : Option OpId)
  | ioRead (hpa len : Nat) (id : OpId)
  | msix (vector addr : Nat) (data : Word32)
  | viral
  | xltRequest (pasid va : Nat) (noWrite exec : Bool)
  | pageRequest (prg pasid page : Nat) (perm : Perm)
  | invalidateDone (tag : Nat)
  | reread (hpa : Nat) (tc : BitVec 2) (id : OpId)
  | jegRsp (port tag : Nat) (status : RStatus) (data : List Byte) (poison : BitVec 16) (bits : BitVec 4)
  | jegSnp (port pa : Nat) (kind : Probe)
  | jegXlt (port tag : Nat) (ok : Bool) (vbase pbase span : Nat) (perm : Perm)
  | jegInvalidate (port vbase : Nat)
  | jegCtl (port : Nat) (what : JegCtl)
  | capability (port : Nat) (cap : Capability)
  | bondData (port : Nat) (seq : Nat) (key : Bool) (ack : BitVec 16) (crdVc : BitVec 4) (crdN : Nat) (msgs : List BondMsg)
  | bondReplay (port : Nat) (seq : Nat)
  | bondReplayRequest (port : Nat)
  | bondHeartbeat (port : Nat) (seq : Nat) (key : Bool) (ack : BitVec 16) (crdVc : BitVec 4) (crdN : Nat)
  | bondFatal (port : Nat) (seq : Nat) (key : Bool)
  | coreIrq (core : Nat)
  | spdm (transport : Transport) (session : Nat) (code : Nat) (payload : List Byte)
  | freqRequest (course units : Nat)
  | pwrEn (course : Nat) (on : Bool)
  | pwrAlert (on : Bool)
  | fatal
  | regValue (agent : RegAgent) (off : Nat) (value : Word32)
  | debugOut (value : Nat) (bits : Nat)
  deriving DecidableEq, Repr

/-! ## Cores -/

/-- A store in a store buffer (R307): virtual or agent address, physical address, bytes. -/
structure StoreEntry where
  addr   : Word64
  pa     : Nat
  data   : List Byte
  deriving DecidableEq, Repr

/-- A combining buffer of 256 bytes (R328): its line, the address of its newest store and the bytes written, by physical
address. `after` counts the buffered stores behind which a flush of it must leave (R332). -/
structure NtBuf where
  line  : Nat
  addr  : Word64
  bytes : List Host.Cell
  after : Nat
  deriving DecidableEq, Repr

/-- A line in an L1 data cache (R363). -/
structure CLine where
  state  : LState
  data   : List Byte
  poison : Bool
  deriving DecidableEq, Repr

/-- A line request of a requester (R365, R369): whether it asks for ownership, its class, its identifier (none while it waits for one,
R383), the completion's grant and the data. -/
structure Fill where
  own   : Bool
  tc    : BitVec 2
  id    : Option OpId
  grant : Option LState
  data  : Option (List Byte × Bool × Bool)
  deriving DecidableEq, Repr

/-- A line in a write-back buffer (R364): its data, and the identifier of its write-back (none while it waits for one, R383). -/
structure WriteBack where
  data   : List Byte
  poison : Bool
  id     : Option OpId
  deriving DecidableEq, Repr

/-- What a core waits for. -/
inductive CoreWait where
  | xlt (cause : Nat) (addr : Word64)
  | load (rd : Dest) (width : Width) (sext : Bool) (pa : Nat) (addr : Word64)
  | lr (rd : BitVec 5) (dbl : Bool) (pa : Nat) (addr : Word64)
  | sc (rd : BitVec 5) (dbl : Bool) (pa : Nat) (addr value : Word64)
  | amo (rd : BitVec 5) (op : AmoOp) (dbl : Bool) (pa : Nat) (addr value : Word64) (sent : Option OpId)
  | tdld (td : BitVec 5) (pa : Nat) (addr : Word64)
  | fence (pred succ : BitVec 4)
  | tcmd (rd : BitVec 5) (hdr opw : Word64)
  | twait (rd : BitVec 5) (c : Nat) (target : Word64)
  | ttok (deps : List Nat)
  | tbar (rd : BitVec 5)
  deriving DecidableEq, Repr

/-- Trap and control CSRs of a core (R176, R181, R326). `ntwin` holds the four windows, `pmp` the PMP registers and `hpm` the
performance counters with their controls and `fcsr`, by CSR number. -/
structure Csrs where
  mie     : Bool
  mpie    : Bool
  mpp     : Priv
  mtvec   : Word64
  mscratch : Word64
  mepc    : Word64
  mcause  : Word64
  mtval   : Word64
  meie    : Bool
  mtie    : Bool
  msie    : Bool
  meip    : Bool
  msip    : Bool
  tctl    : Bool
  tctx    : BitVec 12
  ttsbase : Word64
  ntwin   : Table Word64
  pmp     : Table Word64
  instret : Word64
  /-- What `mcycle` is ahead of the cycles of its clock domain. -/
  cycleAhead : Word64
  mtip    : Bool
  hpm     : Table Word64
  deriving DecidableEq, Repr

/-- A core: Trowel, control core or Kiln. -/
structure Core where
  x        : Table Word64
  f        : Table Word64
  pc       : Word64
  mode     : Priv
  csr      : Csrs
  held     : Bool
  halted   : Bool
  /-- The halted core executes the program buffer (R176). -/
  prog     : Bool
  /-- The pc after the instruction that waits. -/
  npc      : Word64
  wait     : Option CoreWait
  storeBuf : List StoreEntry
  ntBufs   : List NtBuf
  /-- Buffers whose flush waits for an older store or an older flush of the same bytes, oldest first (R332). -/
  ntHeld   : List NtBuf
  /-- Addresses of stores that have ended with a fault which the core has still to take (R343). -/
  late     : List Word64
  resv     : Option Nat
  deferral : Bool
  deferred : List (Probe × Nat × ProbeFor)
  lines    : Table CLine
  fills    : Table Fill
  wb       : Table WriteBack
  icache   : Table Byte
  dcsr     : Word32
  dpc      : Word64
  triggers : Table Word64
  deriving DecidableEq, Repr

/-! ## Tiles -/

/-- A descriptor register (R183). -/
structure DescReg where
  bytes : List Byte
  valid : Bool
  deriving DecidableEq, Repr

/-- A descriptor as a queue entry copies it (R185, R229). -/
structure DescCopy where
  main : List Byte
  ext  : Option (List Byte)
  deriving DecidableEq, Repr

/-- One remote operation that a command still has to issue (R296): addresses are virtual, or physical for a Hod engine in
physical mode. -/
structure Run where
  kind      : OpKind
  gop       : Nat
  addr      : Nat
  len       : Nat
  data      : List Byte
  comparand : List Byte
  poison    : Marks
  perm      : Perm
  /-- Element positions to which a fetched value belongs, as tile-store offsets. -/
  into      : List Nat
  deriving DecidableEq, Repr

/-- Where a command stands between start and completion. -/
inductive Stage where
  /-- Reads shape blocks that lie outside the tile store. -/
  | shapes
  /-- Reads the index tensor of a gather or scatter. -/
  | index
  /-- Reads source elements outside the tile store. -/
  | source
  /-- Writes: puts and atomics. -/
  | dest
  /-- Every effect is determined; waits for completion. -/
  | ready
  deriving DecidableEq, Repr

/-- A command in the queue of a Tile (R184, R185). `seq` is its number since the Trowel's reset. `deps` are the numbers of the earlier commands that signal a
token on which it waits (R189). `writes`, `bad`, `flags` and `reason` are the results that completion makes visible. -/
structure Cmd where
  seq     : Nat
  hdr     : Word64
  opw     : Word64
  descs   : List (Nat × DescCopy)
  deps    : List Nat
  ctx     : Nat
  started : Bool
  /-- The order in which commands of the Tile started (R297). -/
  startNo : Nat
  stage   : Stage
  todo    : List Run
  fetched : List Host.Cell
  fbad    : Table Bool
  writes  : List Host.Cell
  bad     : Table Bool
  flags   : BitVec 8
  reason  : Option Nat
  deriving DecidableEq, Repr

/-- An entry of the error log (R214). -/
structure ErrEntry where
  reason : Nat
  unit   : Nat
  seq    : Nat
  deriving DecidableEq, Repr

/-- A Tile (file 05). `nextSeq` counts the commands issued since the Trowel's reset; the sequence number that software sees is its low
16 bits (R210). `ecc` lists the 8-byte words whose check bits are wrong: 1 a correctable error, 2 an uncorrectable one (R173). -/
structure Tile where
  td        : Table DescReg
  queue     : List Cmd
  nextSeq   : Nat
  counters  : Table Word64
  flags     : BitVec 8
  errLog    : List ErrEntry
  errOvf    : Bool
  barStatus : BitVec 4
  store     : List Host.Cell
  bad       : Table Bool
  ecc       : Table (BitVec 2)
  bound     : Option Nat
  prot      : BitVec 12
  clearing  : Bool
  deriving DecidableEq, Repr

/-! ## Remote operations and identifiers -/

/-- What a unit of the Lintel goes on with once an access of its own has ended (log 23): a ring's front end, an admin queue (by `OP`), the
evaluation of a fence wait, a watched doorbell line, the completion of an entry after its record or after its fence, the
completion of an admin entry, a mailbox of the Kiln, the error flags of a lost context, an inbox slot, or nothing. -/
inductive LinNext where
  | entry (ring kind : Nat)
  | lost (ring : Nat)
  | admin (q op : Nat)
  | enable (q : Nat)
  | wait (ring : Nat) (timeout : Bool)
  | bell (line : Nat)
  | record (ring seq : Nat)
  | fence (ring seq : Nat)
  | done (q : Nat)
  | mailbox (mb : Nat)
  | loss (ctx : Nat)
  | inbox
  | secure
  | nothing
  deriving DecidableEq, Repr

/-- A read of a unit of the Lintel that has ended and is still to be used. -/
structure FrontRead where
  next   : LinNext
  pa     : Nat
  data   : List Byte
  status : RStatus
  deriving DecidableEq, Repr

/-- Who owns an operation within its source: a command of a Tile, an entry of a ring, a Jegon tag, an AMO of a core, a
flush, a unit of the Lintel, or a piece of securing work. -/
inductive Owner where
  | cmd (seq : Nat)
  | ring (ring seq : Nat)
  | tag (t : Nat)
  | coreAmo
  | fence
  | unit (next : LinNext)
  | secure (page : Nat)
  /-- An operation that arrived from another chip: its source chip, identifier, port and relay count (R276, R566). -/
  | incoming (chip : Nat) (id : OpId) (srcPort hop : Nat)
  deriving DecidableEq, Repr

/-- An outstanding remote operation (R283 to R286). `sent`: it has left; `held`: it waits under R278 or R336; `moved`: the primary port of
its route has changed since it was issued (R278). -/
structure RemoteOp where
  id     : OpId
  src    : Src
  owner  : Owner
  ctx    : Option Nat
  kind   : OpKind
  gop    : Nat
  ord    : Bool
  tc     : BitVec 2
  pa     : Nat
  addr   : Nat
  len    : Nat
  data   : List Byte
  comparand : List Byte
  poison : Marks
  into   : List Nat
  sent   : Bool
  held   : Bool
  moved  : Bool
  port   : Option Nat
  noSnoop : Bool
  invals : List Nat
  deriving DecidableEq, Repr

/-- An identifier of a path (R383 to R385). -/
structure Ident where
  gen         : Nat
  busy        : Bool
  quarantined : Bool
  deriving DecidableEq, Repr

/-! ## Homes, Grout, stacks -/

/-- Snoop-filter states (R374). -/
inductive FState where
  | shared | owned | excl
  deriving DecidableEq, Repr

/-- A snoop-filter entry (R374). -/
structure FilterEntry where
  way    : Nat
  state  : FState
  owner  : Nat
  groups : BitVec 22
  age    : Nat
  deriving DecidableEq, Repr

/-- A sector of a Grout line (R391). -/
structure Sector where
  v    : Bool
  d    : Bool
  p    : Bool
  h    : HState
  data : List Byte
  deriving DecidableEq, Repr

/-- A Grout line of 256 bytes (R391, R402, R560). -/
structure GroutLine where
  slice   : Nat
  set     : Nat
  way     : Nat
  age     : Nat
  pin     : Bool
  sectors : Table Sector
  ctx     : Option Nat
  deriving DecidableEq, Repr

/-- A request at a home (R365, R377, R379, R380). A peek of several lines keeps the bytes that it has read and their poison marks;
`stream` marks a streaming access (R399). -/
inductive Req where
  | share (agent : Nat) (tc : BitVec 2) (id : OpId)
  | own (agent : Nat) (tc : BitVec 2) (id : OpId)
  | evict (agent : Nat) (data : List Byte) (poison : Bool) (tc : BitVec 2) (id : OpId)
  | peek (op : HomeOp) (len : Nat) (stream : Bool) (got : List Byte) (bad : Marks)
  | push (op : HomeOp) (stream : Bool)
  | atomic (gop : Nat) (a : Atomic)
  | hostRead (tag : Nat) (snp : MemSnp) (stream : Bool)
  | hostWrite (tag : Nat) (data : List Byte) (en : List Bool) (poison : Bool) (keeps : MemState) (stream : Bool)
  | evictFilter (tc : BitVec 2)
  | evictHdm (tc : BitVec 2)
  | recall (tc : BitVec 2)
  | prefetch (tc : BitVec 2)
  | snoop (kind : Probe)
  deriving DecidableEq, Repr

/-- An open transaction of a line (R371): the request; the agents whose answers are awaited; those whose write-back is
awaited (R372) and those whose write-back came before their answer; the data that an agent or the host supplied, whether it
is dirty and poisoned (no bytes: the owner forwarded it to the requester); the back-invalidate or the request to the host that is
awaited; whether a stack read is awaited; whether a back-invalidate has timed out (R381); whether
the probes wait until the host has given the line (R379); whether the home has answered the
requester; whether the line is held for an operation that needs further lines; the Grout line whose recall is awaited (R392). -/
structure Txn where
  req      : Req
  probing  : List Nat
  evicting : List Nat
  came     : List Nat
  supplied : Option (List Byte × Bool × Bool)
  biWait   : Option OpId
  hostWait : Option OpId
  fillWait : Bool
  bad      : Bool
  late     : Bool
  granted  : Bool
  held     : Bool
  victim   : Option Nat
  deriving DecidableEq, Repr

/-- States of an HDM directory entry (R380). -/
inductive HdmState where
  | s | a
  deriving DecidableEq, Repr

/-- A run of the streaming detector (R399): its source, whether it is of writes, its last line and its length. -/
structure Stream where
  src    : Src
  write  : Bool
  last   : Nat
  length : Nat
  deriving DecidableEq, Repr

/-- A maintenance block of a slice (R404): the written words, the state of `STATUS` and the count. `walked`: the walk is over, and recalls of
host lines are still open (R405). -/
structure Maint where
  cmd    : Word64
  start  : Word64
  stop   : Word64
  status : BitVec 2
  count  : Nat
  walked : Bool
  deriving DecidableEq, Repr

/-- A request in a retry queue (R378, R380): its line, and the victim whose eviction it has begun. -/
structure Retry where
  line   : Nat
  req    : Req
  victim : Option Nat
  deriving DecidableEq, Repr

/-- The homes: snoop filter, Grout, transactions, slice inputs, line queues, retry queues, HDM directory, streaming detectors, prefetch
hints, maintenance blocks and pin table (files 09, 10). Lines are keyed by physical address / 64, Grout
lines by physical address / 256. The three error tables list the 8-byte words of Grout data, the Grout tags and the filter entries
whose check bits are wrong: 1 a correctable error, 2 an uncorrectable one (R393). -/
structure Home where
  filter  : Table FilterEntry
  grout   : Table GroutLine
  txns    : Table Txn
  input   : List (Nat × Req)
  lineQ   : List (Nat × Req)
  retryQ  : List Retry
  hdm     : Table HdmState
  streams : List Stream
  hints   : Table (List Nat)
  maint   : Table Maint
  pins    : Table Word64
  dataErr   : Table (BitVec 2)
  tagErr    : Table (BitVec 2)
  filterErr : Table (BitVec 2)
  inService : Bool
  deriving DecidableEq, Repr

/-! ## Mortar -/

/-- What waits at an arbiter: a message, or a request of the host that enters its home (R358). -/
inductive Load where
  | msg (m : Msg)
  | req (line : Nat) (r : Req)
  deriving DecidableEq, Repr

/-- Message classes of Mortar (R350). -/
inductive MClass where
  | ask | evict | probe | reply | data
  deriving DecidableEq, Repr

/-- A message that waits at an arbiter of Mortar (R350 to R360): its class, its traffic class, its source, the outputs that it has passed
and those that it has still to pass, its size in units of 64 bytes, and whether it has waited for 256 ns. -/
structure Packet where
  cls    : MClass
  tc     : BitVec 2
  source : Nat
  from_  : Option Nat
  outs   : List Nat
  units  : Nat
  aged   : Bool
  load   : Load
  deriving DecidableEq, Repr

/-- An arbiter output (R355 to R358): the TC0 bucket in twentieths of a unit, the class whose turn it is, the deficits of the classes, and
for each class the input whose turn it is and the deficits of the inputs. -/
structure Arbiter where
  bucket   : Nat
  turn     : Nat
  classes  : Table Nat
  inTurn   : Table Nat
  inputs   : Table Nat
  deriving DecidableEq, Repr

/-- Mortar: its arbiters by output, the credits in use at the ends of its paths, and the messages that wait, oldest first. -/
structure Mortar where
  arbs    : Table Arbiter
  used    : Table Nat
  waiting : List Packet
  deriving DecidableEq, Repr

/-- A queued write of a controller (R420). -/
structure StackWrite where
  pa     : Nat
  data   : List Byte
  poison : Bool
  deriving DecidableEq, Repr

/-- An entry of the correction log (R443). -/
structure CorrEntry where
  pa      : Nat
  place   : DramPlace
  count   : Nat
  symbols : Nat
  deriving DecidableEq, Repr

/-- A Plinth controller (R415 to R445). `neg` is `PLN_NEG.STATE`, `wasLive` says that the negotiation has ended in state live (R388), and
`readQ` holds the sectors to be read with the class and the identifier of each read, and `ieeeLen` the `LEN` of the shift that runs. -/
structure Ctl where
  neg       : BitVec 4
  rate      : Nat
  height    : BitVec 2
  density   : BitVec 2
  live      : Word32
  temp      : Nat
  level     : Nat
  slow      : Bool
  shutdown  : Bool
  wasLive   : Bool
  readQ     : List (Nat × BitVec 2 × OpId)
  writeQ    : List StackWrite
  draining  : Bool
  scrubNext : Nat
  corrLog   : Table CorrEntry
  repairBusy : Bool
  repairResult : BitVec 2
  ieeeBusy  : Bool
  ieeeLen   : Nat
  deriving DecidableEq, Repr

/-- Memory: own device memory in the stacks, as plaintext, with its poisoned sectors and the key under which each sector was written
last (R643; log 91), and host memory as the block sees it. `zeroKeys` are the keys of the granules under which the stacks were
zeroed, of which `zeroKey` is that of every granule that the list leaves out. -/
structure Mem where
  dev     : List Host.Cell
  devBad  : Table Bool
  devKey  : List (Nat × Nat)
  zeroKey  : Nat
  zeroKeys : List (Nat × Nat)
  host    : List Host.Cell
  hostBad : Table Bool
  topMib  : BitVec 20
  deriving DecidableEq, Repr

/-! ## Translation -/

/-- An entry of a translation buffer (R454). `used` is the not-recently-used bit of R453. -/
structure TlbEntry where
  pasid  : Nat
  span   : Nat
  vbase  : Nat
  pbase  : Nat
  perm   : Perm
  used   : Bool
  deriving DecidableEq, Repr

/-- An access that waits for a translation (R459, R461): its agent, what it belongs to, its context, address, need and the
page requests that it has sent (R464). -/
structure Waiter where
  src    : Src
  owner  : Owner
  ctx    : Nat
  addr   : Nat
  perm   : Perm
  buffer : Nat
  tries  : Nat
  deriving DecidableEq, Repr

/-- A translation request to the host (R459, R472). -/
structure XltReq where
  pasid   : Nat
  page    : Nat
  noWrite : Bool
  exec    : Bool
  discard : Bool
  sent    : Bool
  waiters : List Waiter
  deriving DecidableEq, Repr

/-- A page request (R462, R463). -/
structure PageReq where
  pasid   : Nat
  page    : Nat
  perm    : Perm
  waiters : List Waiter
  deriving DecidableEq, Repr

/-- An invalidation in flight (R468 to R471): the stores (core and line) and the Jegon ports (port and virtual base) that it
waits for. Remote operations that it waits for carry its tag in `RemoteOp.invals`. -/
structure Inval where
  tag    : Nat
  stores : List (Nat × Nat)
  ports  : List (Nat × Nat)
  deriving DecidableEq, Repr

/-- Translation state (file 11). `failed` are the failed translations of fence addresses that the ring front end has not taken up.
Buffers are keyed by `Xlat.buffer` of Ops.lean. -/
structure Xlat where
  buffers : Table (List TlbEntry)
  reqs    : List XltReq
  prgs    : Table PageReq
  faultQ  : List Waiter
  failed  : List Waiter
  invals  : List Inval
  blocked : Bool
  deriving DecidableEq, Repr

/-! ## Jegon ports, host link, Hod engines -/

/-- A Jegon port (files 01, 11, 18). `owed` are the tags that are owed a response, `xlts` the tags of its translation requests that
wait, `fills` the coherent requests with their tag and line, `wbs` the write-backs that await their acknowledgement with their
identifier, `heldMsgs` the messages that a barrier, a stop or a page
request holds, `snoops` the snoops that the engine has to answer, `leaving` the translations whose
invalidation it has to acknowledge, `ctxEnds` the destroyed contexts whose end it has to report. -/
structure Jegon where
  en        : Bool
  quiesce   : Bool
  engineAck : Bool
  blockAck  : Bool
  refusing  : Bool
  cause     : BitVec 3
  reset     : Bool
  owed      : List Nat
  xlts      : List Nat
  fills     : List (Nat × Nat × Fill)
  wbs       : List (Nat × Nat × Option OpId)
  barrier   : Option Nat
  heldMsgs  : List JegonMsg
  barStatus : BitVec 4
  snoops    : List (Nat × Probe × ProbeFor)
  leaving   : List TlbEntry
  ctxEnds   : List Nat
  deriving DecidableEq, Repr

/-- The host link (file 12). `rereadQ` are the rung lines whose re-read waits (R486). -/
structure Link where
  hostAbsent : Bool
  up         : Bool
  flit256    : Bool
  cacheOn    : Bool
  memOn      : Bool
  width      : Nat
  rate       : Nat
  retrain    : Bool
  epoch      : Word32
  ats        : Bool
  stu        : Nat
  pasid      : Bool
  pri        : Bool
  viralOn    : Bool
  viral      : Bool
  hdmCommit  : Bool
  hdmError   : Bool
  hdmBase    : Nat
  hdmSize    : Nat
  rereadQ    : List Nat
  deriving DecidableEq, Repr

/-- A watched doorbell or fence line of host memory (R484, R486, R489, R544): held in S, a re-read outstanding, rung
meanwhile, and what the last read returned (no bytes before the first). -/
structure Watch where
  inS       : Bool
  rereading : Option OpId
  again     : Bool
  data      : List Byte
  poison    : Bool
  deriving DecidableEq, Repr

/-- An MSI-X vector (R502, R503). -/
structure Vec where
  addr    : Nat
  data    : Word32
  masked  : Bool
  pending : Bool
  holdoff : Bool
  again   : Bool
  deriving DecidableEq, Repr

/-- A started Hod descriptor (R493 to R498). `issued` counts the bytes of the range whose reads have been issued; `nsWrote`: a no-snoop write awaits its confirming read (R499); `todo` are the operations whose data is at
hand. -/
structure HodRun where
  ring    : Nat
  seq     : Nat
  ctx     : Nat
  kind    : Nat
  flags   : Byte
  gop     : Nat
  length  : Nat
  src     : Nat
  dst     : Nat
  fenceAddr : Nat
  fenceVal  : Word64
  tag     : Word64
  opsize  : Nat
  issued  : Nat
  nsWrote : Bool
  status  : Nat
  stopped : Bool
  todo    : List Run
  deriving DecidableEq, Repr

/-- A Hod engine (R497): its started descriptors and the ring that takes the next turn (R529). -/
structure Hod where
  started : List HodRun
  turn    : Nat
  deriving DecidableEq, Repr

/-! ## Contexts, rings, fences -/

/-- States of a context (R527); a context that is absent from the table is `FREE`. -/
inductive CtxState where
  | active | lost | destroying
  deriving DecidableEq, Repr

/-- A context (R525 to R528, R551, R559 to R561). -/
structure Ctx where
  state     : CtxState
  queue     : Nat
  pasid     : Nat
  security  : BitVec 12
  ttsbase   : Word64
  ntwin     : List Word64
  lossVec   : BitVec 16
  hostDep   : Bool
  fences    : List Nat
  pages     : Nat
  counters  : Table Nat
  destroyer : Option Nat
  flagged   : Bool
  lossDone  : Bool
  deriving DecidableEq, Repr

/-- States of a ring (R536). -/
inductive RingState where
  | run | halt | lost | stop
  deriving DecidableEq, Repr

/-- A ring (R529 to R538). `next` is the sequence number of the next entry to read, `done` the entries that completed out
of order at or above `oldest`, `started` those started and not completed (sequence number and bytes), `recorded` those of them
whose record, with its status, is written and whose fence waits for its translation (R498). -/
structure Ring where
  ctx      : Nat
  kind     : Nat
  flags    : Byte
  entries  : Nat
  log2n    : Nat
  engine   : Nat
  vector   : Nat
  compl    : Nat
  doorbell : Nat
  state    : RingState
  tail     : Nat
  next     : Nat
  passed   : Word64
  oldest   : Nat
  done     : List Nat
  started  : List (Nat × List Byte)
  recorded : List (Nat × Nat)
  destroyer : Option Nat
  deriving DecidableEq, Repr

/-- An admin queue (R519 to R523). -/
structure AdmQ where
  en      : Bool
  /-- `EN` has been written 1 and the record is being read. -/
  loading : Bool
  bad     : Bool
  ptrLo   : Word32
  ptrHi   : Word32
  log2n   : Nat
  inboxLog2 : Nat
  vector  : BitVec 16
  entries : Nat
  compl   : Nat
  doorbell : Nat
  inbox   : Nat
  tail    : Nat
  next    : Nat
  passed  : Word64
  busy    : Option (Nat × Word64)
  deriving DecidableEq, Repr

/-- An armed fence wait (R542 to R545). -/
structure FenceW where
  ring    : Nat
  seq     : Nat
  addr    : Nat
  pa      : Nat
  target  : Nat
  timeout : Nat
  watched : Bool
  deriving DecidableEq, Repr

/-! ## Bond ports and the securing engine -/

/-- A frame kept for replay (R569). -/
structure SentFrame where
  seq     : Nat
  key     : Bool
  msgs    : List BondMsg
  replays : Nat
  deriving DecidableEq, Repr

/-- A Bond port (file 14). `state`, `cause`, `lanes` and `rate` are coded as in R607. `keys` and `salts` hold the two places of the sending
direction at 0 and 1 and those of the receiving direction at 2 and 3; `key` and `rxKey` name the places in use. `owed` counts the
received slots, by channel, that are still to be returned; `secret` and `updates` are those of the session of its Kilns (R642). -/
structure Bond where
  state       : BitVec 4
  lanes       : BitVec 2
  rate        : BitVec 2
  level       : BitVec 3
  partnerChip : BitVec 11
  partnerPort : BitVec 5
  cause       : BitVec 3
  laneMask    : BitVec 3
  rateMask    : BitVec 3
  retraining  : Bool
  keys        : Table Nat
  salts       : Table Nat
  key         : Bool
  rxKey       : Bool
  txNum       : Nat
  rxNum       : Nat
  kept        : List SentFrame
  txQ         : List BondMsg
  credits     : Table Nat
  owed        : Table Nat
  secret      : Nat
  updates     : Nat
  deriving DecidableEq, Repr

/-- What the securing engine is doing (R591, R597, R602): `ARM`, whose `FEED` has been written or not, the securing of a step with the
pages that are still to be read, or a command, which reads what it needs before it runs. -/
inductive SecWork where
  | arm (fed : Bool)
  | step (n : Nat) (pages : List Nat)
  | command (op g : Nat) (runs : Bool)
  deriving DecidableEq, Repr

/-- A tensor record as the engine holds it (R588): its place in the table, and the size of the holder's buffers (R589). -/
structure SecTensor where
  record   : Nat
  base     : Nat
  size     : Nat
  span     : Nat
  areaOff  : Nat
  bitmap   : Nat
  method   : Nat
  assigned : Nat
  deriving DecidableEq, Repr

/-- The securing engine (R585 to R604): on, the work in hand, the tensors read at `ARM`, the bitmap that records now, the
pages whose writes are held (R598), the last `GLOBAL` that it saw (R599), and the lines that it has got from agents or the host for
the action in hand; its table and images lie in device memory. -/
structure Sec where
  on      : Bool
  work    : Option SecWork
  tensors : List SecTensor
  current : Nat
  held    : List Nat
  seen    : Nat
  got     : Table (List Byte × Bool)
  deriving DecidableEq, Repr

/-! ## Faults -/

/-- The syndrome of a fault (R631). -/
structure Syndrome where
  source   : Nat
  part     : Part
  instance_ : Nat
  ctx      : Option Nat
  addr     : Nat
  stamp    : Word64
  detail   : Word64
  level    : Option Nat
  deriving DecidableEq, Repr

/-- An entry of a reporting unit (R626): the first uncollected fault and the count of further ones. -/
structure UnitEntry where
  unit   : Nat
  first  : Syndrome
  more   : Nat
  deriving DecidableEq, Repr

/-- A latch record (R631). -/
structure Latch where
  valid : Bool
  ovf   : Bool
  esc   : Bool
  count : Nat
  syn   : Option Syndrome
  deriving DecidableEq, Repr

/-- Fault collection (file 15). Latches are keyed by level, and by 8 x (unit + 1) + level under `LOCAL`. -/
structure Flt where
  units   : List UnitEntry
  latches : Table Latch
  pend    : BitVec 128
  active  : BitVec 14
  masked  : BitVec 14
  wired   : Table Bool
  fatal   : Bool
  deriving DecidableEq, Repr

/-! ## Kiln -/

/-- TDI states of TDISP (R653 to R656). -/
inductive Tdi where
  | configUnlocked | configLocked | run | error
  deriving DecidableEq, Repr

/-- A key slot (R644, R649, R651). -/
structure Slot where
  pasid     : Nat
  queue     : Nat
  protected_ : Bool
  key       : Nat
  deriving DecidableEq, Repr

/-- An SPDM session (R640). -/
structure Session where
  transport : Transport
  finished  : Bool
  secret    : Nat
  updates   : Nat
  deriving DecidableEq, Repr

/-- A mailbox (R698, R699). -/
structure Mailbox where
  service  : Byte
  busy     : Bool
  status   : Byte
  data     : Table Word32
  imgFinal : Bool
  imgBusy  : Bool
  imgStatus : Byte
  imgAddr  : Word64
  imgLen   : Word32
  deriving DecidableEq, Repr

/-- A change of granules in progress (R650). -/
structure GranuleChange where
  mb    : Option Nat
  first : Nat
  count : Nat
  entry : BitVec 16
  deriving DecidableEq, Repr

/-- The keys of an IDE stream (R641): two sets and the set in use. -/
structure Ide where
  keys : Table Nat
  use  : Bool
  live : Bool
  deriving DecidableEq, Repr

/-- The Kiln (file 16, R698 to R702). The access table is keyed by granule. -/
structure Kiln where
  released   : Bool
  recovery   : Bool
  draws      : Nat
  fuses      : Fuses
  identity   : Nat
  measurements : Table Nat
  chain      : List Byte
  slots      : Table Slot
  access     : Table (BitVec 16)
  change     : List GranuleChange
  negotiated : Table Nat
  sessions   : Table Session
  ideIo      : Ide
  ideMem     : Ide
  tdi        : Tdi
  nonce      : Nat
  wdogPeriod : Nat
  coresOn    : Bool
  image      : List Byte
  mailboxes  : Table Mailbox
  answers    : Nat
  deriving DecidableEq, Repr

/-! ## Clocks, power, reset, debug -/

/-- A Course's power and clock (R664, R675 to R679, R692, R693, R697). `state` as `CLK_COURSE_CTL.STATE`. -/
structure Course where
  state    : BitVec 2
  on       : Bool
  refused  : Bool
  live     : Bool
  failed   : Bool
  spares   : Nat
  inReset  : Bool
  freq     : Nat
  duty     : Nat
  cause    : BitVec 4
  freqReq  : Option Nat
  deriving DecidableEq, Repr

/-- Clocks, reset and power (file 17). Counters are keyed by domain. -/
structure Clk where
  counters : Table (BitVec 56)
  captured : Table (BitVec 56 × Bool)
  mtime    : Word64
  level    : Nat
  est      : Nat
  alert    : Bool
  pgCourse : Bool
  pgPlinth : Bool
  pgLintel : Bool
  inCold   : Bool
  plinthOut : Bool
  coursesOut : Bool
  deriving DecidableEq, Repr

/-- The Debug Module and its transport (R680, R681). -/
structure Dbg where
  courses  : BitVec 12
  cores    : Byte
  dmactive : Bool
  hartsel  : Nat
  cmderr   : BitVec 3
  data0    : Word32
  data1    : Word32
  progbuf  : Table Word32
  resumeack : Bool
  haltreq  : Bool
  deriving DecidableEq, Repr

/-! ## The block -/

/-- The state of the block. `pending` is the queue of waiting commands, `ticket` the model's own count of free values
drawn (log 4), `sent` what the block has sent, newest last. Set-up registers with written fields lie in `regs` by set-up
offset; `captures` holds the captured high words of R690 and `staged` the high words written and not yet in effect. -/
structure State where
  build    : Build
  pending  : List Instr
  ticket   : Nat
  sent     : List Msg
  straps   : Straps
  regs     : Table Word32
  sealed_  : Bool
  captures : Table Word32
  staged   : Table Word32
  cores    : Table Core
  tiles    : Table Tile
  ops      : List RemoteOp
  idents   : Table Ident
  mortar   : Mortar
  home     : Home
  ctls     : Table Ctl
  mem      : Mem
  xlat     : Xlat
  jegons   : Table Jegon
  link     : Link
  watches  : Table Watch
  devWatch : Table Bool
  vecs     : Table Vec
  hods     : Table Hod
  ctxs     : Table Ctx
  rings    : Table Ring
  admqs    : Table AdmQ
  waits    : List FenceW
  inbox    : Nat × List (Nat × Nat)
  front    : List FrontRead
  bonds    : Table Bond
  sec      : Sec
  flt      : Flt
  kiln     : Kiln
  courses  : Table Course
  clk      : Clk
  dbg      : Dbg
  deriving DecidableEq, Repr

/-- The full build of file 01 in `D2D` mode with `COLLECTED` reporting. DESIGN CHOICE (log 1): a build is chosen by the
integrator; `COURSE_OVER_STACK` of Course c names stack c. -/
def Build.full : Build :=
  { courses := 12, tilesPerCourse := 16, stackCount := 12, bondPorts := 18, jegonPorts := 8, hodPairs := 16,
    serdes := false, localFaults := false, bridgeModules := 48, tensorClkMax := 4000,
    stackMask := [1, 2, 4, 8, 16, 32, 64, 128, 256, 512, 1024, 2048] }

/-- The Kiln after reset: not yet booted, every granule at 0x3000 (R645), no key slot, watchdog period 4 s (R659). -/
def Kiln.reset : Kiln :=
  { released := false, recovery := false, draws := 0, fuses := ⟨0, false, 0, 0⟩, identity := 0, measurements := [],
    chain := [], slots := [], access := [], change := [], negotiated := [], sessions := [],
    ideIo := ⟨[], false, false⟩, ideMem := ⟨[], false, false⟩, tdi := .configUnlocked, nonce := 0, wdogPeriod := 4,
    coresOn := false, image := [], mailboxes := [], answers := 0 }

/-- The state after reset: every register at the value that the spec states, or the value that log 1 names; nothing in
any buffer or queue; the block host-absent with epoch 0 (R514). -/
def State.reset : State :=
  { build := Build.full, pending := [], ticket := 0, sent := [], straps := ⟨0, 0, false⟩, regs := [], sealed_ := false,
    captures := [], staged := [], cores := [], tiles := [], ops := [], idents := [],
    mortar := ⟨[], [], []⟩,
    home := { filter := [], grout := [], txns := [], input := [], lineQ := [], retryQ := [], hdm := [], streams := [], hints := [],
              maint := [], pins := [], dataErr := [], tagErr := [], filterErr := [], inService := false },
    ctls := [],
    mem := { dev := [], devBad := [], devKey := [], zeroKey := 0, zeroKeys := [], host := [], hostBad := [], topMib := 0 },
    xlat := ⟨[], [], [], [], [], [], false⟩, jegons := [],
    link := { hostAbsent := true, up := false, flit256 := false, cacheOn := false, memOn := false, width := 0, rate := 0,
              retrain := false, epoch := 0, ats := false, stu := 0, pasid := false, pri := false, viralOn := false,
              viral := false, hdmCommit := false, hdmError := false, hdmBase := 0, hdmSize := 0, rereadQ := [] },
    watches := [], devWatch := [], vecs := [], hods := [], ctxs := [], rings := [], admqs := [], waits := [],
    inbox := (0, []), front := [], bonds := [],
    sec := { on := false, work := none, tensors := [], current := 0, held := [], seen := 0, got := [] },
    flt := { units := [], latches := [], pend := 0, active := 0, masked := 0, wired := [], fatal := false },
    kiln := Kiln.reset, courses := [],
    clk := { counters := [], captured := [], mtime := 0, level := 0, est := 0, alert := false, pgCourse := false,
             pgPlinth := false, pgLintel := false, inCold := true, plinthOut := false, coursesOut := false },
    dbg := { courses := 0, cores := 0, dmactive := false, hartsel := 0, cmderr := 0, data0 := 0, data1 := 0,
             progbuf := [], resumeack := false, haltreq := false } }

end Sys2Proof.Machine
end

