-- ==== Sys2Proof/Machine/Ops.lean ====
section
/-! DEFINITION. The named operations over tables, memory, registers and cores that every meaning shares. -/
namespace Sys2Proof.Machine

/-! ## Sparse tables -/

/-- The listed entry of a key. -/
def tfind {α : Type} : Table α → Nat → Option α
  | [], _ => none
  | (k', v) :: t, k => if k' = k then some v else tfind t k

/-- What a key reads as: its entry, or the default of an unlisted key. -/
def tget {α : Type} (d : Nat → α) (t : Table α) (k : Nat) : α := (tfind t k).getD (d k)

/-- Drops what is listed under a key. -/
def terase {α : Type} : Table α → Nat → Table α
  | [], _ => []
  | (k', v) :: t, k => if k' = k then terase t k else (k', v) :: terase t k

/-- Puts an entry at its place in a table of strictly rising keys. -/
def tinsert {α : Type} : Table α → Nat → α → Table α
  | [], k, v => [(k, v)]
  | (k', v') :: t, k, v =>
    if k < k' then (k, v) :: (k', v') :: t
    else if k = k' then (k, v) :: t
    else (k', v') :: tinsert t k v

/-- Writes a key in the canonical form: writing the default removes the entry. -/
def tset {α : Type} [DecidableEq α] (d : Nat → α) (t : Table α) (k : Nat) (v : α) : Table α :=
  if v = d k then terase t k else tinsert t k v

/-- The canonical form: keys strictly rising, no entry equal to its default. -/
def twf {α : Type} [DecidableEq α] (d : Nat → α) : Table α → Bool
  | [] => true
  | (k, v) :: t =>
    decide (v ≠ d k) && (match t with | [] => true | (k', _) :: _ => decide (k < k')) && twf d t

/-! ## Memory -/

/-- What a byte that nothing has written reads as: 0 (R175, R415; DESIGN CHOICE for host memory, log 14). -/
def memDefault : Nat → Byte := fun _ => 0

/-- One byte of memory. -/
def readByte (m : List Host.Cell) (a : Nat) : Byte := tget memDefault m a

/-- Writes one byte of memory. -/
def writeByte (m : List Host.Cell) (a : Nat) (v : Byte) : List Host.Cell := tset memDefault m a v

/-- Consecutive bytes. -/
def readBytes (m : List Host.Cell) (a n : Nat) : List Byte := (List.range n).map fun i => readByte m (a + i)

/-- Writes consecutive bytes. -/
def writeBytes (m : List Host.Cell) (a : Nat) : List Byte → List Host.Cell
  | [] => m
  | v :: vs => writeBytes (writeByte m a v) (a + 1) vs

/-- The canonical form of a memory. -/
def Memory.wf (m : List Host.Cell) : Bool := twf memDefault m

/-! ## Poison marks (R285, R425) -/

/-- The mark of the byte at an address. -/
def markAt (m : Marks) (a : Nat) : Bool := m.getLsbD (a / 64 % 4)

/-- The marks of the sectors in which bytes from an address lie, by whether each byte is poisoned. -/
def marksOf (a : Nat) (bad : Nat → Bool) (n : Nat) : Marks :=
  (List.range n).foldl (fun m i => if bad i then m ||| BitVec.ofNat 4 (2 ^ ((a + i) / 64 % 4)) else m) 0

/-- Every sector of a range is marked, or none. -/
def allMarks (a n : Nat) (bad : Bool) : Marks := marksOf a (fun _ => bad) n

/-- The marks of bytes that move from one address to another. -/
def moveMarks (m : Marks) (from_ dst n : Nat) : Marks := marksOf dst (fun i => markAt m (from_ + i)) n

/-! ## Outcomes -/

/-- What a command answers. -/
abbrev Out := Host.Outcome State Fault Refusal

/-- A command of a unit: its effect where the build has the unit; nothing acts on a unit that the build does not have (log 84). -/
def onUnit (present : Bool) (s t : State) : Out := .next (if present then t else s)

/-- Takes a fresh ticket for a free value (log 4). -/
def ticketed (s : State) : Nat × State := (s.ticket, { s with ticket := s.ticket + 1 })

/-- Sends a message. -/
def send (m : Msg) (s : State) : State := { s with sent := s.sent ++ [m] }

/-- Bit `i` of a word. -/
def bitOf {w : Nat} (v : BitVec w) (i : Nat) : Bool := v.getLsbD i

/-- Bits [hi:lo] of a word as a number. -/
def fieldOf {w : Nat} (v : BitVec w) (hi lo : Nat) : Nat := v.toNat / 2 ^ lo % 2 ^ (hi + 1 - lo)

/-- A Bool as a number. -/
def b2n (b : Bool) : Nat := if b then 1 else 0

/-- Runs an operation for every element of a list, from the left. -/
def forEach {α : Type} (l : List α) (f : α → State → State) (s : State) : State := l.foldl (fun s a => f a s) s

/-- Replaces the first element that meets a condition. -/
def replaceFirst {α : Type} (p : α → Bool) (f : α → α) : List α → List α
  | [] => []
  | a :: l => if p a then f a :: l else a :: replaceFirst p f l

/-- Removes the first element that meets a condition. -/
def removeFirst {α : Type} (p : α → Bool) : List α → List α
  | [] => []
  | a :: l => if p a then l else a :: removeFirst p l

/-! ## What the build has (R35, R165, R362) -/

def hasCourse (s : State) (c : Nat) : Bool := c < s.build.courses
def hasTile (s : State) (n : Nat) : Bool := n / 16 < s.build.courses && n % 16 < s.build.tilesPerCourse
def hasStack (s : State) (n : Nat) : Bool := n < s.build.stackCount
def hasBond (s : State) (p : Nat) : Bool := p < s.build.bondPorts
def hasJegon (s : State) (p : Nat) : Bool := p < s.build.jegonPorts
def hasHod (s : State) (e : Nat) : Bool := e < 2 * s.build.hodPairs

/-- Agents that are cores: Trowels, control cores, the Kiln (R362). -/
def hasCore (s : State) (n : Nat) : Bool := (n < 192 && hasTile s n) || (192 ≤ n && n ≤ 200)

/-- A caching agent of R362. -/
def hasAgent (s : State) (n : Nat) : Bool := hasCore s n || (201 ≤ n && n ≤ 208 && hasJegon s (n - 201))

def isTrowel (n : Nat) : Bool := n < 192

/-- A parameter set that the block accepts at build (R35): every parameter in its range, a stack mask for each Course that is not empty, and a
`TENSOR_CLK_MAX` of whole steps of 125 MHz. -/
def buildOk (b : Build) : Bool :=
  let within (lo hi n : Nat) : Bool := decide (lo ≤ n) && decide (n ≤ hi)
  within 1 12 b.courses && within 2 16 b.tilesPerCourse && b.tilesPerCourse % 2 == 0 && within 1 12 b.stackCount &&
    within 0 18 b.bondPorts && within 0 8 b.jegonPorts && within 1 16 b.hodPairs && within 4 48 b.bridgeModules &&
    b.bridgeModules % 4 == 0 && within 250 4000 b.tensorClkMax && b.tensorClkMax % 125 == 0 &&
    (List.range b.courses).all fun c => b.stackMask.getD c 0 != 0

/-! ## Records that no entry lists -/

def csrsDefault : Csrs :=
  { mie := false, mpie := false, mpp := .u, mtvec := 0, mscratch := 0, mepc := 0, mcause := 0, mtval := 0,
    meie := false, mtie := false, msie := false, meip := false, msip := false, tctl := false,
    tctx := 0, ttsbase := 0, ntwin := [], pmp := [], instret := 0, cycleAhead := 0, mtip := false, hpm := [] }

/-- A core after reset: control cores are held until the Kiln starts them (R636). A Trowel comes up in M mode, where the Tile monitor
holds it (R697). -/
def coreDefault (n : Nat) : Core :=
  { x := [], f := [], pc := 0, mode := .m, csr := csrsDefault, held := decide (192 ≤ n) && decide (n < 200), halted := false, prog := false,
    npc := 0, wait := none, storeBuf := [], ntBufs := [], ntHeld := [], late := [], resv := none, deferral := false, deferred := [],
    lines := [], fills := [], wb := [], icache := [], dcsr := 0, dpc := 0, triggers := [] }

def zeroBytes (n : Nat) : List Byte := List.replicate n 0

def tileDefault (_n : Nat) : Tile :=
  { td := [], queue := [], nextSeq := 0, counters := [], flags := 0, errLog := [], errOvf := false, barStatus := 0,
    store := [], bad := [], ecc := [], bound := none, prot := 0, clearing := false }

def ctlDefault (_n : Nat) : Ctl :=
  { neg := 0, rate := 0, height := 0, density := 0, live := 0, temp := 0, level := 0, slow := false, shutdown := false,
    wasLive := false, readQ := [], writeQ := [], draining := false, scrubNext := 0, corrLog := [], repairBusy := false,
    repairResult := 0, ieeeBusy := false, ieeeLen := 0 }

/-- A Jegon port after reset is quiesced: both acknowledges are raised (R695). -/
def jegonDefault (_n : Nat) : Jegon :=
  { en := false, quiesce := false, engineAck := true, blockAck := true, refusing := false, cause := 0, reset := false,
    owed := [], xlts := [], fills := [], wbs := [], barrier := none, heldMsgs := [], barStatus := 0, snoops := [], leaving := [],
    ctxEnds := [] }

def vecDefault (_n : Nat) : Vec :=
  { addr := 0, data := 0, masked := true, pending := false, holdoff := false, again := false }

def hodDefault (_n : Nat) : Hod := { started := [], turn := 0 }

def bondDefault (_n : Nat) : Bond :=
  { state := 0, lanes := 0, rate := 0, level := 0, partnerChip := 0, partnerPort := 0, cause := 0, laneMask := 0,
    rateMask := 0, retraining := false, keys := [], salts := [], key := false, rxKey := false, txNum := 0, rxNum := 0, kept := [],
    txQ := [], credits := [], owed := [], secret := 0, updates := 0 }

/-- A Course after a cold reset: powered, not yet live (R684: `ON` resets to 1, `STATE` to 0). -/
def courseDefault (_n : Nat) : Course :=
  { state := 0, on := true, refused := false, live := false, failed := false, spares := 0, inReset := true, freq := 0,
    duty := 0, cause := 0, freqReq := none }

def identDefault (_n : Nat) : Ident := { gen := 0, busy := false, quarantined := false }

def latchDefault (_n : Nat) : Latch := { valid := false, ovf := false, esc := false, count := 0, syn := none }

def mailboxDefault (_n : Nat) : Mailbox :=
  { service := 0, busy := false, status := 0, data := [], imgFinal := false, imgBusy := false, imgStatus := 0,
    imgAddr := 0, imgLen := 0 }

def admqDefault (_n : Nat) : AdmQ :=
  { en := false, loading := false, bad := false, ptrLo := 0, ptrHi := 0, log2n := 0, inboxLog2 := 0, vector := 0, entries := 0,
    compl := 0, doorbell := 0, inbox := 0, tail := 0, next := 0, passed := 0, busy := none }

/-- Access-table entries after reset (R645). -/
def granuleDefault (_n : Nat) : BitVec 16 := 0x3000

/-- Credits of a Bond channel: 256 slots (R572). -/
def creditDefault (_n : Nat) : Nat := 256

def zeroOf {α : Type} [OfNat α 0] (_n : Nat) : α := 0
def noB (_n : Nat) : Bool := false

/-! ## Reading and writing the parts of the state -/

def coreOf (s : State) (n : Nat) : Core := tget coreDefault s.cores n
def setCore (n : Nat) (c : Core) (s : State) : State := { s with cores := tset coreDefault s.cores n c }
def modCore (n : Nat) (f : Core → Core) (s : State) : State := setCore n (f (coreOf s n)) s

def tileOf (s : State) (n : Nat) : Tile := tget tileDefault s.tiles n
def setTile (n : Nat) (t : Tile) (s : State) : State := { s with tiles := tset tileDefault s.tiles n t }
def modTile (n : Nat) (f : Tile → Tile) (s : State) : State := setTile n (f (tileOf s n)) s

def ctlOf (s : State) (n : Nat) : Ctl := tget ctlDefault s.ctls n
def modCtl (n : Nat) (f : Ctl → Ctl) (s : State) : State :=
  { s with ctls := tset ctlDefault s.ctls n (f (ctlOf s n)) }

def jegonOf (s : State) (n : Nat) : Jegon := tget jegonDefault s.jegons n
def modJegon (n : Nat) (f : Jegon → Jegon) (s : State) : State :=
  { s with jegons := tset jegonDefault s.jegons n (f (jegonOf s n)) }

def vecOf (s : State) (n : Nat) : Vec := tget vecDefault s.vecs n
def modVec (n : Nat) (f : Vec → Vec) (s : State) : State := { s with vecs := tset vecDefault s.vecs n (f (vecOf s n)) }

def hodOf (s : State) (n : Nat) : Hod := tget hodDefault s.hods n
def modHod (n : Nat) (f : Hod → Hod) (s : State) : State := { s with hods := tset hodDefault s.hods n (f (hodOf s n)) }

def bondOf (s : State) (n : Nat) : Bond := tget bondDefault s.bonds n
def modBond (n : Nat) (f : Bond → Bond) (s : State) : State :=
  { s with bonds := tset bondDefault s.bonds n (f (bondOf s n)) }

def courseOf (s : State) (n : Nat) : Course := tget courseDefault s.courses n
def modCourse (n : Nat) (f : Course → Course) (s : State) : State :=
  { s with courses := tset courseDefault s.courses n (f (courseOf s n)) }

def admqOf (s : State) (n : Nat) : AdmQ := tget admqDefault s.admqs n
def modAdmq (n : Nat) (f : AdmQ → AdmQ) (s : State) : State :=
  { s with admqs := tset admqDefault s.admqs n (f (admqOf s n)) }

def mailboxOf (s : State) (n : Nat) : Mailbox := tget mailboxDefault s.kiln.mailboxes n
def modMailbox (n : Nat) (f : Mailbox → Mailbox) (s : State) : State :=
  { s with kiln := { s.kiln with mailboxes := tset mailboxDefault s.kiln.mailboxes n (f (mailboxOf s n)) } }

def ctxOf (s : State) (n : Nat) : Option Ctx := tfind s.ctxs n
def setCtx (n : Nat) (c : Ctx) (s : State) : State := { s with ctxs := tinsert s.ctxs n c }
def modCtx (n : Nat) (f : Ctx → Ctx) (s : State) : State :=
  match ctxOf s n with
  | some c => setCtx n (f c) s
  | none => s
def dropCtx (n : Nat) (s : State) : State := { s with ctxs := terase s.ctxs n }

def ringOf (s : State) (n : Nat) : Option Ring := tfind s.rings n
def setRing (n : Nat) (r : Ring) (s : State) : State := { s with rings := tinsert s.rings n r }
def modRing (n : Nat) (f : Ring → Ring) (s : State) : State :=
  match ringOf s n with
  | some r => setRing n (f r) s
  | none => s
def dropRing (n : Nat) (s : State) : State := { s with rings := terase s.rings n }

/-- `PX_EXT_STOP` is taken as active: Courses, Hod engines and Jegon requests stop (file 01, R629). -/
def extStopped (s : State) : Bool := bitOf s.flt.active 1 && !bitOf s.flt.masked 1

/-- A Tile's Course is live and not stopped (R616, R692). -/
def courseRuns (s : State) (c : Nat) : Bool :=
  (courseOf s c).live && !s.flt.fatal && !extStopped s

/-- The Lintel units run: no block-fatal fault is latched (R617). -/
def lintelRuns (s : State) : Bool := !s.flt.fatal

/-- Hod engines and Jegon ports run (R617). -/
def enginesRun (s : State) : Bool := lintelRuns s && !extStopped s

/-- Counts for a context's query record (R559): counter `k`. -/
def countCtx (c : Option Nat) (k n : Nat) (s : State) : State :=
  match c with
  | none => s
  | some i =>
    modCtx i (fun x => { x with counters := tset zeroOf x.counters k (min (2 ^ 64 - 1) (tget zeroOf x.counters k + n)) }) s

/-- Counters of the query record: busy cycles of tensor unit, vector unit and tile mover are 0 to 2. -/
def cntLinRd : Nat := 3
def cntLinWr : Nat := 4
def cntBondTx : Nat := 5
def cntBondRx : Nat := 6
def cntStackRd : Nat := 7
def cntStackWr : Nat := 8

/-! ## Set-up registers (R685): offsets and reset values -/

def offSeal : Nat := 0x18
def offPwrLimit : Nat := 0x100000
def offTick : Nat := 0x100008
def offPartCtl : Nat := 0x10000C
def offCorrCtl : Nat := 0x100010
def offFltCtl : Nat := 0x200114
def offFltLimit : Nat := 0x200200
def offFltSev (n : Nat) : Nat := 0x200400 + 4 * n
def offLinTimeout : Nat := 0x400004
def offRearm : Nat := 0x400008
def offEpoch : Nat := 0x40000C
def offLinDropCnt : Nat := 0x400018
def offLinDiscardCnt : Nat := 0x40001C
def offDbPoll : Nat := 0x400010
def offHoldoff : Nat := 0x400014
def offHodBytes (e : Nat) : Nat := 0x600000 + 0x1000 * e + 8
def offChip : Nat := 0x800000
def offWindow : Nat := 0x800004
def offWeight : Nat := 0x800100
def offStale (n : Nat) : Nat := 0x800200 + 4 * n
def offRoute (n : Nat) : Nat := 0x810000 + 4 * n
def offGrtCtl (n : Nat) : Nat := 0xA00000 + 0x20000 * n
def offPln (n : Nat) : Nat := 0x1000000 + 0x40000 * n
def offCorrCnt (n : Nat) : Nat := offPln n + 0x30
def offUncorrCnt (n : Nat) : Nat := offPln n + 0x34
def offTileCorr (n : Nat) : Nat := 0x2000000 + n / 16 * 0x100000 + n % 16 * 0x10000 + 0x104
def offBnd (p : Nat) : Nat := 0x3000000 + 0x20000 * p
def offBndErr (p : Nat) : Nat := offBnd p + 8
def offBndAuth (p : Nat) : Nat := offBnd p + 0xC
def offSecCtl : Nat := 0x3400000
def offSecBase : Nat := 0x3400004

/-- Default severity and floor of a fault source; none for a reserved code (R611). -/
def sourceLevels (s : State) (src : Nat) : Option (Nat × Nat) :=
  match src with
  | 0x01 => some (1, 0) | 0x02 => some (2, 0) | 0x03 => some (0, 0) | 0x05 => some (2, 2) | 0x06 => some (2, 2)
  | 0x10 => some (2, 0) | 0x11 => some (2, 0) | 0x18 => some (1, 0) | 0x19 => some (2, 0) | 0x1A => some (4, 4)
  | 0x20 => some (1, 0) | 0x21 => some (2, 0) | 0x22 => some (4, 4) | 0x23 => some (4, 4) | 0x24 => some (5, 5)
  | 0x25 => some (0, 0) | 0x28 => some (2, 0) | 0x29 => some (4, 4) | 0x30 => some (1, 0) | 0x31 => some (0, 0)
  | 0x38 => some (3, 0) | 0x39 => some (3, 3) | 0x3A => some (3, 3) | 0x3B => some (1, 0) | 0x3C => some (2, 0)
  | 0x3D => some (0, 0) | 0x40 => some (2, 0) | 0x41 => some (1, 0) | 0x48 => some (2, 0) | 0x49 => some (2, 0)
  | 0x4A => some (2, 0) | 0x50 => some (2, 2) | 0x51 => some (2, 0) | 0x58 => some (2, 0) | 0x59 => some (5, 5)
  | n => if 0x60 ≤ n && hasJegon s (n - 0x60) then some (0, 0) else none

/-- The partition of a source (R611). -/
def sourcePart (src : Nat) : Part :=
  if src ≤ 3 || src = 0x28 then .course else if 0x10 ≤ src && src ≤ 0x25 then .plinth else .lintel

/-- The reset value of the written fields of a register (R683, R685 and the tables it names). -/
def resetWord (s : State) (off : Nat) : Word32 :=
  if off = offTick then 0x64
  else if 0x100100 ≤ off && off < 0x100130 then 0x80000000
  else if off = offFltCtl then 0x3F0007F8
  else if off = offFltLimit then 0x64
  else if 0x200400 ≤ off && off < 0x200600 then
    match sourceLevels s ((off - 0x200400) / 4) with
    | some (l, _) => BitVec.ofNat 32 (0x80 + l)
    | none => 0
  else if off = offLinTimeout then 0x31
  else if off = offChip then 0x00010000
  else if off = offWeight then 0x00080401
  else if 0xA00000 ≤ off && off < 0xB80000 then (if off % 0x20000 = 0 then 3 else 0)
  else if 0x1000000 ≤ off && off < 0x1300000 then
    match off % 0x40000 with
    | 0x0 => 0x04000000
    | 0x10 => 0x69645F55
    | 0x20 => 0x80000018
    | _ => 0
  else if off = offSecCtl then 0x0220001C
  else 0

/-- The written fields of a set-up register. -/
def reg (s : State) (off : Nat) : Word32 := tget (resetWord s) s.regs off
def setReg (off : Nat) (v : Word32) (s : State) : State := { s with regs := tset (resetWord s) s.regs off v }

/-- Adds to a counter register, saturating (R387, R438, R608). -/
def countReg (off n : Nat) (s : State) : State :=
  setReg off (BitVec.ofNat 32 (min 0xFFFFFFFF ((reg s off).toNat + n))) s

/-! ## Chip numbers, windows and kinds of memory (R260 to R271, R279, R302) -/

def chipValid (s : State) : Bool := bitOf (reg s offChip) 31
def chipCount (s : State) : Nat := fieldOf (reg s offChip) 27 16
def chipSelf (s : State) : Nat := fieldOf (reg s offChip) 10 0
def windowBase (s : State) : Nat := fieldOf (reg s offWindow) 16 0 * 2 ^ 40

/-- The top of device memory (R262). -/
def hdmTop (s : State) : Nat := s.mem.topMib.toNat * 2 ^ 20

/-- Physical keys: an own local offset is below 2^40, host memory starts at 2^56, other chips' local spaces at 2^57. -/
def hostKey (hpa : Nat) : Nat := 2 ^ 56 + hpa
def remoteKey (chip off : Nat) : Nat := 2 ^ 57 + chip * 2 ^ 40 + off

/-- The key of a block physical address (R263, R264). -/
def blockKey (s : State) (chip off : Nat) : Nat := if chip = chipSelf s then off else remoteKey chip off

/-- Sorts a host physical address (R265, R270). -/
def sortHost (s : State) (h : Nat) : Nat :=
  let base := windowBase s
  if chipValid s && decide (base ≤ h) && decide (h < base + chipCount s * 2 ^ 40) then
    let b := h - base
    blockKey s (b / 2 ^ 40 % 2 ^ 11) (b % 2 ^ 40)
  else hostKey h

/-- Sorts an agent address; none where it breaks the layout (R279, R280, R708). -/
def sortAgent (s : State) (a : Nat) : Option Nat :=
  if a / 2 ^ 56 % 2 = 1 then
    if a / 2 ^ 57 = 0 && a / 2 ^ 52 % 16 = 0 then some (sortHost s (a % 2 ^ 52)) else none
  else if a / 2 ^ 51 = 0 then some (blockKey s (a / 2 ^ 40 % 2 ^ 11) (a % 2 ^ 40)) else none

/-- Where an address lands. -/
inductive Place where
  | dev (off : Nat)
  | tile (n off : Nat)
  | grout (off : Nat)
  | setup (off : Nat)
  | hole
  | remote (chip off : Nat)
  | host (hpa : Nat)
  deriving DecidableEq, Repr

def tileBase : Nat := 0xC000000000

/-- The tile-store window of a Tile in the local space (R170). -/
def tileWindow (n : Nat) : Nat := tileBase + n / 16 * 0x4000000 + n % 16 * 0x400000

/-- Places an own local offset (R260, R261). -/
def placeLocal (s : State) (off : Nat) : Place :=
  if off < hdmTop s then .dev off
  else if tileBase ≤ off && off < tileBase + 0x30000000 then
    let r := off - tileBase
    let n := r / 0x4000000 * 16 + r % 0x4000000 / 0x400000
    let o := r % 0x400000
    if hasTile s n && decide (o < 0x200000) && (courseOf s (n / 16)).live then .tile n o else .hole
  else if 0xD000000000 ≤ off && off < 0xE000000000 then .grout (off - 0xD000000000)
  else if 0xF000000000 ≤ off && off < 0xF004000000 then .setup (off - 0xF000000000)
  else .hole

/-- Places a physical key. -/
def placeOf (s : State) (pa : Nat) : Place :=
  if pa < 2 ^ 40 then placeLocal s pa
  else if 2 ^ 57 ≤ pa then .remote ((pa - 2 ^ 57) / 2 ^ 40) ((pa - 2 ^ 57) % 2 ^ 40)
  else .host (pa - 2 ^ 56)

/-- Own device memory and host memory are cacheable (R302). -/
def Place.cacheable : Place → Bool
  | .dev _ => true
  | .host _ => true
  | _ => false

/-! ## Clocks and stamps (R661, R665, R666) -/

/-- The cycle counter of a clock domain. -/
def cyclesOf (s : State) (d : Nat) : BitVec 56 := tget zeroOf s.clk.counters d

/-- A stamp of a domain. -/
def stampOf (s : State) (d : Nat) : Word64 := BitVec.ofNat 64 (d * 2 ^ 56 + (cyclesOf s d).toNat)

/-! ## Faults (R611, R626) -/

/-- Fault sources of R611. -/
def srcTileCorr : Nat := 0x01
def srcTileBad : Nat := 0x02
def srcGroutCorr : Nat := 0x18
def srcGroutBad : Nat := 0x19
def srcGroutTag : Nat := 0x1A
def srcErrOvf : Nat := 0x03
def srcJegSnoop : Nat := 0x05
def srcJegXlt : Nat := 0x06
def srcCoherence : Nat := 0x10
def srcBiTimeout : Nat := 0x11
def srcStackCorr : Nat := 0x20
def srcStackBad : Nat := 0x21
def srcChannel : Nat := 0x22
def srcNoStack : Nat := 0x23
def srcCritical : Nat := 0x24
def srcSlow : Nat := 0x25
def srcCrossing : Nat := 0x28
def srcBridge : Nat := 0x29
def srcGateRefused : Nat := 0x30
def srcPwrUnmet : Nat := 0x31
def srcXlt : Nat := 0x38
def srcOverrun : Nat := 0x39
def srcReread : Nat := 0x3A
def srcRasUncorr : Nat := 0x3C
def srcHostAbsent : Nat := 0x3D
def srcBondAuth : Nat := 0x40
def srcBondDown : Nat := 0x41
def srcFeed : Nat := 0x48
def srcSecSend : Nat := 0x49
def srcBreach : Nat := 0x4A
def srcWiring : Nat := 0x50
def srcStuck : Nat := 0x51
def srcWdog : Nat := 0x58
def srcIntegrity : Nat := 0x59

/-- Numbers of reporting units (DESIGN CHOICE, log 15). -/
def unitTile (n : Nat) : Nat := n
def unitSlice (n : Nat) : Nat := 200 + n
def unitCtl (n : Nat) : Nat := 216 + n
def unitBond (p : Nat) : Nat := 232 + p
def unitJegon (p : Nat) : Nat := 256 + p
def unitMor : Nat := 272
def unitLin : Nat := 273
def unitClk : Nat := 274
def unitFlt : Nat := 275

/-- The clock domain in which a reporting unit runs (R666). -/
def unitDomain (u : Nat) : Nat :=
  if u < 192 then u / 16 else if u < 216 then 25 + (u - 200) else if u < 232 then 25 + (u - 216)
  else if u < 256 then 55 + (u - 232) else if u < 264 then 91 + (u - 256) else if u = unitMor then 24
  else if u = unitLin then 53 else 108

/-- A unit reports a fault: the first of a source keeps its syndrome, further ones are counted (R626). -/
def raiseSyn (u : Nat) (y : Syndrome) (s : State) : State :=
  let same (e : UnitEntry) : Bool := e.unit = u && e.first.source = y.source
  let es := s.flt.units
  let es' := if es.any same then replaceFirst same (fun e => { e with more := e.more + 1 }) es else es ++ [⟨u, y, 0⟩]
  { s with flt := { s.flt with units := es' } }

/-- Reports a fault of a source, without a level of its own. -/
def raise (u src inst : Nat) (ctx : Option Nat) (addr : Nat) (detail : Word64) (s : State) : State :=
  raiseSyn u { source := src, part := sourcePart src, instance_ := inst, ctx := ctx, addr := addr,
               stamp := stampOf s (unitDomain u), detail := detail, level := none } s

/-! ## Identifiers (R383 to R387) -/

def pathHome : Nat := 0
def pathCtl : Nat := 1
def pathBridge : Nat := 2
def pathHost : Nat := 3
def pathBond : Nat := 4
def pathJegon : Nat := 5

/-- Entries of a path (R383). -/
def pathSize : Nat → Nat
  | 0 => 1024 | 1 => 512 | 2 => 4096 | 3 => 2048 | 4 => 1024 | 5 => 256
  | _ => 0

/-- Generations of a path (R383). -/
def pathGens : Nat → Nat
  | 0 => 4 | 1 => 4 | 2 => 4 | 3 => 2 | 4 => 64
  | _ => 1

def identKey (path unit index : Nat) : Nat := path * 2 ^ 40 + unit * 2 ^ 20 + index
/-- The path of a key. -/
def identPath (key : Nat) : Nat := key / 2 ^ 40

def identOf (s : State) (path unit index : Nat) : Ident := tget identDefault s.idents (identKey path unit index)
def setIdent (path unit index : Nat) (i : Ident) (s : State) : State :=
  { s with idents := tset identDefault s.idents (identKey path unit index) i }

/-- The lowest free index of a path, at most `n` tries from index `i` (DESIGN CHOICE, log 16). -/
def freeIndex (s : State) (path unit : Nat) : Nat → Nat → Option Nat
  | 0, _ => none
  | n + 1, i =>
    let d := identOf s path unit i
    if d.busy || d.quarantined then freeIndex s path unit n (i + 1) else some i

/-- Takes an identifier; none where every entry is in use. -/
def takeId (path unit : Nat) (s : State) : Option (OpId × State) :=
  match freeIndex s path unit (pathSize path) 0 with
  | some i =>
    let d := identOf s path unit i
    some (⟨path, unit, i, d.gen⟩, setIdent path unit i { d with busy := true } s)
  | none => none

/-- Releases an identifier: its generation advances, and after a timeout or reset it is quarantined (R384, R385). -/
def releaseId (id : OpId) (quarantine : Bool) (s : State) : State :=
  let d := identOf s id.path id.unit id.index
  setIdent id.path id.unit id.index
    { gen := (d.gen + 1) % pathGens id.path, busy := false, quarantined := quarantine } s

/-- Releases the identifier of a use that has completed, where it had one. -/
def releaseDone (id : Option OpId) (s : State) : State :=
  match id with
  | some i => releaseId i false s
  | none => s

/-- Whether an identifier is in use under its current generation. -/
def idCurrent (s : State) (id : OpId) : Bool :=
  let d := identOf s id.path id.unit id.index
  d.busy && d.gen == id.gen

/-- Drops a message of an old generation and ends its quarantine (R384, R385). -/
def dropStale (id : OpId) (s : State) : State :=
  let d := identOf s id.path id.unit id.index
  countReg (offStale id.path) 1 (setIdent id.path id.unit id.index { d with quarantined := false } s)

/-! ## Line hash (R388 to R390, R417) -/

/-- Capacity of a live stack in MiB: live channels x height x density (R417). -/
def capMib (s : State) (n : Nat) : Nat :=
  let c := ctlOf s n
  let chans := ((List.range 32).filter fun i => bitOf c.live i).length
  chans * (8 + 4 * c.height.toNat) * (16 + 8 * c.density.toNat) * 4

/-- The live stacks of the build (R388): one that shuts down or fails keeps its place in the hash until the Plinth is reset. -/
def liveStacks (s : State) : List Nat :=
  (List.range s.build.stackCount).filter fun n =>
    let c := ctlOf s n
    c.neg == 5 || (c.wasLive && (c.neg == 7 || c.neg == 8))

def fold8 (q : Nat) : Nat := (q ^^^ q / 2 ^ 5 ^^^ q / 2 ^ 11 ^^^ q / 2 ^ 19) % 256

/-- Sorts ascending and drops repeats. -/
def insertSorted (a : Nat) : List Nat → List Nat
  | [] => [a]
  | b :: l => if a < b then a :: b :: l else if a = b then b :: l else b :: insertSorted a l

/-- The distinct capacities of the live stacks in 256-byte lines, ascending. -/
def tierLevels (s : State) : List Nat := ((liveStacks s).map fun n => capMib s n * 4096).foldr insertSorted []

/-- `device_home` of R389: the home slice of a 256-byte line and the line's number within its stack. -/
def tierHome (s : State) (line : Nat) : List Nat → Nat → Nat → Nat × Nat
  | [], _, _ => (0, 0)
  | c :: cs, base, prev =>
    let set := (liveStacks s).filter fun n => c ≤ capMib s n * 4096
    let n := set.length
    if line < base + n * (c - prev) then
      let t := line - base
      (set.getD ((t % n + fold8 (t / n)) % n) 0, prev + t / n)
    else tierHome s line cs (base + n * (c - prev)) c

def deviceHome (s : State) (off : Nat) : Nat × Nat := tierHome s (off / 256) (tierLevels s) 0 0

/-- `host_home` of R389 with the line number that R390 uses. -/
def hostHome (s : State) (h : Nat) : Nat × Nat :=
  let n := (liveStacks s).length
  let t := h / 256
  if n = 0 then (0, 0) else ((liveStacks s).getD ((t % n + fold8 (t / n)) % n) 0, t / n)

/-- Whether a key is one of host memory. -/
def isHost (pa : Nat) : Bool := 2 ^ 56 ≤ pa && pa < 2 ^ 57

/-- The home slice of a key and its line number. -/
def homeOf (s : State) (pa : Nat) : Nat × Nat := if isHost pa then hostHome s (pa - 2 ^ 56) else deviceHome s pa

def sliceOf (s : State) (pa : Nat) : Nat := (homeOf s pa).1

/-! ## Mortar (R350 to R360) -/

/-- An arbiter output at which nothing waits; its TC0 bucket is full with 16 units (R356). -/
def arbDefault (_n : Nat) : Arbiter := { bucket := 320, turn := 1, classes := [], inTurn := [], inputs := [] }

def arbOf (s : State) (o : Nat) : Arbiter := tget arbDefault s.mortar.arbs o
def modMortar (f : Mortar → Mortar) (s : State) : State := { s with mortar := f s.mortar }
def setArb (o : Nat) (a : Arbiter) (s : State) : State := modMortar (fun m => { m with arbs := tset arbDefault m.arbs o a }) s

/-- Outputs: the crossing of a Course and the bridge toward the homes, the input of a slice, the ways back, and the input of an agent. -/
def outCourse (c : Nat) : Nat := c
def outBridge : Nat := 12
def outSlice (n : Nat) : Nat := 16 + n
def outDown (c : Nat) : Nat := 32 + c
def outBridgeDown : Nat := 44
def outAgent (a : Nat) : Nat := 64 + a

/-- Numbers of the sources of R358; those of caching agents are their agent numbers. The front end and the securing engine, which R358
does not list, have numbers of their own (log 92). -/
def sourceNo : Src → Nat
  | .core n => n
  | .mover n => 256 + n
  | .hod e => 512 + e
  | .jegon p => 201 + p
  | .host => 600
  | .bond p => 640 + p
  | .securing => 700
  | .lintel => 701

/-- The first output of a source: the crossing of its Course, or the bridge. -/
def upOut (source : Nat) : Nat :=
  if source < 192 then outCourse (source / 16)
  else if 256 ≤ source && source < 448 then outCourse ((source - 256) / 16) else outBridge

/-- The traffic class of a core's own requests (R354). -/
def agentTc (n : Nat) : BitVec 2 := if isTrowel n then 1 else 0

/-- Messages that the end of a path takes, for each class and virtual channel: two write-backs of an agent at a home (R353), and 64
otherwise (DESIGN CHOICE, log 92). -/
def creditLimit : MClass → Nat
  | .evict => 2
  | _ => 64

def clsNo : MClass → Nat
  | .ask => 0 | .evict => 1 | .probe => 2 | .reply => 3 | .data => 4

/-- The virtual channel of a traffic class (R350). -/
def vcOf (tc : BitVec 2) : Nat := if tc = 0 then 0 else 1

/-- The credits that a message takes at the end of its path: those of its class and channel, and at a home those of its agent for a
write-back (R350, R353). -/
def creditKey (out : Nat) (cls : MClass) (tc : BitVec 2) (source : Nat) : Nat :=
  match cls with
  | .evict => 2 ^ 20 + out * 1024 + source
  | _ => out * 16 + clsNo cls * 2 + vcOf tc

/-- The next hop has a credit for a waiting message (R351): the end of its path, or the buffer before its next arbiter. -/
def hasCredit (s : State) (p : Packet) : Bool :=
  match p.outs with
  | [] => false
  | [o] => tget zeroOf s.mortar.used (creditKey o p.cls p.tc p.source) < creditLimit p.cls
  | o :: _ => (s.mortar.waiting.filter fun q => q.from_ == some o && q.cls == p.cls && vcOf q.tc == vcOf p.tc).length < 64

/-- The input of an output by which a message comes: the output before it on its path, or its source. -/
def inputAt (o : Nat) (from_ : Option Nat) (source : Nat) : List Nat → Option Nat
  | [] => none
  | x :: xs => if x = o then some (from_.getD (1024 + source)) else inputAt o (some x) source xs

/-- The count of active sources of a class behind an input of an output, saturating (R358). -/
def activeCount (s : State) (o input : Nat) (tc : BitVec 2) : Nat :=
  min 1023 (((s.mortar.waiting.filter fun p => p.tc == tc && inputAt o p.from_ p.source p.outs == some input).map
    fun p => p.source).eraseDups).length

/-- The key after one in a round, the first key where none follows. -/
def nextKey (heads : List (Nat × Nat)) (turn : Nat) : Option Nat :=
  let after := heads.filter fun h => decide (turn < h.1)
  (if after.isEmpty then heads else after).foldl (fun (m : Option Nat) h => some (min (m.getD h.1) h.1)) none

/-- One grant by deficit round robin among keys with the sizes of their first messages: a key whose deficit does not cover its message
gives the turn to the next key, which gains its quantum. -/
def drr (quantum : Nat → Nat) (heads : List (Nat × Nat)) : Nat → Nat → Table Nat → Option (Nat × Nat × Table Nat)
  | 0, _, _ => none
  | f + 1, turn, ds =>
    match heads.find? fun h => h.1 == turn && decide (h.2 ≤ tget zeroOf ds turn) with
    | some (k, n) => some (k, turn, tset zeroOf ds k (tget zeroOf ds k - n))
    | none => match nextKey heads turn with
      | none => none
      | some k => drr quantum heads f k (tset zeroOf ds k (tget zeroOf ds k + quantum k))

/-- The first waiting message of each key. -/
def headsOf (key : Packet → Nat) (ps : List Packet) : List (Nat × Nat) :=
  ((ps.map key).eraseDups).filterMap fun k => (ps.find? fun p => key p == k).map fun p => (k, p.units)

/-- The weight of a class (R357): 0 acts as 1. -/
def classWeight (s : State) (c : Nat) : Nat := max 1 (fieldOf (reg s offWeight) (8 * (3 - c) + 7) (8 * (3 - c)))

/-- The class in which a message is arbitrated at an output: TC0 becomes TC1 where the bucket does not cover it (R356). -/
def arbClass (a : Arbiter) (p : Packet) : Nat := if p.tc = 0 && decide (a.bucket < 20 * p.units) then 1 else p.tc.toNat

/-- The key of an input within a class. -/
def inputKey (o c : Nat) (p : Packet) : Nat := c * 4096 + (inputAt o p.from_ p.source p.outs).getD 0

/-- The message that an output grants next, with its arbiter afterwards (R355 to R360): TC0 first, then a message that has waited for
256 ns, then the classes in the ratio of their weights; within a class the inputs by deficit round robin, with four units for each
active source behind them. -/
def pickAt (s : State) (o : Nat) : Option (Packet × Arbiter) :=
  let a := arbOf s o
  let ready := s.mortar.waiting.filter fun p => p.outs.head? == some o && hasCredit s p
  let inClass (c : Nat) : List Packet := ready.filter fun p => arbClass a p == c
  let byInput (c : Nat) (a : Arbiter) : Option (Packet × Arbiter) :=
    let heads := headsOf (inputKey o c) (inClass c)
    let share (k : Nat) : Nat := 4 * max 1 (activeCount s o (k % 4096) (BitVec.ofNat 2 c))
    match drr share heads (2 * heads.length + 4) (tget zeroOf a.inTurn c) a.inputs with
    | none => none
    | some (k, turn, ds) => (inClass c).find? (fun p => inputKey o c p == k) |>.map fun p =>
      (p, { a with inTurn := tset zeroOf a.inTurn c turn, inputs := ds,
                   bucket := if c = 0 then a.bucket - 20 * p.units else a.bucket })
  if !(inClass 0).isEmpty then byInput 0 a
  else match ready.find? fun p => p.aged with
    | some p => some (p, a)
    | none => match drr (fun c => 4 * classWeight s c) (headsOf (arbClass a) ready) 16 a.turn a.classes with
      | none => none
      | some (c, turn, ds) => byInput c { a with turn := turn, classes := ds }

/-- A granted message takes its next hop: it reaches the end of its path, or waits at the next arbiter. An arbiter at which nothing
waits any longer forgets its turns and deficits. -/
def grantAt (o : Nat) (p : Packet) (a : Arbiter) (s : State) : State :=
  let s := modMortar (fun m => { m with waiting := removeFirst (· = p) m.waiting }) s
  let idle := !s.mortar.waiting.any fun q => q.outs.head? == some o
  let s := setArb o (if idle then { arbDefault 0 with bucket := a.bucket } else a) s
  match p.outs with
  | _ :: rest =>
    if rest.isEmpty then
      let k := creditKey o p.cls p.tc p.source
      let s := modMortar (fun m => { m with used := tset zeroOf m.used k (tget zeroOf m.used k + 1) }) s
      match p.load with
      | .msg m => send m s
      | .req line r => { s with home := { s.home with input := s.home.input ++ [(line, r)] } }
    else modMortar (fun m => { m with waiting := m.waiting ++ [{ p with from_ := some o, outs := rest, aged := false }] }) s
  | [] => s

/-- Arbiters grant until every waiting message lacks a credit. -/
def pumpMortar : Nat → State → State
  | 0, s => s
  | n + 1, s =>
    match ((s.mortar.waiting.filterMap fun p => p.outs.head?).eraseDups).findSome?
        (fun o => (pickAt s o).map fun g => (o, g)) with
    | some (o, p, a) => pumpMortar n (grantAt o p a s)
    | none => s

/-- Steps that suffice: every waiting message has at most two hops to go. -/
def runMortar (s : State) : State := pumpMortar (2 * s.mortar.waiting.length + 2) s

/-- A message enters Mortar. -/
def carry (cls : MClass) (tc : BitVec 2) (source : Nat) (outs : List Nat) (units : Nat) (load : Load) (s : State) : State :=
  runMortar (modMortar (fun m => { m with
    waiting := m.waiting ++ [⟨cls, tc, source, none, outs, units, false, load⟩] }) s)

/-- The end of a path has taken a message: its credit goes back (R350, R353). -/
def giveBack (out : Nat) (cls : MClass) (tc : BitVec 2) (source : Nat) (s : State) : State :=
  let k := creditKey out cls tc source
  runMortar (modMortar (fun m => { m with used := tset zeroOf m.used k (tget zeroOf m.used k - 1) }) s)

/-- Units of 64 bytes of a message with `n` bytes of data. -/
def unitsOf (n : Nat) : Nat := max 1 ((n + 63) / 64)

/-- A request or a write-back leaves toward the home of a key. -/
def carryUp (cls : MClass) (tc : BitVec 2) (source pa bytes : Nat) (m : Msg) (s : State) : State :=
  carry cls tc source [upOut source, outSlice (sliceOf s pa)] (unitsOf bytes) (.msg m) s

/-- A probe leaves the home of a line toward an agent. -/
def carryProbe (tc : BitVec 2) (agent line : Nat) (m : Msg) (s : State) : State :=
  carry .probe tc (1024 + sliceOf s (line * 64))
    [if agent < 192 then outDown (agent / 16) else outBridgeDown, outAgent agent] 1 (.msg m) s

/-! ## Bond transmission (R566, R569, R572) -/

def bondUp (s : State) (p : Nat) : Bool := (bondOf s p).state == 4

/-- Slots of a message: a header slot and whole data slots (R566). -/
def msgSlots : BondMsg → Nat
  | .op k _ _ _ _ _ _ _ _ d c _ _ _ _ => 1 + (match k with | .get => 0 | _ => (d.length + c.length + 15) / 16)
  | .rsp _ _ _ _ d _ _ => 1 + (d.length + 15) / 16

/-- The channel of a message: class, then TC0 or not, then VC (R572). Responses travel in TC1 to TC3's channel, since a
response carries no class of its own (DEDUCED, log 17). -/
def msgChannel : BondMsg → Nat
  | .op _ _ _ tc _ _ _ _ _ _ _ _ _ _ vc1 => (if tc = 0 then 0 else 2) + b2n vc1
  | .rsp _ _ _ _ _ _ vc1 => 6 + b2n vc1

/-- What a message must not overtake: its channel, and for an ordered operation the ordered operations of its source and target chips
(R276, R336). -/
def msgLanes (m : BondMsg) : List Nat :=
  msgChannel m :: match m with
    | .op _ _ ord _ src dst _ _ _ _ _ _ _ _ _ => if ord then [16 + src * 2048 + dst] else []
    | .rsp _ _ _ _ _ _ _ => []

/-- Takes messages for one frame: whole messages, in order, that the 30 slots and the credits admit. A message without
credits keeps its place and holds back only its own channel and the ordered operations of its pair of chips. -/
def fillFrame : List BondMsg → Table Nat → Nat → List Nat → List BondMsg × List BondMsg × Table Nat
  | [], cr, _, _ => ([], [], cr)
  | m :: ms, cr, room, stuck =>
    let n := msgSlots m
    let ch := msgChannel m
    if n ≤ room && n ≤ tget creditDefault cr ch && !(msgLanes m).any stuck.contains then
      let (a, b, c) := fillFrame ms (tset creditDefault cr ch (tget creditDefault cr ch - n)) (room - n) stuck
      (m :: a, b, c)
    else
      let (a, b, c) := fillFrame ms cr room (msgLanes m ++ stuck)
      (a, m :: b, c)

/-- The credits that the next frame returns: those of the lowest channel that owes some, as many as 12 bits hold. -/
def takeOwed (b : Bond) : BitVec 4 × Nat × Table Nat :=
  match b.owed with
  | [] => (0, 0, [])
  | (c, n) :: _ => (BitVec.ofNat 4 c, min n 4095, tset zeroOf b.owed c (n - min n 4095))

/-- The place of the pair that the latest key has entered (R570): 0 at first, and the other one after each update. -/
def latestKey (b : Bond) : Bool := b.updates % 2 == 1

/-- A key has been installed to which the transmitter has not changed (R570). -/
def keyDue (b : Bond) : Bool := b.key != latestKey b

/-- The transmitter changes `KEY` at a frame boundary, once every frame under the old key is acknowledged; frames are numbered from 0 under
the new one, so that an `ACK` names the frames of one key (R567, R570; DEDUCED, log 63). -/
def turned (b : Bond) : Bond := if keyDue b && b.kept.isEmpty then { b with key := !b.key, txNum := 0 } else b

/-- A frame of messages leaves: it takes the next number, acknowledges what has arrived, returns credits and is kept (R566, R567, R569). -/
def sendFrame (p : Nat) (msgs : List BondMsg) (s : State) : State :=
  let b := bondOf s p
  let (vc, n, owed) := takeOwed b
  send (.bondData p b.txNum b.key (BitVec.ofNat 16 b.rxNum) vc n msgs)
    (modBond p (fun b => { b with owed := owed, txNum := b.txNum + 1, kept := b.kept ++ [⟨b.txNum, b.key, msgs, 0⟩] }) s)

/-- Sends frames of a port while it is up, holds messages that its credits admit, and keeps fewer than 1,024 frames; none while it waits
to change its key. -/
def bondPump (p : Nat) : Nat → State → State
  | 0, s => s
  | n + 1, s =>
    let b := bondOf s p
    if b.state == 4 && !b.retraining && !keyDue b && !b.txQ.isEmpty && decide (b.kept.length < 1024) then
      let (a, rest, cr) := fillFrame b.txQ b.credits 30 []
      if a.isEmpty then s
      else
        bondPump p n (sendFrame p a (modBond p (fun b => { b with txQ := rest, credits := cr }) s))
    else s

/-- Queues a message on a port and sends what can leave. -/
def bondSend (p : Nat) (m : BondMsg) (s : State) : State :=
  let s := modBond p (fun b => { b with txQ := b.txQ ++ [m] }) s
  bondPump p ((bondOf s p).txQ.length) s

/-! ## Routes (R272 to R278) -/

/-- The ports of a route entry; none where the entry is invalid (R272, R274). -/
def routeOf (s : State) (chip : Nat) : Option (Nat × List Nat) :=
  let e := reg s (offRoute chip)
  let ports := (List.range 18).filter (fun p => bitOf e p)
  let prim := fieldOf e 22 18
  if chip < chipCount s && chip < 2048 && bitOf e 31 && ports.contains prim && ports.all (fun p => hasBond s p) then
    some (prim, ports)
  else none

/-- The port that an operation takes (R275): the primary for an ordered one, otherwise an up port chosen by a hash of the
target's 256-byte line. -/
def routePort (s : State) (chip off : Nat) (ord : Bool) : Option Nat :=
  match routeOf s chip with
  | none => none
  | some (prim, ports) =>
    if ord then (if bondUp s prim then some prim else none)
    else
      let up := ports.filter (fun p => bondUp s p)
      if up.isEmpty then none else some (up.getD (Config.portHash (off / 256) % up.length) 0)

/-! ## What each agent reaches (R281) -/

/-- Kinds of source for R281. -/
def isControlCore (n : Nat) : Bool := 192 ≤ n && n ≤ 199

/-- Whether a remote operation of a source may aim at a place (R281). Places on other chips are judged by their offset. -/
def mayReach (src : Src) (kind : OpKind) (p : Place) : Bool :=
  let atomic : Bool := match kind with | .atomic => true | .fetching => true | _ => false
  let onTile : Bool := !atomic && (match src with | .core _ => false | _ => true)
  match p with
  | .dev _ => true
  | .host _ => match src with | .bond _ => false | _ => true
  | .hole => true
  | .tile _ _ => onTile
  | .remote _ off => if off < tileBase then src ≠ .core 200 else if off < tileBase + 0x30000000 then onTile
                     else !(0xD000000000 ≤ off && off < 0xE000000000) && !(0xF000000000 ≤ off && off < 0xF004000000)
  | _ => false

/-! ## Issue of remote operations (R283 to R289) -/

/-- An operation that has not left yet: fields of R285, owner and what its answer is for. -/
def newOp (src : Src) (owner : Owner) (ctx : Option Nat) (kind : OpKind) (gop : Nat) (ord : Bool) (tc : BitVec 2)
    (pa len : Nat) (data comparand : List Byte) (poison : Marks) : RemoteOp :=
  { id := ⟨0, 0, 0, 0⟩, src := src, owner := owner, ctx := ctx, kind := kind, gop := gop, ord := ord, tc := tc, pa := pa,
    addr := pa, len := len, data := data, comparand := comparand, poison := poison, into := [], sent := false,
    held := false, moved := false, port := none, noSnoop := false, invals := [] }

/-- The unit that issues identifiers toward a home for a source: its Course, or the Lintel side of the bridge (R383). -/
def homePath : Src → Nat × Nat
  | .core n => if n < 192 then (pathHome, n / 16) else (pathBridge, 1)
  | .mover n => (pathHome, n / 16)
  | _ => (pathBridge, 1)

/-- The tile store of a Tile that is bound to a keyed context admits only commands of that context (R648). -/
def storeAdmits (s : State) (tile : Nat) (src : Src) (ctx : Option Nat) : Bool :=
  match (tileOf s tile).bound with
  | none => true
  | some c => match ctxOf s c with
    | none => true
    | some x => !bitOf x.security 10 || (ctx == some c && (match src with
      | .mover _ => true
      | .hod _ => true
      | _ => false))

/-- Where an operation goes and which identifier path it takes; a status where it ends at once. -/
def opRoute (s : State) (o : RemoteOp) : Except RStatus (Nat × Nat × Option Nat) :=
  let p := placeOf s o.pa
  if !mayReach o.src o.kind p then .error .denied
  else match p with
  | .hole => .error .notarget
  | .grout _ => .error .denied
  | .setup _ => .error .denied
  | .dev _ => .ok ((homePath o.src).1, (homePath o.src).2, none)
  | .tile n _ => if storeAdmits s n o.src o.ctx then .ok ((homePath o.src).1, (homePath o.src).2, none) else .error .denied
  | .host _ => if s.link.hostAbsent then .error .hostabsent else .ok (pathHost, 0, none)
  | .remote chip off =>
    if !chipValid s then .error .noroute
    else match routePort s chip off o.ord with
      | some port => .ok (pathBond, port, some port)
      | none => .error .noroute

/-- Two ordered operations of one source to one chip (R336); the source of an operation that arrived on a Bond port is on its chip. -/
def sameOrder (o e : RemoteOp) : Bool :=
  o.ord && e.ord && e.src = o.src && decide (e.pa / 2 ^ 40 = o.pa / 2 ^ 40) &&
    (match o.owner, e.owner with
    | .incoming c _ _ _, .incoming d _ _ _ => c == d
    | _, _ => true)

/-- An ordered operation waits behind an earlier one of its source and chip: on the way to another chip while that one has still to leave
or the primary port of the route has changed since (R278), on the own chip until that one has been performed (R336). -/
def waitsBehind (o e : RemoteOp) (port : Option Nat) : Bool := sameOrder o e && (port.isNone || !e.sent || e.moved)

/-- Whether a new operation is held (R278, R336). -/
def mustHold (s : State) (o : RemoteOp) (port : Option Nat) : Bool := s.ops.any fun e => waitsBehind o e port

/-- The message of an operation to another chip (R285). -/
def bondOp (s : State) (o : RemoteOp) (chip off port : Nat) : BondMsg :=
  .op o.kind o.gop o.ord o.tc (chipSelf s) chip 0 off o.len o.data o.comparand o.poison o.id port false

/-- A read of words of a tile store meets their check bits (R173): an error in one bit is corrected, counted and reported, two wrong bits
are reported and the word is poisoned from then on (DESIGN CHOICE, log 89). -/
def eccRead (n : Nat) (words : List Nat) (s : State) : State :=
  forEach ((tileOf s n).ecc.filter fun e => words.contains e.1) (fun e s =>
    if e.2 = 1 then
      countReg (offTileCorr n) 1 (raise (unitTile n) srcTileCorr n (tileOf s n).bound (tileWindow n + e.1 * 8) 0 s)
    else
      raise (unitTile n) srcTileBad n (tileOf s n).bound (tileWindow n + e.1 * 8) 0
        (modTile n (fun t => { t with bad := tset noB t.bad e.1 true, ecc := terase t.ecc e.1 }) s)) s

/-- The 8-byte words of a range. -/
def wordsOf (off len : Nat) : List Nat := (List.range ((off % 8 + len + 7) / 8)).map fun i => off / 8 + i

/-- The bytes of a tile store and their poison. -/
def tileRead (s : State) (n off len : Nat) : List Byte × Bool :=
  let t := tileOf s n
  (readBytes t.store off len, (wordsOf off len).any fun w => tget noB t.bad w)

/-- Marks the 8-byte words of the sectors that a poisoned write touches (R287, R425). A write of a whole word of another sector clears its
mark. -/
def markWords (bad : Table Bool) (off len : Nat) (poison : Marks) : Table Bool :=
  let bad := (List.range ((off % 8 + len + 7) / 8)).foldl (fun b i =>
    let w := off / 8 + i
    if decide (off ≤ w * 8) && decide (w * 8 + 8 ≤ off + len) then tset noB b w false else b) bad
  (List.range ((off % 64 + len + 63) / 64)).foldl (fun b i =>
    let sec := off / 64 + i
    if markAt poison (sec * 64) then (List.range 8).foldl (fun b j => tset noB b (sec * 8 + j) true) b else b) bad

/-- The poison marks of a range of a tile store. -/
def tileMarks (s : State) (n off len : Nat) : Marks :=
  marksOf off (fun i => tget noB (tileOf s n).bad ((off + i) / 8)) len

/-- Writes bytes into a tile store (R171, R287, R425). -/
def tileWrite (n off : Nat) (data : List Byte) (poison : Marks) (s : State) : State :=
  modTile n (fun t => { t with
    store := writeBytes t.store off data
    bad := markWords t.bad off data.length poison
    ecc := t.ecc.filter fun e => !(decide (off ≤ e.1 * 8) && decide (e.1 * 8 + 8 ≤ off + data.length)) }) s

/-- The fields of R285 that an operation carries to a home of this chip. -/
def envOf (s : State) (o : RemoteOp) : Envelope :=
  match o.owner with
  | .incoming chip _ _ hop => ⟨o.ord, o.tc, chip, chipSelf s, hop⟩
  | _ => ⟨o.ord, o.tc, chipSelf s, chipSelf s, 0⟩

/-- The Grout operation codes of R406. -/
def gopKnown (gop : Nat) : Bool := (1 ≤ gop && gop ≤ 0x0A) || [0x10, 0x11, 0x20, 0x30, 0x31].contains gop

/-- An operation leaves: its message, or at an own tile store its effect and the response that the bank sends. An atomic of a reserved code
is refused (R409). -/
def launch (o : RemoteOp) (s : State) : State :=
  let s := { s with ops := s.ops ++ [{ o with sent := true }] }
  match placeOf s o.pa with
  | .tile n off =>
    match o.kind with
    | .get =>
      let s := eccRead n (wordsOf off o.len) s
      let (d, p) := tileRead s n off o.len
      send (.response o.src o.tc ⟨o.id, if p then .poison else .ok, d, tileMarks s n off o.len⟩) s
    | _ => send (.response o.src o.tc ⟨o.id, .ok, [], 0⟩) (tileWrite n off o.data o.poison s)
  | .remote chip off =>
    match o.port with
    | some p =>
      let m := bondOp s o chip off p
      bondSend p m (countCtx o.ctx cntBondTx (16 * msgSlots m) s)
    | none => s
  | .host h =>
    if !o.noSnoop then toHome s
    else if o.kind = .get then send (.ioRead h o.len o.id) s
    else send (.ioWrite h o.data (some o.id)) s
  | _ => toHome s
where
  /-- The operation goes to its home: a flush of a combining buffer with its byte enables, or the operation itself. -/
  toHome (s : State) : State :=
    let out (m : Msg) : State := carryUp .ask o.tc (sourceNo o.src) o.pa o.data.length m s
    let atomic : Bool := match o.kind with | .atomic => true | .fetching => true | _ => false
    match o.owner, o.src with
    | .fence, .core n => out (.ntFlush n (o.pa / 256) (o.into.zip o.data) (envOf s o) o.id)
    | _, _ =>
      if atomic && !gopKnown o.gop then send (.response o.src o.tc ⟨o.id, .refused, [], 0⟩) s
      else out (.operation o.src o.kind o.gop (envOf s o) o.pa o.len o.data o.comparand o.poison o.id)

/-- Issues an operation: it ends at once with a status, or it leaves, or it waits for an identifier or under R278. -/
def issueOp (o : RemoteOp) (s : State) : Except RStatus State :=
  match opRoute s o with
  | .error e => .error e
  | .ok (path, unit, port) =>
    if mustHold s o port then .ok { s with ops := s.ops ++ [{ o with held := true, port := port }] }
    else match takeId path unit s with
      | some (id, s) => .ok (launch { o with id := id, port := port } s)
      | none => .ok { s with ops := s.ops ++ [{ o with port := port }] }

/-- A host write that ends with `HOSTABSENT` at once is counted (R508). -/
def countDrop (st : RStatus) (o : RemoteOp) (s : State) : State :=
  if st = .hostabsent && o.kind != .get then countReg offLinDropCnt 1 s else s

/-! ## Cores (R176, R305 to R345) -/

/-- Reads an integer register; x0 reads as zero. -/
def getX (c : Core) (r : BitVec 5) : Word64 := if r = 0 then 0 else tget zeroOf c.x r.toNat

/-- Writes an integer register; x0 discards the write. -/
def setX (r : BitVec 5) (v : Word64) (c : Core) : Core :=
  if r = 0 then c else { c with x := tset zeroOf c.x r.toNat v }

/-- The length of an instruction: 2 bytes for a compressed one (R176). -/
def insnLen (bits : Word32) : Word64 := if fieldOf bits 1 0 = 3 then 4 else 2

/-- The core stands at the instruction that it executes. -/
def atSite (a : Site) (s : State) : State := modCore a.core (fun c => { c with pc := a.pc, mode := a.mode }) s

/-- A core enters debug mode where it stands (R176, R680) and loses its reservation (R321). The layout of `dcsr` and its
causes are those of the RISC-V Debug Specification (PRESUMED, log 18). -/
def haltCore (cause : Nat) (c : Core) : Core :=
  { c with
    halted := true, dpc := c.pc, resv := none,
    dcsr := (c.dcsr &&& 0xFFFFFE3C) ||| BitVec.ofNat 32 (64 * cause + if c.mode = .m then 3 else 0) }

/-- A core that the debugger steps halts again after one instruction (R176). -/
def stepHalt (c : Core) : Core := if bitOf c.dcsr 2 && !c.halted then haltCore 4 c else c

/-- The instruction retires. -/
def retire (a : Site) (s : State) : State :=
  modCore a.core (fun c => stepHalt
    { c with pc := a.pc + insnLen a.bits, mode := a.mode, csr := { c.csr with instret := c.csr.instret + 1 } }) s

/-- Writes rd and retires. -/
def retireX (a : Site) (rd : BitVec 5) (v : Word64) (s : State) : State := retire a (modCore a.core (setX rd v) s)

/-- The instruction starts to wait: it stands at its site. -/
def startWait (a : Site) (w : CoreWait) (s : State) : State :=
  modCore a.core (fun c => { c with pc := a.pc, mode := a.mode, npc := a.pc + insnLen a.bits, wait := some w }) s

/-- The waiting instruction of a core retires. -/
def endWait (n : Nat) (f : Core → Core) (s : State) : State :=
  modCore n (fun c =>
    let c := f { c with wait := none }
    stepHalt { c with pc := c.npc, csr := { c.csr with instret := c.csr.instret + 1 } }) s

/-- The Tile monitor holds a Trowel while it runs in M mode; a Trowel halted in debug counts as held (R528, R681, R697; DEDUCED,
log 32). -/
def trowelHeld (s : State) (n : Nat) : Bool := (coreOf s n).mode == .m || (coreOf s n).halted

/-- A core may execute an instruction: it is not held, and not halted unless it executes the program buffer, waits for nothing, its Course runs, and no clear of its Tile is
running (R175). -/
def coreReady (s : State) (n : Nat) : Bool :=
  let c := coreOf s n
  !c.held && (!c.halted || c.prog) && c.wait.isNone &&
    (if isTrowel n then courseRuns s (n / 16) && !(tileOf s n).clearing else lintelRuns s)

/-- A write-back leaves once it has an identifier (R364, R383). -/
def sendWb (n line : Nat) (s : State) : State :=
  match tfind (coreOf s n).wb line with
  | some ⟨d, p, none⟩ => match takeId (homePath (.core n)).1 (homePath (.core n)).2 s with
    | some (id, s) =>
      carryUp .evict (agentTc n) n (line * 64) 64 (.evict n (line * 64) d p (agentTc n) id)
        (modCore n (fun c => { c with wb := tinsert c.wb line ⟨d, p, some id⟩ }) s)
    | none => s
  | _ => s

/-- Gives up the core's own copy of a line, with a write-back where it is dirty (R330), and with it a reservation in it (R321). -/
def dropOwnLine (n line : Nat) (s : State) : State :=
  match tfind (coreOf s n).lines line with
  | none => s
  | some l =>
    let s := modCore n (fun c => { c with
      lines := terase c.lines line, resv := if c.resv = some line then none else c.resv }) s
    if l.state = .m || l.state = .o then
      sendWb n line (modCore n (fun c => { c with wb := tinsert c.wb line ⟨l.data, l.poison, none⟩ }) s)
    else s

/-- A line request leaves once it has an identifier (R365, R383). -/
def sendAsk (n line : Nat) (s : State) : State :=
  match tfind (coreOf s n).fills line with
  | some f =>
    if f.id.isSome then s
    else match takeId (homePath (.core n)).1 (homePath (.core n)).2 s with
      | some (id, s) =>
        carryUp .ask f.tc n (line * 64) 0 (.ask n (line * 64) f.own f.tc id)
          (modCore n (fun c => { c with fills := tinsert c.fills line { f with id := some id } }) s)
      | none => s
  | none => s

/-- Line requests and write-backs that wait for an identifier leave where one is free. -/
def pumpCores (s : State) : State :=
  forEach s.cores (fun p s =>
    let s := forEach (p.2.fills.filter fun f => f.2.id.isNone) (fun f => sendAsk p.1 f.1) s
    forEach (p.2.wb.filter fun w => w.2.id.isNone) (fun w => sendWb p.1 w.1) s) s

/-- A flush of the core to a Grout line has not reached its point of global visibility. -/
def flushing (s : State) (n g : Nat) : Bool :=
  s.ops.any fun o => o.src = .core n && o.owner = .fence && o.pa / 256 = g

/-- A flush leaves (R330): own copies are given up first, then one write with byte enables leaves. -/
def launchNt (n : Nat) (b : NtBuf) (s : State) : State :=
  let s := forEach [0, 1, 2, 3] (fun i => dropOwnLine n (b.line * 4 + i)) s
  let o := { newOp (.core n) .fence none .put 0 false (agentTc n) (b.line * 256) b.bytes.length
               (b.bytes.map Prod.snd) [] 0 with into := b.bytes.map Prod.fst, addr := b.addr.toNat }
  match takeId (homePath (.core n)).1 (homePath (.core n)).2 s with
  | some (id, s) => launch { o with id := id } s
  | none => { s with ops := s.ops ++ [o] }

/-- The stores behind which the flush of a buffer must leave: all that are buffered where one of them holds a byte of it (R332). -/
def ntAfter (c : Core) (b : NtBuf) : Nat :=
  if c.storeBuf.any fun e => b.bytes.any fun p => decide (e.pa ≤ p.1) && decide (p.1 < e.pa + e.data.length) then c.storeBuf.length
  else 0

/-- The held flushes of a core leave, in order, where no older store and no older flush of their line is on the way (R332). -/
def pumpNt (n : Nat) (s : State) : State :=
  forEach (coreOf s n).ntHeld (fun b s =>
    let older := (coreOf s n).ntHeld.takeWhile (fun x => x != b)
    if b.after = 0 && !flushing s n b.line && !older.any (fun x => x.line == b.line) then
      launchNt n b (modCore n (fun c => { c with ntHeld := removeFirst (fun x => x == b) c.ntHeld }) s)
    else s) s

/-- Flushes a combining buffer (R329) as soon as R332 lets it leave. -/
def sendNt (n : Nat) (b : NtBuf) (s : State) : State :=
  pumpNt n (modCore n (fun c => { c with ntHeld := c.ntHeld ++ [{ b with after := ntAfter c b }] }) s)

/-- Flushes one combining buffer of a core. -/
def flushNt (n line : Nat) (s : State) : State :=
  match (coreOf s n).ntBufs.find? (fun b => b.line = line) with
  | some b => sendNt n b (modCore n (fun c => { c with ntBufs := c.ntBufs.filter (fun b => b.line ≠ line) }) s)
  | none => s

/-- Flushes every combining buffer of a core (R315, R329, R341). -/
def flushAllNt (n : Nat) (s : State) : State :=
  forEach ((coreOf s n).ntBufs.map (fun b => b.line)) (flushNt n) s

/-- An agent's answer to a probe with its data: forwarded to the requester with an answer to the home, or sent to the home
that asked for it (R366, R368). -/
def supplyData (n line : Nat) (for_ : ProbeFor) (dirty : Bool) (data : List Byte) (poison : Bool) (s : State) : State :=
  match for_ with
  | .agent m id tc => send (.answer n (line * 64) .forwarded dirty [] poison tc) (send (.data m (line * 64) dirty data poison tc id) s)
  | .home tc => send (.answer n (line * 64) .toHome dirty data poison tc) s

/-- The traffic class in which a probe and its answers travel (R354). -/
def probeTc : ProbeFor → BitVec 2
  | .home tc => tc
  | .agent _ _ tc => tc

/-- The core's copy of a line becomes `st`; losing the line loses a reservation in it (R321). -/
def setLineState (n line : Nat) (st : LState) (s : State) : State :=
  modCore n (fun c => match tfind c.lines line with
    | none => c
    | some l => if st = .i then { c with lines := terase c.lines line,
                                         resv := if c.resv = some line then none else c.resv }
                else { c with lines := tinsert c.lines line { l with state := st } }) s

/-- A caching agent answers a probe by the table of R366. -/
def answerProbe (n line : Nat) (kind : Probe) (for_ : ProbeFor) (s : State) : State :=
  let c := coreOf s n
  let plain (a : Answer) (s : State) : State := send (.answer n (line * 64) a false [] false (probeTc for_)) s
  if (tfind c.wb line).isSome then plain .evicting s
  else match tfind c.lines line with
    | none => plain .miss s
    | some l =>
      let owned : Bool := l.state = .m || l.state = .o
      match kind with
      | .share =>
        if owned then supplyData n line for_ true l.data l.poison (setLineState n line .o s)
        else if l.state = .e then supplyData n line for_ false l.data l.poison (setLineState n line .s s)
        else plain .clean s
      | .take =>
        let s := setLineState n line .i s
        if owned then supplyData n line for_ true l.data l.poison s
        else if l.state = .e then supplyData n line for_ false l.data l.poison s
        else plain .clean s
      | .kill => plain .clean (setLineState n line .i s)
      | .peek => if owned then supplyData n line (.home (probeTc for_)) true l.data l.poison s else plain .clean s

/-- The deferral of R323 ends: the deferred probes are answered in their order. -/
def endDeferral (n : Nat) (s : State) : State :=
  let d := (coreOf s n).deferred
  forEach d (fun p => answerProbe n p.2.1 p.1 p.2.2) (modCore n (fun c => { c with deferral := false, deferred := [] }) s)

/-- Machine causes (R216). -/
def causeIllegal : Nat := 2
def causeLoadAlign : Nat := 4
def causeLoadAccess : Nat := 5
def causeStoreAlign : Nat := 6
def causeStoreAccess : Nat := 7
def causeFetchPage : Nat := 12
def causeLoadPage : Nat := 13
def causeStorePage : Nat := 15
def causeDesc : Nat := 24
def causeRefused : Nat := 25

/-- A core takes a trap to M mode (R216, R341): the pc of the instruction, the cause and the value are saved, interrupts go
off, and execution goes on at the handler. The layout of the saved registers is that of the RISC-V Privileged Specification
(PRESUMED, log 18). The reservation is lost (R321), the combining buffers are flushed (R341), and stores in the store buffer
stay. An exception in the program buffer ends it with an error instead (RISC-V Debug Specification, PRESUMED, log 18). -/
def takeTrap (n : Nat) (interrupt : Bool) (cause : Nat) (tval : Word64) (s : State) : State :=
  if (coreOf s n).prog then
    modCore n (fun c => { c with prog := false, wait := none }) { s with dbg := { s.dbg with cmderr := 3 } }
  else
  let s := flushAllNt n (endDeferral n s)
  modCore n (fun c =>
    let base := c.csr.mtvec &&& ~~~(3 : Word64)
    let vectored := interrupt && fieldOf c.csr.mtvec 1 0 = 1
    stepHalt { c with
      csr := { c.csr with mepc := c.pc, mcause := BitVec.ofNat 64 ((if interrupt then 2 ^ 63 else 0) + cause),
                          mtval := tval, mpie := c.csr.mie, mie := false, mpp := c.mode },
      mode := .m, pc := if vectored then base + BitVec.ofNat 64 (4 * cause) else base, resv := none,
      wait := none }) s

/-- The instruction at a site raises an exception. -/
def exception (a : Site) (cause : Nat) (tval : Word64) (s : State) : State :=
  takeTrap a.core false cause tval (atSite a s)

/-- The first trigger that a core's address meets: kind 0 load, 1 store, 2 execute; whether it enters debug mode (R176; triggers of
type 6 of the RISC-V Debug Specification, PRESUMED, log 18). -/
def triggerHit (c : Core) (mode : Priv) (kind : Nat) (addr : Word64) : Option Bool :=
  (List.range 4).findSome? fun i =>
    let t : Word64 := tget zeroOf c.triggers (1 + 2 * i)
    if bitOf t kind && bitOf t (if mode = .m then 6 else 3) && tget zeroOf c.triggers (2 + 2 * i) = addr then
      some (fieldOf t 15 12 == 1)
    else none

/-- A trigger fires before the instruction has any effect: debug mode, or a breakpoint exception. -/
def fireTrigger (a : Site) (debug : Bool) (addr : Word64) (s : State) : State :=
  if debug then modCore a.core (haltCore 2) (atSite a s) else exception a 3 addr s

/-- The effect of an instruction that loads or stores at an address, unless a trigger fires there. -/
def watchAddr (a : Site) (load store : Bool) (addr : Word64) (s : State) (f : State → State) : State :=
  let c := coreOf s a.core
  let hit (on : Bool) (kind : Nat) : Option Bool := if on then triggerHit c a.mode kind addr else none
  match (hit load 0).or (hit store 1) with
  | some d => fireTrigger a d addr s
  | none => f s

/-- A refused access of a load or store (R216, R282). -/
def accessFault (a : Site) (store : Bool) (addr : Word64) (s : State) : State :=
  exception a (if store then causeStoreAccess else causeLoadAccess) addr s

end Sys2Proof.Machine
end

