-- ==== Sys2Proof/Machine/Home.lean ====
section
/-! DEFINITION. The homes (files 09, 10): Grout lines, stack reads and writes, snoop filter, HDM directory, and the
transactions of a line from the request to its end. -/
namespace Sys2Proof.Machine

/-! ## Sets (R390) -/

/-- The set of a line in its slice (R390). -/
def setOf (s : State) (pa : Nat) : Nat :=
  let k := (homeOf s pa).2
  (k ^^^ k / 2 ^ 13) % 6144

/-! ## Encryption of the stacks (R643, R644) -/

def granuleOf (s : State) (off : Nat) : BitVec 16 := tget granuleDefault s.kiln.access (off / 2 ^ 21)

/-- The key in a slot; a cleared slot holds zero (log 91). -/
def slotKey (s : State) (k : Nat) : Nat := ((tfind s.kiln.slots k).map fun x => x.key).getD 0

/-- The key with which a controller encrypts and decrypts a sector: that of the slot of its granule (R643). -/
def sectorKey (s : State) (pa : Nat) : Nat := slotKey s (fieldOf (granuleOf s pa) 9 0)

/-- The key under which a sector was zeroed (R415). -/
def zeroKeyOf (m : Mem) (pa : Nat) : Nat := (m.zeroKeys.lookup (pa / 2 ^ 21)).getD m.zeroKey

/-- The key under which a sector was written last. -/
def writtenKey (m : Mem) (pa : Nat) : Nat := (m.devKey.lookup (pa / 64)).getD (zeroKeyOf m pa)

/-- The tweak of a sector: bits [39:6] of its local offset. -/
def tweakOf (pa : Nat) : Nat := pa / 64 % 2 ^ 34

/-- The ciphertext of a sector. -/
def cipherOf (key pa : Nat) (d : List Byte) : List Byte := (List.range 64).map (Config.xts key (tweakOf pa) d)

/-- A sector as the stack holds it, decrypted under the key of its granule's slot: the bytes that were written, or unrelated bytes where
it was written under another key. -/
def stackBytes (s : State) (pa : Nat) : List Byte :=
  let d := readBytes s.mem.dev pa 64
  if writtenKey s.mem pa = sectorKey s pa then d
  else (List.range 64).map (Config.xtsInv (sectorKey s pa) (tweakOf pa) (cipherOf (writtenKey s.mem pa) pa d))

/-! ## Stacks: reads, the write queue (R397, R420) -/

/-- The stack takes a sector: bytes, key and poison pattern (R423, R643). -/
def commitWrite (w : StackWrite) (s : State) : State :=
  let k := sectorKey s w.pa
  { s with mem := { s.mem with
      dev := writeBytes s.mem.dev w.pa w.data, devBad := tset noB s.mem.devBad (w.pa / 64) w.poison,
      devKey := if k = zeroKeyOf s.mem w.pa then terase s.mem.devKey (w.pa / 64) else tinsert s.mem.devKey (w.pa / 64) k } }

/-- The oldest queued write of a stack goes out. -/
def writeOut (n : Nat) (s : State) : State :=
  match (ctlOf s n).writeQ with
  | [] => s
  | w :: ws => send (.stackWrite n w.pa (cipherOf (sectorKey s w.pa) w.pa w.data) w.poison) (commitWrite w (modCtl n (fun c => { c with writeQ := ws }) s))

/-- Queues a write of a sector. A queue of 128 entries gives up its oldest write first. -/
def queueWrite (pa : Nat) (data : List Byte) (poison : Bool) (s : State) : State :=
  let n := sliceOf s pa
  let s := if 128 ≤ (ctlOf s n).writeQ.length then writeOut n s else s
  modCtl n (fun c => { c with writeQ := c.writeQ.filter (fun w => w.pa ≠ pa) ++ [⟨pa, data, poison⟩] }) s

/-- What a read of a sector returns at its controller: the queued write, or the stack (R420). -/
def queuedOf (s : State) (pa : Nat) : Option StackWrite := (ctlOf s (sliceOf s pa)).writeQ.find? fun w => w.pa = pa

def stackSector (s : State) (pa : Nat) : List Byte × Bool :=
  match queuedOf s pa with
  | some w => (w.data, w.poison)
  | none => (stackBytes s pa, tget noB s.mem.devBad (pa / 64))

/-- A read of a sector waits at its controller. -/
def reading (s : State) (pa : Nat) : Bool := (ctlOf s (sliceOf s pa)).readQ.any fun r => r.1 == pa

/-- A controller can take a further read: its queue of 384 entries and the identifiers of its slice have room (R383, R420). -/
def canRead (s : State) (pa : Nat) : Bool :=
  let n := sliceOf s pa
  decide ((ctlOf s n).readQ.length < 384) && (takeId pathCtl n s).isSome

/-- Asks the controller for a sector under an identifier (R383). -/
def askStack (pa : Nat) (tc : BitVec 2) (s : State) : State :=
  let n := sliceOf s pa
  if reading s pa || !canRead s pa then s
  else match takeId pathCtl n s with
    | some (id, s) => send (.stackRead n pa tc id) (modCtl n (fun c => { c with readQ := c.readQ ++ [(pa, tc, id)] }) s)
    | none => s

/-! ## Grout lines (R391 to R397, R402, R403) -/

def groutOf (s : State) (pa : Nat) : Option GroutLine := tfind s.home.grout (pa / 256)

def setGrout (g : Nat) (l : GroutLine) (s : State) : State := { s with home := { s.home with grout := tinsert s.home.grout g l } }

/-- A valid sector of the Grout. -/
def sectorOf (s : State) (pa : Nat) : Option Sector :=
  match groutOf s pa with
  | none => none
  | some l => match tfind l.sectors (pa / 64 % 4) with
    | some c => if c.v then some c else none
    | none => none

/-- New check bits stand beside the data of a sector (R393). -/
def freshCheck (pa : Nat) (s : State) : State :=
  { s with home := { s.home with dataErr := s.home.dataErr.filter fun e => e.1 / 8 != pa / 64 } }

/-- Writes a sector of an allocated line. -/
def putSector (pa : Nat) (c : Sector) (s : State) : State :=
  match groutOf s pa with
  | none => s
  | some l => setGrout (pa / 256) { l with sectors := tinsert l.sectors (pa / 64 % 4) c } (freshCheck pa s)

def dropSector (pa : Nat) (s : State) : State :=
  match groutOf s pa with
  | none => s
  | some l => setGrout (pa / 256) { l with sectors := terase l.sectors (pa / 64 % 4) } (freshCheck pa s)

/-! ### Check bits of the Grout (R393) -/

/-- A use of a Grout tag or a filter entry meets its check bits: a single error is corrected in place, any other is a tag error, whose
severity stops the Plinth (R615). -/
def checkEntry (err : Home → Table (BitVec 2)) (set : Table (BitVec 2) → Home → Home) (key pa : Nat) (s : State) : State :=
  let n := sliceOf s pa
  match tfind (err s.home) key with
  | none => s
  | some 1 => raise (unitSlice n) srcGroutCorr n none pa 0 { s with home := set (terase (err s.home) key) s.home }
  | some _ => raise (unitSlice n) srcGroutTag n none pa 0 s

/-- A use of a sector meets its check bits: a wrong word is corrected in place, or marks the sector poisoned. -/
def checkData (line : Nat) (s : State) : State :=
  let pa := line * 64
  let n := sliceOf s pa
  match sectorOf s pa with
  | none => s
  | some c => forEach (s.home.dataErr.filter fun e => e.1 / 8 == line) (fun e s =>
      if e.2 = 1 then
        raise (unitSlice n) srcGroutCorr n none pa 0 { s with home := { s.home with dataErr := terase s.home.dataErr e.1 } }
      else raise (unitSlice n) srcGroutBad n none pa 0 (putSector pa { c with p := true } s)) s

/-- A request looks its line up: tag, filter entry and data. -/
def checkLine (line : Nat) (s : State) : State :=
  checkData line
    (checkEntry (fun h => h.filterErr) (fun e h => { h with filterErr := e }) line (line * 64)
      (checkEntry (fun h => h.tagErr) (fun e h => { h with tagErr := e }) (line / 4) (line * 64) s))

/-- A hit sets the age of its line to 0 (R395). -/
def touchGrout (pa : Nat) (s : State) : State :=
  match groutOf s pa with
  | none => s
  | some l => setGrout (pa / 256) { l with age := 0 } s

/-- The CXL.cache state of the block for a host line (R379). A line that the host has granted without its data has a sector that is not
valid. -/
def hostStateOf (s : State) (pa : Nat) : HState :=
  match groutOf s pa with
  | none => .i
  | some l => ((tfind l.sectors (pa / 64 % 4)).map fun c => c.h).getD .i

/-- A line of own device memory in an enabled pin range (R402). The pin table is keyed by word: 2 i and 2 i + 1. -/
def pinned (s : State) (pa : Nat) : Bool :=
  !isHost pa && (List.range 8).any fun i =>
    let w0 : Word64 := tget zeroOf s.home.pins (2 * i)
    let w1 : Word64 := tget zeroOf s.home.pins (2 * i + 1)
    bitOf w0 63 && decide (fieldOf w0 39 8 * 256 ≤ pa / 256 * 256) && decide (pa / 256 * 256 < fieldOf w1 39 8 * 256)

/-- The four line numbers of a Grout line. -/
def linesOfGrout (g : Nat) : List Nat := [4 * g, 4 * g + 1, 4 * g + 2, 4 * g + 3]

/-- A Grout line with an open transaction or a pending fill is no victim (R396). -/
def groutBusy (s : State) (g : Nat) : Bool :=
  (linesOfGrout g).any fun l => (tfind s.home.txns l).isSome || (!isHost (l * 64) && reading s (l * 64))

/-- The host takes a dirty line back (R397): the data leaves, and host memory holds it. -/
def returnToHost (pa : Nat) (d : List Byte) (p : Bool) (s : State) : State :=
  send (.cache (pa - 2 ^ 56) (.writeBack d p) 1 none)
    { s with mem := { s.mem with host := writeBytes s.mem.host (pa - 2 ^ 56) d,
                                 hostBad := tset noB s.mem.hostBad ((pa - 2 ^ 56) / 64) p } }

/-- Gives a line of the Grout up: dirty device sectors enter the write queue, dirty host sectors return to the host (R397). -/
def dropGrout (g : Nat) (s : State) : State :=
  match tfind s.home.grout g with
  | none => s
  | some l =>
    let s := { s with home := { s.home with
      grout := terase s.home.grout g, tagErr := terase s.home.tagErr g,
      dataErr := s.home.dataErr.filter fun e => e.1 / 32 != g } }
    forEach l.sectors (fun p s =>
      let pa := g * 256 + p.1 * 64
      if !(p.2.v && p.2.d) then s
      else if isHost pa then returnToHost pa p.2.data p.2.p s
      else queueWrite pa p.2.data p.2.p s) s

/-- Room for a line: the line is allocated, a recall of its victim goes on, or no way is a candidate. -/
inductive Room where
  | ready (s : State)
  | recall (victim : Nat) (s : State)
  | full

/-- The lowest way that a set does not use. -/
def freeWay (used : List Nat) : Option Nat := (List.range 16).find? fun w => !used.contains w

/-- The filter covers an agent for some line of a Grout line. -/
def groutCovered (s : State) (g : Nat) : List Nat := (linesOfGrout g).filter fun l => (tfind s.home.filter l).isSome

/-! ## Transactions (R365 to R380) -/

def txnOf (s : State) (line : Nat) : Option Txn := tfind s.home.txns line
def setTxn (line : Nat) (t : Txn) (s : State) : State := { s with home := { s.home with txns := tinsert s.home.txns line t } }
def dropTxn (line : Nat) (s : State) : State := { s with home := { s.home with txns := terase s.home.txns line } }

def newTxn (r : Req) : Txn :=
  { req := r, probing := [], evicting := [], came := [], supplied := none, biWait := none, hostWait := none,
    fillWait := false, bad := false, late := false, granted := false, held := false, victim := none }

/-- The sharer group of an agent (R362). -/
def groupOf (n : Nat) : Nat := if n < 192 then n / 16 else if n < 200 then 12 else if n = 200 then 13 else 14 + (n - 201)

/-- The agents of a sharer group that the build has. -/
def groupAgents (s : State) (g : Nat) : List Nat :=
  (if g < 12 then (List.range 16).map (fun i => 16 * g + i) else if g = 12 then (List.range 8).map (fun i => 192 + i)
   else if g = 13 then [200] else [187 + g]).filter (hasAgent s)

def filterOf (s : State) (line : Nat) : Option FilterEntry := tfind s.home.filter line
def setFilter (line : Nat) (e : FilterEntry) (s : State) : State :=
  { s with home := { s.home with filter := tinsert s.home.filter line e } }
def dropFilter (line : Nat) (s : State) : State :=
  { s with home := { s.home with filter := terase s.home.filter line, filterErr := terase s.home.filterErr line } }

/-- The owner of a line in the filter. -/
def ownerOf (s : State) (line : Nat) : Option Nat :=
  match filterOf s line with
  | some e => if e.state = .shared then none else some e.owner
  | none => none

/-- The agents that a request probes: the owner, and with `all` every agent of every sharer group, but never the requester. -/
def probeList (s : State) (line : Nat) (all : Bool) (except_ : Option Nat) : List Nat :=
  match filterOf s line with
  | none => []
  | some e =>
    let own := if e.state = .shared then [] else [e.owner]
    let shr := if all then (List.range 22).flatMap (fun g => if bitOf e.groups g then groupAgents s g else []) else []
    (own ++ shr.filter (fun a => !own.contains a)).filter (fun a => some a ≠ except_)

/-- The traffic class of a request (R354). -/
def reqTc : Req → BitVec 2
  | .share _ tc _ => tc
  | .own _ tc _ => tc
  | .evict _ _ _ tc _ => tc
  | .peek op _ _ _ _ => op.env.tc
  | .push op _ => op.env.tc
  | .atomic _ a => a.env.tc
  | .evictFilter tc => tc
  | .evictHdm tc => tc
  | .recall tc => tc
  | .prefetch tc => tc
  | _ => 1

/-- The source of a request that has come over Mortar (R358). -/
def reqSource : Req → Option Nat
  | .share a _ _ => some a
  | .own a _ _ => some a
  | .peek op _ _ _ _ => some (sourceNo op.src)
  | .push op _ => some (sourceNo op.src)
  | .atomic _ a => some (sourceNo a.src)
  | .hostRead _ _ _ => some (sourceNo .host)
  | .hostWrite _ _ _ _ _ _ => some (sourceNo .host)
  | _ => none

/-- A write covers the whole line. -/
def coversLine (line pa : Nat) (w : List Byte) (en : List Bool) : Bool :=
  decide (pa ≤ line * 64) && decide (line * 64 + 64 ≤ pa + w.length) &&
    (List.range 64).all fun i => en.getD (line * 64 + i - pa) false

/-- The probe of a request, whether it goes to every holder, for whom, and the requester that is left out (R365, R380). -/
def probeOf (line : Nat) (r : Req) : Option (Probe × Bool × ProbeFor × Option Nat) :=
  let home (k : Probe) : Option (Probe × Bool × ProbeFor × Option Nat) :=
    some (k, k == .take || k == .kill, .home (reqTc r), none)
  match r with
  | .share a tc id => some (.share, false, .agent a id tc, some a)
  | .own a tc id => some (.take, true, .agent a id tc, some a)
  | .peek _ _ _ _ _ => home .peek
  | .push op _ => home (if coversLine line op.pa op.data op.en then .kill else .take)
  | .atomic _ _ => home .take
  | .hostRead _ snp _ => home (match snp with | .cur => .peek | .data => .share | .inv => .take)
  | .hostWrite _ _ en _ _ _ => home (if en.all id then .kill else .take)
  | .evictFilter _ => home .take
  | .recall _ => home .take
  | .snoop k => home k
  | .evict _ _ _ _ _ => none
  | .evictHdm _ => none
  | .prefetch _ => none

/-- The back-invalidate that a request needs for a line that the host holds (R380): none, or whether it is `BISnpInv`. -/
def biOf (st : HdmState) : Req → Option Bool
  | .share _ _ _ => if st = .a then some false else none
  | .peek _ _ _ _ _ => if st = .a then some false else none
  | .own _ _ _ => some true
  | .push _ _ => some true
  | .atomic _ _ => some true
  | .evictFilter _ => some true
  | .evictHdm _ => some true
  | _ => none

/-- The back-invalidate that a request needs for its line. -/
def biNeed (s : State) (line : Nat) (r : Req) : Option Bool :=
  match tfind s.home.hdm line with
  | some st => biOf st r
  | none => none

/-- A request can open: where it needs a back-invalidate, an identifier toward the host is free (R383). -/
def canOpen (s : State) (line : Nat) (r : Req) : Bool := (biNeed s line r).isNone || (takeId pathHost 0 s).isSome

/-- A request other than a prefetch or an eviction is a hit on a line that the Grout has, and sets its age to 0 (R395). -/
def touches : Req → Bool
  | .prefetch _ => false
  | .evictFilter _ => false
  | .evictHdm _ => false
  | .recall _ => false
  | .snoop _ => false
  | _ => true

/-- The probes of a request: the agents, the kind and for whom. -/
def probesOf (line : Nat) (r : Req) (s : State) : List Nat × Probe × ProbeFor :=
  match probeOf line r with
  | some (k, all, f, ex) => (probeList s line all ex, k, f)
  | none => ([], .peek, .home 1)

/-- A request that needs a host line which the home does not own gets it from the host before it probes any agent, so that no host snoop
meets data on its way to a requester (R379). -/
def ownsFirst (s : State) (line : Nat) (r : Req) : Bool :=
  isHost (line * 64) && !(hostStateOf s (line * 64) = .e || hostStateOf s (line * 64) = .m) && (match r with
    | .own _ _ _ => true
    | .push _ _ => true
    | .atomic _ _ => true
    | _ => false) && (filterOf s line).isSome

/-- Opens a transaction: the line is blocked, the probes and the back-invalidate leave. -/
def openTxn (line : Nat) (r : Req) (s : State) : State :=
  let s := checkLine line s
  let s := if touches r then touchGrout (line * 64) s else s
  let late := ownsFirst s line r
  let (targets, kind, for_) := if late then ([], .peek, .home 1) else probesOf line r s
  let s := setTxn line { newTxn r with probing := targets, late := late } s
  let s := forEach targets (fun a => carryProbe (reqTc r) a line (.probe a (line * 64) kind for_)) s
  match biNeed s line r, takeId pathHost 0 s with
  | some inv, some (id, s) =>
    send (.biSnp (line * 64) inv (reqTc r) id)
      (match txnOf s line with
      | some t => setTxn line { t with biWait := some id } s
      | none => s)
  | _, _ => s

/-- Starts the recall of a host Grout line: one transaction for each line that an agent may hold (R392). -/
def startRecall (g : Nat) (tc : BitVec 2) (s : State) : State := forEach (groutCovered s g) (fun l => openTxn l (.recall tc)) s

/-- Finds room for the Grout line of a key (R394 to R396, R402, R403). -/
def roomFor (pa age : Nat) (tc : BitVec 2) (ctx : Option Nat) (s : State) : Room :=
  let g := pa / 256
  if (tfind s.home.grout g).isSome then .ready s
  else
    let sl := sliceOf s pa
    let st := setOf s pa
    let pin := pinned s pa
    let inSet := s.home.grout.filter fun p => p.2.slice = sl && p.2.set = st
    let new (w : Nat) : GroutLine :=
      { slice := sl, set := st, way := w, age := if pin then 0 else age, pin := pin, sectors := [], ctx := ctx }
    let onlyPins := pin && decide (4 ≤ (inSet.filter fun p => p.2.pin).length)
    match (if onlyPins then none else freeWay (inSet.map fun p => p.2.way)) with
    | some w => .ready (setGrout g (new w) s)
    | none =>
      let cand := inSet.filter fun p => !groutBusy s p.1 && (if onlyPins then p.2.pin else pin || !p.2.pin)
      let top := cand.foldl (fun m p => max m p.2.age) 0
      let aged := cand.map fun p => (p.1, { p.2 with age := p.2.age + (3 - top) })
      let best := aged.foldl (fun (b : Option (Nat × GroutLine)) p =>
        if p.2.age < 3 then b else match b with
          | none => some p
          | some q => if p.2.way < q.2.way then some p else b) none
      match best with
      | none => .full
      | some v =>
        let s := forEach aged (fun p => setGrout p.1 p.2) s
        if isHost (v.1 * 256) && !(groutCovered s v.1).isEmpty then .recall v.1 (startRecall v.1 tc s)
        else .ready (setGrout g (new v.2.way) (dropGrout v.1 s))

/-! ### The securing bitmap (R595, R598) -/

/-- Bytes of one bitmap of a tensor: one bit for each 64 KiB page, in whole 8-byte words. -/
def bitmapBytes (t : SecTensor) : Nat := (t.size / 65536 + 63) / 64 * 8

/-- Changes one byte of own device memory where the home keeps it: its Grout sector, its queued write or the stack. -/
def patchByte (off : Nat) (f : Byte → Byte) (s : State) : State :=
  let pa := off / 64 * 64
  let edit (d : List Byte) : List Byte := d.set (off % 64) (f (d.getD (off % 64) 0))
  match sectorOf s pa with
  | some c => putSector pa { c with data := edit c.data, d := true } s
  | none =>
    let (d, p) := stackSector s pa
    queueWrite pa (edit d) p s

/-- The home sets the bit of a written page in the current bitmap (R595). -/
def notePage (pa : Nat) (s : State) : State :=
  if !s.sec.on || isHost pa then s
  else forEach s.sec.tensors (fun t s =>
    if t.base ≤ pa && decide (pa < t.base + t.size) && t.assigned != 3 then
      let page := (pa - t.base) / 65536
      patchByte (t.bitmap + s.sec.current * bitmapBytes t + page / 8) (fun b => b ||| BitVec.ofNat 8 (2 ^ (page % 8))) s
    else s) s

/-- A write or ownership grant to a page that is pending and not yet read waits (R598). -/
def pageHeld (s : State) (line : Nat) (r : Req) : Bool :=
  let writes : Bool := match r with
    | .own _ _ _ => true
    | .push _ _ => true
    | .atomic _ _ => true
    | .hostWrite _ _ _ _ _ _ => true
    | .hostRead _ .inv _ => true
    | _ => false
  writes && s.sec.held.contains (line * 64 / 65536)

/-! ### Access to granules (R645 to R650) -/

/-- Who asks at the access table. -/
inductive Access where
  | context (security : BitVec 12)
  | firmware
  | kiln
  | bond
  | host
  deriving DecidableEq, Repr

/-- Whether the table admits an access to a granule of own device memory (R646). -/
def admits (s : State) (a : Access) (off : Nat) : Bool :=
  let e := granuleOf s off
  let cls := fieldOf e 15 14
  match a with
  | .kiln => true
  | .context sec => cls == 0 || (cls == 1 && bitOf sec 10 && fieldOf e 9 0 == fieldOf sec 9 0)
  | .firmware => cls == 0 || cls == 2
  | .bond => cls != 3 && bitOf e 13
  | .host => cls != 3 && bitOf e 12

/-- The granule is changing: a check waits (R650). -/
def changing (s : State) (off : Nat) : Bool :=
  s.kiln.change.any fun c => decide (c.first ≤ off / 2 ^ 21) && decide (off / 2 ^ 21 < c.first + c.count)

/-! ### Answers -/

/-- The home answers the requester of an operation. -/
def respond (op : HomeOp) (st : RStatus) (data : List Byte) (poison : Marks) (s : State) : State :=
  send (.response op.src op.env.tc ⟨op.id, st, data, poison⟩) s

/-- The home answers the requester of an atomic. -/
def respondAtomic (a : Atomic) (st : RStatus) (data : List Byte) (poison : Marks) (s : State) : State :=
  send (.response a.src a.env.tc ⟨a.id, st, data, poison⟩) s

/-- Own device memory as the host may see it over CXL.mem (R271). -/
def hostMayReach (s : State) (hpa : Nat) : Bool :=
  let base := windowBase s + chipSelf s * 2 ^ 40
  chipValid s && !s.link.hostAbsent && decide (base ≤ hpa) && decide (hpa < base + hdmTop s)

def hostOffset (s : State) (hpa : Nat) : Nat := hpa - (windowBase s + chipSelf s * 2 ^ 40)

/-- The context on whose behalf a source acts at a home. -/
def srcCtx (s : State) : Src → Option Nat
  | .core n => if n < 192 then (tileOf s n).bound else none
  | .mover n => (tileOf s n).bound
  | _ => none

def reqCtx (s : State) : Req → Option Nat
  | .share a _ _ => srcCtx s (.core a)
  | .own a _ _ => srcCtx s (.core a)
  | .peek op _ _ _ _ => srcCtx s op.src
  | .push op _ => srcCtx s op.src
  | .atomic _ a => srcCtx s a.src
  | _ => none

/-- The age at which a request inserts a line (R394). -/
def insertAge : Req → Nat
  | .peek _ _ st _ _ => if st then 3 else 1
  | .evict _ _ _ _ _ => 2
  | .hostRead _ _ st => if st then 3 else 1
  | .prefetch _ => 2
  | _ => 1

end Sys2Proof.Machine
end

