-- ==== Sys2Proof/Machine/HomeRun.lean ====
section
/-! DEFINITION. How the transactions of a home go on (files 09, 10): fills, grants, merges, atomics, evictions, snoops, and
the queues of requests that wait. -/
namespace Sys2Proof.Machine

/-- Host snoops have transactions of their own, which enter a blocked line (R379). -/
def snoopKey (line : Nat) : Nat := line + 2 ^ 60
def lineOfKey (k : Nat) : Nat := if 2 ^ 60 ≤ k then k - 2 ^ 60 else k

/-- Stands among the write-backs that came for the data of the host, which is no agent. -/
def hostMark : Nat := 2 ^ 16

/-! ## Queues of requests (R370, R371, R378, R380) -/

/-- A request waits for a line. -/
def queuedLine (s : State) (line : Nat) : Bool :=
  s.home.input.any (fun p => p.1 == line) || s.home.lineQ.any (fun p => p.1 == line) || s.home.retryQ.any (fun p => p.line == line)

/-- A request goes to the end of the queue of its line. -/
def queueReq (line : Nat) (r : Req) (s : State) : State :=
  { s with home := { s.home with lineQ := s.home.lineQ ++ [(line, r)] } }

/-- A request reaches the input of its slice. -/
def inputReq (line : Nat) (r : Req) (s : State) : State :=
  { s with home := { s.home with input := s.home.input ++ [(line, r)] } }

/-- Requests of the host wait in the retry queue of the stack, all others in that of the slice. -/
def isHdm : Req → Bool
  | .hostRead _ _ _ => true
  | .hostWrite _ _ _ _ _ _ => true
  | _ => false

/-- A retry queue of 64 entries is full: that of a slice, or that of its stack. -/
def retryFull (s : State) (slice : Nat) (hdm : Bool) : Bool :=
  decide (64 ≤ (s.home.retryQ.filter fun e => sliceOf s (e.line * 64) == slice && isHdm e.req == hdm).length)

/-- A request joins a retry queue. -/
def retryReq (line : Nat) (r : Req) (victim : Option Nat) (s : State) : State :=
  { s with home := { s.home with retryQ := s.home.retryQ ++ [⟨line, r, victim⟩] } }

/-! ## Data of a line -/

/-- What asking for the data of a line gives: the bytes with their poison, a wait, no way to go on now, or no room in the Grout. -/
inductive Got where
  | data (d : List Byte) (poison : Bool) (s : State)
  | wait (s : State)
  | stuck
  | full

/-- What a request needs of a host line: its data, ownership with its data, or ownership alone (R379, R394). -/
inductive Need where
  | shared | owned | noData
  deriving DecidableEq, Repr

def grtCtl (s : State) (pa : Nat) : Word32 := reg s (offGrtCtl (sliceOf s pa))

def isPrefetch : Req → Bool
  | .prefetch _ => true
  | _ => false

def isPeek : Req → Bool
  | .peek _ _ _ _ _ => true
  | .hostRead _ .cur _ => true
  | _ => false

/-- The other sectors of the line are filled as well where `LINE_FILL` is 1 (R395). A sector that the host may have
written is left out. -/
def fillSiblings (line : Nat) (r : Req) (s : State) : State :=
  if isPrefetch r || !bitOf (grtCtl s (line * 64)) 0 then s
  else forEach ((linesOfGrout (line / 4)).filter (fun l => l ≠ line)) (fun l s =>
    if (sectorOf s (l * 64)).isSome || (txnOf s l).isSome || (txnOf s (snoopKey l)).isSome || queuedLine s l ||
        tfind s.home.hdm l == some .a then s
    else openTxn l (.prefetch (reqTc r)) s) s

/-- A demand fill of an absent line sends a prefetch hint for the next line, at TC3 where the demand is TC3 (R398). -/
def hintNext (line : Nat) (r : Req) (s : State) : State :=
  let g := line / 4
  let tc : BitVec 2 := if reqTc r = 3 then 3 else 2
  let c := grtCtl s (line * 64)
  if isPrefetch r then s
  else if isHost (line * 64) then
    (if bitOf c 2 && (g + 1) * 256 / 4096 == g * 256 / 4096 then send (.prefetch (g + 1) tc) s else s)
  else if bitOf c 1 && decide ((g + 1) * 256 < hdmTop s) then send (.prefetch (g + 1) tc) s else s

/-- Room for the line of a request. -/
def room (line : Nat) (t : Txn) (s : State) : Room := roomFor (line * 64) (insertAge t.req) (reqTc t.req) (reqCtx s t.req) s

/-- A line that its owner forwards is allocated where there is room, without the sector (R394). -/
def allocOnly (line : Nat) (t : Txn) (s : State) : State :=
  match room line t s with
  | .ready s => s
  | _ => s

def suppliedBytes (t : Txn) : Option (List Byte × Bool × Bool) :=
  match t.supplied with
  | some (b :: d, dirty, p) => some (b :: d, dirty, p)
  | _ => none

/-- The owner has forwarded the data to the requester. -/
def forwarded (t : Txn) : Bool :=
  match t.supplied with
  | some ([], _, _) => true
  | _ => false

/-- Writes a line into its Grout sector: dirty, and M toward the host where the block owns the line. -/
def writeSector (line : Nat) (d : List Byte) (p : Bool) (s : State) : State :=
  let pa := line * 64
  let h := hostStateOf s pa
  if isHost pa then
    putSector pa (if h = .e || h = .m then ⟨true, true, p, .m, d⟩ else ⟨true, false, p, .s, d⟩) s
  else putSector pa ⟨true, true, p, .i, d⟩ s

/-- Data that an agent or the host has supplied enters the sector of an allocated line (R372, R394): dirty data as dirty, clean data where
the sector is absent. -/
def storeSupplied (line : Nat) (d : List Byte) (dirty p : Bool) (s : State) : State :=
  if dirty then writeSector line d p s
  else if (sectorOf s (line * 64)).isSome || isHost (line * 64) then s
  else putSector (line * 64) ⟨true, false, p, .i, d⟩ s

/-- Asks the host for a line under an identifier (R379, R383); none where no identifier is free. -/
def askHost (line : Nat) (t : Txn) (q : CacheReq) (s : State) : Option State :=
  match takeId pathHost 0 s with
  | some (id, s) =>
    some (send (.cache (line * 64 - 2 ^ 56) q (reqTc t.req) (some id)) (setTxn line { t with hostWait := some id } s))
  | none => none

/-- The data of a peek stays with its owner: it does not enter the Grout, unless a write-back has brought it (R365, R372). -/
def keepsOut (t : Txn) : Bool := isPeek t.req && t.came.isEmpty

/-- The data of a host line, held in at least the state that the request needs. -/
def hostLine (line : Nat) (t : Txn) (need : Need) (s : State) : Got :=
  let pa := line * 64
  let h := hostStateOf s pa
  if ((h = .e || h = .m) && (need = .noData || (sectorOf s pa).isSome)) || (need = .shared && h = .s) then
    match suppliedBytes t with
    | some (d, dirty, p) => .data d p (if keepsOut t then s else storeSupplied line d dirty p s)
    | none => match sectorOf s pa with
      | some c => .data c.data c.p s
      | none => .data (zeroBytes 64) false s
  else
    let absent := (groutOf s pa).isNone
    match room line t s with
    | .ready s =>
      match askHost line t (match need with | .shared => .rdShared | .owned => .rdOwn | .noData => .rdOwnNoData) s with
      | some s => .wait (fillSiblings line t.req (if absent then hintNext line t.req s else s))
      | none => .stuck
    | .recall v s => .wait (setTxn line { t with victim := some v } s)
    | .full => .full

/-- The data of a line of own device memory: from an agent, the Grout, the write queue or the stack. With `alloc` the Grout
takes the line. -/
def deviceLine (line : Nat) (t : Txn) (alloc : Bool) (s : State) : Got :=
  let pa := line * 64
  let absent := (groutOf s pa).isNone
  match suppliedBytes t with
  | some (d, dirty, p) =>
    if keepsOut t then .data d p (allocOnly line t s)
    else if !alloc && absent then .data d p s
    else match room line t s with
      | .ready s => .data d p (storeSupplied line d dirty p s)
      | .recall v s => .wait (setTxn line { t with victim := some v } s)
      | .full => .full
  | none => match sectorOf s pa with
    | some c => .data c.data c.p s
    | none =>
      if !alloc && absent then
        match queuedOf s pa with
        | some w => .data w.data w.poison s
        | none => if canRead s pa then .wait (askStack pa (reqTc t.req) (setTxn line { t with fillWait := true } s)) else .stuck
      else match room line t s with
        | .ready s =>
          match queuedOf s pa with
          | some w => .data w.data w.poison (putSector pa ⟨true, false, w.poison, .i, w.data⟩ s)
          | none =>
            if !reading s pa && !canRead s pa then .stuck
            else
              let s := countCtx (reqCtx s t.req) cntStackRd 64 (askStack pa (reqTc t.req) (setTxn line { t with fillWait := true } s))
              .wait (fillSiblings line t.req (if absent then hintNext line t.req s else s))
        | .recall v s => .wait (setTxn line { t with victim := some v } s)
        | .full => .full

def getLine (line : Nat) (t : Txn) (alloc : Bool) (need : Need) (s : State) : Got :=
  if isHost (line * 64) then hostLine line t need s else deviceLine line t alloc s

/-! ## The snoop filter (R374 to R377) and the HDM directory (R380) -/

def filterPlace (s : State) (line : Nat) : Nat × Nat := (sliceOf s (line * 64), Config.filterSet line % 4096)

/-- The entries of a set of the filter. -/
def filterMates (s : State) (line : Nat) : List (Nat × FilterEntry) :=
  s.home.filter.filter fun p => filterPlace s p.1 == filterPlace s line

/-- The way of an entry: its own, or the lowest free one. -/
def filterWay (s : State) (line : Nat) : Nat :=
  match filterOf s line with
  | some e => e.way
  | none => (freeWay ((filterMates s line).map fun p => p.2.way)).getD 0

/-- Whether a directory can take an entry for a line: at once, after the eviction of a victim, or not now. -/
inductive Entry where
  | ready
  | evict (victim : Nat)
  | wait

/-- A line has an open transaction, or a request that waits for it (R375). -/
def lineBusy (s : State) (line : Nat) : Bool :=
  (txnOf s line).isSome || (txnOf s (snoopKey line)).isSome || queuedLine s line

def filterRoom (s : State) (line : Nat) : Entry :=
  if (filterOf s line).isSome then .ready
  else
    let mates := filterMates s line
    if mates.length < 16 then .ready
    else
      let cand := mates.filter fun p => !lineBusy s p.1
      let best := cand.foldl (fun (b : Option (Nat × FilterEntry)) p => match b with
        | none => some p
        | some q => if q.2.age < p.2.age || (q.2.age == p.2.age && decide (p.2.way < q.2.way)) then some p else some q) none
      match best with
      | none => .wait
      | some p => .evict p.1

/-- Room in the HDM directory of a line's stack: 16 ways in its set. The spec does not say which entry goes (log 4). -/
def hdmRoom (s : State) (line : Nat) : Entry :=
  let place (l : Nat) : Nat × Nat := (sliceOf s (l * 64), Config.hdmSet l % 16384)
  if (tfind s.home.hdm line).isSome then .ready
  else
    let mates := s.home.hdm.filter fun p => place p.1 == place line
    if mates.length < 16 then .ready
    else match mates.filter (fun p => !lineBusy s p.1) with
      | [] => .wait
      | p :: ps => .evict ((p :: ps).getD (Config.pick s.ticket % (ps.length + 1)) p).1

/-- The age that a request leaves in the entry of a line: R374 does not say how it is updated (DESIGN CHOICE, log 6). -/
def filterAge (s : State) (line : Nat) : Nat := Config.filterAge line s.ticket % 4

/-- The filter records one E or M copy. -/
def noteOwner (line a : Nat) (s : State) : State :=
  setFilter line ⟨filterWay s line, .excl, a, 0, filterAge s line⟩ s

/-- The filter records a further S copy. -/
def noteSharer (line a : Nat) (s : State) : State :=
  match filterOf s line with
  | some e => setFilter line { e with groups := e.groups ||| BitVec.ofNat 22 (2 ^ groupOf a), age := filterAge s line } s
  | none => setFilter line ⟨filterWay s line, .shared, 0, BitVec.ofNat 22 (2 ^ groupOf a), filterAge s line⟩ s

/-- The owner of a line is one no longer; as a sharer it is still covered where `stays`. -/
def dropOwner (line : Nat) (stays : Bool) (s : State) : State :=
  match filterOf s line with
  | none => s
  | some e =>
    if e.state = .shared then s
    else
      let g := if stays then e.groups ||| BitVec.ofNat 22 (2 ^ groupOf e.owner) else e.groups
      if g = 0 then dropFilter line s else setFilter line { e with state := .shared, owner := 0, groups := g } s

/-- Agents other than the requester may hold a copy. -/
def othersHold (s : State) (line a : Nat) : Bool := !(probeList s line true (some a)).isEmpty

/-! ## Ends of transactions -/

/-- The class and the identifier of the request of a requester. -/
def tagOf : Req → BitVec 2 × OpId
  | .share _ tc id => (tc, id)
  | .own _ tc id => (tc, id)
  | _ => (1, ⟨0, 0, 0, 0⟩)

/-- The home answers a requester with a state and, where no owner forwarded them, the bytes (R368, R371). -/
def grantTo (line a : Nat) (st : LState) (d : Option (List Byte × Bool × Bool)) (t : Txn) (s : State) : State :=
  let (tc, id) := tagOf t.req
  let s := match d with
    | some (b, dirty, p) => send (.data a (line * 64) dirty b p tc id) s
    | none => s
  send (.completion a (line * 64) st d.isNone tc id) (setTxn line { t with granted := true } s)

/-- The bytes of a range that lie on a line, read from the line. -/
def cutLine (d : List Byte) (line pa n : Nat) : List Byte :=
  (List.range 64).filterMap fun i =>
    let a := line * 64 + i
    if pa ≤ a && a < pa + n then some (d.getD i 0) else none

/-- A line with the enabled bytes of a write merged in. -/
def mergeLine (d : List Byte) (line pa : Nat) (w : List Byte) (en : List Bool) : List Byte :=
  (List.range 64).map fun i =>
    let a := line * 64 + i
    if pa ≤ a && decide (a < pa + w.length) && en.getD (a - pa) false then w.getD (a - pa) 0 else d.getD i 0

/-- The last line of a range. -/
def lastLine (pa n : Nat) : Nat := (pa + n - 1) / 64

/-- The lines of a range. -/
def rangeLines (pa n : Nat) : List Nat := if n = 0 then [] else (List.range (lastLine pa n - pa / 64 + 1)).map fun i => pa / 64 + i

/-! ### Atomics (R406 to R411) -/

/-- Signed value of an operand. -/
def signedOf (n : Nat) (v : Nat) : Int := if 2 ^ (8 * n - 1) ≤ v then (v : Int) - 2 ^ (8 * n) else v

/-- The new value of an atomic of up to 16 bytes: old value, operand, comparand. -/
def gopValue (gop n o a m : Nat) : Nat :=
  let w := 2 ^ (8 * n)
  match gop with
  | 0x01 => (o + a) % w
  | 0x02 => o &&& a
  | 0x03 => o ||| a
  | 0x04 => o ^^^ a
  | 0x05 => if signedOf n a < signedOf n o then a else o
  | 0x06 => if signedOf n o < signedOf n a then a else o
  | 0x07 => min o a
  | 0x08 => max o a
  | 0x09 => a
  | 0x0A => if o = m then a else o
  | 0x10 => (encodeFloat fmtB32 rmRNE 0 (addVal rmRNE (decodeFloat fmtB32 o) (decodeFloat fmtB32 a)).1).1
  | 0x11 => (encodeFloat fmtB64 rmRNE 0 (addVal rmRNE (decodeFloat fmtB64 o) (decodeFloat fmtB64 a)).1).1
  | 0x20 => max (o % 2 ^ 63) (a % 2 ^ 63) + (if 2 ^ 63 ≤ o || 2 ^ 63 ≤ a then 2 ^ 63 else 0)
  | _ => o

/-- The new bytes at the target of an atomic; none where the exact-state record of an `XADD` is refused (R120, R124). -/
def gopBytes (gop : Nat) (o a m : List Byte) : Option (List Byte) :=
  if gop = 0x30 then
    match readRecord o, readRecord a with
    | some t, some p => some ((t.join p).bytes.take 96)
    | _, _ => none
  else if gop = 0x31 then some ((o.zip a).map fun p => p.1 ^^^ p.2)
  else some (leBytes o.length (gopValue gop o.length (leNat o) (leNat a) (leNat m)))

/-- Sizes of an operation at the home (R406). -/
def homeSizes : Nat → List Nat
  | 0x09 => [4, 8, 16]
  | 0x0A => [4, 8, 16]
  | 0x10 => [4]
  | 0x11 => [8]
  | 0x20 => [8]
  | 0x30 => [96]
  | 0x31 => [64, 256]
  | n => if 1 ≤ n && n ≤ 8 then [4, 8] else []

/-- An atomic that completes with `REFUSED` without being performed (R409). -/
def atomicRefused (gop : Nat) (a : Atomic) : Bool :=
  !(homeSizes gop).contains a.size || a.operand.length != a.size ||
    (gop == 0x0A && a.comparand.length != a.size) ||
    a.pa % (if gop = 0x30 then 128 else a.size) != 0 ||
    (a.size == 16 && isHost a.pa) || (a.fetching && (gop == 0x30 || gop == 0x31))

/-- The lines of an atomic. -/
def atomicLines (a : Atomic) : List Nat :=
  (List.range (lastLine a.pa a.size - a.pa / 64 + 1)).map fun i => a.pa / 64 + i

/-- The lines that an operation needs together: those of an atomic, and those of a put to host memory, which must not end
`HOSTABSENT` after one of them has been written (R120, R289). -/
def heldLines : Req → List Nat
  | .atomic _ a => atomicLines a
  | .push op _ => if isHost op.pa then rangeLines op.pa op.data.length else []
  | _ => []

/-- An operation holds a line, or is on its way to it. -/
def heldBy (s : State) (r : Req) (l : Nat) : Bool :=
  match txnOf s l with
  | some x => x.req == r && x.held
  | none => false
def comingTo (s : State) (r : Req) (l : Nat) : Bool :=
  ((txnOf s l).map fun x => x.req == r).getD false || s.home.lineQ.contains (l, r) ||
    s.home.retryQ.any fun e => e.line == l && e.req == r

/-- An operation holds one more line. Once it holds all of them it is performed; otherwise it goes to the next line that it still needs:
a host snoop may have taken one that it held (R379). -/
def holdLine (line : Nat) (t : Txn) (s : State) (done : State → State) : State :=
  let s := setTxn line { t with held := true, supplied := none, came := [], victim := none } s
  match (heldLines t.req).find? fun l => !heldBy s t.req l with
  | none => done s
  | some l => if comingTo s t.req l then s else queueReq l t.req s

/-- The bytes of a sector that the Grout holds. -/
def sectorBytes (s : State) (l : Nat) : List Byte := ((sectorOf s (l * 64)).map fun c => c.data).getD (zeroBytes 64)
def sectorBad (s : State) (l : Nat) : Bool := ((sectorOf s (l * 64)).map fun c => c.p).getD false

/-- An operation has written a line: no agent holds it any longer, and the line is free. -/
def closeLine (l : Nat) (s : State) : State := dropTxn l (dropFilter l (notePage (l * 64) s))

/-- Performs an atomic on the sectors that the Grout holds and ends its transactions. A poisoned target stays as it is, but for the whole
record of an exact-state add, which becomes poisoned (R125, R411; log 81). -/
def doAtomic (gop : Nat) (a : Atomic) (s : State) : State :=
  let ls := atomicLines a
  let old := ls.flatMap fun l => cutLine (sectorBytes s l) l a.pa a.size
  let bad := ls.any (sectorBad s)
  let close (s : State) : State := forEach ls (fun l s => dropTxn l (dropFilter l s)) s
  let poisonAll (s : State) : State := forEach ls (fun l s => closeLine l (writeSector l (sectorBytes s l) true s)) s
  if bad then respondAtomic a .poison [] (allMarks a.pa a.size true) (if gop = 0x30 then poisonAll s else close s)
  else if a.poison ≠ 0 then respondAtomic a .poison [] (allMarks a.pa a.size true) (poisonAll s)
  else match gopBytes gop old a.operand a.comparand with
    | none => respondAtomic a .refused [] 0 (close s)
    | some new =>
      let en := new.map fun _ => true
      respondAtomic a .ok (if a.fetching then old else []) 0
        (forEach ls (fun l s => closeLine l (writeSector l (mergeLine (sectorBytes s l) l a.pa new en) false s)) s)

/-- A write marks the sector that it touches: as the write is marked there, and as the sector was where the write does not cover it
(R287, R426). -/
def pushBad (line : Nat) (op : HomeOp) (was : Bool) : Bool :=
  markAt op.poison (line * 64) || (was && !coversLine line op.pa op.data op.en)

/-- A put to host memory is performed on all its lines. -/
def doHostPush (op : HomeOp) (s : State) : State :=
  respond op .ok [] 0 (forEach (rangeLines op.pa op.data.length) (fun l s =>
    closeLine l (writeSector l (mergeLine (sectorBytes s l) l op.pa op.data op.en) (pushBad l op (sectorBad s l)) s)) s)

/-! ### Each request -/

/-- The hints of a slice (R398). -/
def noHints (_n : Nat) : List Nat := []

/-- A hint whose line has been filled leaves its slice. -/
def dropHint (line : Nat) (s : State) : State :=
  let n := sliceOf s (line * 64)
  { s with home := { s.home with
      hints := tset noHints s.home.hints n ((tget noHints s.home.hints n).filter (· ≠ line / 4)) } }

/-- No way of the set is a candidate for the line of an open transaction: its request waits in the retry queue, and dirty data that its
probes have brought goes to the stack (R396). A prefetch is dropped. -/
def waitForRoom (line : Nat) (t : Txn) (s : State) : Option State :=
  let s := match suppliedBytes t with
    | some (d, true, p) => if isHost (line * 64) then s else queueWrite (line * 64) d p s
    | _ => s
  if isPrefetch t.req then some (dropTxn line (dropHint line s))
  else if retryFull s (sliceOf s (line * 64)) (isHdm t.req) then none
  else some (retryReq line t.req none (dropTxn line s))

/-- A transaction goes on with the data of its line. -/
def withLine (line : Nat) (t : Txn) (alloc : Bool) (need : Need) (s : State) (k : List Byte → Bool → State → State) : Option State :=
  match getLine line t alloc need s with
  | .data d p s => some (k d p s)
  | .wait s => some s
  | .stuck => none
  | .full => waitForRoom line t s

/-- A transaction goes on once its line has room. -/
def withRoom (line : Nat) (t : Txn) (s : State) (k : State → State) : Option State :=
  match room line t s with
  | .ready s => some (k s)
  | .recall v s => some (setTxn line { t with victim := some v } s)
  | .full => waitForRoom line t s

/-- The host's state of a line in the directory. -/
def setHdm (line : Nat) (st : MemState) (s : State) : State :=
  { s with home := { s.home with hdm := match st with
    | .i => terase s.home.hdm line
    | .s => tinsert s.home.hdm line HdmState.s
    | .a => tinsert s.home.hdm line HdmState.a } }

/-- A page that is pending and not yet read admits no ownership grant (R598). -/
def pageWaits (s : State) (line : Nat) : Bool := s.sec.held.contains (line * 64 / 65536)

/-- A line may be granted E: the home owns it, the host holds no copy, no other agent holds one (R365, R379). -/
def mayOwn (s : State) (line a : Nat) : Bool :=
  (if isHost (line * 64) then hostStateOf s (line * 64) = .e || hostStateOf s (line * 64) = .m else (tfind s.home.hdm line).isNone) &&
    !othersHold s line a && !pageWaits s line

/-- Data that probes have brought for a directory eviction or a recall goes to the Grout, or to the stack (R377). While the block is
host-absent it is discarded and counted (R509). -/
def putBack (line : Nat) (t : Txn) (s : State) : State :=
  match suppliedBytes t with
  | some (d, true, p) =>
    if isHost (line * 64) && s.link.hostAbsent then countReg offLinDiscardCnt 1 s else
    if (groutOf s (line * 64)).isSome then writeSector line d p s
    else if isHost (line * 64) then s else queueWrite (line * 64) d p s
  | _ => s

/-- What a host snoop returns: the data that its probes or the probes of the open request have brought, or the sector where it is dirty or
only looked at (R379). -/
def snoopData (line : Nat) (t : Txn) (k : Probe) (s : State) : Option (List Byte × Bool) :=
  let brought (t : Txn) : Option (List Byte × Bool) := match suppliedBytes t with
    | some (d, true, p) => some (d, p)
    | _ => none
  match brought t, (txnOf s line).bind brought, sectorOf s (line * 64) with
  | some x, _, _ => some x
  | none, some x, _ => some x
  | none, none, some c => if c.d || k == .peek then some (c.data, c.p) else none
  | none, none, none => none

/-- What a host snoop leaves at the home, and the state that it reports. A line that goes is got again by the request that holds it. -/
def snoopEffect (line : Nat) (t : Txn) (k : Probe) (d : Option (List Byte × Bool)) (s : State) : HState × State :=
  let pa := line * 64
  let main (f : Txn → Txn) (s : State) : State := match txnOf s line with
    | some m => setTxn line (f m) s
    | none => s
  let clean (m : Txn) : Txn := { m with supplied := m.supplied.map fun x => (x.1, false, x.2.2) }
  if (sectorOf s pa).isNone && hostStateOf s pa != .i then (.i, main (fun m => { m with held := false }) (dropSector pa s))
  else match k with
  | .share =>
    match sectorOf s pa, d with
    | some c, some (b, p) => (.s, main clean (putSector pa { c with data := b, p := p, d := false, h := .s } s))
    | some c, none => (.s, main clean (putSector pa { c with d := false, h := .s } s))
    | none, _ => (.i, s)
  | .peek =>
    (hostStateOf s pa, match d with
      | some (b, p) => if t.came.isEmpty then s else writeSector line b p s
      | none => s)
  | _ => (.i, main (fun m => { m with supplied := none, held := false }) (dropFilter line (dropSector pa s)))

/-- A back-invalidate has timed out: the data of the line counts as poisoned (R381). -/
def spoilTxn (line : Nat) (t : Txn) (s : State) : Txn :=
  if !t.bad || forwarded t then t
  else
    let d := match suppliedBytes t with
      | some (d, _, _) => d
      | none => match sectorOf s (line * 64) with
        | some c => c.data
        | none => (stackSector s (line * 64)).1
    { t with supplied := some (d, true, true), came := hostMark :: t.came }

/-- A transaction whose answers are all in goes on: none where it must wait for something else. -/
def performWith (line : Nat) (t : Txn) (s : State) : Option State :=
  let pa := line * 64
  match t.req with
  | .share a _ _ =>
    if forwarded t then some (grantTo line a .s none t (noteSharer line a (allocOnly line t s)))
    else withLine line t true .shared s fun d p s =>
      let dirty := ((suppliedBytes t).map fun x => x.2.1).getD false
      if mayOwn s line a then notePage pa (grantTo line a .e (some (d, dirty, p)) t (noteOwner line a s))
      else grantTo line a .s (some (d, dirty, p)) t (noteSharer line a s)
  | .own a _ _ =>
    let dirty := (t.supplied.map fun x => x.2.1).getD false
    let st : LState := if dirty then .m else .e
    if forwarded t then
      some (notePage pa (grantTo line a st none t (noteOwner line a (allocOnly line t s))))
    else withLine line t true .owned s fun d p s =>
      notePage pa (grantTo line a st (some (d, dirty, p)) t (noteOwner line a s))
  | .evict a d p tc id =>
    let done (s : State) : State := dropTxn line (send (.wbAck a pa tc id) s)
    if ownerOf s line ≠ some a then
      some (done (raise (unitSlice (sliceOf s pa)) srcCoherence (sliceOf s pa) none pa 0 s))
    else
      let gone (s : State) : State := dropOwner line false (notePage pa s)
      match room line t s with
      | .ready s => some (done (gone (if isHost pa && (sectorOf s pa).isNone then s else writeSector line d p s)))
      | .recall v s => some (setTxn line { t with victim := some v } s)
      | .full => some (done (gone (if isHost pa then s else queueWrite pa d p s)))
  | .peek op len st got bad =>
    withLine line t true .shared s fun d p s =>
      let got := got ++ cutLine d line op.pa len
      let bad := if p then bad ||| BitVec.ofNat 4 (2 ^ (line % 4)) else bad
      let s := dropTxn line s
      if line < lastLine op.pa len then queueReq (line + 1) (.peek op len st got bad) s
      else respond op (if bad = 0 then .ok else .poison) got bad s
  | .push op st =>
    let whole := coversLine line op.pa op.data op.en
    if isHost pa then
      withLine line t true (if whole then .noData else .owned) s fun _ _ s => holdLine line t s (doHostPush op)
    else
      let next (s : State) : State :=
        let s := closeLine line s
        if line < lastLine op.pa op.data.length then queueReq (line + 1) (.push op st) s else respond op .ok [] 0 s
      let bypass := st && (groutOf s pa).isNone
      if whole then
        let d := mergeLine (zeroBytes 64) line op.pa op.data op.en
        if bypass then some (next (queueWrite pa d (pushBad line op false) s))
        else withRoom line t s fun s => next (writeSector line d (pushBad line op false) s)
      else withLine line t (!bypass) .owned s fun d p s =>
        let m := mergeLine d line op.pa op.data op.en
        next (if (groutOf s pa).isSome then writeSector line m (pushBad line op p) s else queueWrite pa m (pushBad line op p) s)
  | .atomic gop a =>
    withLine line t true .owned s fun _ _ s => holdLine line t (dropFilter line s) (doAtomic gop a)
  | .hostRead tag snp _ =>
    withLine line t true .shared s fun d p s =>
      let s := match snp with
        | .cur => s
        | .data => setHdm line .s s
        | .inv => setHdm line .a (dropFilter line (notePage pa s))
      dropTxn line (send (.memData tag d p) s)
  | .hostWrite tag w en p keeps st =>
    let next (s : State) : State := closeLine line (send (.memDone tag) (setHdm line keeps s))
    let bypass := st && (groutOf s pa).isNone
    if en.all id then
      (if bypass then some (next (queueWrite pa w p s)) else withRoom line t s fun s => next (writeSector line w p s))
    else withLine line t (!bypass) .owned s fun d q s =>
      let m := mergeLine d line pa w en
      next (if (groutOf s pa).isSome then writeSector line m (p || q) s else queueWrite pa m (p || q) s)
  | .evictFilter _ => some (dropTxn line (dropFilter line (putBack line t s)))
  | .evictHdm _ => some (dropTxn line (putBack line t s))
  | .recall _ =>
    let s := dropTxn line (dropFilter line (putBack line t s))
    let busy := (linesOfGrout (line / 4)).any fun l => match txnOf s l with
      | some t => (match t.req with | .recall _ => true | _ => false)
      | none => false
    some (if busy then s else dropGrout (line / 4) s)
  | .prefetch _ => withLine line t true .shared s fun _ _ s => dropTxn line (dropHint line s)
  | .snoop k =>
    let d := snoopData line t k s
    let (st, s) := snoopEffect line t k d s
    let s := match d with
      | some (b, p) => { s with mem := { s.mem with host := writeBytes s.mem.host (pa - 2 ^ 56) b,
                                                    hostBad := tset noB s.mem.hostBad ((pa - 2 ^ 56) / 64) p } }
      | none => s
    some (dropTxn (snoopKey line)
      (send (.snoopRsp (pa - 2 ^ 56) st (d.map fun x => x.1) ((d.map fun x => x.2).getD false)) s))

/-- The probes of a transaction that has got its line from the host first leave (R379). -/
def probeLate (line : Nat) (t : Txn) (s : State) : State :=
  let (targets, kind, for_) := probesOf line t.req s
  forEach targets (fun a => carryProbe (reqTc t.req) a line (.probe a (line * 64) kind for_))
    (setTxn line { t with late := false, probing := targets } s)

def perform (line : Nat) (t : Txn) (s : State) : Option State :=
  if t.late then withLine line t true .owned s fun _ _ s => probeLate line t s
  else performWith line (spoilTxn line t s) s

/-- The recall on which a transaction waits has ended. -/
def recallOver (s : State) (t : Txn) : Bool :=
  match t.victim with
  | none => true
  | some g => !(linesOfGrout g).any fun l => match txnOf s l with
    | some t => (match t.req with | .recall _ => true | _ => false)
    | none => false

/-- A transaction goes on where nothing is awaited. -/
def advance (key : Nat) (s : State) : Option State :=
  match txnOf s key with
  | none => none
  | some t =>
    if !t.probing.isEmpty || !t.evicting.isEmpty || t.biWait.isSome || t.hostWait.isSome || t.fillWait || t.granted || t.held ||
        !recallOver s t then none
    else perform (lineOfKey key) { t with victim := none } s

/-! ## Waiting requests -/

/-- A request of a host line that the host does not serve ends with a status: a requester gets no copy, a snoop finds nothing. -/
def endHostReq (st : RStatus) (line : Nat) (r : Req) (s : State) : State :=
  let drop (s : State) : State := if st = .hostabsent then countReg offLinDropCnt 1 s else s
  match r with
  | .share a tc id => send (.completion a (line * 64) .i false tc id) s
  | .own a tc id => send (.completion a (line * 64) .i false tc id) s
  | .evict a _ _ tc id => send (.wbAck a (line * 64) tc id) (countReg offLinDiscardCnt 1 s)
  | .peek op _ _ _ _ => respond op st [] 0 s
  | .push op _ => drop (respond op st [] 0 s)
  | .atomic _ a => drop (respondAtomic a st [] 0 s)
  | .snoop _ => send (.snoopRsp (line * 64 - 2 ^ 56) .i none false) s
  | _ => s

/-- A transaction whose line the host does not deliver ends: its requester gets no copy, its operation the status, and the further lines
that the operation holds are free. -/
def failHostTxn (st : RStatus) (line : Nat) (t : Txn) (s : State) : State :=
  let mine (l : Nat) : Bool := ((txnOf s l).map fun x => x.req == t.req).getD false
  let further (l : Nat) (r : Req) : Bool := (heldLines t.req).contains l && r == t.req
  let s := forEach ((line :: heldLines t.req).filter mine) (fun l s => dropTxn l s) s
  let s := { s with home := { s.home with
    lineQ := s.home.lineQ.filter (fun p => !further p.1 p.2), retryQ := s.home.retryQ.filter (fun e => !further e.line e.req) } }
  match t.req with
  | .prefetch _ => dropHint line s
  | r => endHostReq st line r s

/-- While the block is host-absent it issues no request to the host (R507). A further line of an operation that holds others ends the whole
operation. -/
def refuseHost (line : Nat) (r : Req) (s : State) : State := failHostTxn .hostabsent line (newTxn r) s

/-- What a waiting request does: it stays where it is, leaves its queue, or goes to the retry queue, perhaps with the eviction of a victim
begun. -/
inductive Start where
  | stay
  | go (s : State)
  | later (victim : Option Nat) (s : State)

/-- A request that needs an entry of a directory: it starts, or the eviction of a victim starts, or it waits (R376 to R378, R380). -/
def startEntry (e : Entry) (ev : Req) (line : Nat) (r : Req) (s : State) : Start :=
  match e with
  | .ready => if canOpen s line r then .go (openTxn line r s) else .stay
  | .evict v =>
    if !canOpen s v ev || retryFull s (sliceOf s (line * 64)) (isHdm r) then .stay else .later (some v) (openTxn v ev s)
  | .wait => .later none s

/-- A request allocates a Grout line. -/
def allocates : Req → Bool
  | .share _ _ _ => true
  | .own _ _ _ => true
  | .peek _ _ _ _ _ => true
  | .push _ st => !st
  | .atomic _ _ => true
  | .hostRead _ _ _ => true
  | .hostWrite _ _ _ _ _ st => !st
  | _ => false

/-- A request finds no way of its set that is a candidate (R396). -/
def noRoom (s : State) (line : Nat) (r : Req) : Bool :=
  allocates r && (groutOf s (line * 64)).isNone && (match room line (newTxn r) s with | .full => true | _ => false)

/-- A request that meets an open line waits; otherwise it starts, or something that it needs is set going. A host snoop waits only for
another one, and where data has been sent to a requester for its acknowledgement (R379). -/
def tryStart (line : Nat) (r : Req) (s : State) : Start :=
  let pa := line * 64
  let evicts : Bool := match r with
    | .evictFilter _ => true
    | _ => false
  if isHost pa && s.link.hostAbsent && !evicts then .go (refuseHost line r s)
  else match r with
  | .snoop k =>
    if (txnOf s (snoopKey line)).isSome || ((txnOf s line).map fun t => t.granted || forwarded t).getD false then .stay
    else
      let s := checkLine line s
      let targets := probeList s line (k == .take) none
      let s := setTxn (snoopKey line) { newTxn r with probing := targets } s
      .go (forEach targets (fun a => carryProbe 1 a line (.probe a pa k (.home 1))) s)
  | _ =>
    if (txnOf s line).isSome || (txnOf s (snoopKey line)).isSome || pageHeld s line r ||
        (isHost pa && !s.home.inService) then .stay
    else if isHdm r && changing s pa then .stay
    else match r with
      | .hostRead tag snp _ =>
        if !admits s .host pa then .go (send (.memData tag (zeroBytes 64) true) s)
        else if noRoom s line r then .later none s
        else if snp = .cur then open_ s
        else startEntry (hdmRoom s line) (.evictHdm 1) line r { s with ticket := s.ticket + 1 }
      | .hostWrite tag _ _ _ keeps _ =>
        if !admits s .host pa then .go (countReg offLinDropCnt 1 (send (.memDone tag) s))
        else if noRoom s line r then .later none s
        else if keeps = .i then open_ s
        else startEntry (hdmRoom s line) (.evictHdm 1) line r { s with ticket := s.ticket + 1 }
      | .share _ tc _ => if noRoom s line r then .later none s else startEntry (filterRoom s line) (.evictFilter tc) line r s
      | .own _ tc _ => if noRoom s line r then .later none s else startEntry (filterRoom s line) (.evictFilter tc) line r s
      | _ => if noRoom s line r then .later none s else open_ s
where
  /-- The transaction opens. -/
  open_ (s : State) : Start := if canOpen s line r then .go (openTxn line r s) else .stay

/-- The eviction that a request in the retry queue has begun goes on. -/
def evictOn (s : State) (e : Retry) : Bool :=
  match e.victim with
  | none => false
  | some v => match txnOf s v with
    | some t => (match t.req with | .evictFilter _ => true | .evictHdm _ => true | _ => false)
    | none => false

/-- The first request of the retry queues that can start or choose a victim (R378). -/
def startRetry (s : State) : List Nat → List Retry → Option State
  | _, [] => none
  | seen, e :: rest =>
    let out (s : State) : State := { s with home := { s.home with retryQ := removeFirst (· = e) s.home.retryQ } }
    match (if seen.contains e.line || evictOn s e then .stay else tryStart e.line e.req s) with
    | .go s' => some (out s')
    | .later (some v) s' =>
      some { s' with home := { s'.home with retryQ := replaceFirst (· = e) (fun e => { e with victim := some v }) s'.home.retryQ } }
    | _ => startRetry s (e.line :: seen) rest

/-- The first request of the line queues that can start. A request behind another of its line waits; a host snoop enters a blocked line
(R371). -/
def startLine (s : State) : List Nat → List (Nat × Req) → Option State
  | _, [] => none
  | seen, (line, r) :: rest =>
    let out (s : State) : State := { s with home := { s.home with lineQ := removeFirst (· = (line, r)) s.home.lineQ } }
    let free : Bool := match r with
      | .snoop _ => true
      | _ => !seen.contains line
    match (if free then tryStart line r s else .stay) with
    | .go s' => some (out s')
    | .later v s' =>
      if retryFull s (sliceOf s (line * 64)) (isHdm r) then startLine s (line :: seen) rest
      else some (retryReq line r v (out s'))
    | .stay => startLine s (line :: seen) rest

/-- The port of a slice by which a request comes: the bridge before Courses 0 to 11 (R370). -/
def portRank (r : Req) : Nat :=
  match reqSource r with
  | some n => if upOut n = outBridge then 0 else 1 + upOut n
  | none => 0

/-- The next request that a slice takes from its input: while its line queues have room in 256 entries and its retry queues are not full,
by the priority of the ports (R370, R371, R378). -/
def nextInput (s : State) : Option (Nat × Req) :=
  let fits (p : Nat × Req) : Bool :=
    let n := sliceOf s (p.1 * 64)
    decide ((s.home.lineQ.filter fun q => sliceOf s (q.1 * 64) == n).length < 256) && !retryFull s n (isHdm p.2)
  (s.home.input.filter fits).foldl (fun (b : Option (Nat × Req)) p => match b with
    | none => some p
    | some q => if portRank p.2 < portRank q.2 then some p else some q) none

/-- A slice takes a request; the credit of a message of Mortar goes back. -/
def takeInput (s : State) : Option State :=
  match nextInput s with
  | none => none
  | some (line, r) =>
    let s := queueReq line r { s with home := { s.home with input := removeFirst (· = (line, r)) s.home.input } }
    some (match reqSource r with
      | some n => giveBack (outSlice (sliceOf s (line * 64))) .ask (reqTc r) n s
      | none => s)

/-- One waiting request starts: the retry queue goes first (R370). -/
def startOne (s : State) : Option State :=
  match startRetry s [] s.home.retryQ with
  | some s' => some s'
  | none => match startLine s (s.home.retryQ.map fun p => p.line) s.home.lineQ with
    | some s' => some s'
    | none => takeInput s

/-- The first transaction that can go on. -/
def advanceOne (s : State) : Option State := s.home.txns.findSome? fun p => advance p.1 s

/-- The homes go on until everything waits. -/
def settleFor : Nat → State → State
  | 0, s => s
  | n + 1, s =>
    match advanceOne s with
    | some s' => settleFor n s'
    | none => match startOne s with
      | some s' => settleFor n s'
      | none => s

/-- A stopped Plinth partition does nothing (R616). Steps that suffice: each transaction and each waiting request takes a bounded number. -/
def settle (s : State) : State :=
  if !s.clk.plinthOut then s
  else settleFor (64 + 32 * (s.home.txns.length + s.home.input.length + s.home.lineQ.length + s.home.retryQ.length)) s

/-- A request enters its home. -/
def enter (line : Nat) (r : Req) (s : State) : State := settle (inputReq line r s)

/-- A write-back, a host snoop or a request of the home itself enters, which no other class holds back. -/
def enterQueue (line : Nat) (r : Req) (s : State) : State := settle (queueReq line r s)

/-! ## Streaming (R399) -/

/-- Runs of a source and kind: an access to the line after a run's last one lengthens it; an access to the last line leaves it (log 93);
any other access ends the runs of its kind and begins one. Answers whether the access is marked streaming. -/
def detect (src : Src) (write : Bool) (g : Nat) (s : State) : Bool × State :=
  let mine (x : Stream) : Bool := x.src = src && x.write == write
  match s.home.streams.find? fun x => mine x && (x.last + 1 == g || x.last == g) with
  | some x =>
    let n := if x.last = g then x.length else x.length + 1
    let streams := replaceFirst (· = x) (fun x => { x with last := g, length := n }) s.home.streams
    (decide (16 ≤ n), { s with home := { s.home with streams := streams } })
  | none => (false, { s with home := { s.home with streams := (s.home.streams.filter fun x => !mine x) ++ [⟨src, write, g, 1⟩] } })

/-! ## Accesses of the Lintel's units to lines that nobody else holds (log 23) -/

/-- The bytes of a line as its home has them. -/
def homeData (s : State) (line : Nat) : List Byte × Bool :=
  match sectorOf s (line * 64) with
  | some c => (c.data, c.p)
  | none => if isHost (line * 64) then (zeroBytes 64, false) else stackSector s (line * 64)

/-- A line is free: its home serves it, no transaction is open on it and no request waits for it. -/
def lineFree (s : State) (line : Nat) : Bool :=
  s.clk.plinthOut && (!isHost (line * 64) || (s.home.inService && !s.link.hostAbsent)) && !lineBusy s line

/-- The home alone can answer a read of a line. -/
def canReadLine (s : State) (line : Nat) : Bool :=
  lineFree s line && (ownerOf s line).isNone && tfind s.home.hdm line != some .a &&
    (!isHost (line * 64) || (sectorOf s (line * 64)).isSome)

/-- The home alone can perform a write of a line. -/
def canWriteLine (s : State) (line : Nat) : Bool :=
  lineFree s line && (filterOf s line).isNone && (tfind s.home.hdm line).isNone && !pageWaits s line &&
    (!isHost (line * 64) || ((hostStateOf s (line * 64) = .e || hostStateOf s (line * 64) = .m) && (sectorOf s (line * 64)).isSome))

/-- Reads bytes of own device memory or of host memory as their homes have them. -/
def readMem (s : State) (pa n : Nat) : List Byte × Bool :=
  ((rangeLines pa n).flatMap fun l => cutLine (homeData s l).1 l pa n, (rangeLines pa n).any fun l => (homeData s l).2)

/-- A home performs a write of bytes of one line. With `stay`, poison stays as it is. -/
def writeLine (stay : Bool) (line : Nat) (pa : Nat) (d : List Byte) (s : State) : State :=
  let (old, p) := homeData s line
  let en := d.map fun _ => true
  let new := mergeLine old line pa d en
  let p := p && (stay || !coversLine line pa d en)
  notePage (line * 64) (
    if (if isHost (line * 64) then (sectorOf s (line * 64)).isSome else (groutOf s (line * 64)).isSome) then writeSector line new p s
    else if isHost (line * 64) then s else queueWrite (line * 64) new p s)

/-- Homes perform a write of bytes. -/
def writeMemWith (stay : Bool) (pa : Nat) (d : List Byte) (s : State) : State :=
  forEach (rangeLines pa d.length) (fun l => writeLine stay l pa d) s

/-- Writes bytes; a write of a whole sector clears its poison (R426). -/
def writeMem (pa : Nat) (d : List Byte) (s : State) : State := writeMemWith false pa d s

/-- Free bytes (log 2). -/
def freeRun (ticket n : Nat) : List Byte := (List.range n).map fun i => Config.freeByte (ticket + i)

/-- Bytes within one line of 256 bytes become undefined: at their home, in the copies of cores, in a tile store, or in host memory. Their poison
stays (R425). Bytes on another chip are that chip's. -/
def spoilBytes (pa : Nat) (d : List Byte) (s : State) : State :=
  let en := d.map fun _ => true
  let copies (s : State) : State := forEach s.cores (fun p s =>
    if p.2.lines.any (fun l => (rangeLines pa d.length).contains l.1) then
      modCore p.1 (fun c => { c with lines := c.lines.map fun l => (l.1, { l.2 with data := mergeLine l.2.data l.1 pa d en }) }) s
    else s) s
  match placeOf s pa with
  | .dev _ => writeMemWith true pa d (copies s)
  | .host h =>
    let s := writeMemWith true pa d (copies s)
    { s with mem := { s.mem with host := writeBytes s.mem.host h d } }
  | .tile t off => modTile t (fun t => { t with store := writeBytes t.store off d }) s
  | _ => s

/-- Applies `FMAX` to an 8-byte word; a poisoned sector stays as it is (R408, R411). -/
def fmaxMem (pa v : Nat) (s : State) : State :=
  if (readMem s pa 8).2 then s else writeMem pa (leBytes 8 (gopValue 0x20 8 (leNat (readMem s pa 8).1) v 0)) s

end Sys2Proof.Machine
end

