-- ==== Sys2Proof/Machine/Maint.lean ====
section
/-! DEFINITION. The Grout control windows (R400 to R405): pin table and maintenance blocks. -/
namespace Sys2Proof.Machine

def maintDefault (_n : Nat) : Maint := { cmd := 0, start := 0, stop := 0, status := 0, count := 0, walked := false }

def maintOf (s : State) (n : Nat) : Maint := tget maintDefault s.home.maint n
def modMaint (n : Nat) (f : Maint → Maint) (s : State) : State :=
  { s with home := { s.home with maint := tset maintDefault s.home.maint n (f (maintOf s n)) } }

/-- What a control-window offset names: word `k` of the block of a slice, or a word of the pin table (R400, R401). -/
inductive Window where
  | maint (slice k : Nat)
  | pin (k : Nat)
  | none
  deriving DecidableEq, Repr

def windowOf (s : State) (off : Nat) : Window :=
  if off % 8 != 0 then .none
  else if 0xF00000000 ≤ off && off < 0xF00000080 then .pin ((off - 0xF00000000) / 8)
  else
    let n := off / 2 ^ 32
    let o := off % 2 ^ 32
    if hasStack s n && decide (o < 32) then .maint n (o / 8) else .none

/-- `STATUS` of a maintenance block (R404). -/
def maintStatus (m : Maint) : Word64 := BitVec.ofNat 64 (m.status.toNat * 2 ^ 62 + min m.count 0xFFFFFFFF)

/-- An 8-byte read of a control window. -/
def windowRead (s : State) : Window → Word64
  | .maint n 0 => (maintOf s n).cmd
  | .maint n 1 => (maintOf s n).start
  | .maint n 2 => (maintOf s n).stop
  | .maint n _ => maintStatus (maintOf s n)
  | .pin k => tget zeroOf s.home.pins k
  | .none => 0

/-- Bits of a pin-table word that hold a field (R402). -/
def pinMask (k : Nat) : Word64 := if k % 2 = 0 then 0x800000FFFFFFFF00 else 0x000000FFFFFFFF00

/-- A write to `CMD` (R405): ignored while the operation runs; refused with a reserved code, or for an empty range. Its reserved bits are
ignored (R12). -/
def startMaint (n : Nat) (cmd : Word64) (s : State) : State :=
  let m := maintOf s n
  let op := fieldOf cmd 55 48
  if m.status = 1 then s
  else
    let bad := fieldOf cmd 63 56 != 1 || op == 0 || decide (4 < op) || (decide (3 ≤ op) && decide (m.stop.toNat ≤ m.start.toNat))
    modMaint n (fun m => { m with cmd := cmd &&& 0xFFFF000000000000, status := if bad then 3 else 1, count := 0, walked := false }) s

/-- An 8-byte write of a control window. -/
def windowWrite (w : Window) (v : Word64) (s : State) : State :=
  match w with
  | .maint n 0 => startMaint n v s
  | .maint n 1 => modMaint n (fun m => { m with start := v &&& 0xFFFFFFFFFFFFFF00 }) s
  | .maint n 2 => modMaint n (fun m => { m with stop := v &&& 0xFFFFFFFFFFFFFF00 }) s
  | .maint _ _ => s
  | .pin k => { s with home := { s.home with pins := tset zeroOf s.home.pins k (v &&& pinMask k) } }
  | .none => s

/-- The Grout lines that an operation covers, in ascending order of their sets and ways: device lines of the slice in its range, and with a
flush of all host lines. -/
def maintLines (s : State) (n : Nat) : List (Nat × GroutLine) :=
  let m := maintOf s n
  let op := fieldOf m.cmd 55 48
  (s.home.grout.filter fun p => p.2.slice = n &&
    (if isHost (p.1 * 256) then op == 2
     else op ≤ 2 || (decide (m.start.toNat ≤ p.1 * 256) && decide (p.1 * 256 < m.stop.toNat)))).mergeSort
    fun p q => decide (p.2.set * 16 + p.2.way ≤ q.2.set * 16 + q.2.way)

/-- Writes the dirty device sectors of a line to the stack and keeps the line. -/
def cleanLine (g : Nat) (s : State) : State :=
  match tfind s.home.grout g with
  | none => s
  | some l =>
    let dirty := l.sectors.filter fun p => p.2.v && p.2.d
    let s := forEach dirty (fun p => queueWrite (g * 256 + p.1 * 64) p.2.data p.2.p) s
    if isHost (g * 256) then s
    else setGrout g { l with sectors := l.sectors.map fun p => (p.1, { p.2 with d := false }) } s

/-- A recall of a host line of a slice is open (R392). -/
def recalling (s : State) (n : Nat) : Bool :=
  s.home.txns.any fun p => (match p.2.req with | .recall _ => true | _ => false) && sliceOf s (p.1 * 64) == n

/-- A maintenance operation goes on (R405): none while a covered line has an open transaction. The slice walks its lines once, and counts
those whose dirty device sectors it writes to the stack. A flush of a host line whose copies agents hold recalls them first, and the
operation ends with the last of these recalls. -/
def finishMaint (n : Nat) (s : State) : Option State :=
  let m := maintOf s n
  if m.status != 1 then none
  else if m.walked then (if recalling s n then none else some (modMaint n (fun m => { m with status := 2 }) s))
  else
    let ls := maintLines s n
    let flush := fieldOf m.cmd 55 48 % 2 == 0
    if ls.any (fun p => groutBusy s p.1) then none
    else
      let written := (ls.filter fun p => !isHost (p.1 * 256) && p.2.sectors.any fun q => q.2.v && q.2.d).length
      let s := forEach ls (fun p s =>
        if !flush then cleanLine p.1 s
        else if isHost (p.1 * 256) && !(groutCovered s p.1).isEmpty then startRecall p.1 1 s
        else dropGrout p.1 s) s
      let s := settle (modMaint n (fun m => { m with count := written, walked := true }) s)
      some (if recalling s n then s else modMaint n (fun m => { m with status := 2 }) s)

end Sys2Proof.Machine
end

