-- ==== Sys2Proof/Machine/Operands.lean ====
section
/-! DEFINITION. Operand forms: tensor descriptors, their checks and bound sizes, elements in memory and boxes of indices
(file 06). -/
namespace Sys2Proof.Machine

/-! ## Fields of a descriptor (R221 to R223, R229, R230) -/

/-- Byte i of a descriptor. -/
def dByte (d : List Byte) (i : Nat) : Nat := (d.getD i 0).toNat

/-- Little-endian field of n bytes at byte i. -/
def dField (d : List Byte) (i n : Nat) : Nat := leNat ((d.drop i).take n)

def dVersion (d : List Byte) : Nat := dByte d 0
def dKind (d : List Byte) : Nat := dByte d 1
def dRank (d : List Byte) : Nat := dByte d 2 / 16
def dFormat (d : List Byte) : Nat := dByte d 2 % 16
def dExt (d : List Byte) : Bool := dByte d 3 / 128 == 1
def dChain (d : List Byte) : Bool := dByte d 3 / 64 % 2 == 1
def dSpace (d : List Byte) : Nat := dByte d 3 / 16 % 4
def dGroup (d : List Byte) : Nat := dByte d 3 / 4 % 4
def dOob (d : List Byte) : Bool := dByte d 3 % 2 == 1
def dSwizzle (d : List Byte) : Nat := dByte d 4 % 8
def dBase (d : List Byte) : Nat := dField d 8 8
def dScale (d : List Byte) : Nat := dField d 16 8
def dShape (d : List Byte) : Nat := dField d 24 8

/-- A dimension entry as a 64-bit word; `k` counts from the 32nd byte of the descriptor or extension. -/
def dDim (d : List Byte) (k : Nat) : Nat := dField d (32 + 8 * k) 8

def dimBind (w : Nat) : Bool := w / 2 ^ 31 % 2 == 1
def dimSlot (w : Nat) : Nat := w / 2 ^ 24 % 16
def dimSize (w : Nat) : Nat := w % 2 ^ 24

/-- The stride of a dimension entry; none where it is packed. -/
def dimStride (w : Nat) : Option Int :=
  let s : Nat := w / 2 ^ 32
  if s = 0x80000000 then none else some (if 2 ^ 31 ≤ s then (s : Int) - 2 ^ 32 else (s : Int))

/-- A field of a dimension entry that must be zero is not (R223). -/
def dimReserved (w : Nat) : Bool :=
  w / 2 ^ 28 % 8 != 0 || (if dimBind w then dimSize w != 0 else dimSlot w != 0)

/-- The dimension entries of a descriptor with its extension. -/
def dimWords (c : DescCopy) : List Nat :=
  let n := dRank c.main
  let low := (List.range (min n 4)).map (dDim c.main)
  match c.ext with
  | some e => low ++ (List.range (n - 4)).map (dDim e)
  | none => low

/-- Bytes of an element that fills whole bytes; 128 for an exact-state slot (R227). -/
def elemBytes (kind fmt : Nat) : Nat := if kind = 3 then 128 else fmtWidth fmt / 8

/-- Resolved strides of dimensions whose sizes are known, and none from the first packed stride on that depends on an
unknown size (R226). -/
def resolveStrides : List (Option Int) → List (Option Nat) → Option Int → List (Option Int)
  | [], _, _ => []
  | st :: sts, szs, packed =>
    let s := match st with
      | some v => some v
      | none => packed
    let next := match s, szs.head? with
      | some v, some (some n) => some (v * (n : Int))
      | _, _ => none
    s :: resolveStrides sts (szs.drop 1) next

/-- Sizes that are literal. -/
def literalSizes (ws : List Nat) : List (Option Nat) := ws.map fun w => if dimBind w then none else some (dimSize w)

/-- Element offsets of the corners of a tensor: least and greatest. -/
def offsetRange (sizes : List Nat) (strides : List Int) : Int × Int :=
  (sizes.zip strides).foldl (fun (r : Int × Int) p =>
    let e := ((p.1 : Int) - 1) * p.2
    if e < 0 then (r.1 + e, r.2) else (r.1, r.2 + e)) (0, 0)

/-- First byte and bit shift of the element at offset e, relative to `BASE`, and how many bytes it touches (R227). A record touches its 96
bytes, not the rest of its slot (R117; DEDUCED, log 87). -/
def elemPlace (kind fmt : Nat) (e : Int) : Int × Nat × Nat :=
  if kind = 3 then (128 * e, 0, 96)
  else if fmt = fmtFB4 then (e / 2, 4 * (e % 2).toNat, 1)
  else if fmt = fmtFB6 then
    let b := 6 * (e % 4).toNat
    (3 * (e / 4) + (b / 8 : Nat), b % 8, (b % 8 + 13) / 8)
  else (e * (fmtWidth fmt / 8 : Nat), 0, fmtWidth fmt / 8)

/-- Bytes of the scale tensor (R235). -/
def scaleCount (group : Nat) (sizes : List Nat) : Nat :=
  let g := 8 * 2 ^ group
  match sizes with
  | [] => 0
  | n :: ns => (n + g - 1) / g * ns.foldl (· * ·) 1

def tileStoreSize : Nat := 0x200000

/-- With `SPACE` 0b01, an element or scale byte lies outside the tile store (R232, code 0x0A). -/
def outsideStore (d : List Byte) (sizes : List Nat) (strides : List Int) : Bool :=
  if dSpace d ≠ 1 || sizes.any (· == 0) then false
  else
    let (lo, hi) := offsetRange sizes strides
    let base : Int := dBase d
    let (h, _, n) := elemPlace (dKind d) (dFormat d) hi
    decide (base + (elemPlace (dKind d) (dFormat d) lo).1 < 0) || decide ((tileStoreSize : Int) < base + h + n) ||
      (dGroup d != 0 && decide (tileStoreSize < dScale d + scaleCount (dGroup d) sizes))

/-- The alignment of strides that R62 asks of FB4 and FB6. -/
def strideUnit (fmt : Nat) : Nat := if fmt = fmtFB4 then 2 else if fmt = fmtFB6 then 4 else 1

/-- Strides on dimensions from 1 upward that break R62. -/
def badStrides (d : List Byte) (strides : List (Option Int)) : Bool :=
  dKind d == 1 && (strides.drop 1).any fun s => match s with
    | some v => v % (strideUnit (dFormat d) : Nat) != 0
    | none => false

/-! ## Checks at `tdld` (R232) -/

/-- Fields of a tensor descriptor that must be zero. -/
def descReserved (d : List Byte) : Bool :=
  dByte d 3 / 2 % 2 != 0 || dByte d 4 / 8 != 0 || dField d 5 3 != 0 || (dGroup d == 0 && dScale d != 0) ||
    (List.range 4).any fun k => if k < dRank d then dimReserved (dDim d k) else dDim d k != 0

/-- The checks of R232 with their codes; the lowest code that fails is reported (DESIGN CHOICE, log 20). -/
def descChecks (d : List Byte) : List (Bool × Nat) :=
  let ws := (List.range (min (dRank d) 4)).map (dDim d)
  let sizes := literalSizes ws
  let strides := resolveStrides (ws.map dimStride) sizes (some 1)
  let bound := ws.any dimBind
  let known := dRank d ≤ 4 && !bound && strides.all Option.isSome
  if dKind d = 2 then
    [(dVersion d != 1, 1),
     (dField d 2 6 != 0 || (List.range 4).any (fun k => dimReserved (dDim d k)), 5)]
  else
    [(dVersion d != 1, 1),
     (dKind d == 0 || decide (3 < dKind d), 2),
     (if dKind d = 3 then dFormat d != 0 else !fmtValid (dFormat d), 3),
     (dRank d == 0 || decide (8 < dRank d), 4),
     (descReserved d, 5),
     (dGroup d == 3 || (dGroup d != 0 && (dKind d == 3 || !fmtScalable (dFormat d))), 6),
     (decide (2 ≤ dSpace d), 7),
     (decide (4 < dSwizzle d) || (dSwizzle d != 0 && dSpace d != 1), 8),
     (dBase d % max 1 (elemBytes (dKind d) (dFormat d)) != 0 || badStrides d strides, 9),
     (known && outsideStore d (sizes.map (·.getD 0)) (strides.map (·.getD 0)), 0xA),
     (ws.any (fun w => dimBind w && decide (13 < dimSlot w)) || (bound && dShape d == 0) ||
        (dShape d != 0 && decide (dRank d ≤ 4) && !bound) || dShape d % 64 / 2 != 0 ||
        (dShape d % 2 == 1 && decide (tileStoreSize ≤ dShape d / 64 * 64)), 0xB),
     (decide (4 < dRank d) && !dExt d, 0xC)]

/-- The reason code of a descriptor that `tdld` refuses; none where it is valid. -/
def descFault (d : List Byte) : Option Nat := ((descChecks d).find? (fun c => c.1)).map (fun c => c.2)

/-! ## Bound tensors -/

/-- A descriptor with its sizes bound and its strides resolved (R226, R231, R239). -/
structure Tensor where
  kind    : Nat
  fmt     : Nat
  space   : Nat
  group   : Nat
  oob     : Bool
  chain   : Bool
  swizzle : Nat
  base    : Nat
  scale   : Nat
  sizes   : List Nat
  strides : List Int
  seed    : Word64
  origins : List Nat
  deriving DecidableEq, Repr

/-- What a late-bound size reads as at `tcmd`: a number that no size reaches (R225). -/
def lateSize : Nat := 2 ^ 32

/-- A size is known to be below another. -/
def less (a b : Nat) : Bool := a != lateSize && b != lateSize && decide (a < b)

/-- Two sizes are known to differ. -/
def differ (a b : Nat) : Bool := less a b || less b a

/-- The sizes of a descriptor; `slots` gives the shape block's slots. -/
def boundSizes (ws : List Nat) (slots : Nat → Nat) : List Nat :=
  ws.map fun w => if dimBind w then slots (dimSlot w) else dimSize w

/-- A tensor from a copied descriptor. -/
def bindTensor (c : DescCopy) (slots : Nat → Nat) : Tensor :=
  let d := c.main
  let ws := dimWords c
  let sizes := boundSizes ws slots
  let strides := resolveStrides (ws.map dimStride) (sizes.map some) (some 1)
  let e := c.ext.getD []
  { kind := dKind d, fmt := dFormat d, space := dSpace d, group := dGroup d, oob := dOob d, chain := dChain d,
    swizzle := dSwizzle d, base := dBase d, scale := dScale d, sizes := sizes, strides := strides.map (·.getD 0),
    seed := BitVec.ofNat 64 (dField e 8 8), origins := (List.range 4).map fun k => dField e (16 + 4 * k) 4 }

def Tensor.rank (t : Tensor) : Nat := t.sizes.length

/-- The origin limit of R231, over the sizes that are known. -/
def originBroken (t : Tensor) : Bool :=
  (t.origins.zip t.sizes).any fun p => p.2 != lateSize && decide (2 ^ 24 < p.1 + p.2)

/-- The checks of R232 and R233 that depend on sizes, on bound sizes (R242). -/
def sizeChecksFail (c : DescCopy) (t : Tensor) : Bool :=
  badStrides c.main (t.strides.map some) || outsideStore c.main t.sizes t.strides

/-- The checks of R233 that need both halves of an extended descriptor; true where one fails. -/
def extChecksFail (c : DescCopy) : Bool :=
  let d := c.main
  let ws := dimWords c
  match c.ext with
  | none => false
  | some e =>
    let high := (List.range 4).map fun k => (k + 4, dDim e k)
    high.any (fun p => if p.1 < dRank d then dimReserved p.2 else p.2 != 0) ||
      (ws.drop 4).any (fun w => dimBind w && decide (13 < dimSlot w)) ||
      (ws.any dimBind && dShape d == 0) ||
      (dShape d != 0 && decide (4 < dRank d) && !ws.any dimBind) ||
      (let st := resolveStrides (ws.map dimStride) (literalSizes ws) (some 1)
       badStrides d st ||
         (!ws.any dimBind && outsideStore d (ws.map dimSize) (st.map (·.getD 0))))

/-! ## Elements -/

/-- The index vectors of a box, dimension 0 fastest (R297). -/
def boxOf : List Nat → List (List Nat)
  | [] => [[]]
  | n :: ns => (boxOf ns).flatMap fun r => (List.range n).map fun i => i :: r

/-- An index vector lies within sizes (R237). -/
def inBounds : List Nat → List Nat → Bool
  | [], [] => true
  | i :: is, n :: ns => decide (i < n) && inBounds is ns
  | _, _ => false

/-- The index of a source: 0 along a dimension of zero stride, which any index reaches (R134). -/
def broadcastIx (t : Tensor) (ix : List Nat) : List Nat :=
  (ix.zip t.strides).map fun p => if p.2 = 0 then 0 else p.1

/-- The element offset of an index vector (R227). -/
def elemOffset (t : Tensor) (ix : List Nat) : Int :=
  (ix.zip t.strides).foldl (fun (a : Int) p => a + (p.1 : Int) * p.2) 0

/-- The swizzle of a tile-store offset (R234). -/
def swizzleOf (mode o : Nat) : Nat :=
  if mode = 0 then o else o ^^^ ((o >>> (10 + mode) &&& 0x1F) <<< 6)

/-- The byte addresses of an element, before any swizzle, and its bit shift. -/
def elemAddrs (t : Tensor) (ix : List Nat) : List Nat × Nat :=
  let (b, sh, n) := elemPlace t.kind t.fmt (elemOffset t ix)
  let a := (((t.base : Int) + b) % 2 ^ 64).toNat
  ((List.range n).map (fun i => a + i), sh)

/-- Bits of an element. -/
def elemBits (t : Tensor) : Nat := if t.kind = 3 then 768 else fmtWidth t.fmt

/-- The address of the scale byte of an element (R235). -/
def scaleAddr (t : Tensor) (ix : List Nat) : Nat :=
  let g := 8 * 2 ^ t.group
  let gi := match ix, t.sizes with
    | i :: is, n :: ns =>
      let ng := (n + g - 1) / g
      i / g + ng * ((is.zip ns).foldr (fun p a => p.1 + p.2 * a) 0)
    | _, _ => 0
  t.scale + gi

/-! ### A tile store with pending writes

A running command sees the store and collects its own writes in an overlay, which completion makes visible (R191). -/

/-- A view of a tile store: its bytes and poison, what the command has written so far, the words that it writes as
poisoned, and whether it has read poison. -/
structure View where
  store : List Host.Cell
  bad   : Table Bool
  out   : Table Byte
  outBad : Table Bool
  flags : Flags
  seen  : Bool
  deriving DecidableEq, Repr

def viewOf (t : Tile) : View := ⟨t.store, t.bad, [], [], 0, false⟩

/-- A byte as stored before the command. -/
def View.byte (v : View) (a : Nat) : Byte := readByte v.store a

/-- A byte with the command's own writes. -/
def View.cur (v : View) (a : Nat) : Byte := (tfind v.out a).getD (readByte v.store a)

def View.put (v : View) (a : Nat) (b : Byte) : View := { v with out := tinsert v.out a b }

def View.flag (v : View) (f : Flags) : View := { v with flags := v.flags ||| f }

/-- Whether one of the bytes lies in a poisoned word. -/
def View.poisoned (v : View) (as : List Nat) : Bool := as.any fun a => tget noB v.bad (a / 8)

/-- The tile-store offsets of an element. -/
def tileAddrs (t : Tensor) (ix : List Nat) : List Nat × Nat :=
  let (as, sh) := elemAddrs t ix
  (as.map (swizzleOf t.swizzle), sh)

/-- Reads the code of an element in the tile store; true where it is poisoned. -/
def View.code (v : View) (t : Tensor) (ix : List Nat) : Nat × Bool :=
  let (as, sh) := tileAddrs t ix
  (leNat (as.map v.byte) / 2 ^ sh % 2 ^ elemBits t, v.poisoned as)

/-- Writes the code of an element in the tile store. -/
def View.setCode (v : View) (t : Tensor) (ix : List Nat) (c : Nat) : View :=
  let (as, sh) := tileAddrs t ix
  let old := leNat (as.map v.cur)
  let w := elemBits t
  let keep := old % 2 ^ sh + old / 2 ^ (sh + w) * 2 ^ (sh + w)
  (as.zip (leBytes as.length (keep + c % 2 ^ w * 2 ^ sh))).foldl (fun v p => v.put p.1 p.2) v

/-- Writes the words of an element as poisoned (R125). -/
def View.spoil (v : View) (as : List Nat) : View :=
  { v with outBad := as.foldl (fun b a => tinsert b (a / 8) true) v.outBad }

/-- The value of a source element with its scale (R58, R236); an index outside the sizes reads as +0 (R238). Answers the
value, the flags that reading it raises, and poison. -/
def View.value (v : View) (t : Tensor) (ix : List Nat) : FVal × Flags × Bool :=
  if !inBounds ix t.sizes then (.fin false 0 0, 0, false)
  else
    let (c, p) := v.code t ix
    let (x, fl) := decodeAny t.fmt c
    if t.group = 0 then (x, fl, p)
    else
      let sa := scaleAddr t ix
      (scaleVal (v.byte sa).toNat x, fl, p || v.poisoned [sa])

/-- The index that the stochastic hash takes (R110, R231). -/
def hashIx (t : Tensor) (ix : List Nat) : List Nat :=
  (List.range ix.length).map fun d => ix.getD d 0 + t.origins.getD d 0

/-- The random number of an output element (R69, R204). -/
def randomOf (t : Tensor) (ix : List Nat) : Nat := srBits t.seed (hashIx t ix)

end Sys2Proof.Machine
end

