-- ==== Sys2Proof/Machine/Xlat.lean ====
section
/-! DEFINITION. Translation buffers and misses (file 11): what a first-level buffer, the second level and the requests to
the host do for one access. -/
namespace Sys2Proof.Machine

/-! ## Buffers (R453) -/

def bufFetch (n : Nat) : Nat := n
def bufData (n : Nat) : Nat := 256 + n
def bufCmd (n : Nat) : Nat := 512 + n
def bufHod (e : Nat) : Nat := 768 + e
def bufJegon (p : Nat) : Nat := 1024 + p
def bufShared : Nat := 2048

/-- Sets and ways of a buffer. -/
def bufShape (b : Nat) : Nat × Nat :=
  if b < 256 then (1, 16) else if b < 768 then (1, 32) else if b < 1024 then (1, 64)
  else if b < 2048 then (64, 4) else (2048, 8)

def entriesOf (s : State) (b : Nat) : List TlbEntry := (tfind s.xlat.buffers b).getD []

/-- An empty buffer is not listed. -/
def setEntries (b : Nat) (l : List TlbEntry) (s : State) : State :=
  { s with xlat := { s.xlat with
      buffers := if l.isEmpty then terase s.xlat.buffers b else tinsert s.xlat.buffers b l } }

/-- The set of an entry: R453 gives no index (DESIGN CHOICE, log 19). -/
def entrySet (b : Nat) (e : TlbEntry) : Nat := e.vbase / e.span % (bufShape b).1

/-- Every permission needed is granted. -/
def grants (have_ need : Perm) : Bool := (!need.r || have_.r) && (!need.w || have_.w) && (!need.x || have_.x)

def covers (e : TlbEntry) (pasid a : Nat) : Bool :=
  e.pasid == pasid && decide (e.vbase ≤ a) && decide (a < e.vbase + e.span)

/-- The entry that an access hits (R456): any one of those that cover it and grant what it needs. -/
def hitOf (s : State) (b pasid a : Nat) (need : Perm) : Option TlbEntry :=
  match (entriesOf s b).filter (fun e => covers e pasid a && grants e.perm need) with
  | [] => none
  | [e] => some e
  | e :: es => some ((e :: es).getD (Config.pick s.ticket % (es.length + 1)) e)

/-- Marks an entry as used; when that leaves no entry of its set unused, the others become unused (R453). -/
def touchEntry (b : Nat) (e : TlbEntry) (s : State) : State :=
  let l := (entriesOf s b).map (fun x => if x = e then { x with used := true } else x)
  let mine (x : TlbEntry) : Bool := entrySet b x == entrySet b e
  let full := decide ((l.filter mine).length = (bufShape b).2) && (l.filter mine).all (fun x => x.used)
  setEntries b (if full then l.map (fun x => if mine x && x ≠ { e with used := true } then { x with used := false } else x)
                else l) s

/-- Puts an entry into a buffer. A full set gives up an entry that was not recently used, any one of several (R453).
Answers the entry that was given up. An entry of the same range is replaced by one that maps it alike and grants as much. -/
def storeEntry (b : Nat) (e : TlbEntry) (s : State) : State × Option TlbEntry :=
  let l := (entriesOf s b).filter (fun x => !(x.pasid == e.pasid && x.vbase == e.vbase && x.span == e.span && x.pbase == e.pbase && grants e.perm x.perm))
  let set := l.filter (fun x => entrySet b x == entrySet b e)
  let (l, victim) :=
    if set.length < (bufShape b).2 then (l, none)
    else
      let cand := if set.all (fun x => x.used) then set else set.filter (fun x => !x.used)
      match cand with
      | [] => (l, none)
      | c :: cs =>
        let v := (c :: cs).getD (Config.pick s.ticket % (cs.length + 1)) c
        (removeFirst (fun x => x == v) l, some v)
  (setEntries b (l ++ [{ e with used := true }]) { s with ticket := s.ticket + 1 }, victim)

/-! ## The path of a miss (R459 to R463) -/

/-- The PASID of a context. -/
def pasidOf (s : State) (ctx : Nat) : Nat := ((ctxOf s ctx).map (fun c => c.pasid)).getD 0

/-- The host services that translation needs are on (R452). -/
def xltEnabled (s : State) : Bool := s.link.ats && s.link.pasid && s.link.pri && s.link.stu == 0 && !s.link.hostAbsent

/-- Requests that are outstanding at the host. -/
def xltSent (s : State) : Nat := (s.xlat.reqs.filter (fun r => r.sent)).length

/-- Sends the waiting translation requests while fewer than 256 are outstanding (R459). -/
def pumpXlt (s : State) : State :=
  forEach s.xlat.reqs (fun r s =>
    if !r.sent && decide (xltSent s < 256) then
      send (.xltRequest r.pasid (r.page * 4096) r.noWrite r.exec)
        { s with xlat := { s.xlat with reqs := replaceFirst (fun q => q = r) (fun q => { q with sent := true }) s.xlat.reqs } }
    else s) s

/-- Two waiters are one access, however often each has been tried. -/
def sameAccess (v w : Waiter) : Bool := { v with tries := 0 } == { w with tries := 0 }

/-- A waiter among others; an access that waits already is not listed again. -/
def addWaiter (ws : List Waiter) (w : Waiter) : List Waiter := if ws.any (sameAccess w) then ws else ws ++ [w]

/-- An access waits on a page request, or for a PRG index (R461, R462). -/
def waitsOnPage (s : State) (w : Waiter) : Bool :=
  s.xlat.prgs.any (fun p => p.2.waiters.any (sameAccess w)) || s.xlat.faultQ.any (sameAccess w)

/-- A miss joins the translation request of its page, or starts one (R459). An access that runs again while its page request is
outstanding stays with that request (R461). -/
def startMiss (w : Waiter) (s : State) : State :=
  if waitsOnPage s w then s
  else
    let pasid := pasidOf s w.ctx
    let page := w.addr / 4096
    if s.xlat.reqs.any (fun r => r.pasid == pasid && r.page == page) then
      let mine (r : XltReq) : Bool := r.pasid == pasid && r.page == page
      let join (r : XltReq) : XltReq := { r with waiters := addWaiter r.waiters w }
      { s with xlat := { s.xlat with reqs := replaceFirst mine join s.xlat.reqs } }
    else
      pumpXlt { s with xlat := { s.xlat with
        reqs := s.xlat.reqs ++ [⟨pasid, page, !w.perm.w, w.perm.x, false, false, [w]⟩] } }

/-- What translation answers: a physical key, a wait, or a failure (R465). -/
inductive XlatRes where
  | hit (pa : Nat)
  | wait
  | fail
  deriving DecidableEq, Repr

/-- The host physical address that an entry gives (R454). -/
def entryPhys (e : TlbEntry) (a : Nat) : Nat := e.pbase + (a - e.vbase)

/-- The sorting of a translated address; a context that reaches host memory depends on it from then on (R511). -/
def sortedFor (ctx : Nat) (h : Nat) (s : State) : XlatRes × State :=
  let pa := sortHost s h
  (.hit pa, if 2 ^ 56 ≤ pa && pa < 2 ^ 57 then modCtx ctx (fun c => { c with hostDep := true }) s else s)

/-- Stores an entry for an access. A Jegon port whose buffer gives an entry up invalidates it at its engine, which may keep using it
until it has acknowledged (R475). -/
def storeFor (b : Nat) (e : TlbEntry) (s : State) : State :=
  match storeEntry b e s with
  | (s, none) => s
  | (s, some v) =>
    if 1024 ≤ b && b < 2048 then
      send (.jegInvalidate (b - 1024) v.vbase) (modJegon (b - 1024) (fun j => { j with leaving := j.leaving ++ [v] }) s)
    else s

/-- Translates one access of a waiter through its first-level buffer, the second level and, on a miss, the host. -/
def translate (w : Waiter) (s : State) : XlatRes × State :=
  let pasid := pasidOf s w.ctx
  match hitOf s w.buffer pasid w.addr w.perm with
  | some e => sortedFor w.ctx (entryPhys e w.addr) (touchEntry w.buffer e s)
  | none =>
    match hitOf s bufShared pasid w.addr w.perm with
    | some e => sortedFor w.ctx (entryPhys e w.addr) (storeFor w.buffer e (touchEntry bufShared e s))
    | none => if xltEnabled s then (.wait, startMiss w s) else (.fail, s)

/-- The physical key of a byte that a context may write, where a buffer still holds its translation. -/
def keyHeld (s : State) (ctx b a : Nat) : Option Nat :=
  ((hitOf s b (pasidOf s ctx) a ⟨false, true, false⟩).or (hitOf s bufShared (pasidOf s ctx) a ⟨false, true, false⟩)).map fun x =>
    sortHost s (entryPhys x a)

/-- A waiter of an access. -/
def waiterOf (src : Src) (owner : Owner) (ctx addr : Nat) (perm : Perm) (buffer : Nat) : Waiter :=
  { src := src, owner := owner, ctx := ctx, addr := addr, perm := perm, buffer := buffer, tries := 0 }

def permR : Perm := ⟨true, false, false⟩
def permW : Perm := ⟨false, true, false⟩
def permRW : Perm := ⟨true, true, false⟩
def permX : Perm := ⟨true, false, true⟩

end Sys2Proof.Machine
end

