-- ==== Sys2Proof/Machine/TileCmd.lean ====
section
/-! DEFINITION. The command of a Tile: its header and operand word, slot use, and the checks of R207 (files 04 to 07). -/
namespace Sys2Proof.Machine

/-! ## Header and operand word (R200, R201) -/

def hVersion (h : Word64) : Nat := fieldOf h 63 56
def hUnit (h : Word64) : Nat := fieldOf h 55 54
def hOp (h : Word64) : Nat := fieldOf h 53 46
def hRm (h : Word64) : Nat := fieldOf h 45 43
def hWait (h : Word64) : BitVec 16 := BitVec.ofNat 16 (fieldOf h 39 24)
def hSigEn (h : Word64) : Bool := bitOf h 23
def hSig (h : Word64) : Nat := fieldOf h 22 19
def hCntEn (h : Word64) : Bool := bitOf h 18
def hCnt (h : Word64) : Nat := fieldOf h 17 15
def hTc (h : Word64) : Nat := fieldOf h 14 13

def uTensor : Nat := 0
def uVector : Nat := 1
def uMover : Nat := 2

/-- Slots D0, D1, S0 to S3, numbered from the top of the operand word. -/
def slotReg (o : Word64) (slot : Nat) : Nat := o.toNat / 2 ^ (60 - 4 * slot) % 16
def sD0 : Nat := 0
def sD1 : Nat := 1
def sS0 : Nat := 2
def sS1 : Nat := 3
def sS2 : Nat := 4
def sS3 : Nat := 5
def argOf (o : Word64) : Nat := fieldOf o 39 0

/-- Operation codes of the tensor unit (R244) and the tile mover (R293). -/
def opMMA : Nat := 0x01
def opGMMA : Nat := 0x02
def opROUND : Nat := 0x03
def opCOPY : Nat := 0x01
def opGATHER : Nat := 0x02
def opSCATTER : Nat := 0x03
def opSCATRED : Nat := 0x04
def opRED : Nat := 0x05
def opAMO : Nat := 0x06

/-- Function codes of the vector unit (R137). -/
def fnADD : Nat := 0x01
def fnSUB : Nat := 0x02
def fnMUL : Nat := 0x03
def fnFMA : Nat := 0x04
def fnDIV : Nat := 0x05
def fnSQRT : Nat := 0x06
def fnMIN : Nat := 0x07
def fnMAX : Nat := 0x08
def fnMINNUM : Nat := 0x09
def fnMAXNUM : Nat := 0x0A
def fnSCALEB : Nat := 0x0B
def fnRINT : Nat := 0x0C
def fnNEG : Nat := 0x0D
def fnABS : Nat := 0x0E
def fnCOPYSIGN : Nat := 0x0F
def fnCLASS : Nat := 0x10
def fnCMP : Nat := 0x11
def fnSEL : Nat := 0x12
def fnCONVERT : Nat := 0x13
def fnTWOSUM : Nat := 0x20
def fnTWOPROD : Nat := 0x21
def fnPADD : Nat := 0x22
def fnPMUL : Nat := 0x23
def fnPFMA : Nat := 0x24
def fnRSUM : Nat := 0x40
def fnRSUMSQ : Nat := 0x41
def fnRMAX : Nat := 0x42
def fnRMIN : Nat := 0x43
def fnSOFTMAX : Nat := 0x48

/-- Fields of `ARG` (R203, R245, R294). -/
def aOut (o : Word64) : Nat := argOf o / 16 % 4
def aCen (o : Word64) : Bool := argOf o / 8 % 2 == 1
def aRk (o : Word64) : Nat := argOf o % 8
def aMode (o : Word64) : Nat := argOf o % 4
def aGiven (o : Word64) : Bool := argOf o / 4 % 2 == 1
def aPred (o : Word64) : Nat := argOf o % 8
def aGop (o : Word64) : Nat := argOf o / 2 ^ 16 % 256
def aFetch (o : Word64) : Bool := argOf o / 32 % 2 == 1
def aOrd (o : Word64) : Bool := argOf o / 16 % 2 == 1
def aH (o : Word64) : Nat := argOf o % 8

/-- Grout operations (R406). -/
def gopADD : Nat := 0x01
def gopAND : Nat := 0x02
def gopOR : Nat := 0x03
def gopXOR : Nat := 0x04
def gopSMIN : Nat := 0x05
def gopSMAX : Nat := 0x06
def gopUMIN : Nat := 0x07
def gopUMAX : Nat := 0x08
def gopSWAP : Nat := 0x09
def gopCAS : Nat := 0x0A
def gopFADD32 : Nat := 0x10
def gopFADD64 : Nat := 0x11
def gopFMAX : Nat := 0x20
def gopXADD : Nat := 0x30
def gopBXOR : Nat := 0x31

/-- The sizes in bytes that an operation takes; none for a reserved code (R406). -/
def gopSizes : Nat → List Nat
  | 0x01 => [4, 8] | 0x02 => [4, 8] | 0x03 => [4, 8] | 0x04 => [4, 8] | 0x05 => [4, 8] | 0x06 => [4, 8] | 0x07 => [4, 8]
  | 0x08 => [4, 8] | 0x09 => [4, 8, 16] | 0x0A => [4, 8, 16] | 0x10 => [4] | 0x11 => [8] | 0x20 => [8] | 0x30 => [96]
  | 0x31 => [64, 256]
  | _ => []

/-- The tile mover may use an operation on elements of a kind and format (R406). -/
def gopFits (gop kind fmt op : Nat) : Bool :=
  if kind = 3 then gop == gopXADD
  else if gop = gopFADD32 then fmt == fmtB32
  else if gop = gopFADD64 then fmt == fmtB64
  else if gop = gopFMAX then fmt == fmtI64
  else if gop = gopCAS then op == opAMO && fmtIsInt fmt
  else (1 ≤ gop && gop ≤ 9) && fmtIsInt fmt

/-! ## Slot use (R202, R203, R244, R293) -/

def isVecOne (op : Nat) : Bool :=
  op == fnSQRT || op == fnRINT || op == fnNEG || op == fnABS || op == fnCLASS || op == fnCONVERT ||
    (0x30 ≤ op && op ≤ 0x3A)
def isVecTwo (op : Nat) : Bool :=
  (1 ≤ op && op ≤ 3) || op == fnDIV || (7 ≤ op && op ≤ 0x0B) || op == fnCOPYSIGN || op == fnCMP ||
    (0x20 ≤ op && op ≤ 0x23)
def isVecThree (op : Nat) : Bool := op == fnFMA || op == fnPFMA || op == fnSEL
def isReduction (op : Nat) : Bool := 0x40 ≤ op && op ≤ 0x43
def isTranscendental (op : Nat) : Bool := 0x30 ≤ op && op ≤ 0x3A

/-- The slots that an operation uses; none for a reserved operation code. -/
def slotUse (h o : Word64) : Option (List Nat) :=
  let op := hOp h
  if hUnit h = uTensor then
    let c := if aCen o then [sS2] else []
    if op = opMMA then some ([sD0, sS0, sS1] ++ c)
    else if op = opGMMA then some ([sD0, sS0, sS1] ++ c ++ [sS3])
    else if op = opROUND then some [sD0, sS0] else none
  else if hUnit h = uVector then
    if isVecOne op || isReduction op then some [sD0, sS0]
    else if isVecTwo op then some [sD0, sS0, sS1]
    else if isVecThree op then some [sD0, sS0, sS1, sS2]
    else if op = fnSOFTMAX then some ([sD0, sD1, sS0] ++ (if aGiven o then [sS1] else []) ++ [sS3])
    else none
  else
    if op = opCOPY || op = opRED then some [sD0, sS0]
    else if op = opGATHER || op = opSCATTER || op = opSCATRED then some [sD0, sS0, sS1]
    else if op = opAMO then
      some ([sD0] ++ (if aFetch o then [sD1] else []) ++ [sS0] ++ (if aGop o = gopCAS then [sS1] else []))
    else none

/-- The bits of `ARG` that an operation defines. -/
def argMask (h : Word64) : Nat :=
  let op := hOp h
  if hUnit h = uTensor then (if op = opROUND then 0 else 0x3F)
  else if hUnit h = uVector then
    if op = fnCMP then 7 else if op = fnRSUM || op = fnRSUMSQ then 3 else if op = fnSOFTMAX then 7 else 0
  else
    0x10 + (if op = opAMO then 0x20 else 0) + (if opSCATRED ≤ op then 0xFF0000 else 0) +
      (if opGATHER ≤ op && op ≤ opSCATRED then 7 else 0)

/-- Destination slots of a command. -/
def destSlots (h o : Word64) : List Nat :=
  if hUnit h = uVector && hOp h = fnSOFTMAX then [sD0, sD1, sS3]
  else if hUnit h = uMover && hOp h = opAMO then (if aFetch o then [sD0, sD1] else [sD0])
  else [sD0]

/-! ## The copied descriptors (R185, R229) -/

/-- Takes the descriptor that a slot names; none where a register is not valid or an extension check fails (reason 0x05,
R224, R233). -/
def copyDesc (t : Tile) (n : Nat) : Option DescCopy :=
  let tdOf (k : Nat) : DescReg := tget (fun _ => ⟨[], false⟩) t.td k
  let m := tdOf n
  if !m.valid || dKind m.bytes == 2 then none
  else if !dExt m.bytes then some ⟨m.bytes, none⟩
  else
    let e := tdOf (n + 1)
    if n == 15 || !e.valid || dKind e.bytes != 2 then none
    else
      let c : DescCopy := ⟨m.bytes, some e.bytes⟩
      if extChecksFail c then none else some c

/-- The descriptors of all used slots. -/
def copyDescs (t : Tile) (o : Word64) (slots : List Nat) : Option (List (Nat × DescCopy)) :=
  slots.mapM fun k => (copyDesc t (slotReg o k)).map fun c => (k, c)

/-- The tensor of a slot. -/
def slotOf (ts : List (Nat × Tensor)) (k : Nat) : Option Tensor := (ts.find? (fun p => p.1 = k)).map Prod.snd

/-- An empty tensor, for slots that a command does not use. -/
def noTensor : Tensor :=
  { kind := 1, fmt := 7, space := 1, group := 0, oob := false, chain := false, swizzle := 0, base := 0, scale := 0,
    sizes := [], strides := [], seed := 0, origins := [] }

def slotD (ts : List (Nat × Tensor)) (k : Nat) : Tensor := (slotOf ts k).getD noTensor

/-- The command spills exact states (R118, R250, R159). -/
def outMode (h o : Word64) : Nat :=
  if hUnit h = uTensor then (if hOp h = opROUND then 0 else aOut o)
  else if hUnit h = uVector && (hOp h = fnRSUM || hOp h = fnRSUMSQ || hOp h = fnSOFTMAX) then aMode o else 0

/-- The slot that takes exact states when the command spills. -/
def spillSlot (h : Word64) : Nat := if hUnit h = uVector && hOp h = fnSOFTMAX then sS3 else sD0

/-! ## Checks that need no size (reasons 0x06 to 0x08) -/

/-- A descriptor names memory that its slot does not accept (R133, R205, R256, R295). -/
def badMemory (h o : Word64) (ts : List (Nat × Tensor)) : Bool :=
  let op := hOp h
  let onTile (k : Nat) : Bool := (slotD ts k).space == 1
  if hUnit h = uMover then
    if op = opSCATRED || op = opRED then onTile sD0
    else if op = opAMO then onTile sD0 || ts.any (fun p => p.1 != sD0 && p.2.space != 1)
    else false
  else
    let mode := outMode h o
    ts.any fun p =>
      if mode != 0 && p.1 == spillSlot h then mode == 2 && p.2.space == 1 else p.2.space != 1

/-- H, S and D of R137. -/
def isH (f : Nat) : Bool := f == fmtFB16 || f == fmtB16
def isHS (f : Nat) : Bool := isH f || f == fmtB32
def isHSD (f : Nat) : Bool := isHS f || f == fmtB64

/-- A format for a role that R46, R136, R138, R236, R250 or R295 does not permit. -/
def badFormat (h o : Word64) (ts : List (Nat × Tensor)) : Bool :=
  let op := hOp h
  let d := slotD ts sD0
  let a := slotD ts sS0
  let b := slotD ts sS1
  let c := slotD ts sS2
  let fmts := ts.map fun p => p.2.fmt
  let plain := ts.all fun p => p.2.kind == 1
  let mode := outMode h o
  if hUnit h = uTensor then
    if op = opROUND then !(a.kind == 3 && d.kind == 1 && fmtTensorOut d.fmt && d.group == 0)
    else
      let wide := a.fmt == fmtB64 || b.fmt == fmtB64
      let srcs := a.kind == 1 && b.kind == 1 &&
        (if wide then a.fmt == fmtB64 && b.fmt == fmtB64 else a.fmt ≤ 7 && b.fmt ≤ 7)
      let acc := !aCen o || (if wide then c.kind == 1 && c.fmt == fmtB64 else c.kind == 3 || (3 ≤ c.fmt && c.fmt ≤ 7))
      let dst :=
        if mode = 0 then d.kind == 1 && d.group == 0 && (if wide then d.fmt == fmtB64 else fmtTensorOut d.fmt)
        else !wide && d.kind == 3
      let offs := op != opGMMA || ((slotD ts sS3).kind == 1 && fmtIsInt (slotD ts sS3).fmt)
      !(srcs && acc && dst && offs)
  else if hUnit h = uVector then
    if op = fnCONVERT then !plain
    else if op = fnTWOSUM || op = fnTWOPROD then !(plain && a.fmt == fmtB32 && b.fmt == fmtB32 && d.fmt == fmtPair)
    else if op = fnPADD || op = fnPMUL || op = fnPFMA then
      !(plain && d.fmt == fmtPair && ts.all (fun p => p.2.fmt == fmtPair || (p.1 != sD0 && p.2.fmt == fmtB32)))
    else if op = fnRSUM || op = fnRSUMSQ then
      !(a.kind == 1 && isHSD a.fmt &&
        (if a.fmt = fmtB64 then mode == 0 && d.kind == 1 && d.fmt == fmtB64
         else if mode = 0 then d.kind == 1 && fmtTensorOut d.fmt && d.group == 0 else d.kind == 3))
    else if op = fnSOFTMAX then
      let m := slotD ts sD1
      let g := slotD ts sS1
      let r := slotD ts sS3
      !(a.kind == 1 && isHS a.fmt && d.kind == 1 && d.fmt == a.fmt && m.kind == 1 && m.fmt == fmtB32 &&
        (!aGiven o || (g.kind == 1 && g.fmt == fmtB32)) &&
        (if mode = 0 then r.kind == 1 && r.fmt == fmtB32 else r.kind == 3))
    else
      !(plain && fmts.all (· == d.fmt) && (if isTranscendental op then isHS d.fmt else isHSD d.fmt))
  else
    let gopBad := (op = opSCATRED || op = opRED || op = opAMO) && !gopFits (aGop o) d.kind d.fmt op
    let same (t : Tensor) : Bool := t.kind == d.kind && t.fmt == d.fmt
    let idx := op = opGATHER || op = opSCATTER || op = opSCATRED
    gopBad || d.group != 0 || !same a || (op = opAMO && aFetch o && !same (slotD ts sD1)) ||
      (op = opAMO && aGop o = gopCAS && !same b) || (idx && !(b.kind == 1 && fmtIsInt b.fmt)) ||
      (idx && aH o == 0 && d.kind == 1 && d.fmt ≤ 2)

/-- A rounding mode that is reserved or that the operation does not permit (R65, R126, R140, R156, R250). -/
def badRounding (h o : Word64) (ts : List (Nat × Tensor)) : Bool :=
  let rm := hRm h
  let op := hOp h
  let d := slotD ts sD0
  decide (4 < rm) ||
    (if hUnit h = uTensor then
      (outMode h o != 0 && rm != 0) || (rm == rmSR && op != opROUND && (slotD ts sS0).fmt == fmtB64)
    else if hUnit h = uVector then
      (isTranscendental op && rm != 0) ||
        (rm == rmSR && !((op ≤ 6 || op == fnCONVERT) && d.fmt != fmtB64 && d.fmt != fmtPair && !fmtIsInt d.fmt))
    else false)

/-! ## Checks that depend on sizes (reasons 0x09 to 0x0B) -/

/-- Every byte of the tile store that a tensor's elements and scales occupy. -/
def tensorBytes (t : Tensor) : List Nat :=
  if t.space != 1 then []
  else (boxOf t.sizes).flatMap (fun ix => (tileAddrs t ix).1) ++
    (if t.group = 0 || t.sizes.any (· == 0) then [] else (List.range (scaleCount t.group t.sizes)).map (t.scale + ·))

/-- Bounds of the bytes of a tensor, widened over the swizzle. -/
def tensorSpan (t : Tensor) : Int × Int :=
  let (lo, hi) := offsetRange t.sizes t.strides
  let a := (t.base : Int) + (elemPlace t.kind t.fmt lo).1
  let (h, _, n) := elemPlace t.kind t.fmt hi
  (a / 2048 * 2048, ((t.base : Int) + h + n + 2047) / 2048 * 2048)

/-- The two descriptors are the same view (R135). -/
def sameView (a b : Tensor) : Bool :=
  a.base == b.base && a.fmt == b.fmt && a.kind == b.kind && a.sizes == b.sizes && a.strides == b.strides &&
    a.swizzle == b.swizzle

/-- The bytes of two tensors in the tile store overlap. -/
def overlaps (a b : Tensor) : Bool :=
  a.space == 1 && b.space == 1 && !a.sizes.any (· == 0) && !b.sizes.any (· == 0) &&
    (a.group != 0 || b.group != 0 ||
      (decide ((tensorSpan a).1 < (tensorSpan b).2) && decide ((tensorSpan b).1 < (tensorSpan a).2))) &&
    (let bs := tensorBytes b
     (tensorBytes a).any fun x => bs.contains x)

/-- Forbidden overlap of a vector command (R135). -/
def badOverlap (h o : Word64) (ts : List (Nat × Tensor)) : Bool :=
  hUnit h == uVector &&
    (let ds := destSlots h o
     let dst := ts.filter fun p => ds.contains p.1
     let src := ts.filter fun p => !ds.contains p.1
     dst.any fun d => src.any fun a => !sameView d.2 a.2 && overlaps d.2 a.2)

/-- A source of a vector command against a box (R134, R238). -/
def badSource (box : List Nat) (t : Tensor) : Bool :=
  t.sizes.length != box.length ||
    ((t.sizes.zip t.strides).zip box).any fun p =>
      let n := p.1.1
      if p.1.2 = 0 then n == 0 else less p.2 n || (less n p.2 && t.oob)

/-- A source with the fault policy is smaller than the box along a dimension (R238), or of another rank. -/
def tooSmall (box : List Nat) (t : Tensor) : Bool :=
  t.sizes.length != box.length || (t.oob && (t.sizes.zip box).any fun p => less p.1 p.2)

/-- Two lists of sizes differ in length or in a size that is known. -/
def otherSizes (a b : List Nat) : Bool := a.length != b.length || (a.zip b).any fun p => differ p.1 p.2

/-- A tensor of the fault policy has no element 0 (R225, R238). -/
def noElement (t : Tensor) : Bool := t.oob && t.sizes.any (· == 0)

/-- The reduction box of a dot product (R247). -/
def reductionBox (rk : Nat) (a b : Tensor) : List Nat :=
  ((a.sizes.take rk).zip (b.sizes.take rk)).map fun p => max p.1 p.2

/-- Sizes that do not agree (reason 0x0A), as far as they are known. A source larger than the box is allowed in the tensor unit
(DEDUCED, log 21). -/
def badSizes (h o : Word64) (ts : List (Nat × Tensor)) : Bool :=
  let op := hOp h
  let d := slotD ts sD0
  let a := slotD ts sS0
  let b := slotD ts sS1
  let c := slotD ts sS2
  if hUnit h = uTensor then
    if op = opROUND then tooSmall d.sizes a
    else
      let rk := aRk o
      let kb := reductionBox rk a b
      let mdims := d.sizes.drop 1
      decide (d.rank < 2) || a.rank != rk + mdims.length ||
        (if op = opMMA then
          b.rank != rk + mdims.length || tooSmall (kb ++ mdims) a ||
            tooSmall (kb ++ d.sizes.take 1 ++ d.sizes.drop 2) b
         else
          d.rank != 2 || b.rank != rk + 2 || tooSmall (kb ++ mdims) a ||
            tooSmall (kb ++ d.sizes.take 1 ++ [b.sizes.getD (rk + 1) 0]) b ||
            (slotD ts sS3).rank != 1 || less ((slotD ts sS3).sizes.getD 0 0) 2) ||
        (aCen o && tooSmall d.sizes c)
  else if hUnit h = uVector then
    if isReduction op then
      differ (d.sizes.getD 0 0) 1 || badSource (a.sizes.take 1 ++ d.sizes.drop 1) a
    else if op = fnSOFTMAX then
      let row := 1 :: d.sizes.drop 1
      badSource d.sizes a || otherSizes (slotD ts sD1).sizes row || otherSizes (slotD ts sS3).sizes row ||
        (aGiven o && badSource row b)
    else ts.any fun p => p.1 != sD0 && badSource d.sizes p.2
  else
    let hh := aH o
    let narrow := d.kind == 1 &&
      ((d.fmt == fmtFB4 && d.sizes.getD 0 0 % 2 != 0) || (d.fmt == fmtFB6 && d.sizes.getD 0 0 % 4 != 0))
    if op = opAMO then
      !d.sizes.any (· == 0) && !d.sizes.contains lateSize && (noElement a || (aGop o == gopCAS && noElement b))
    else if op = opCOPY || op = opRED then a.rank != d.rank || narrow || tooSmall d.sizes a
    else if op = opGATHER then
      b.rank != 1 || a.rank != d.rank || decide (d.rank ≤ hh) || narrow ||
        tooSmall [d.sizes.getD hh 0] b ||
        (a.oob && ((List.range d.rank).any fun k => k != hh && less (a.sizes.getD k 0) (d.sizes.getD k 0)))
    else
      b.rank != 1 || a.rank != d.rank || decide (d.rank ≤ hh) || narrow ||
        tooSmall [a.sizes.getD hh 0] b ||
        (d.oob && ((List.range d.rank).any fun k => k != hh && less (d.sizes.getD k 0) (a.sizes.getD k 0)))

/-- The reduction length of a dot product. -/
def reductionLength (h o : Word64) (ts : List (Nat × Tensor)) : Nat :=
  if hUnit h = uTensor && hOp h != opROUND then
    (reductionBox (aRk o) (slotD ts sS0) (slotD ts sS1)).foldl (· * ·) 1
  else 0

/-- Reasons found from sizes, lowest code first (R206, R242). Overlap is judged once every size is known. -/
def sizeReason (h o : Word64) (ts : List (Nat × Tensor)) : Option Nat :=
  if !ts.any (fun p => p.2.sizes.contains lateSize) && badOverlap h o ts then some 0x09 else if badSizes h o ts then some 0x0A else none

/-! ## The checks of `tcmd` (R206, R207) -/

/-- What `tcmd` finds: a reason, or the copied descriptors. Of several failed checks the lowest reason is reported
(DESIGN CHOICE, log 20). -/
def checkCommand (t : Tile) (h o : Word64) : Except Nat (List (Nat × DescCopy)) :=
  if hVersion h ≠ 1 then .error 0x01
  else if hUnit h = 3 then .error 0x02
  else match slotUse h o with
    | none => .error 0x03
    | some slots =>
      let spare := (List.range 6).any fun k => !slots.contains k && slotReg o k != 0
      let badArg := argOf o &&& (2 ^ 40 - 1 - argMask h) != 0
      let badRk := hUnit h = uTensor && hOp h != opROUND && (aRk o == 0 || decide (3 < aRk o) || aOut o == 3)
      let badMode := outMode h o == 3 || (hUnit h = uVector && hOp h = fnCMP && aPred o == 7)
      if fieldOf h 42 40 != 0 || fieldOf h 12 0 != 0 || spare || badArg || badRk || badMode ||
          (hTc h != 0 && hUnit h != uMover) then .error 0x04
      else match copyDescs t o slots with
        | none => .error 0x05
        | some ds =>
          let ts := ds.map fun p => (p.1, bindTensor p.2 (fun _ => lateSize))
          if badMemory h o ts then .error 0x06
          else if badFormat h o ts then .error 0x07
          else if badRounding h o ts then .error 0x08
          else match sizeReason h o ts with
            | some r => .error r
            | none => if ts.any (fun p => originBroken p.2) then .error 0x0B else .ok ds

end Sys2Proof.Machine
end

