-- ==== Sys2Proof/Machine/TileUnits.lean ====
section
/-! DEFINITION. What the tensor unit and the vector unit compute (files 02 to 04, 06): from the tile store and the bound
tensors of a command to the bytes it will write, its spills and its flags. -/
namespace Sys2Proof.Machine

/-- The work of a unit in progress: the view of the tile store, the spills that leave it, the first failure. -/
structure Work where
  view   : View
  runs   : List Run
  reason : Option Nat
  deriving DecidableEq, Repr

def Work.fail (w : Work) (r : Nat) : Work := { w with reason := w.reason.orElse fun _ => some r }

/-- Poisoned data was read (R425). -/
def Work.poisoned (w : Work) (p : Bool) : Work := if p then w.fail 0x11 else w

def Work.flag (w : Work) (f : Flags) : Work := { w with view := w.view.flag f }

/-- A remote operation still to be issued, with all its data poisoned or none. -/
def runOf (kind : OpKind) (gop addr : Nat) (data : List Byte) (poison : Bool) (perm : Perm) : Run :=
  { kind := kind, gop := gop, addr := addr, len := data.length, data := data, comparand := [], poison := allMarks addr data.length poison,
    perm := perm, into := [] }

/-- Writes an accumulator out: rounded, or spilled as a record by store or by add (R118, R125, R250). `p` marks a result
filled from a poisoned record. -/
def emitAcc (mode : Nat) (d : Tensor) (ix : List Nat) (rm : Nat) (acc : Acc) (p : Bool) (w : Work) : Work :=
  let (as, _) := if d.space = 1 then tileAddrs d ix else elemAddrs d ix
  if mode = 0 then
    let (c, fl) := acc.round d.fmt rm (randomOf d ix)
    let v := w.view.setCode d ix c
    { w with view := (if p then v.spoil as else v.flag fl) }
  else if mode = 1 && d.space = 1 then
    let v := (as.zip acc.bytes).foldl (fun (v : View) x => v.put x.1 x.2) w.view
    { w with view := if p then v.spoil as else v }
  else if mode = 1 then { w with runs := w.runs ++ [runOf .put 0 (as.headD 0) acc.bytes p permW] }
  else { w with runs := w.runs ++ [runOf .atomic gopXADD (as.headD 0) acc.bytes p permRW] }

/-! ## Tensor unit (R244 to R253) -/

/-- The accumulate input of an element (R98, R119, R249): the start of the sum, whether it is poisoned, and a refusal. -/
def startAcc (w : Work) (c : Tensor) (ix : List Nat) : Acc × Bool × Bool :=
  if !inBounds ix c.sizes then (Acc.zero, false, false)
  else if c.kind = 3 then
    let (as, _) := tileAddrs c ix
    let p := w.view.poisoned as
    match readRecord (as.map w.view.byte) with
    | some a => (a, p, false)
    | none => (Acc.zero, p, !p)
  else
    let (x, _, p) := w.view.value c ix
    (Acc.zero.value x, p, false)

/-- Adds the terms of a dot product over the reduction box (R97, R99). -/
def sumTerms (a b : Tensor) (kbox : List (List Nat)) (aTail bTail : List Nat) (w : Work) (acc : Acc) : Acc × Bool :=
  kbox.foldl (fun (r : Acc × Bool) k =>
    let ai := k ++ aTail
    let bi := k ++ bTail
    if inBounds ai a.sizes && inBounds bi b.sizes then
      let (x, _, p) := w.view.value a ai
      let (y, _, q) := w.view.value b bi
      (r.1.term x y, r.2 || p || q)
    else r) (acc, false)

/-- The binary64 chain of an element (R127 to R131). -/
def chainTerms (a b : Tensor) (kbox : List (List Nat)) (aTail bTail : List Nat) (rm : Nat) (w : Work) (d0 : FVal) :
    FVal × Flags × Bool :=
  kbox.foldl (fun (r : FVal × Flags × Bool) k =>
    let ai := k ++ aTail
    let bi := k ++ bTail
    if inBounds ai a.sizes && inBounds bi b.sizes then
      let (x, _, p) := w.view.value a ai
      let (y, _, q) := w.view.value b bi
      let (d, fl) := chainStep rm r.1 x y
      (d, r.2.1 ||| fl, r.2.2 || p || q)
    else r) (d0, 0, false)

/-- One element of a dot-product operation, with the tails of A's and B's index vectors. A binary64 chain in which no term
takes part writes the code of c as it is (R127). -/
def dotElement (h o : Word64) (ts : List (Nat × Tensor)) (kbox : List (List Nat)) (ix aTail bTail : List Nat)
    (w : Work) : Work :=
  let d := slotD ts sD0
  let a := slotD ts sS0
  let b := slotD ts sS1
  let c := slotD ts sS2
  let rm := hRm h
  if a.fmt = fmtB64 then
    let (c0, cp) := if aCen o && inBounds ix c.sizes then w.view.code c ix else (0, false)
    let (r, fl, p) := chainTerms a b (if d.chain then kbox.reverse else kbox) aTail bTail rm w (decodeFloat fmtB64 c0)
    let w := w.poisoned (p || cp)
    let out := if kbox.any (fun k => inBounds (k ++ aTail) a.sizes && inBounds (k ++ bTail) b.sizes) then
        (encodeFloat fmtB64 rm 0 r).1
      else c0
    { w with view := (w.view.setCode d ix out).flag fl }
  else
    let (acc, cp, refused) := if aCen o then startAcc w c ix else (Acc.zero, false, false)
    let (acc, p) := sumTerms a b kbox aTail bTail w acc
    let w := (w.poisoned (p || cp))
    let w := if refused then w.fail 0x15 else w
    emitAcc (outMode h o) d ix rm acc (cp && c.kind == 3) w

/-- `MMA` (R246, R247). -/
def runMma (h o : Word64) (ts : List (Nat × Tensor)) (w : Work) : Work :=
  let d := slotD ts sD0
  let kbox := boxOf (reductionBox (aRk o) (slotD ts sS0) (slotD ts sS1))
  (boxOf d.sizes).foldl (fun w ix =>
    dotElement h o ts kbox ix (ix.drop 1) (ix.take 1 ++ ix.drop 2) w) w

/-- The offsets tensor of `GMMA` as integers, and poison. -/
def readOffsets (w : Work) (t : Tensor) : List Int × Bool :=
  (boxOf t.sizes).foldl (fun (r : List Int × Bool) ix =>
    let (c, p) := w.view.code t ix
    (r.1 ++ [decodeInt t.fmt c], r.2 || p)) ([], false)

/-- `GMMA` (R252). A command with an empty output reads nothing (R225). -/
def runGmma (h o : Word64) (ts : List (Nat × Tensor)) (w : Work) : Work :=
  let d := slotD ts sD0
  let b := slotD ts sS1
  let (offs, p) := if d.sizes.any (· == 0) then ([], false) else readOffsets w (slotD ts sS3)
  let w := w.poisoned p
  let kbox := boxOf (reductionBox (aRk o) (slotD ts sS0) b)
  let groups := offs.length - 1
  (boxOf d.sizes).foldl (fun w ix =>
    let m : Int := ix.getD 1 0
    if decide (m < offs.getD 0 0) || decide (offs.getD groups 0 ≤ m) then w
    else
      let g := (((offs.drop 1).take (groups - 1)).filter (fun x => x ≤ m)).length
      let w := if b.oob && decide (b.sizes.getD (aRk o + 1) 0 ≤ g) then w.fail 0x10 else w
      dotElement h o ts kbox ix (ix.drop 1) (ix.take 1 ++ [g]) w) w

/-- `ROUND` (R253): an out-of-range record under zero fill is the zero record. -/
def runRound (h : Word64) (ts : List (Nat × Tensor)) (w : Work) : Work :=
  let d := slotD ts sD0
  (boxOf d.sizes).foldl (fun w ix =>
    let (acc, p, refused) := startAcc w (slotD ts sS0) ix
    let w := w.poisoned p
    let w := if refused then w.fail 0x15 else w
    emitAcc 0 d ix (hRm h) acc p w) w

/-! ## Vector unit (R133 to R164) -/

/-- A source code of a vector command; an index outside the sizes reads as +0 (R134, R238). -/
def sourceCode (w : Work) (t : Tensor) (ix : List Nat) : Nat × Bool :=
  let ix := broadcastIx t ix
  if inBounds ix t.sizes then w.view.code t ix else (0, false)

/-- Elementwise results on codes: one, two or three operands of formats `fs`, destination format `f`. -/
def vecCode (op f rm u pred : Nat) (fs cs : List Nat) : Nat × Flags :=
  let ca := cs.getD 0 0
  let cb := cs.getD 1 0
  let cc := cs.getD 2 0
  let fa := fs.getD 0 0
  let fb := fs.getD 1 0
  let fc := fs.getD 2 0
  let a := decodeFloat fa ca
  let b := decodeFloat fb cb
  let c := decodeFloat fc cc
  let signBit := 2 ^ (fmtWidth f - 1)
  if op = fnADD then finish f rm u (addVal rm a b)
  else if op = fnSUB then finish f rm u (addVal rm a (negNum b))
  else if op = fnMUL then finish f rm u (mulVal a b)
  else if op = fnFMA then finish f rm u (fmaVal rm [a, b, c] a b c)
  else if op = fnDIV then finish f rm u (divVal a b)
  else if op = fnSQRT then finish f rm u (sqrtVal a)
  else if op = fnMIN then finish f rm u (minMaxVal true a b)
  else if op = fnMAX then finish f rm u (minMaxVal false a b)
  else if op = fnMINNUM then finish f rm u (minMaxNumVal true a b)
  else if op = fnMAXNUM then finish f rm u (minMaxNumVal false a b)
  else if op = fnSCALEB then finish f rm u (scalebVal a b)
  else if op = fnRINT then finish f rm u (rintVal rm a)
  else if op = fnNEG then ((ca + signBit) % (2 * signBit), 0)
  else if op = fnABS then (ca % signBit, 0)
  else if op = fnCOPYSIGN then (ca % signBit + cb / signBit * signBit, 0)
  else if op = fnCLASS then ((encodeFloat f 0 0 (.fin false (classNum f a) 0)).1, 0)
  else if op = fnCMP then
    let (r, fl) := cmpPred pred a b
    (if r then (encodeFloat f 0 0 one).1 else 0, fl)
  else if op = fnSEL then (if !c.isZero && !c.isNan then ca else cb, 0)
  else if op = fnTWOSUM then twosumCode ca cb
  else if op = fnTWOPROD then twoprodCode ca cb
  else if op = fnPADD then paddCode fa ca fb cb
  else if op = fnPMUL then pmulCode fa ca fb cb
  else if op = fnPFMA then pfmaCode fa ca fb cb fc cc
  else transCode op f ca

/-- An elementwise vector command. -/
def runVec (h o : Word64) (ts : List (Nat × Tensor)) (w : Work) : Work :=
  let d := slotD ts sD0
  let srcs := (ts.filter (fun p => p.1 != sD0)).map Prod.snd
  (boxOf d.sizes).foldl (fun w ix =>
    let cs := srcs.map fun t => sourceCode w t ix
    let w := w.poisoned (cs.any Prod.snd)
    let (c, fl) := vecCode (hOp h) d.fmt (hRm h) (randomOf d ix) (aPred o) (srcs.map (·.fmt)) (cs.map Prod.fst)
    { w with view := (w.view.setCode d ix c).flag fl }) w

/-- Converts a value that was read in format `src` (R77 to R86, R704). -/
def convertVal (src dst mode u : Nat) (v : FVal) : Nat × Flags :=
  if dst = fmtPair then encodePair v
  else if fmtIsInt dst then
    match v with
    | .fin s m e => if fmtIsInt src then encodeInt dst (if s then -(m : Int) else m) else floatToInt dst mode (.fin s m e)
    | _ => floatToInt dst mode v
  else encodeFloat dst mode u v

/-- A source value of a vector command with its scale: the scale is that of the element's own group (R235). An index that a zero stride lets
beyond the size has no group, and its scale byte is free (R134; DESIGN CHOICE, log 86). -/
def sourceVal (w : Work) (t : Tensor) (ix : List Nat) : FVal × Flags × Bool :=
  if t.group = 0 || inBounds ix t.sizes || !inBounds (broadcastIx t ix) t.sizes then
    w.view.value t (if t.group = 0 then broadcastIx t ix else ix)
  else
    let (c, p) := w.view.code t ix
    let (x, fl) := decodeAny t.fmt c
    (scaleVal (Config.strayScale ix).toNat x, fl, p)

/-- `CONVERT` without scales at the destination. -/
def convertPlain (h : Word64) (d a : Tensor) (w : Work) : Work :=
  (boxOf d.sizes).foldl (fun w ix =>
    let (v, f1, p) := sourceVal w a ix
    let w := w.poisoned p
    let (c, f2) := convertVal a.fmt d.fmt (hRm h) (randomOf d ix) v
    { w with view := (w.view.setCode d ix c).flag (f1 ||| f2) }) w

/-- `CONVERT` into a block-scaled destination: one scale for each group of R59 (R87 to R89). -/
def convertScaled (h : Word64) (d a : Tensor) (w : Work) : Work :=
  let g := 8 * 2 ^ d.group
  let n := d.sizes.headD 0
  (boxOf ((n + g - 1) / g :: d.sizes.drop 1)).foldl (fun w gx =>
    let i0 := gx.headD 0 * g
    let ixs := (List.range (min g (n - i0))).map fun i => (i0 + i) :: gx.drop 1
    let vals := ixs.map fun ix => sourceVal w a ix
    let w := (w.poisoned (vals.any fun v => v.2.2)).flag (vals.foldl (fun f v => f ||| v.2.1) 0)
    let (fbs, fl) := groupScale d.fmt (vals.map fun v => v.1)
    let w := { w with view := (w.view.put (scaleAddr d (ixs.headD [])) (BitVec.ofNat 8 fbs)).flag fl }
    (ixs.zip vals).foldl (fun w p =>
      let (c, f) := encodeScaled d.fmt (hRm h) (randomOf d p.1) fbs p.2.1
      { w with view := (w.view.setCode d p.1 c).flag f }) w) w

def runConvert (h : Word64) (ts : List (Nat × Tensor)) (w : Work) : Work :=
  let d := slotD ts sD0
  let a := slotD ts sS0
  if d.group = 0 then convertPlain h d a w else convertScaled h d a w

/-- The values of a row that lie within the source's bounds, in ascending order, and poison (R162). -/
def rowValues (w : Work) (a : Tensor) (n : Nat) (rest : List Nat) : List (Nat × FVal) × Bool :=
  (List.range n).foldl (fun (r : List (Nat × FVal) × Bool) i =>
    let ix := broadcastIx a (i :: rest)
    if inBounds ix a.sizes then
      let (v, _, p) := w.view.value a ix
      (r.1 ++ [(i, v)], r.2 || p)
    else r) ([], false)

/-- The maximum (`lt` false) or minimum of a row (R161, R162). -/
def rowExtreme (lt : Bool) (vs : List FVal) : FVal × Flags :=
  let fl := flagIf (vs.any FVal.isSig) flagNV
  match vs.find? FVal.isNan with
  | some v => (v.quiet, fl)
  | none =>
    (match vs with
     | [] => .inf (!lt)
     | v :: rest => rest.foldl (fun a b => if belowVal b a = lt then b else a) v, fl)

/-- `RSUM`, `RSUMSQ`, `RMAX`, `RMIN` (R159 to R162). In a binary64 `RSUMSQ` the NaN order of a step is that of its fused operation's
operands: x, x, d (DEDUCED from R93 and R160, log 88). -/
def runReduce (h o : Word64) (ts : List (Nat × Tensor)) (w : Work) : Work :=
  let d := slotD ts sD0
  let a := slotD ts sS0
  let op := hOp h
  (boxOf d.sizes).foldl (fun w ix =>
    let (row, p) := rowValues w a (a.sizes.headD 0) (ix.drop 1)
    let vs := row.map Prod.snd
    let w := w.poisoned p
    if op = fnRMAX || op = fnRMIN then
      let (v, fl) := rowExtreme (op = fnRMIN) vs
      { w with view := (w.view.setCode d ix (encodeFloat d.fmt 0 0 v).1).flag fl }
    else if a.fmt = fmtB64 then
      let (v, fl) := vs.foldl (fun (r : FVal × Flags) x =>
        let (c, f) := finish fmtB64 (hRm h) 0
          (if op = fnRSUM then addVal (hRm h) r.1 x else fmaVal (hRm h) [x, x, r.1] x x r.1)
        (decodeFloat fmtB64 c, r.2 ||| f)) (.fin false 0 0, 0)
      { w with view := (w.view.setCode d ix (encodeFloat fmtB64 0 0 v).1).flag fl }
    else
      let acc := vs.foldl (fun (t : Acc) x => if op = fnRSUM then t.value x else t.term x x) Acc.zero
      emitAcc (aMode o) d ix (hRm h) acc false w) w

/-- `SOFTMAX` (R163, R164, R707). An empty `e` writes nothing at all, also no maximum and no sum (R225, R237), and a given maximum that lies
outside a smaller g reads as +0 (R238) (DEDUCED, log 88). -/
def runSoftmax (h o : Word64) (ts : List (Nat × Tensor)) (w : Work) : Work :=
  let e := slotD ts sD0
  let m := slotD ts sD1
  let x := slotD ts sS0
  let g := slotD ts sS1
  let r := slotD ts sS3
  (boxOf ((if e.sizes.headD 0 = 0 then 0 else 1) :: e.sizes.drop 1)).foldl (fun w ix =>
    let rest := ix.drop 1
    let (row, p) := rowValues w x (e.sizes.headD 0) rest
    let (gc, gp) := if aGiven o then sourceCode w g ix else (0, false)
    let w := w.poisoned (p || gp)
    let (mx, fl) := if aGiven o then (decodeFloat fmtB32 gc, 0) else rowExtreme false (row.map Prod.snd)
    let mcode := if aGiven o then gc else (encodeFloat fmtB32 0 0 mx).1
    let w := w.flag fl
    let (w, acc) := (List.range (e.sizes.headD 0)).foldl (fun (q : Work × Acc) i =>
      match row.find? (fun c => c.1 = i) with
      | none => ({ q.1 with view := q.1.view.setCode e (i :: rest) 0 }, q.2)
      | some (_, v) =>
        let (t, f1) := finish fmtB32 rmRNE 0 (addVal rmRNE v (negNum mx))
        let (y, f2) := transCode fnEXP fmtB32 t
        let (c, f3) := convertCode fmtB32 e.fmt rmRNE 0 y
        ({ q.1 with view := (q.1.view.setCode e (i :: rest) c).flag (f1 ||| f2 ||| f3) },
         q.2.value (decodeFloat fmtB32 y))) (w, Acc.zero)
    let w := { w with view := w.view.setCode m ix mcode }
    emitAcc (aMode o) r ix (hRm h) acc false w) w

/-! ## A compute command as a whole -/

/-- What a tensor or vector command computes on the tile store as it stands. -/
def computeUnit (h o : Word64) (ts : List (Nat × Tensor)) (t : Tile) : Work :=
  let w : Work := ⟨viewOf t, [], none⟩
  let op := hOp h
  if hUnit h = uTensor then
    if op = opMMA then runMma h o ts w else if op = opGMMA then runGmma h o ts w else runRound h ts w
  else if op = fnCONVERT then runConvert h ts w
  else if isReduction op then runReduce h o ts w
  else if op = fnSOFTMAX then runSoftmax h o ts w
  else runVec h o ts w

end Sys2Proof.Machine
end

