-- ==== Sys2Proof/Machine/TileRun.lean ====
section
/-! DEFINITION. The life of a Tile's commands (files 05, 06, 07): queue, start, stages, remote operations of the tile mover
and of spills, completion, and what the waiting Trowel sees. -/
namespace Sys2Proof.Machine

/-! ## Queue entries -/

def cmdOf (t : Tile) (seq : Nat) : Option Cmd := t.queue.find? (fun c => c.seq = seq)

def modCmd (n seq : Nat) (f : Cmd → Cmd) (s : State) : State :=
  modTile n (fun t => { t with queue := replaceFirst (fun c => c.seq = seq) f t.queue }) s

/-- Outstanding operations of a command. -/
def cmdOps (s : State) (n seq : Nat) : List RemoteOp :=
  s.ops.filter fun o => o.src = .mover n && o.owner = .cmd seq

/-- Outstanding operations of a Tile's mover. -/
def tileOps (s : State) (n : Nat) : Nat := (s.ops.filter fun o => o.src = .mover n).length

/-- A command is ready: every earlier command that signals a token on which it waits has completed (R189, R190). -/
def cmdReady (t : Tile) (c : Cmd) : Bool := !c.started && c.deps.all fun d => !t.queue.any fun e => e.seq = d

/-- The unit may take another command: compute units work on one at a time (R188). -/
def unitFree (t : Tile) (u : Nat) : Bool :=
  u == uMover || !t.queue.any fun c => c.started && hUnit c.hdr == u && c.stage != .ready

/-- No older ready command of the unit waits (R188). The queue is in order of issue. -/
def oldestReady (t : Tile) (u seq : Nat) : Bool :=
  match t.queue.find? fun c => hUnit c.hdr == u && cmdReady t c with
  | some c => c.seq == seq
  | none => false

/-- A command fails with a reason; the first reason stays (R300). The operations of its stage go on (R337; DEDUCED, log 22). -/
def failCmd (n seq reason : Nat) (s : State) : State :=
  modCmd n seq (fun c => { c with reason := c.reason.orElse (fun _ => some reason) }) s

/-- A command fails with a reason and issues nothing more. -/
def stopCmd (n seq reason : Nat) (s : State) : State := failCmd n seq reason (modCmd n seq (fun c => { c with todo := [] }) s)

/-! ## Shapes (R186, R239 to R242) -/

/-- Where the copy of a shape block lies among the fetched bytes: 64 bytes of its own for each block. -/
def shapeKey (w : Nat) : Nat := 2 ^ 65 + w / 64 * 128 + w % 2 * 64

/-- The distinct shape blocks that a command names (R240). -/
def shapeWords (c : Cmd) : List Nat := ((c.descs.map fun p => dShape p.2.main).filter (· != 0)).eraseDups

/-- The slots of a shape block. -/
def shapeSlot (c : Cmd) (w j : Nat) : Nat := leNat (readBytes c.fetched (shapeKey w + 8 + 4 * j) 4)

/-- A shape block that is not valid, or a bound slot of 2^24 or more (R242). -/
def shapeBad (c : Cmd) : Bool :=
  (shapeWords c).any (fun w => readByte c.fetched (shapeKey w) != 1 || readByte c.fetched (shapeKey w + 1) != 4) ||
    c.descs.any fun p => (dimWords p.2).any fun d =>
      dimBind d && decide (2 ^ 24 ≤ shapeSlot c (dShape p.2.main) (dimSlot d))

/-- The tensors of a started command. -/
def cmdTensors (c : Cmd) : List (Nat × Tensor) :=
  c.descs.map fun p => (p.1, bindTensor p.2 fun j => shapeSlot c (dShape p.2.main) j)

/-- The reason for which a command fails at its start (R242). -/
def startReason (c : Cmd) : Option Nat :=
  if shapeBad c then some 0x0B
  else
    let ts := cmdTensors c
    match sizeReason c.hdr c.opw ts with
    | some r => some r
    | none =>
      if c.descs.any (fun p => sizeChecksFail p.2 ((slotOf ts p.1).getD noTensor)) || ts.any (fun p => originBroken p.2) ||
          decide (2 ^ 40 ≤ reductionLength c.hdr c.opw ts) then some 0x0B else none

/-! ## Runs (R296) -/

/-- A byte that an access touches: its address, its value and which of its bits belong to the element. -/
structure Piece where
  addr : Nat
  byte : Byte
  mask : Byte
  deriving DecidableEq, Repr

/-- A run in the making: its first address, its bytes last first, and the bits of the last byte that it holds. -/
structure Strip where
  addr  : Nat
  bytes : List Byte
  mask  : Byte
  deriving DecidableEq, Repr

/-- Adds a byte to the runs, which are kept last first: other bits of the last byte join it, the next byte of the same 256-byte line
extends the run, any other byte begins a run, so that a byte written again is written by a run of its own (R251, R298). -/
def addByte (rs : List Strip) (p : Piece) : List Strip :=
  match rs with
  | ⟨a, b :: bs, m⟩ :: rest =>
    let last := a + bs.length
    if p.addr = last && m &&& p.mask = 0 then ⟨a, (b ||| p.byte) :: bs, m ||| p.mask⟩ :: rest
    else if p.addr = last + 1 && p.addr / 256 = a / 256 then ⟨a, p.byte :: b :: bs, p.mask⟩ :: rest
    else ⟨p.addr, [p.byte], p.mask⟩ :: rs
  | _ => ⟨p.addr, [p.byte], p.mask⟩ :: rs

/-- The contiguous runs of a list of bytes with their addresses, in order. -/
def runsOf (ps : List Piece) : List (Nat × List Byte) :=
  ((ps.foldl addByte []).map fun r => (r.addr, r.bytes.reverse)).reverse

/-- The bytes of an element with their addresses. -/
def elemPieces (t : Tensor) (ix : List Nat) (code : Nat) : List Piece :=
  let (as, sh) := elemAddrs t ix
  let n := as.length
  (as.zip ((leBytes n (code * 2 ^ sh)).zip (leBytes n ((2 ^ elemBits t - 1) * 2 ^ sh)))).map fun p => ⟨p.1, p.2.1, p.2.2⟩

/-- Gets of bytes; a byte named twice in a row is read once. -/
def getBytes (as : List Nat) : List Run :=
  (runsOf (as.map fun a => ⟨a, 0, 0⟩)).map fun r =>
    { kind := .get, gop := 0, addr := r.1, len := r.2.length, data := [], comparand := [], poison := 0, perm := permR,
      into := [r.1] }

/-- Gets for the elements of a tensor at a list of index vectors, and for their scales (R235). -/
def getRuns (t : Tensor) (ixs : List (List Nat)) : List Run :=
  getBytes (ixs.flatMap fun ix => (elemAddrs t ix).1) ++
    (if t.group = 0 then [] else getBytes (ixs.map (scaleAddr t)))

/-! ## The tile mover (R254 to R256, R293 to R298) -/

/-- Reads an element that lies in the tile store or among the fetched bytes. -/
def moverCode (tile : Tile) (c : Cmd) (t : Tensor) (ix : List Nat) : Nat × Bool :=
  if t.space = 1 then (viewOf tile).code t ix
  else
    let (as, sh) := elemAddrs t ix
    (leNat (as.map (readByte c.fetched)) / 2 ^ sh % 2 ^ elemBits t, as.any fun a => tget noB c.fbad a)

/-- The zero of a tensor's elements: the zero record for `KIND` 0x03 (R238). -/
def zeroElem (t : Tensor) : Nat := if t.kind = 3 then 0x0101 else 0

/-- The index value at position j; none where it is out of range for a dimension of size `n` (R254, R255). -/
def indexAt (tile : Tile) (c : Cmd) (x : Tensor) (j n : Nat) : Option Nat × Bool :=
  if !inBounds [j] x.sizes then (none, false)
  else
    let (code, p) := moverCode tile c x [j]
    let v := decodeInt x.fmt code
    (if decide (v < 0) || decide ((n : Int) ≤ v) then none else some v.toNat, p)

/-- Sets one index of a vector. -/
def setIx (ix : List Nat) (h v : Nat) : List Nat := ix.set h v

/-- One element that the mover moves: source index (none: it reads as zero) and destination index. -/
structure Move where
  from_ : Option (List Nat)
  to_   : List Nat
  deriving DecidableEq, Repr

/-- The moves of a command in ascending linear order, poison among the indices, and an index fault (R254 to R256, R293). -/
def movesOf (tile : Tile) (c : Cmd) (ts : List (Nat × Tensor)) : List Move × Bool × Bool :=
  let d := slotD ts sD0
  let a := slotD ts sS0
  let x := slotD ts sS1
  let op := hOp c.hdr
  let h := aH c.opw
  let src (ix : List Nat) : Option (List Nat) := if inBounds ix a.sizes then some ix else none
  if op = opGATHER then
    (boxOf d.sizes).foldl (fun (r : List Move × Bool × Bool) ix =>
      match indexAt tile c x (ix.getD h 0) (a.sizes.getD h 0) with
      | (some v, p) => (r.1 ++ [⟨src (setIx ix h v), ix⟩], r.2.1 || p, r.2.2)
      | (none, p) => (r.1 ++ [⟨none, ix⟩], r.2.1 || p, r.2.2 || a.oob)) ([], false, false)
  else if op = opSCATTER || op = opSCATRED then
    (boxOf a.sizes).foldl (fun (r : List Move × Bool × Bool) ix =>
      match indexAt tile c x (ix.getD h 0) (d.sizes.getD h 0) with
      | (some v, p) =>
        let t := setIx ix h v
        (if inBounds t d.sizes then r.1 ++ [⟨some ix, t⟩] else r.1, r.2.1 || p, r.2.2)
      | (none, p) => (r.1, r.2.1 || p, r.2.2 || d.oob)) ([], false, false)
  else if op = opAMO then
    (if d.sizes.any (· == 0) then [] else [⟨some (d.sizes.map fun _ => 0), d.sizes.map fun _ => 0⟩], false, false)
  else ((boxOf d.sizes).map (fun ix => ⟨src ix, ix⟩), false, false)

/-- The box of a command is empty: it reads and writes nothing (R225). -/
def emptyBox (c : Cmd) (ts : List (Nat × Tensor)) : Bool :=
  let op := hOp c.hdr
  (slotD ts (if op = opSCATTER || op = opSCATRED then sS0 else sD0)).sizes.any (· == 0)

/-- The gets of the index tensor that a command needs (R254, R255). -/
def indexGets (c : Cmd) (ts : List (Nat × Tensor)) : List Run :=
  let op := hOp c.hdr
  let x := slotD ts sS1
  if (op = opGATHER || op = opSCATTER || op = opSCATRED) && x.space != 1 && !emptyBox c ts then
    let box := if op = opGATHER then slotD ts sD0 else slotD ts sS0
    getRuns x ((List.range (min (box.sizes.getD (aH c.opw) 0) (x.sizes.getD 0 0))).map fun j => [j])
  else []

/-- The scale byte of an element that lies in the tile store or among the fetched bytes, and its poison. -/
def moverScale (tile : Tile) (c : Cmd) (t : Tensor) (ix : List Nat) : Nat × Bool :=
  let a := scaleAddr t ix
  if t.space = 1 then ((readByte tile.store a).toNat, (viewOf tile).poisoned [a])
  else ((readByte c.fetched a).toNat, tget noB c.fbad a)

/-- The operation's data of one move, its flags and poison. An element with a scale is moved as its value under R58, rounded in the
header's mode (R236; DEDUCED, log 80). -/
def moveData (tile : Tile) (c : Cmd) (d a : Tensor) (m : Move) : Nat × Flags × Bool :=
  match m.from_ with
  | some ix =>
    let (code, p) := moverCode tile c a ix
    if a.group = 0 then (code, 0, p)
    else
      let (fbs, q) := moverScale tile c a ix
      let (code, fl) := encodeFloat d.fmt (hRm c.hdr) (randomOf d m.to_) (scaleVal fbs (decodeFloat a.fmt code))
      (code, fl, p || q)
  | none => (zeroElem a, 0, false)

/-- The operand of an `AMO`, element 0 of a tensor in the tile store; out of range it reads as zero (R238). -/
def amoOperand (tile : Tile) (t : Tensor) : List Byte × Bool :=
  let ix := t.sizes.map fun _ => 0
  let (c, p) := if inBounds ix t.sizes then (viewOf tile).code t ix else (zeroElem t, false)
  (leBytes (elemBits t / 8) c, p)

/-- The writes of a mover command: bytes of its own tile store, or puts and atomics; and whether it read poison. An exact-state add
carries the poison of its operand (R125). -/
def moverWrites (tile : Tile) (c : Cmd) (ts : List (Nat × Tensor)) (ms : List Move) : View × List Run × Bool :=
  let d := slotD ts sD0
  let a := slotD ts sS0
  let op := hOp c.hdr
  let v0 := viewOf tile
  if op = opAMO then
    if ms.isEmpty then (v0, [], false)
    else
      let (data, p) := amoOperand tile a
      let (cmp, q) := if aGop c.opw = gopCAS then amoOperand tile (slotD ts sS1) else ([], false)
      let d1 := slotD ts sD1
      let (as, _) := elemAddrs d (d.sizes.map fun _ => 0)
      let run : Run :=
        { kind := if aFetch c.opw then .fetching else .atomic, gop := aGop c.opw, addr := as.headD 0, len := data.length,
          data := data, comparand := cmp, poison := allMarks (as.headD 0) data.length (p && aGop c.opw == gopXADD), perm := permRW,
          into := if aFetch c.opw && !d1.sizes.any (· == 0) then (tileAddrs d1 (d1.sizes.map fun _ => 0)).1 else [] }
      (v0, [run], (p && aGop c.opw != gopXADD) || q)
  else
    let els := ms.map fun m => (m, moveData tile c d a m)
    let bad := els.any fun e => e.2.2.2
    let v0 := v0.flag (els.foldl (fun f e => f ||| e.2.2.1) 0)
    if op = opRED || op = opSCATRED then
      (v0, els.map (fun e =>
        runOf .atomic (if d.kind = 3 then gopXADD else aGop c.opw) ((elemAddrs d e.1.to_).1.headD 0)
          (leBytes (elemBits d / 8) e.2.1) (e.2.2.2 && d.kind == 3) permRW), bad && d.kind != 3)
    else if d.space = 1 then (els.foldl (fun v e => v.setCode d e.1.to_ e.2.1) v0, [], bad)
    else
      (v0, (runsOf (els.flatMap fun e => elemPieces d e.1.to_ e.2.1)).map fun r =>
        runOf .put 0 r.1 r.2 false permW, bad)

/-! ## Stages -/

/-- Puts the work of a compute command into its entry. -/
def setWork (w : Work) (c : Cmd) : Cmd :=
  let go := w.reason.isNone || w.reason == some 0x11
  { c with writes := w.view.out, bad := w.view.outBad, flags := w.view.flags, reason := w.reason,
           todo := if go then w.runs else [], stage := .dest }

/-- The words of the own tile store that a command reads. -/
def sourceWords (c : Cmd) : List Nat :=
  let ds := destSlots c.hdr c.opw
  (((cmdTensors c).filter fun p => !ds.contains p.1).flatMap fun p => tensorBytes p.2).map (· / 8)

/-- Enters the stage after shapes: a compute unit computes, the mover reads its index tensor. -/
def bindCmd (n seq : Nat) (s : State) : State :=
  match cmdOf (tileOf s n) seq with
  | none => s
  | some c =>
    match startReason c with
    | some r => modCmd n seq (fun c => { c with stage := .ready }) (stopCmd n seq r s)
    | none =>
      let ts := cmdTensors c
      let s := if (tileOf s n).ecc.isEmpty then s else eccRead n (sourceWords c) s
      let t := tileOf s n
      if hUnit c.hdr = uMover then modCmd n seq (fun c => { c with stage := .index, todo := indexGets c ts }) s
      else modCmd n seq (setWork (computeUnit c.hdr c.opw ts t)) s

/-- Enters the stage of source reads. -/
def sourceCmd (n seq : Nat) (s : State) : State :=
  let t := tileOf s n
  match cmdOf t seq with
  | none => s
  | some c =>
    let ts := cmdTensors c
    let a := slotD ts sS0
    let (ms, p, bad) := movesOf t c ts
    if p then stopCmd n seq 0x11 (modCmd n seq (fun c => { c with stage := .source }) s)
    else if bad then stopCmd n seq 0x10 (modCmd n seq (fun c => { c with stage := .source }) s)
    else
      modCmd n seq (fun c => { c with
        stage := .source,
        todo := if a.space = 1 || hOp c.hdr = opAMO then [] else getRuns a (ms.filterMap fun m => m.from_) }) s

/-- A reduction of exact states goes on with a poisoned source, which its adds carry (R125). -/
def carriesPoison (c : Cmd) : Bool :=
  hUnit c.hdr == uMover && (hOp c.hdr == opRED || hOp c.hdr == opSCATRED) && (slotD (cmdTensors c) sD0).kind == 3 &&
    c.stage == .source && c.reason == some 0x11

/-- Enters the stage of writes. -/
def destCmd (n seq : Nat) (s : State) : State :=
  let t := tileOf s n
  match cmdOf t seq with
  | none => s
  | some c =>
    let ts := cmdTensors c
    let (ms, q, _) := movesOf t c ts
    let (v, rs, p) := if q then (viewOf t, [], true) else moverWrites t c ts ms
    let s := modCmd n seq (fun c => { c with stage := .dest, writes := v.out, flags := v.flags, todo := rs }) s
    if p then stopCmd n seq 0x11 s else s

/-- A command waits on a translation. -/
def cmdXlt (s : State) (n seq : Nat) : Bool :=
  let mine (w : Waiter) : Bool := w.src = .mover n && w.owner = .cmd seq
  s.xlat.reqs.any (fun r => r.waiters.any mine) || s.xlat.prgs.any (fun p => p.2.waiters.any mine) || s.xlat.faultQ.any mine

/-- The remote operations of a command are ordered (R294). -/
def cmdOrd (c : Cmd) : Bool := hUnit c.hdr == uMover && aOrd c.opw

/-- Two byte ranges meet. -/
def meets (a n b m : Nat) : Bool := decide (a < b + m) && decide (b < a + n)

/-- A command has still to issue operations: it has not come to its writes, or some of them wait. -/
def stillIssues (s : State) (n : Nat) (c : Cmd) : Bool :=
  c.stage != .ready && (c.stage != .dest || !c.todo.isEmpty || cmdXlt s n c.seq)

/-- A barrier of the Trowel waits only for operations: no command of the tile mover is left, and no spill leaves until it has
completed (R213, R338). -/
def barrierHolds (s : State) (n : Nat) : Bool :=
  !(tileOf s n).queue.any (fun c => hUnit c.hdr == uMover) &&
    (match (coreOf s n).wait with
     | some (.tbar _) => true
     | _ => false)

/-- A run may leave now: fewer than 64 are outstanding (R188), the stores before the command have drained (R312), no barrier holds it
(R338), an ordered run waits until every earlier ordered command has issued all of its own (R297, R461), a put of a scatter waits for
an earlier put to the same bytes (R298). -/
def mayIssue (s : State) (n : Nat) (c : Cmd) (r : Run) : Bool :=
  let t := tileOf s n
  decide (tileOps s n < 64) && (coreOf s n).storeBuf.isEmpty && !cmdXlt s n c.seq && !barrierHolds s n &&
    !(cmdOrd c && t.queue.any fun e => e.started && cmdOrd e && decide (e.startNo < c.startNo) && stillIssues s n e) &&
    !(hUnit c.hdr == uMover && hOp c.hdr == opSCATTER && c.stage == .dest &&
        (cmdOps s n c.seq).any fun o => meets o.addr o.len r.addr r.len)

/-- Status bits of `tbar` (R213, R292). -/
def barBits (st : RStatus) : BitVec 4 :=
  match st with
  | .ok => 0
  | .timeout => 0b0011
  | .poison => 0b0101
  | _ => 0b0001

/-- The reason of a command whose operation ended in a status (R288): an exact-state record that the home refuses under R124 gives
0x15; a fetching `XADD` is refused under R409, not under R124. -/
def statusReason (st : RStatus) (kind : OpKind) (gop : Nat) : Nat :=
  match st with
  | .poison => 0x11
  | .timeout => 0x13
  | .refused => if gop = gopXADD && kind != .fetching then 0x15 else 0x14
  | _ => 0x14

def addBar (n : Nat) (b : BitVec 4) (s : State) : State := modTile n (fun t => { t with barStatus := t.barStatus ||| b }) s

/-- An operation of a command ended with a status. A reduction of exact states whose source read is poisoned reads on. -/
def cmdStatus (n seq : Nat) (st : RStatus) (kind : OpKind) (gop : Nat) (s : State) : State :=
  if st = .ok then s
  else
    let s := addBar n (barBits st) s
    if st = .poison && kind = .get && ((cmdOf (tileOf s n) seq).map fun c => carriesPoison { c with reason := some 0x11 }).getD false then
      modCmd n seq (fun c => { c with reason := c.reason.orElse (fun _ => some 0x11) }) s
    else failCmd n seq (statusReason st kind gop) s

/-- Issues the first run of a command: translation (R299), then the operation. -/
def issueRun (n : Nat) (c : Cmd) (r : Run) (s : State) : State :=
  let (res, s) := translate (waiterOf (.mover n) (.cmd c.seq) c.ctx r.addr r.perm (bufCmd n)) s
  match res with
  | .wait => s
  | .fail => stopCmd n c.seq 0x12 (raise unitLin srcXlt n (some c.ctx) r.addr 0 s)
  | .hit pa =>
    let s := modCmd n c.seq (fun c => { c with todo := c.todo.drop 1 }) s
    let tc : BitVec 2 := if hUnit c.hdr = uMover then BitVec.ofNat 2 (hTc c.hdr) else 1
    let o := newOp (.mover n) (.cmd c.seq) (some c.ctx) r.kind r.gop (cmdOrd c) tc pa r.len r.data r.comparand r.poison
    match issueOp { o with into := r.into, addr := r.addr } s with
    | .ok s => s
    | .error e => cmdStatus n c.seq e r.kind r.gop (countDrop e o s)

/-- Moves a command on while its stage has nothing left to issue or to await. -/
def advanceCmd (n seq : Nat) : Nat → State → State
  | 0, s => s
  | fuel + 1, s =>
    match cmdOf (tileOf s n) seq with
    | none => s
    | some c =>
      if !c.started || c.stage == .ready then s
      else match c.todo with
        | r :: _ => if mayIssue s n c r then advanceCmd n seq fuel (issueRun n c r s) else s
        | [] =>
          if !(cmdOps s n seq).isEmpty then s
          else if c.reason.isSome && !(c.stage == .dest) && !carriesPoison c then modCmd n seq (fun c => { c with stage := .ready }) s
          else match c.stage with
            | .shapes => advanceCmd n seq fuel (bindCmd n seq s)
            | .index => advanceCmd n seq fuel (sourceCmd n seq s)
            | .source => advanceCmd n seq fuel (destCmd n seq s)
            | _ => modCmd n seq (fun c => { c with stage := .ready }) s

/-- Steps that suffice for a command to issue what it can. -/
def advanceFuel : Nat := 256

/-- Every started command of a Tile issues what it can, in the order of their starts. -/
def pumpTile (n : Nat) (s : State) : State :=
  let cs := ((tileOf s n).queue.filter (fun c => c.started)).mergeSort (fun a b => a.startNo ≤ b.startNo)
  forEach cs (fun c => advanceCmd n c.seq advanceFuel) s

/-! ## Completion (R191, R195, R197, R198) -/

/-- The bytes that a failed command leaves: free values at its destinations (R197, log 2). -/
def freeBytes (ticket : Nat) : List Host.Cell → List Host.Cell
  | [] => []
  | (a, _) :: cs => (a, Config.freeByte ticket) :: freeBytes (ticket + 1) cs

/-- The tile-store bytes of the destinations of a command, as the places of its writes. -/
def destBytes (c : Cmd) : List Host.Cell :=
  let ds := destSlots c.hdr c.opw
  (((cmdTensors c).filter fun p => ds.contains p.1).flatMap fun p => tensorBytes p.2).map fun a => (a, 0)

/-- A failed command that never began its work: discarded from the queue (R199), or refused at its start (R206, R242). It leaves its
destinations as they were (DEDUCED, log 35). -/
def neverRan (c : Cmd) : Bool :=
  !c.started || shapeBad c || c.reason == some 0x09 || c.reason == some 0x0A || c.reason == some 0x0B

/-- Writes cover a whole 8-byte word. -/
def coversWord (ws : List Host.Cell) (w : Nat) : Bool := (List.range 8).all fun i => ws.any fun q => q.1 = w * 8 + i

/-- The writes of a command become visible: the bytes, their poison, its flags (R73, R191). A word that is written whole loses its mark and
its wrong check bits. A failed command leaves free bytes at its destinations. -/
def showWrites (n : Nat) (c : Cmd) (s : State) : State :=
  let ws := if c.reason.isNone then c.writes else freeBytes s.ticket (if neverRan c then [] else destBytes c)
  let s := if c.reason.isNone then s else { s with ticket := s.ticket + ws.length }
  modTile n (fun t =>
    let st := ws.foldl (fun m p => writeByte m p.1 p.2) t.store
    let bad := ws.foldl (fun b p => tset noB b (p.1 / 8) (tget noB b (p.1 / 8) && !coversWord ws (p.1 / 8))) t.bad
    { t with store := st, ecc := t.ecc.filter (fun e => !coversWord ws e.1), bad := c.bad.foldl (fun b p => tset noB b p.1 p.2) bad, flags := t.flags ||| (c.flags &&& 0x7F) }) s

/-- The failure of a command: an error-log entry, or the overflow bit and its fault (R198); status bits; the Trowel's
interrupt where it is enabled (R181). -/
def logError (n : Nat) (c : Cmd) (reason : Nat) (s : State) : State :=
  let t := tileOf s n
  let full := decide (8 ≤ t.errLog.length)
  let s := if full && !t.errOvf then raise (unitTile n) srcErrOvf n t.bound 0 0 s else s
  let s := modTile n (fun t =>
    if full then { t with errOvf := true } else { t with errLog := t.errLog ++ [⟨reason, hUnit c.hdr, c.seq % 2 ^ 16⟩] }) s
  let s := if reason = 0x11 then addBar n 0b0100 s else if reason = 0x1F then addBar n 0b1000 s else s
  modCore n (fun k => if k.csr.tctl then { k with csr := { k.csr with meip := true } } else k) s

/-- The bytes of the destinations of a command that lie outside its tile store, as runs of addresses of its context. -/
def farBytes (c : Cmd) : List (Nat × Nat) :=
  let ds := destSlots c.hdr c.opw
  ((cmdTensors c).filter fun p => ds.contains p.1 && p.2.space != 1).flatMap fun p =>
    (getBytes ((boxOf p.2.sizes).flatMap fun ix => (elemAddrs p.2 ix).1)).map fun r => (r.addr, r.len)

/-- A failed command leaves free bytes at its destinations outside the tile store as well, as far as its translations stand (R197,
R300). -/
def spoilFar (n : Nat) (c : Cmd) (s : State) : State :=
  if c.reason.isNone || neverRan c then s
  else forEach (farBytes c) (fun r s =>
    match keyHeld s c.ctx (bufCmd n) r.1 with
    | some pa => spoilBytes pa (freeRun s.ticket r.2) { s with ticket := s.ticket + r.2 }
    | none => s) s

/-- A command completes: results, counter, error log; its entry is freed (R184, R187, R195). -/
def finishCmd (n : Nat) (c : Cmd) (s : State) : State :=
  let s := spoilFar n c (showWrites n c s)
  let s := modTile n (fun t =>
    { t with
      queue := t.queue.filter (fun e => e.seq ≠ c.seq)
      counters :=
        if hCntEn c.hdr then
          let v : Word64 := tget zeroOf t.counters (hCnt c.hdr)
          let cnt := (v &&& 0x7FFFFFFFFFFFFFFF) + 1 &&& 0x7FFFFFFFFFFFFFFF
          let err := v &&& 0x8000000000000000 ||| (if c.reason.isSome then 0x8000000000000000 else 0)
          tset zeroOf t.counters (hCnt c.hdr) (cnt ||| err)
        else t.counters }) s
  match c.reason with
  | some r => logError n c r s
  | none => s

/-! ## The Trowel's waits (R208, R213) -/

/-- The earlier commands that signal one of the tokens (R189). -/
def signallers (t : Tile) (mask : BitVec 16) : List Nat :=
  (t.queue.filter fun c => hSigEn c.hdr && bitOf mask (hSig c.hdr)).map fun c => c.seq

/-- `tcmd` takes a queue entry (R184, R185, R210). -/
def takeEntry (n : Nat) (h o : Word64) (ds : List (Nat × DescCopy)) (s : State) : State :=
  modTile n (fun t =>
    let c : Cmd :=
      { seq := t.nextSeq, hdr := h, opw := o, descs := ds, deps := signallers t (hWait h),
        ctx := t.bound.getD 0, started := false, startNo := 0, stage := .shapes, todo := [], fetched := [], fbad := [],
        writes := [], bad := [], flags := 0, reason := none }
    { t with queue := t.queue ++ [c], nextSeq := t.nextSeq + 1 }) s

/-- The sequence number that software sees (R210). -/
def seqNumber (k : Nat) : Word64 := BitVec.ofNat 64 (k % 2 ^ 16)

/-- The waits of a Trowel that have ended let it go on: `tcmd` on a full queue, `twait`, `ttok`, `tbar`. A `tcmd` that finds every entry
taken stalls before it makes its checks (R187, R206; DESIGN CHOICE, log 90). -/
def wakeTrowel (n : Nat) (s : State) : State :=
  let t := tileOf s n
  match (coreOf s n).wait with
  | some (.tcmd rd h o) =>
    if t.queue.length < 64 then
      match checkCommand t h o with
      | .ok ds => endWait n (setX rd (seqNumber t.nextSeq)) (takeEntry n h o ds s)
      | .error r => takeTrap n false causeRefused (BitVec.ofNat 64 r) s
    else s
  | some (.twait rd c target) =>
    let v : Word64 := tget zeroOf t.counters c
    if bitOf v 63 || decide ((target &&& 0x7FFFFFFFFFFFFFFF).toNat ≤ (v &&& 0x7FFFFFFFFFFFFFFF).toNat) then
      endWait n (setX rd v) s
    else s
  | some (.ttok deps) => if deps.all (fun d => !t.queue.any fun c => c.seq = d) then endWait n id s else s
  | some (.tbar rd) =>
    if !t.queue.any (fun c => hUnit c.hdr == uMover) && tileOps s n == 0 then
      pumpTile n (endWait n (setX rd (BitVec.ofNat 64 t.barStatus.toNat)) (modTile n (fun t => { t with barStatus := 0 }) s))
    else s
  | _ => s

/-! ## Start (R188, R206) -/

/-- A unit accepts a command: the shape blocks of the tile store are copied, those of memory are fetched, then the command
goes on (R186, R240). A check that fails completes the command as failed (R206). -/
def acceptCmd (n : Nat) (c : Cmd) (s : State) : State :=
  let s := eccRead n (((shapeWords c).filter (fun w => w % 2 == 1)).flatMap fun w => wordsOf (w / 64 * 64) 64) s
  let t := tileOf s n
  let local_ := (shapeWords c).filter (fun w => w % 2 == 1)
  let remote_ := (shapeWords c).filter (fun w => w % 2 == 0)
  let copied := local_.foldl (fun m w => writeBytes m (shapeKey w) (readBytes t.store (w / 64 * 64) 64)) ([] : List Host.Cell)
  let poison := local_.any fun w => (tileRead s n (w / 64 * 64) 64).2
  let gets : List Run := remote_.map fun w =>
    { kind := .get, gop := 0, addr := w / 64 * 64, len := 64, data := [], comparand := [], poison := 0, perm := permR,
      into := [shapeKey w] }
  let s := modCmd n c.seq (fun c => { c with started := true, startNo := s.ticket, fetched := copied, todo := gets })
    { s with ticket := s.ticket + 1 }
  let s := if poison then failCmd n c.seq 0x11 s else s
  let s := advanceCmd n c.seq advanceFuel s
  match cmdOf (tileOf s n) c.seq with
  | some e => if e.reason.isSome && e.stage == .ready && (cmdOps s n c.seq).isEmpty && shapeFailed e then
      wakeTrowel n (pumpTile n (finishCmd n e s)) else s
  | none => s
where
  /-- The command failed before any of its work began. -/
  shapeFailed (e : Cmd) : Bool := e.writes.isEmpty && (e.reason == some 0x0B || e.reason == some 0x0A || e.reason == some 0x09)

/-- A command may start after the stores before its `tcmd`: no store to the own tile store waits in the store buffer (R192), and where the
command reads a shape block no store of any kind does, nor a non-temporal one (R241; log 47). -/
def olderStoresDone (s : State) (n : Nat) (c : Cmd) : Bool :=
  let k := coreOf s n
  !(k.storeBuf.any fun e => match placeOf s e.pa with
    | .tile t _ => t == n
    | _ => false) &&
    ((shapeWords c).isEmpty ||
      (k.storeBuf.isEmpty && k.ntBufs.isEmpty && k.ntHeld.isEmpty && !s.ops.any fun o => o.src = .core n && o.owner = .fence))

/-- A unit's command `seq` starts where it is the oldest ready command of its unit, the operation is the one named, and the
Tile runs (R175, R188, R192). -/
def startUnit (unit op n seq : Nat) (s : State) : State :=
  let t := tileOf s n
  match cmdOf t seq with
  | some c =>
    if hUnit c.hdr == unit && hOp c.hdr == op && cmdReady t c && oldestReady t unit seq && unitFree t unit &&
        !t.clearing && olderStoresDone s n c && courseRuns s (n / 16) then acceptCmd n c s else s
  | none => s

/-! ## Answers to a Tile's operations -/

/-- An operation of a command has ended: its data with the poison marks of its sectors (R287), its status, then the commands of the Tile go
on. -/
def cmdOpEnded (n seq : Nat) (o : RemoteOp) (st : RStatus) (data : List Byte) (marks : Marks) (s : State) : State :=
  let s := modCmd n seq (fun c =>
    match o.kind with
    | .get =>
      let base := o.into.headD 0
      { c with fetched := writeBytes c.fetched base data,
               fbad := (List.range data.length).foldl (fun b i => if markAt marks (o.pa + i) then tset noB b (base + i) true else b)
                 c.fbad }
    | .fetching => { c with writes := (o.into.zip data).foldl (fun w p => tinsert w p.1 p.2) c.writes }
    | _ => c) s
  wakeTrowel n (pumpTile n (cmdStatus n seq st o.kind o.gop s))

/-! ## Loss (R199) -/

/-- The Tile loses its context: every command completes as failed with reason LOST, but one whose own translation failed keeps that
reason (R465, R466), and the Trowel's interrupt is raised. -/
def loseTile (n : Nat) (s : State) : State :=
  let cs := (tileOf s n).queue
  let s := forEach cs (fun c s => finishCmd n { c with reason := if c.reason = some 0x12 then some 0x12 else some 0x1F } s) s
  let s := modCore n (fun k => { k with csr := { k.csr with meip := true }, resv := none }) s
  wakeTrowel n s

end Sys2Proof.Machine
end

