-- ==== Sys2Proof/Machine/CoreMem.lean ====
section
/-! DEFINITION. The memory accesses of cores (files 05, 07, 08, 09): targets, loads with forwarding, the store buffer, the
combining buffers, L1 fills, and how a waiting instruction goes on. -/
namespace Sys2Proof.Machine

/-! ## Targets (R178, R179, R281, R342) -/

/-- What the address of a core access comes to. -/
inductive Target where
  | pa (pa : Nat)
  | wait
  | page
  | denied
  deriving DecidableEq, Repr

/-- An address in the tile-store window of a Trowel (R179). -/
def inTileWindow (s : State) (n : Nat) (addr : Word64) : Bool :=
  isTrowel n && decide ((addr - (coreOf s n).csr.ttsbase).toNat < 2 ^ 21)

/-- PMP configuration byte i (RISC-V Privileged Specification, PRESUMED, log 18). -/
def pmpByte (c : Core) (i : Nat) : Nat := (tget zeroOf c.csr.pmp (0x3A0 + i / 8 * 2) : Word64).toNat / 2 ^ (8 * (i % 8)) % 256

/-- The byte range of PMP entry i with its granule of 4 KiB; none where it is off. -/
def pmpRange (c : Core) (i : Nat) : Option (Nat × Nat) :=
  let a := ((tget zeroOf c.csr.pmp (0x3B0 + i) : Word64).toNat) % 2 ^ 54
  match pmpByte c i / 8 % 4 with
  | 1 =>
    let lo := if i = 0 then 0 else ((tget zeroOf c.csr.pmp (0x3B0 + (i - 1)) : Word64).toNat % 2 ^ 54) / 1024 * 4096
    some (lo, a / 1024 * 4096)
  | 3 =>
    let ones := ((List.range 54).find? fun k => a / 2 ^ k % 2 == 0).getD 54
    let ones := max ones 9
    some (a / 2 ^ (ones + 1) * 2 ^ (ones + 3), a / 2 ^ (ones + 1) * 2 ^ (ones + 3) + 2 ^ (ones + 3))
  | _ => none

/-- Physical memory protection of a control core or the Kiln (R176, R634). -/
def pmpAllows (c : Core) (mode : Priv) (a len : Nat) (need : Perm) : Bool :=
  match (List.range 16).find? fun i => match pmpRange c i with
      | some (lo, hi) => decide (a < hi) && decide (lo < a + len)
      | none => false with
  | none => mode = .m
  | some i =>
    let b := pmpByte c i
    let whole := match pmpRange c i with
      | some (lo, hi) => decide (lo ≤ a) && decide (a + len ≤ hi)
      | none => false
    whole && ((mode = .m && b / 128 == 0) ||
      ((!need.r || b % 2 == 1) && (!need.w || b / 2 % 2 == 1) && (!need.x || b / 4 % 2 == 1)))

/-- Where an access of a core may go (R281): Trowels reach memory only; control cores and the Kiln also their own tile stores,
the Grout windows and the set-up registers. -/
def coreMayLand (s : State) (n : Nat) : Place → Bool
  | .dev _ => true
  | .host _ => true
  | .tile t _ => !isTrowel n && !(match (tileOf s t).bound with
      | some k => match ctxOf s k with
        | some c => bitOf c.security 10
        | none => false
      | none => false)
  | .grout off => !isTrowel n && windowOf s off != .none
  | .setup _ => !isTrowel n
  | _ => false

/-- Turns the address of a core access into a physical key: the tile window, translation in the context of the Tile, or the
agent address with its protection and the access table. -/
def coreTarget (n : Nat) (mode : Priv) (addr : Word64) (len : Nat) (need : Perm) (buffer : Nat) (s : State) : Target × State :=
  if isTrowel n then
    if inTileWindow s n addr && !need.x then (.pa (tileWindow n + (addr - (coreOf s n).csr.ttsbase).toNat), s)
    else match (tileOf s n).bound with
      | none => (.denied, s)
      | some k =>
        match translate (waiterOf (.core n) .coreAmo k addr.toNat need buffer) s with
        | (.hit pa, s) => (if coreMayLand s n (placeOf s pa) then .pa pa else .denied, s)
        | (.wait, s) => (.wait, s)
        | (.fail, s) => (.page, raise unitLin srcXlt n (some k) addr.toNat 0 s)
  else match sortAgent s addr.toNat with
    | none => (.denied, s)
    | some pa =>
      let p := placeOf s pa
      if !pmpAllows (coreOf s n) mode addr.toNat len need || !coreMayLand s n p then (.denied, s)
      else match p with
        | .dev off =>
          if changing s off then (.wait, s)
          else if admits s (if n = 200 then .kiln else .firmware) off then (.pa pa, s) else (.denied, s)
        | _ => (.pa pa, s)

/-! ## Non-temporal windows (R325 to R332) -/

/-- An address lies in a window (R327). -/
def inNtWindow (w addr : Word64) : Bool :=
  let k := fieldOf w 5 0
  12 ≤ k && k ≤ 40 && decide (addr.toNat / 2 ^ k = w.toNat / 4096 * 4096 / 2 ^ k)

/-- A store is non-temporal by its address (R325). The Kiln has no windows. -/
def isNtAddr (s : State) (n : Nat) (addr : Word64) : Bool :=
  n != 200 && (List.range 4).any fun i => inNtWindow (tget zeroOf (coreOf s n).csr.ntwin i) addr

/-- A combining buffer of the core holds a byte of a range. -/
def ntHolds (c : Core) (pa len : Nat) : Bool :=
  c.ntBufs.any fun b => b.bytes.any fun p => decide (pa ≤ p.1) && decide (p.1 < pa + len)

/-- A non-temporal store (R328): it merges into the buffer of its line; with all eight in use, the one least recently written
is flushed first; a full buffer is flushed (R329). The buffers stand in the order of their last write. -/
def ntStore (n pa : Nat) (addr : Word64) (d : List Byte) (s : State) : State :=
  let g := pa / 256
  let c := coreOf s n
  let (old, rest) : List Host.Cell × List NtBuf := match c.ntBufs.find? (fun b => b.line = g) with
    | some b => (b.bytes, c.ntBufs.filter fun (b : NtBuf) => b.line ≠ g)
    | none => ([], c.ntBufs)
  let s := if 8 ≤ rest.length then
      match rest with
      | b :: bs => sendNt n b (modCore n (fun c => { c with ntBufs := bs }) s)
      | [] => s
    else modCore n (fun c => { c with ntBufs := rest }) s
  let bytes := ((List.range d.length).foldl (fun m i => tinsert m (pa + i) (d.getD i 0)) old)
  let s := modCore n (fun c => { c with ntBufs := c.ntBufs ++ [⟨g, addr, bytes, 0⟩] }) s
  if 256 ≤ bytes.length then flushNt n g s else s

/-! ## L1 lines (R363 to R369) -/

def l1Lines (n : Nat) : Nat := if n = 200 then 256 else 1024

/-- Gives a line of the cache up: M and O with a write-back, E and S silently (R364). -/
def evictLine (n line : Nat) (s : State) : State :=
  dropOwnLine n line (modCore n (fun c => { c with resv := if c.resv = some line then none else c.resv }) s)

/-- Makes room for a line in a full cache: any line may go (log 4). -/
def makeRoom (n line : Nat) (s : State) : State :=
  let c := coreOf s n
  if (tfind c.lines line).isSome || decide (c.lines.length < l1Lines n) then s
  else
    let v := (c.lines.getD (Config.pick s.ticket % c.lines.length) (0, ⟨.i, [], false⟩)).1
    evictLine n v { s with ticket := s.ticket + 1 }

/-- Asks for a line unless a request is outstanding, a write-back of it is pending or a flush of its bytes is on the way. The request
leaves once it has an identifier (R383). -/
def askLine (n line : Nat) (own : Bool) (s : State) : State :=
  let c := coreOf s n
  if (tfind c.fills line).isSome || (tfind c.wb line).isSome || flushing s n (line / 4) then s
  else sendAsk n line (modCore n (fun c => { c with fills := tinsert c.fills line ⟨own, agentTc n, none, none, none⟩ }) s)

/-! ## Loads (R304, R305, R307, R332) -/

/-- The youngest of some buffered stores that holds a byte. -/
def storedByte (es : List StoreEntry) (a : Nat) : Option Byte :=
  es.reverse.findSome? fun e => if e.pa ≤ a && decide (a < e.pa + e.data.length) then some (e.data.getD (a - e.pa) 0) else none

/-- The youngest buffered store that holds a byte, of any kind. A held flush is younger than the stores behind which it leaves. -/
def bufferedByte (c : Core) (a : Nat) : Option Byte :=
  match c.ntBufs.findSome? fun b => tfind b.bytes a with
  | some v => some v
  | none => match c.ntHeld.reverse.find? fun b => (tfind b.bytes a).isSome with
    | some b => (storedByte (c.storeBuf.drop b.after) a).or (tfind b.bytes a)
    | none => storedByte c.storeBuf a

/-- One byte as the core loads it: from its buffers, a tile store or its cache; a line number where the line is missing. -/
def loadByte (s : State) (n a : Nat) : Except Nat (Byte × Bool) :=
  let c := coreOf s n
  match bufferedByte c a with
  | some v => .ok (v, false)
  | none => match placeOf s a with
    | .tile t off => let (d, p) := tileRead s t off 1
      .ok (d.headD 0, p)
    | .grout off =>
      .ok ((leBytes 8 (windowRead s (windowOf s (off / 8 * 8))).toNat).getD (off % 8) 0, false)
    | _ =>
      if flushing s n (a / 256) then .error (a / 64)
      else match tfind c.lines (a / 64) with
        | some l => .ok (l.data.getD (a % 64) 0, l.poison)
        | none => .error (a / 64)

/-- The bytes of a load with their poison; a missing line otherwise. -/
def loadBytes (s : State) (n pa : Nat) : Nat → Except Nat (List Byte × Bool)
  | 0 => .ok ([], false)
  | k + 1 =>
    match loadBytes s n pa k with
    | .error l => .error l
    | .ok (d, p) => match loadByte s n (pa + k) with
      | .error l => .error l
      | .ok (v, q) => .ok (d ++ [v], p || q)

def widthBytes : Width → Nat
  | .b1 => 1 | .b2 => 2 | .b4 => 4 | .b8 => 8

/-- Extends the value of a load. -/
def extend (w : Nat) (sext : Bool) (v : Nat) : Word64 :=
  if sext && decide (2 ^ (8 * w - 1) ≤ v) && decide (w < 8) then BitVec.ofNat 64 (v + 2 ^ 64 - 2 ^ (8 * w)) else BitVec.ofNat 64 v

/-- The cause of a refused load or fetch. -/
def loadCause : Dest → Nat
  | .fetch => 1
  | _ => causeLoadAccess

/-- A load delivers its value: to an integer register, to a floating-point register (a narrow value boxed in ones), or to the
instruction cache, which holds no tile-store data (R174). -/
def deliver (n : Nat) (rd : Dest) (w : Nat) (sext : Bool) (pa : Nat) (d : List Byte) (s : State) : State :=
  match rd with
  | .x r => endWait n (setX r (extend w sext (leNat d))) s
  | .f r =>
    let v : Word64 := BitVec.ofNat 64 (leNat d + (if w = 4 then 2 ^ 64 - 2 ^ 32 else 0))
    endWait n (fun c => { c with f := tset zeroOf c.f r.toNat v }) s
  | .fetch => modCore n (fun c => { c with
      wait := none
      icache := if (placeOf s pa).cacheable then
          (List.range d.length).foldl (fun m i => tinsert m (pa + i) (d.getD i 0)) c.icache
        else c.icache }) s

/-! ## Store buffer (R305 to R307, R312) -/

/-- The store at a place of the buffer leaves it; the held flushes behind it come nearer. -/
def popStore (i : Nat) (c : Core) : Core :=
  { c with storeBuf := c.storeBuf.eraseIdx i,
           ntHeld := c.ntHeld.map fun b => if i < b.after then { b with after := b.after - 1 } else b }

/-- The store at the head of the buffer is performed: its bytes enter its line, which is held in M from then on, or its tile
store or control window. -/
def performStore (n : Nat) (e : StoreEntry) (s : State) : State :=
  let pop (s : State) : State := modCore n (popStore 0) s
  match placeOf s e.pa with
  | .tile t off => pop (tileWrite t off e.data 0 s)
  | .grout off => pop (windowWrite (windowOf s off) (BitVec.ofNat 64 (leNat e.data)) s)
  | _ =>
    let line := e.pa / 64
    pop (modCore n (fun c => match tfind c.lines line with
      | some l =>
        let l : CLine := { l with state := .m, data := mergeLine l.data line e.pa e.data (e.data.map fun _ => true) }
        { c with lines := tinsert c.lines line l }
      | none => c) s)

/-- A flush of older stores still holds a byte of the store at the head (R332). -/
def behindFlush (c : Core) (e : StoreEntry) : Bool :=
  c.ntHeld.any fun b => b.after == 0 && b.bytes.any fun p => decide (e.pa ≤ p.1) && decide (p.1 < e.pa + e.data.length)

/-- The store at the head can be performed now. -/
def storeReady (s : State) (n : Nat) (e : StoreEntry) : Bool :=
  match placeOf s e.pa with
  | .tile _ _ => true
  | .grout _ => true
  | _ => !flushing s n (e.pa / 256) && !behindFlush (coreOf s n) e && (match tfind (coreOf s n).lines (e.pa / 64) with
    | some l => l.state = .m || l.state = .e
    | none => false)

/-- A buffered store ends without effect: its fault is still to take (R343). -/
def failStore (n i : Nat) (e : StoreEntry) (s : State) : State :=
  modCore n (fun c => { popStore i c with late := c.late ++ [e.addr] }) s

/-- The target of a buffered store is gone: its tile store is in reset (R340). -/
def storeLost (s : State) (e : StoreEntry) : Bool :=
  match placeOf s e.pa with
  | .tile _ _ => false
  | .grout _ => false
  | p => !p.cacheable

/-- Stores leave the buffer in order; the first that cannot asks for its line. One whose tile store is gone ends with a late fault. -/
def drainStores (n : Nat) : Nat → State → State
  | 0, s => pumpNt n s
  | k + 1, s =>
    let s := pumpNt n s
    match (coreOf s n).storeBuf with
    | [] => s
    | e :: _ =>
      if storeReady s n e then drainStores n k (performStore n e s)
      else if storeLost s e then drainStores n k (failStore n 0 e s)
      else askLine n (e.pa / 64) true s

/-! ## Instructions that wait -/

/-- The stores and flushes of a core have all reached their point of global visibility, and no late
fault is left to take (R343). -/
def storesDone (s : State) (n : Nat) : Bool :=
  (coreOf s n).storeBuf.isEmpty && (coreOf s n).ntHeld.isEmpty && (coreOf s n).late.isEmpty && !s.ops.any fun o => o.src = .core n && o.owner = .fence

def gopOfAmo : AmoOp → Nat
  | .add => 0x01 | .and => 0x02 | .or => 0x03 | .xor => 0x04 | .min => 0x05 | .max => 0x06 | .minu => 0x07 | .maxu => 0x08
  | .swap => 0x09

/-- A waiting load reads its bytes or asks for its line. -/
def goLoad (n : Nat) (rd : Dest) (w : Nat) (sext : Bool) (pa : Nat) (addr : Word64) (s : State) : State :=
  match loadBytes s n pa w with
  | .error l => askLine n l false s
  | .ok (d, p) => if p then takeTrap n false (loadCause rd) addr s else deliver n rd w sext pa d s

/-- A waiting LR reads its bytes and sets its reservation in cacheable memory (R320, R324), whose line the core then holds, so that a
store of another agent finds it (R321). -/
def goLr (n : Nat) (rd : BitVec 5) (w pa : Nat) (addr : Word64) (s : State) : State :=
  match loadBytes s n pa w with
  | .error l => askLine n l false s
  | .ok (d, p) =>
    let res := (placeOf s pa).cacheable
    if p then takeTrap n false causeLoadAccess addr s
    else if res && (tfind (coreOf s n).lines (pa / 64)).isNone then askLine n (pa / 64) false s
    else
      endWait n (fun c => setX rd (extend w true (leNat d))
        { c with resv := if res then some (pa / 64) else c.resv, deferral := if res then true else c.deferral }) s

/-- A waiting SC: it fails once its reservation is lost; otherwise it waits for older stores and for its line (R310, R322). -/
def goSc (n : Nat) (rd : BitVec 5) (w pa : Nat) (value : Word64) (s : State) : State :=
  let c := coreOf s n
  let line := pa / 64
  let fin (v : Word64) (s : State) : State := endDeferral n (endWait n (fun c => setX rd v { c with resv := none }) s)
  if c.resv ≠ some line then fin 1 s
  else if !c.storeBuf.isEmpty then s
  else match tfind c.lines line with
    | none => fin 1 s
    | some l =>
      if l.state = .m || l.state = .e then
        let d := leBytes w (value.toNat % 2 ^ (8 * w))
        let l : CLine := { l with state := .m, data := mergeLine l.data line pa d (d.map fun _ => true) }
        fin 0 (modCore n (fun c => { c with lines := tinsert c.lines line l }) s)
      else askLine n line true s

/-- The status of an AMO of a Trowel counts for the remote barrier (R213, R292). -/
def amoStatus (n : Nat) (st : RStatus) (s : State) : State := if isTrowel n then addBar n (barBits st) s else s

/-- A waiting AMO is sent to its home once every older store has been performed (R310, R413). -/
def goAmo (n : Nat) (rd : BitVec 5) (op : AmoOp) (dbl : Bool) (pa : Nat) (addr value : Word64) (s : State) : State :=
  let w := if dbl then 8 else 4
  if !(coreOf s n).storeBuf.isEmpty || flushing s n (pa / 256) || (coreOf s n).ntHeld.any (fun b => b.line == pa / 256) then s
  else
    let ctx := if isTrowel n then (tileOf s n).bound else none
    let o := newOp (.core n) .coreAmo ctx .fetching (gopOfAmo op) false (agentTc n) pa w
      (leBytes w (value.toNat % 2 ^ (8 * w))) [] 0
    let s := modCore n (fun c => { c with wait := some (.amo rd op dbl pa addr value (some ⟨0, 0, 0, 0⟩)) }) s
    match issueOp o s with
    | .ok s => s
    | .error e => takeTrap n false causeStoreAccess addr (amoStatus n e (countDrop e o s))

/-- A waiting `tdld` checks the descriptor that it has read (R215, R216). -/
def goTdld (n : Nat) (td : BitVec 5) (pa : Nat) (addr : Word64) (s : State) : State :=
  match loadBytes s n pa 64 with
  | .error l => askLine n l false s
  | .ok (d, p) =>
    let put (v : Bool) (s : State) : State :=
      modTile n (fun t => { t with td := if v then tinsert t.td td.toNat ⟨d, true⟩ else terase t.td td.toNat }) s
    if p then takeTrap n false causeLoadAccess addr s
    else match descFault d with
      | some r => takeTrap n false causeDesc (BitVec.ofNat 64 (r + td.toNat * 256)) (put false s)
      | none => endWait n id (put true s)

/-- The instruction that a core waits in goes on where it can. -/
def goWait (n : Nat) (s : State) : State :=
  match (coreOf s n).wait with
  | some (.load rd w sext pa addr) => goLoad n rd (widthBytes w) sext pa addr s
  | some (.lr rd dbl pa addr) => goLr n rd (if dbl then 8 else 4) pa addr s
  | some (.sc rd dbl pa _ value) => goSc n rd (if dbl then 8 else 4) pa value s
  | some (.amo rd op dbl pa addr value none) => goAmo n rd op dbl pa addr value s
  | some (.tdld td pa addr) => goTdld n td pa addr s
  | some (.fence _ _) => if storesDone s n then endWait n id s else s
  | _ => if isTrowel n then wakeTrowel n s else s

/-- A dirty line of a cache. -/
def dirtyLine (l : CLine) : Bool := l.state = .m || l.state = .o

/-- A core whose Course is to be gated writes its dirty lines back once its stores have drained (R346, step 3). -/
def cleanForGate (n : Nat) (s : State) : State :=
  if isTrowel n && (courseOf s (n / 16)).state == 3 && (coreOf s n).storeBuf.isEmpty then
    forEach ((coreOf s n).lines.filter fun p => dirtyLine p.2) (fun p s => evictLine n p.1 s) s
  else s

/-- Stores drain, then the waiting instruction goes on, then the commands that waited for the stores (R312). -/
def resumeCore (n : Nat) (s : State) : State :=
  let s := drainStores n (coreOf s n).storeBuf.length s
  let s := cleanForGate n (goWait n s)
  if isTrowel n && (coreOf s n).storeBuf.isEmpty then pumpTile n s else s

/-- A requester that holds both completion and data installs the line and acknowledges (R369). A line that it still holds in O
keeps its own data and becomes M, since the home's copy may be older (DEDUCED, log 25). A completion without a grant ends a
request that the host cannot serve (R507): the buffered store at the head that asked for this line ends with a late fault (R343), and a
waiting instruction that needs this line takes its access fault (R282). -/
def tryInstall (n line : Nat) (s : State) : State :=
  match tfind (coreOf s n).fills line with
  | some ⟨_, _, id, some .i, _⟩ =>
    let s := releaseDone id (modCore n (fun c => { c with fills := terase c.fills line }) s)
    let drop (s : State) : State := if isHost (line * 64) then countReg offLinDropCnt 1 s else s
    let s := match (coreOf s n).storeBuf with
      | e :: _ => if e.pa / 64 = line then failStore n 0 e (drop s) else s
      | [] => s
    let s := match (coreOf s n).wait with
      | some (.load rd _ _ pa addr) => if pa / 64 = line then takeTrap n false (loadCause rd) addr s else s
      | some (.lr _ _ pa addr) => if pa / 64 = line then takeTrap n false causeLoadAccess addr s else s
      | some (.tdld _ pa addr) => if pa / 64 = line then takeTrap n false causeLoadAccess addr s else s
      | some (.sc _ _ pa addr _) => if pa / 64 = line then takeTrap n false causeStoreAccess addr (drop s) else s
      | _ => s
    resumeCore n s
  | some ⟨_, tc, id, some g, some (d, _, p)⟩ =>
    let s := releaseDone id (modCore n (fun c => { c with fills := terase c.fills line }) s)
    let s := makeRoom n line s
    let new : CLine := match tfind (coreOf s n).lines line with
      | some l => if l.state = .o && (g = .e || g = .m) then { l with state := .m } else ⟨g, d, p⟩
      | none => ⟨g, d, p⟩
    resumeCore n (send (.ack n (line * 64) tc) (modCore n (fun c => { c with lines := tinsert c.lines line new }) s))
  | _ => s

/-- Adds the grant or the data to an outstanding fill. -/
def fillPart (n line : Nat) (f : Fill → Fill) (s : State) : State :=
  match tfind (coreOf s n).fills line with
  | none => s
  | some x => tryInstall n line (modCore n (fun c => { c with fills := tinsert c.fills line (f x) }) s)

end Sys2Proof.Machine
end

