-- ==== Sys2Proof/Machine/Trowel.lean ====
section
/-! DEFINITION. The tile extension of the Trowel (R208 to R216), the completion of commands (R191 to R198) and the start of the
commands of the three units of a Tile. -/
namespace Sys2Proof.Machine

/-- A halted core executes only what the program buffer holds (R176). -/
def progHolds (a : Site) (s : State) : Bool :=
  !(coreOf s a.core).prog || s.dbg.progbuf.any fun p => p.2 == a.bits

/-- What a core does at an instruction boundary: a late fault of a store comes first (R343), then a trigger, then the instruction. The
program buffer meets neither. -/
def atInstruction (a : Site) (s : State) (f : State → State) : State :=
  let c := coreOf s a.core
  if c.prog then f (atSite a s)
  else match c.late with
    | addr :: _ => exception a causeStoreAccess addr (modCore a.core (fun c => { c with late := c.late.drop 1 }) s)
    | [] => match triggerHit c a.mode 2 a.pc with
      | some d => fireTrigger a d a.pc s
      | none => f (atSite a s)

/-- An instruction of a core has its effect where the core exists and can execute one. -/
def runAt (a : Site) (s : State) (f : State → State) : Out :=
  .next (if hasCore s a.core && coreReady s a.core && progHolds a s then atInstruction a s f else s)

/-- Illegal-instruction exception with the bits of the instruction (R209, R216). -/
def illegal (a : Site) (s : State) : State := exception a causeIllegal (a.bits.setWidth 64) s

/-! ## Encodings (R208, R209) -/

/-- An instruction of the tile extension with the register, descriptor and counter numbers that its encoding holds. -/
inductive TileForm where
  | tdld (td : Nat)
  | tcmd (rd : Nat)
  | twait (rd c : Nat)
  | tcntRd (rd c : Nat)
  | tcntWr (c : Nat)
  | ttok
  | tflags (rd : Nat)
  | tbar (rd : Nat)
  | terr (rd : Nat)
  deriving DecidableEq, Repr

/-- The major opcode custom-0. -/
def isCustom0 (w : Word32) : Bool := fieldOf w 6 0 == 0x0B

/-- Reads an encoding of R208; none for an encoding that R209 makes illegal. -/
def tileForm (w : Word32) : Option TileForm :=
  let f7 := fieldOf w 31 25
  let r2 := fieldOf w 24 20
  let r1 := fieldOf w 19 15
  let f3 := fieldOf w 14 12
  let rd := fieldOf w 11 7
  let sure (b : Bool) (t : TileForm) : Option TileForm := if b then some t else none
  if !isCustom0 w then none
  else match f7, f3 with
    | 0, 0 => sure (r2 == 0 && decide (rd < 16)) (.tdld rd)
    | 0, 1 => some (.tcmd rd)
    | 0, 2 => sure (decide (r2 < 8)) (.twait rd r2)
    | 0, 3 => sure (decide (r2 < 8) && r1 == 0) (.tcntRd rd r2)
    | 1, 3 => sure (decide (r2 < 8) && rd == 0) (.tcntWr r2)
    | 0, 4 => sure (r2 == 0 && rd == 0) .ttok
    | 0, 5 => sure (r2 == 0) (.tflags rd)
    | 0, 6 => sure (r2 == 0 && r1 == 0) (.tbar rd)
    | 0, 7 => sure (r2 == 0 && r1 == 0) (.terr rd)
    | _, _ => none

/-- An instruction of the tile extension: only Trowels have it (R176, R177), and its bits must be its encoding (R209). -/
def tileExt (a : Site) (form : TileForm) (s : State) (f : State → State) : Out :=
  runAt a s fun s => if isTrowel a.core && tileForm a.bits == some form then f s else illegal a s

/-- TDLD (R215, R216, R233): the 64 bytes are read as one load, checked, and loaded into a descriptor register. -/
def execTdld (at_ : Site) (td : BitVec 5) (rs1 : Word64) (s : State) : Out :=
  tileExt at_ (.tdld td.toNat) s fun s =>
    if rs1.toNat % 64 ≠ 0 then exception at_ causeLoadAlign rs1 s
    else watchAddr at_ true false rs1 s fun s => match coreTarget at_.core at_.mode rs1 64 permR (bufData at_.core) s with
      | (.pa pa, s) => goWait at_.core (startWait at_ (.tdld td pa rs1) s)
      | (.wait, s) => startWait at_ (.xlt causeLoadPage rs1) s
      | (.page, s) => exception at_ causeLoadPage rs1 s
      | (.denied, s) => exception at_ causeLoadAccess rs1 s

/-- TCMD (R206, R210): the command takes a queue entry, is refused, or waits for an entry (R187). -/
def execTcmd (at_ : Site) (rd : BitVec 5) (rs1 rs2 : Word64) (s : State) : Out :=
  tileExt at_ (.tcmd rd.toNat) s fun s => wakeTrowel at_.core (startWait at_ (.tcmd rd rs1 rs2) s)

/-- TWAIT (R208): waits until the counter reaches its target or its error flag is set. -/
def execTwait (at_ : Site) (rd c : BitVec 5) (rs1 : Word64) (s : State) : Out :=
  tileExt at_ (.twait rd.toNat c.toNat) s fun s => wakeTrowel at_.core (startWait at_ (.twait rd c.toNat rs1) s)

/-- TCNT_RD (R208): reads a counter word. -/
def execTcntRd (at_ : Site) (rd c : BitVec 5) (s : State) : Out :=
  tileExt at_ (.tcntRd rd.toNat c.toNat) s fun s => retireX at_ rd (tget zeroOf (tileOf s at_.core).counters c.toNat) s

/-- TCNT_WR (R196, R208): writes a counter word. -/
def execTcntWr (at_ : Site) (c : BitVec 5) (rs1 : Word64) (s : State) : Out :=
  tileExt at_ (.tcntWr c.toNat) s fun s =>
    retire at_ (modTile at_.core (fun t => { t with counters := tset zeroOf t.counters c.toNat rs1 }) s)

/-- TTOK (R208): waits for the earlier commands that signal a token of the mask. -/
def execTtok (at_ : Site) (rs1 : Word64) (s : State) : Out :=
  tileExt at_ .ttok s fun s =>
    wakeTrowel at_.core (startWait at_ (.ttok (signallers (tileOf s at_.core) (rs1.setWidth 16))) s)

/-- TFLAGS (R212): reads the sticky flag word and clears the flags of the mask. -/
def execTflags (at_ : Site) (rd : BitVec 5) (rs1 : Word64) (s : State) : Out :=
  tileExt at_ (.tflags rd.toNat) s fun s =>
    let f := (tileOf s at_.core).flags
    retireX at_ rd (f.setWidth 64)
      (modTile at_.core (fun t => { t with flags := t.flags &&& ~~~(rs1.setWidth 8) }) s)

/-- TBAR (R213, R338): the remote barrier. -/
def execTbar (at_ : Site) (rd : BitVec 5) (s : State) : Out :=
  tileExt at_ (.tbar rd.toNat) s fun s => wakeTrowel at_.core (startWait at_ (.tbar rd) s)

/-- The word of an error-log entry (R214). -/
def errWord (e : ErrEntry) (ovf : Bool) : Word64 :=
  BitVec.ofNat 64 (2 ^ 63 + b2n ovf * 2 ^ 62 + e.reason % 256 * 2 ^ 48 + e.unit % 4 * 2 ^ 40 + e.seq % 2 ^ 16)

/-- TERR (R214): reads and removes the oldest entry of the error log; reading the overflow bit clears it. -/
def execTerr (at_ : Site) (rd : BitVec 5) (s : State) : Out :=
  tileExt at_ (.terr rd.toNat) s fun s =>
    let t := tileOf s at_.core
    match t.errLog with
    | [] => retireX at_ rd 0 s
    | e :: es => retireX at_ rd (errWord e t.errOvf) (modTile at_.core (fun t => { t with errLog := es, errOvf := false }) s)

/-- COMMAND_COMPLETE (R191): a started command with nothing left to do completes; its results become visible, its counter moves,
its entry is free, and what waited for it goes on. -/
def execCommandComplete (tile seq : Nat) (s : State) : Out :=
  onUnit (hasTile s tile) s (match cmdOf (tileOf s tile) seq with
    | some c =>
      if c.started && c.stage == .ready && (cmdOps s tile seq).isEmpty && courseRuns s (tile / 16) then
        wakeTrowel tile (pumpTile tile (finishCmd tile c s))
      else s
    | none => s)

/-! ## Starts (R184, R188) -/

/-- MMA (R247 to R251): the tensor unit starts the command. -/
def execMma (tile seq : Nat) (s : State) : Out :=
  onUnit (hasTile s tile) s (startUnit uTensor opMMA tile seq s)

/-- GMMA (R252): the tensor unit starts the command. -/
def execGmma (tile seq : Nat) (s : State) : Out :=
  onUnit (hasTile s tile) s (startUnit uTensor opGMMA tile seq s)

/-- ROUND (R253): the tensor unit starts the command. -/
def execRound (tile seq : Nat) (s : State) : Out :=
  onUnit (hasTile s tile) s (startUnit uTensor opROUND tile seq s)

/-- ADD (R139): the vector unit starts the command. -/
def execAdd (tile seq : Nat) (s : State) : Out :=
  onUnit (hasTile s tile) s (startUnit uVector fnADD tile seq s)

/-- SUB (R139): the vector unit starts the command. -/
def execSub (tile seq : Nat) (s : State) : Out :=
  onUnit (hasTile s tile) s (startUnit uVector fnSUB tile seq s)

/-- MUL (R139): the vector unit starts the command. -/
def execMul (tile seq : Nat) (s : State) : Out :=
  onUnit (hasTile s tile) s (startUnit uVector fnMUL tile seq s)

/-- FMA (R705): the vector unit starts the command. -/
def execFma (tile seq : Nat) (s : State) : Out :=
  onUnit (hasTile s tile) s (startUnit uVector fnFMA tile seq s)

/-- DIV (R139): the vector unit starts the command. -/
def execDiv (tile seq : Nat) (s : State) : Out :=
  onUnit (hasTile s tile) s (startUnit uVector fnDIV tile seq s)

/-- SQRT (R139): the vector unit starts the command. -/
def execSqrt (tile seq : Nat) (s : State) : Out :=
  onUnit (hasTile s tile) s (startUnit uVector fnSQRT tile seq s)

/-- MIN (R137): the vector unit starts the command. -/
def execMin (tile seq : Nat) (s : State) : Out :=
  onUnit (hasTile s tile) s (startUnit uVector fnMIN tile seq s)

/-- MAX (R137): the vector unit starts the command. -/
def execMax (tile seq : Nat) (s : State) : Out :=
  onUnit (hasTile s tile) s (startUnit uVector fnMAX tile seq s)

/-- MINNUM (R137): the vector unit starts the command. -/
def execMinnum (tile seq : Nat) (s : State) : Out :=
  onUnit (hasTile s tile) s (startUnit uVector fnMINNUM tile seq s)

/-- MAXNUM (R137): the vector unit starts the command. -/
def execMaxnum (tile seq : Nat) (s : State) : Out :=
  onUnit (hasTile s tile) s (startUnit uVector fnMAXNUM tile seq s)

/-- SCALEB (R706): the vector unit starts the command. -/
def execScaleb (tile seq : Nat) (s : State) : Out :=
  onUnit (hasTile s tile) s (startUnit uVector fnSCALEB tile seq s)

/-- RINT (R137): the vector unit starts the command. -/
def execRint (tile seq : Nat) (s : State) : Out :=
  onUnit (hasTile s tile) s (startUnit uVector fnRINT tile seq s)

/-- NEG (R95): the vector unit starts the command. -/
def execNeg (tile seq : Nat) (s : State) : Out :=
  onUnit (hasTile s tile) s (startUnit uVector fnNEG tile seq s)

/-- ABS (R95): the vector unit starts the command. -/
def execAbs (tile seq : Nat) (s : State) : Out :=
  onUnit (hasTile s tile) s (startUnit uVector fnABS tile seq s)

/-- COPYSIGN (R95): the vector unit starts the command. -/
def execCopysign (tile seq : Nat) (s : State) : Out :=
  onUnit (hasTile s tile) s (startUnit uVector fnCOPYSIGN tile seq s)

/-- CLASS (R142): the vector unit starts the command. -/
def execClass (tile seq : Nat) (s : State) : Out :=
  onUnit (hasTile s tile) s (startUnit uVector fnCLASS tile seq s)

/-- CMP (R141): the vector unit starts the command. -/
def execCmp (tile seq : Nat) (s : State) : Out :=
  onUnit (hasTile s tile) s (startUnit uVector fnCMP tile seq s)

/-- SEL (R143): the vector unit starts the command. -/
def execSel (tile seq : Nat) (s : State) : Out :=
  onUnit (hasTile s tile) s (startUnit uVector fnSEL tile seq s)

/-- CONVERT (R138): the vector unit starts the command. -/
def execConvert (tile seq : Nat) (s : State) : Out :=
  onUnit (hasTile s tile) s (startUnit uVector fnCONVERT tile seq s)

/-- TWOSUM (R144): the vector unit starts the command. -/
def execTwosum (tile seq : Nat) (s : State) : Out :=
  onUnit (hasTile s tile) s (startUnit uVector fnTWOSUM tile seq s)

/-- TWOPROD (R145): the vector unit starts the command. -/
def execTwoprod (tile seq : Nat) (s : State) : Out :=
  onUnit (hasTile s tile) s (startUnit uVector fnTWOPROD tile seq s)

/-- PADD (R149): the vector unit starts the command. -/
def execPadd (tile seq : Nat) (s : State) : Out :=
  onUnit (hasTile s tile) s (startUnit uVector fnPADD tile seq s)

/-- PMUL (R149): the vector unit starts the command. -/
def execPmul (tile seq : Nat) (s : State) : Out :=
  onUnit (hasTile s tile) s (startUnit uVector fnPMUL tile seq s)

/-- PFMA (R149): the vector unit starts the command. -/
def execPfma (tile seq : Nat) (s : State) : Out :=
  onUnit (hasTile s tile) s (startUnit uVector fnPFMA tile seq s)

/-- EXP (R153): the vector unit starts the command. -/
def execExp (tile seq : Nat) (s : State) : Out :=
  onUnit (hasTile s tile) s (startUnit uVector fnEXP tile seq s)

/-- EXP2 (R153): the vector unit starts the command. -/
def execExp2 (tile seq : Nat) (s : State) : Out :=
  onUnit (hasTile s tile) s (startUnit uVector fnEXP2 tile seq s)

/-- LOG (R153): the vector unit starts the command. -/
def execLog (tile seq : Nat) (s : State) : Out :=
  onUnit (hasTile s tile) s (startUnit uVector fnLOG tile seq s)

/-- LOG2 (R153): the vector unit starts the command. -/
def execLog2 (tile seq : Nat) (s : State) : Out :=
  onUnit (hasTile s tile) s (startUnit uVector fnLOG2 tile seq s)

/-- RCP (R153): the vector unit starts the command. -/
def execRcp (tile seq : Nat) (s : State) : Out :=
  onUnit (hasTile s tile) s (startUnit uVector fnRCP tile seq s)

/-- RSQRT (R153): the vector unit starts the command. -/
def execRsqrt (tile seq : Nat) (s : State) : Out :=
  onUnit (hasTile s tile) s (startUnit uVector fnRSQRT tile seq s)

/-- SIN (R153): the vector unit starts the command. -/
def execSin (tile seq : Nat) (s : State) : Out :=
  onUnit (hasTile s tile) s (startUnit uVector fnSIN tile seq s)

/-- COS (R153): the vector unit starts the command. -/
def execCos (tile seq : Nat) (s : State) : Out :=
  onUnit (hasTile s tile) s (startUnit uVector fnCOS tile seq s)

/-- TANH (R153): the vector unit starts the command. -/
def execTanh (tile seq : Nat) (s : State) : Out :=
  onUnit (hasTile s tile) s (startUnit uVector fnTANH tile seq s)

/-- SIGMOID (R153): the vector unit starts the command. -/
def execSigmoid (tile seq : Nat) (s : State) : Out :=
  onUnit (hasTile s tile) s (startUnit uVector fnSIGMOID tile seq s)

/-- ERF (R153): the vector unit starts the command. -/
def execErf (tile seq : Nat) (s : State) : Out :=
  onUnit (hasTile s tile) s (startUnit uVector fnERF tile seq s)

/-- RSUM (R159): the vector unit starts the command. -/
def execRsum (tile seq : Nat) (s : State) : Out :=
  onUnit (hasTile s tile) s (startUnit uVector fnRSUM tile seq s)

/-- RSUMSQ (R159): the vector unit starts the command. -/
def execRsumsq (tile seq : Nat) (s : State) : Out :=
  onUnit (hasTile s tile) s (startUnit uVector fnRSUMSQ tile seq s)

/-- RMAX (R161): the vector unit starts the command. -/
def execRmax (tile seq : Nat) (s : State) : Out :=
  onUnit (hasTile s tile) s (startUnit uVector fnRMAX tile seq s)

/-- RMIN (R161): the vector unit starts the command. -/
def execRmin (tile seq : Nat) (s : State) : Out :=
  onUnit (hasTile s tile) s (startUnit uVector fnRMIN tile seq s)

/-- SOFTMAX (R163): the vector unit starts the command. -/
def execSoftmax (tile seq : Nat) (s : State) : Out :=
  onUnit (hasTile s tile) s (startUnit uVector fnSOFTMAX tile seq s)

/-- COPY (R293): the tile mover starts the command. -/
def execCopy (tile seq : Nat) (s : State) : Out :=
  onUnit (hasTile s tile) s (startUnit uMover opCOPY tile seq s)

/-- GATHER (R254): the tile mover starts the command. -/
def execGather (tile seq : Nat) (s : State) : Out :=
  onUnit (hasTile s tile) s (startUnit uMover opGATHER tile seq s)

/-- SCATTER (R255): the tile mover starts the command. -/
def execScatter (tile seq : Nat) (s : State) : Out :=
  onUnit (hasTile s tile) s (startUnit uMover opSCATTER tile seq s)

/-- SCATTER_RED (R256): the tile mover starts the command. -/
def execScatterRed (tile seq : Nat) (s : State) : Out :=
  onUnit (hasTile s tile) s (startUnit uMover opSCATRED tile seq s)

/-- RED (R293): the tile mover starts the command. -/
def execRed (tile seq : Nat) (s : State) : Out :=
  onUnit (hasTile s tile) s (startUnit uMover opRED tile seq s)

/-- AMO (R293): the tile mover starts the command. -/
def execAmo (tile seq : Nat) (s : State) : Out :=
  onUnit (hasTile s tile) s (startUnit uMover opAMO tile seq s)

end Sys2Proof.Machine
end

