-- ==== Sys2Proof/Machine/Cores.lean ====
section
/-! DEFINITION. Cores (files 05, 08): AMO, SC, fences, CSRs, interrupts, combining buffers, deferral and late stores. -/
namespace Sys2Proof.Machine

/-! ## AMO, SC (R310, R320 to R324, R329) -/

/-- Flushes the combining buffers that hold a byte of an access (R329). -/
def flushHeld (n pa len : Nat) (s : State) : State :=
  if ntHolds (coreOf s n) pa len then flushNt n (pa / 256) s else s

/-- The width of an atomic instruction in bytes. -/
def atomicWidth (dbl : Bool) : Nat := if dbl then 8 else 4

/-- CORE_AMO (R310, R413): aligned, translated with read and write permission, performed at the Grout home once older stores have
drained. An AMO aimed at anything but memory is refused (R180, R281). -/
def execCoreAmo (at_ : Site) (rd : BitVec 5) (op : AmoOp) (dbl : Bool) (addr value : Word64) (s : State) : Out :=
  runAt at_ s fun s => watchAddr at_ true true addr s fun s =>
    let n := at_.core
    let w := atomicWidth dbl
    if addr.toNat % w ≠ 0 then exception at_ causeStoreAlign addr s
    else if inTileWindow s n addr then accessFault at_ true addr s
    else
      let go (pa : Nat) (s : State) : State :=
        goAmo n rd op dbl pa addr value (startWait at_ (.amo rd op dbl pa addr value none) (flushHeld n pa w s))
      if isTrowel n then
        match (tileOf s n).bound with
        | none => accessFault at_ true addr s
        | some k => match translate (waiterOf (.core n) .coreAmo k addr.toNat permRW (bufData n)) s with
          | (.hit pa, s) => go pa s
          | (.wait, s) => startWait at_ (.xlt causeStorePage addr) s
          | (.fail, s) => exception at_ causeStorePage addr (raise unitLin srcXlt n (some k) addr.toNat 0 s)
      else match sortAgent s addr.toNat with
        | none => accessFault at_ true addr s
        | some pa =>
          if !pmpAllows (coreOf s n) at_.mode addr.toNat w permRW then accessFault at_ true addr s
          else match placeOf s pa with
            | .dev off =>
              if changing s off then startWait at_ (.xlt causeStorePage addr) s
              else if admits s (if n = 200 then .kiln else .firmware) off then go pa s else accessFault at_ true addr s
            | _ => go pa s

/-- SC (R310, R322, R324): stores and writes 0 where the reservation holds, writes 1 otherwise; the reservation is gone (R321). -/
def execSc (at_ : Site) (rd : BitVec 5) (dbl : Bool) (addr value : Word64) (s : State) : Out :=
  runAt at_ s fun s => watchAddr at_ false true addr s fun s =>
    let n := at_.core
    let w := atomicWidth dbl
    if addr.toNat % w ≠ 0 then exception at_ causeStoreAlign addr s
    else if inTileWindow s n addr then accessFault at_ true addr s
    else match coreTarget n at_.mode addr w permRW (bufData n) s with
      | (.pa pa, s) => resumeCore n (startWait at_ (.sc rd dbl pa addr value) (flushHeld n pa w s))
      | (.wait, s) => startWait at_ (.xlt causeStorePage addr) s
      | (.page, s) => exception at_ causeStorePage addr s
      | (.denied, s) => accessFault at_ true addr s

/-! ## Fences (R177, R180, R314, R315) -/

/-- FENCE (R314, R315): with W among its predecessors it flushes the combining buffers and waits until every store and flush has
reached its point of global visibility. Loads and register accesses have completed by then. A FENCE with an empty set is a HINT,
PAUSE among them, and a no-op (R177). -/
def execFence (at_ : Site) (pred succ : BitVec 4) (s : State) : Out :=
  runAt at_ s fun s =>
    if pred = 0 || succ = 0 || !bitOf pred 0 then retire at_ s
    else resumeCore at_.core (startWait at_ (.fence pred succ) (flushAllNt at_.core s))

/-- FENCE.TSO (R315): orders as RVTSO does, and flushes the combining buffers. -/
def execFenceTso (at_ : Site) (s : State) : Out := runAt at_ s fun s => retire at_ (flushAllNt at_.core s)

/-- FENCE.I (R180): later fetches see the core's earlier stores; what the instruction cache held is dropped. -/
def execFenceI (at_ : Site) (s : State) : Out :=
  runAt at_ s fun s => retire at_ (modCore at_.core (fun c => { c with icache := [] }) s)

/-! ## CSRs (R176, R181, R182, R326, R327) -/

/-- `misa` (R176). -/
def misaOf (n : Nat) : Word64 := if isTrowel n then 0x8000000000101105 else 0x800000000010112D

/-- The clock domain of a core (R661). -/
def coreDomain (n : Nat) : Nat := if n < 192 then n / 16 else if n = 200 then 109 else 108

/-- What the clock domain of a core has counted. -/
def coreCycles (s : State) (n : Nat) : Word64 := (cyclesOf s (coreDomain n)).setWidth 64

/-- A performance-counter register of the core: counters and event selectors (R176). -/
def isHpm (n csr : Nat) : Bool :=
  let top := if isTrowel n then 6 else 10
  (0xB03 ≤ csr && csr ≤ 0xB00 + top) || (0x323 ≤ csr && csr ≤ 0x320 + top) || csr == 0x306 || csr == 0x320

/-- PMP registers: absent in a Trowel (R176). -/
def isPmp (n csr : Nat) : Bool := !isTrowel n && (csr == 0x3A0 || csr == 0x3A2 || (0x3B0 ≤ csr && csr ≤ 0x3BF))

/-- A CSR of the core as it reads; none where it does not exist. Standard CSRs have the layout of the RISC-V Privileged
Specification (PRESUMED, log 18). -/
def csrRead (s : State) (n csr : Nat) : Option Word64 :=
  let c := coreOf s n
  let k := c.csr
  let b (x : Bool) (i : Nat) : Nat := b2n x * 2 ^ i
  if csr = 0xCC0 && isTrowel n then some (BitVec.ofNat 64 (n / 16 * 256 + n % 16))
  else if csr = 0xCC1 && isTrowel n then some (k.tctx.setWidth 64)
  else if csr = 0xCC2 && isTrowel n then some k.ttsbase
  else if csr = 0x7C0 && isTrowel n then some (BitVec.ofNat 64 (b2n k.tctl))
  else if 0x7C4 ≤ csr && csr ≤ 0x7C7 && isControlCore n then some (tget zeroOf k.ntwin (csr - 0x7C4))
  else if csr = 0x300 then some (BitVec.ofNat 64 (b k.mie 3 + b k.mpie 7 + (if k.mpp = .m then 3 else 0) * 2 ^ 11 + 2 * 2 ^ 32))
  else if csr = 0x301 then some (misaOf n)
  else if csr = 0x304 then some (BitVec.ofNat 64 (b k.msie 3 + b k.mtie 7 + b k.meie 11))
  else if csr = 0x305 then some k.mtvec
  else if csr = 0x340 then some k.mscratch
  else if csr = 0x341 then some k.mepc
  else if csr = 0x342 then some k.mcause
  else if csr = 0x343 then some k.mtval
  else if csr = 0x344 then some (BitVec.ofNat 64 (b k.msip 3 + b k.mtip 7 + b k.meip 11))
  else if csr = 0xF11 || csr = 0xF12 || csr = 0xF13 then some 0
  else if csr = 0xF14 then some (BitVec.ofNat 64 n)
  else if csr = 0xB00 || csr = 0xC00 then some ((cyclesOf s (coreDomain n)).setWidth 64 + k.cycleAhead)
  else if csr = 0xB02 || csr = 0xC02 then some k.instret
  else if csr = 0xC01 then some (if isTrowel n then (cyclesOf s (12 + n / 16)).setWidth 64 else s.clk.mtime)
  else if !isTrowel n && 1 ≤ csr && csr ≤ 3 then
    let f : Word64 := tget zeroOf k.hpm 3
    some (if csr = 1 then f &&& 0x1F else if csr = 2 then BitVec.ofNat 64 (fieldOf f 7 5) else f)
  else if csr = 0x7A0 then some (tget zeroOf c.triggers 0)
  else if csr = 0x7A1 then some (tget zeroOf c.triggers (1 + 2 * (tget zeroOf c.triggers 0 : Word64).toNat) ||| (6 <<< 60))
  else if csr = 0x7A2 then some (tget zeroOf c.triggers (2 + 2 * (tget zeroOf c.triggers 0 : Word64).toNat))
  else if csr = 0x7A4 then some 0x1000040
  else if isHpm n csr then some (tget zeroOf k.hpm csr)
  else if isPmp n csr then some (tget zeroOf k.pmp csr)
  else none

/-- Window fields that hold a value (R327). -/
def ntMask : Word64 := 0xFFFFFFFFFFFFF03F

/-- What `tdata1` keeps of a write: the modes, the kinds of access, the action, and from the debugger `dmode`. Only a trigger of the
debugger may enter debug mode. -/
def triggerWord (debug : Bool) (v : Word64) : Word64 :=
  let own := debug && bitOf v 59
  (v &&& 0x4F) ||| (if own then 0x800000000000000 else 0) ||| (if own && fieldOf v 15 12 = 1 then 0x1000 else 0)

/-- A write of a trigger register; one whose trigger belongs to the debugger takes none from the core. -/
def triggerWrite (debug : Bool) (csr : Nat) (v : Word64) (c : Core) : Core :=
  let i := (tget zeroOf c.triggers 0 : Word64).toNat
  let locked := bitOf (tget zeroOf c.triggers (1 + 2 * i)) 59 && !debug
  if csr = 0x7A0 then (if v.toNat < 4 then { c with triggers := tset zeroOf c.triggers 0 v } else c)
  else if locked then c
  else if csr = 0x7A1 then { c with triggers := tset zeroOf c.triggers (1 + 2 * i) (triggerWord debug v) }
  else if csr = 0x7A2 then { c with triggers := tset zeroOf c.triggers (2 + 2 * i) v }
  else c

/-- A CSR takes a value as its fields allow; `cycles` is what the clock domain has counted. -/
def csrWrite (cycles : Word64) (csr : Nat) (v : Word64) (c : Core) : Core :=
  let k := c.csr
  let k : Csrs :=
    if csr = 0x7C0 then { k with tctl := bitOf v 0 }
    else if 0x7C4 ≤ csr && csr ≤ 0x7C7 then { k with ntwin := tset zeroOf k.ntwin (csr - 0x7C4) (v &&& ntMask) }
    else if csr = 0x300 then
      { k with mie := bitOf v 3, mpie := bitOf v 7, mpp := if fieldOf v 12 11 = 3 then .m else .u }
    else if csr = 0x304 then { k with msie := bitOf v 3, mtie := bitOf v 7, meie := bitOf v 11 }
    else if csr = 0x305 then { k with mtvec := v &&& ~~~2 }
    else if csr = 0x340 then { k with mscratch := v }
    else if csr = 0x341 then { k with mepc := v &&& ~~~1 }
    else if csr = 0x342 then { k with mcause := v }
    else if csr = 0x343 then { k with mtval := v }
    else if csr = 0xB00 then { k with cycleAhead := v - cycles }
    else if csr = 0xB02 then { k with instret := v }
    else if csr = 1 then { k with hpm := tset zeroOf k.hpm 3 ((tget zeroOf k.hpm 3 &&& 0xE0) ||| (v &&& 0x1F)) }
    else if csr = 2 then { k with hpm := tset zeroOf k.hpm 3 ((tget zeroOf k.hpm 3 &&& 0x1F) ||| ((v &&& 7) <<< 5)) }
    else if csr = 3 then { k with hpm := tset zeroOf k.hpm 3 (v &&& 0xFF) }
    else if csr = 0x3A0 || csr = 0x3A2 || (0x3B0 ≤ csr && csr ≤ 0x3BF) then { k with pmp := tset zeroOf k.pmp csr v }
    else if isHpm 192 csr then { k with hpm := tset zeroOf k.hpm csr v }
    else k
  { c with csr := k }

/-- A PMP entry that is locked keeps its registers until reset. -/
def pmpLocked (c : Core) (csr : Nat) : Bool :=
  if 0x3B0 ≤ csr && csr ≤ 0x3BF then decide (128 ≤ pmpByte c (csr - 0x3B0))
  else if csr = 0x3A0 then (List.range 8).any fun i => decide (128 ≤ pmpByte c i)
  else if csr = 0x3A2 then (List.range 8).any fun i => decide (128 ≤ pmpByte c (i + 8))
  else false

/-- The value that a CSR instruction writes. -/
def csrNew (old : Word64) : CsrWrite → Word64
  | .rw v => v
  | .rs v => old ||| v
  | .rc v => old &&& ~~~v

/-- A counter that `mcounteren` does not open to U mode (RISC-V Privileged Specification, PRESUMED, log 18). -/
def counterShut (c : Core) (mode : Priv) (csr : Nat) : Bool :=
  mode = .u && 0xC00 ≤ csr && csr ≤ 0xC02 && !bitOf (tget zeroOf c.csr.hpm 0x306) (csr - 0xC00)

/-- CUSTOM_CSR_ACCESS (R181, R182, R326): reads a CSR into rd and writes it. An access that the mode does not permit, a write to a
read-only CSR and an absent CSR raise an illegal-instruction exception. -/
def execCustomCsrAccess (at_ : Site) (csr : BitVec 12) (rd : BitVec 5) (wr : Option CsrWrite) (s : State) : Out :=
  runAt at_ s fun s =>
    match csrRead s at_.core csr.toNat with
    | none => illegal at_ s
    | some old =>
      if (at_.mode = .u && fieldOf csr 9 8 ≠ 0) || (fieldOf csr 11 10 = 3 && wr.isSome) ||
          counterShut (coreOf s at_.core) at_.mode csr.toNat then illegal at_ s
      else
        let s := match wr with
          | none => s
          | some w => if pmpLocked (coreOf s at_.core) csr.toNat then s
            else if 0x7A0 ≤ csr.toNat && csr.toNat ≤ 0x7A4 then modCore at_.core (triggerWrite false csr.toNat (csrNew old w)) s
            else modCore at_.core (csrWrite (coreCycles s at_.core) csr.toNat (csrNew old w)) s
        retireX at_ rd old s

/-! ## Interrupts (R176, R180, R211, R217) -/

/-- An interrupt may be taken: not in a held or halted core, and not inside an instruction other than the interruptible ones of
R211 and R461. -/
def interruptible (s : State) (n : Nat) : Bool :=
  let c := coreOf s n
  let w : Bool := match c.wait with
    | none => true
    | some (.xlt _ _) => true
    | some (.tcmd _ _ _) => true
    | some (.twait _ _ _) => true
    | some (.ttok _) => true
    | some (.tbar _) => true
    | _ => false
  w && !c.held && !c.halted && (if isTrowel n then courseRuns s (n / 16) else lintelRuns s)

/-- The core stands at the boundary that an interrupt names, or at the instruction that it waits in. -/
def atBoundary (a : Site) (s : State) : State := if (coreOf s a.core).wait.isSome then s else atSite a s

/-- Takes an interrupt where it is enabled: in U mode always, in M mode while `mstatus.MIE` is 1. -/
def takeInterrupt (a : Site) (pending : Core → Bool) (cause : Nat) (ack : Core → Core) (s : State) : State :=
  let c := coreOf s a.core
  let mode := if c.wait.isSome then c.mode else a.mode
  if pending c && interruptible s a.core && (mode = .u || c.csr.mie) then
    takeTrap a.core true cause 0 (modCore a.core ack (atBoundary a s))
  else s

/-- EXTERNAL_INTERRUPT (R176, R180): the core takes its machine external interrupt, which ends with the taking (log 26); without one, a
control core takes a pending machine software interrupt. -/
def execExternalInterrupt (at_ : Site) (s : State) : Out :=
  onUnit (hasCore s at_.core) s
    (let c := coreOf s at_.core
     if !isTrowel at_.core && !(c.csr.meip && c.csr.meie) then
       takeInterrupt at_ (fun c => c.csr.msip && c.csr.msie) 3 (fun c => { c with csr := { c.csr with msip := false } }) s
     else
       takeInterrupt at_ (fun c => c.csr.meip && c.csr.meie) 11 (fun c => { c with csr := { c.csr with meip := false } }) s)

/-- TIMER_INTERRUPT (R176): the machine timer of a control core expires, and its interrupt stays pending until it is taken (log 26); a
Trowel has none. -/
def execTimerInterrupt (at_ : Site) (s : State) : Out :=
  onUnit (hasCore s at_.core) s
    (if isTrowel at_.core then s
     else takeInterrupt at_ (fun c => c.csr.mtie) 7 (fun c => { c with csr := { c.csr with mtip := false } })
       (modCore at_.core (fun c => { c with csr := { c.csr with mtip := true } }) s))

/-! ## Combining buffers, deferral, late stores -/

/-- NT_BUFFER_IDLE_FLUSH (R329): a buffer without a write for 256 cycles is flushed. -/
def execNtBufferIdleFlush (core line : Nat) (s : State) : Out := onUnit (hasCore s core) s (flushNt core line s)

/-- LR_DEFERRAL_EXPIRY (R323): the deferred snoops are answered. -/
def execLrDeferralExpiry (core : Nat) (s : State) : Out := onUnit (hasCore s core) s (endDeferral core s)

/-- A status of a store has arrived at a core that is inside an instruction which no exception may interrupt, or that is held or halted: the
fault stays to be taken. -/
def faultWaits (c : Core) : Bool :=
  c.held || c.halted || (match c.wait with
    | some (.amo _ _ _ _ _ _ (some _)) => true
    | _ => false)

/-- The late fault of a store is taken at the boundary where the core stands (R343). -/
def takeLate (a : Site) (addr : Word64) (s : State) : State :=
  if faultWaits (coreOf s a.core) then s
  else
    let s := modCore a.core (fun c => { c with late := removeFirst (· = addr) c.late }) s
    resumeCore a.core (takeTrap a.core false causeStoreAccess addr (atBoundary a s))

/-- STORE_LATE_FAULT (R343): a buffered store or a flush ends with `TIMEOUT` or `HOSTABSENT`; the core takes a store/AMO access fault at
its next boundary, and the stores behind it drain. -/
def execStoreLateFault (at_ : Site) (addr : Word64) (status : RStatus) (s : State) : Out :=
  onUnit (hasCore s at_.core) s
    (let c := coreOf s at_.core
     let mine (e : StoreEntry) : Bool := e.addr == addr && isHost e.pa
     match (if status = .timeout || status = .hostabsent then c.storeBuf.findIdx? mine else none) with
     | some i =>
       match c.storeBuf[i]? with
       | some e =>
         takeLate at_ addr (failStore at_.core i e
           (modCore at_.core (fun c => { c with fills := terase c.fills (e.pa / 64) }) (countReg offLinDropCnt 1 s)))
       | none => s
     | none => if c.late.contains addr then takeLate at_ addr s else s)

end Sys2Proof.Machine
end

