-- ==== Sys2Proof/Machine/Coherence.lean ====
section
/-! DEFINITION. Coherence (files 09, 10): requests at a home, probes and their answers, fills, host snoops, CXL.mem, back-invalidates,
prefetch, stack reads and writes. -/
namespace Sys2Proof.Machine

/-- A cacheable key (R302). -/
def cacheable (s : State) (pa : Nat) : Bool := (placeOf s pa).cacheable

/-! ## Jegon ports as caching agents (R362, R369) -/

/-- The port of a Jegon agent. -/
def portOf (agent : Nat) : Nat := agent - 201

/-- The state grant on `RSP`, as its low bits (DESIGN CHOICE, log 27). -/
def grantBits : LState → BitVec 4
  | .m => 4 | .o => 3 | .e => 2 | .s => 1 | .i => 0

/-- The marks of `RDAT` for each 16 bytes of a line of 256: all four that cover a poisoned sector (R425). -/
def rdatMarks (m : Marks) : BitVec 16 :=
  (List.range 4).foldl (fun v i => if bitOf m i then v ||| BitVec.ofNat 16 (15 * 16 ^ i) else v) 0

/-- Once nothing is owed to a port whose engine has quiesced, the block raises its own acknowledge (R26). -/
def jegQuiet (port : Nat) (s : State) : State :=
  let j := jegonOf s port
  if j.quiesce && j.engineAck && !j.blockAck && j.owed.isEmpty && j.xlts.isEmpty then
    send (.jegCtl port .quiesceAck) (modJegon port (fun j => { j with blockAck := true }) s)
  else s

/-- A response leaves on `RSP`, with its data and their poison on `RDAT`; the tag is owed no longer. -/
def jegRespond (port tag : Nat) (st : RStatus) (data : List Byte) (poison : Marks) (bits : BitVec 4) (s : State) : State :=
  jegQuiet port (send (.jegRsp port tag st data (rdatMarks poison) bits)
    (modJegon port (fun j => { j with owed := j.owed.filter (· ≠ tag) }) s))

/-- A response without data. -/
def jegAnswer (port tag : Nat) (st : RStatus) (bits : BitVec 4) (s : State) : State := jegRespond port tag st [] 0 bits s

/-- The tag of a request whose response a port reset has discarded (R696). -/
def deadTag : Nat := 2 ^ 17

/-- A write-back of a Jegon engine leaves where an identifier is free (R364, R383). -/
def jegEvict (port tag line : Nat) (tc : BitVec 2) (d : List Byte) (poison : Bool) (s : State) : Option State :=
  match takeId pathBridge 1 s with
  | some (id, s) =>
    some (carryUp .evict tc (201 + port) (line * 64) 64 (.evict (201 + port) (line * 64) d poison tc id)
      (modJegon port (fun j => { j with wbs := j.wbs ++ [(tag, line, some id)] }) s))
  | none => none

/-- A coherent request of a Jegon engine goes on: with completion and data it is answered, and the home gets its
acknowledgement (R369). A dirty line whose response a port reset has discarded (R696) goes back. -/
def jegFill (port line : Nat) (f : Fill → Fill) (s : State) : State :=
  match (jegonOf s port).fills.find? (fun x => x.2.1 == line) with
  | none => s
  | some (tag, l, x) =>
    let y := f x
    let done (s : State) : State :=
      releaseDone y.id (modJegon port (fun j => { j with fills := removeFirst (· = (tag, l, x)) j.fills }) s)
    let owed := (jegonOf s port).owed.contains tag
    let keep (s : State) : State :=
      modJegon port (fun j => { j with fills := replaceFirst (· = (tag, l, x)) (fun _ => (tag, l, y)) j.fills }) s
    match y with
    | ⟨_, _, _, some .i, _⟩ => if owed then jegAnswer port tag .hostabsent 0 (done s) else done s
    | ⟨_, tc, _, some g, some (d, _, p)⟩ =>
      let ack (s : State) : State := send (.ack (201 + port) (line * 64) tc) (done s)
      if owed then
        jegRespond port tag (if p then .poison else .ok) d (allMarks (line * 64) 64 p) (grantBits g) (ack s)
      else if g = .m then (jegEvict port deadTag line tc d p (ack s)).getD (keep s)
      else ack s
    | _ => keep s

/-! ## Requests (R365) -/

/-- The source of the accesses of a caching agent (R358). -/
def agentSrc (n : Nat) : Src := if n < 201 then .core n else .jegon (portOf n)

/-- A request of a caching agent enters its home; the detector at its ingress has seen it (R399). -/
def requestAt (agent pa : Nat) (write : Bool) (r : Req) (s : State) : State :=
  if cacheable s pa then enter (pa / 64) r (detect (agentSrc agent) write (pa / 256) s).2 else s

/-- SHARE_RD (R365): a coherent read enters the home. -/
def execShareRd (agent pa : Nat) (tag : LineTag) (s : State) : Out :=
  onUnit (hasAgent s agent) s (requestAt agent pa false (.share agent tag.tc tag.id) s)

/-- OWN_RD (R365): an ownership request enters the home. -/
def execOwnRd (agent pa : Nat) (tag : LineTag) (s : State) : Out :=
  onUnit (hasAgent s agent) s (requestAt agent pa true (.own agent tag.tc tag.id) s)

/-- The transaction that awaits an agent: the main one of the line, or that of a host snoop. -/
def awaits (s : State) (line agent : Nat) : Option (Nat × Txn) :=
  let mine (t : Txn) : Bool := t.probing.contains agent || t.evicting.contains agent
  match txnOf s line with
  | some t => if mine t then some (line, t) else other
  | none => other
where
  /-- The transaction of a host snoop. -/
  other : Option (Nat × Txn) := match txnOf s (snoopKey line) with
    | some t => if t.probing.contains agent || t.evicting.contains agent then some (snoopKey line, t) else none
    | none => none

/-- The write-back of an awaited agent enters the blocked line, and its data becomes the data of the snoop (R372). -/
def matchEvict (key : Nat) (t : Txn) (agent pa : Nat) (data : List Byte) (poison : Bool) (tc : BitVec 2) (id : OpId) (s : State) : State :=
  let t := { t with supplied := some (data, true, poison), evicting := t.evicting.filter (· ≠ agent), came := agent :: t.came }
  send (.wbAck agent pa tc id) (notePage pa (dropOwner (pa / 64) false (setTxn key t s)))

/-- DIRTY_EV (R353, R364, R372, R373): a write-back arrives, and its credit goes back. Where a transaction awaits its agent it enters the
blocked line; otherwise it takes its turn. -/
def execDirtyEv (agent pa : Nat) (line : LineData) (tag : LineTag) (s : State) : Out :=
  onUnit (hasAgent s agent) s
    (let data := line.data
     let poison := line.poison
     let tc := tag.tc
     let id := tag.id
     let line := pa / 64
     let s := giveBack (outSlice (sliceOf s pa)) .evict tc agent s
     if !cacheable s pa then s
     else match awaits s line agent with
      | some (k, t) =>
        if ownerOf s line = some agent then settle (matchEvict k t agent pa data poison tc id s)
        else enterQueue line (.evict agent data poison tc id) s
      | none => enterQueue line (.evict agent data poison tc id) s)

/-- PEEK_RD (R365): a get, a Hod read or a non-temporal read enters the home. -/
def execPeekRd (op : HomeOp) (len : Nat) (s : State) : Out :=
  .next (if cacheable s op.pa && decide (0 < len) then
    let (stream, s) := detect op.src false (op.pa / 256) s
    enter (op.pa / 64) (.peek op len stream [] 0) s
  else s)

/-- PUSH_WR (R365): a put, a mover or Hod write or a non-temporal flush enters the home. -/
def execPushWr (op : HomeOp) (s : State) : Out :=
  .next (if cacheable s op.pa && !op.data.isEmpty then
    let (stream, s) := detect op.src true (op.pa / 256) s
    enter (op.pa / 64) (.push op stream) s
  else s)

/-- An atomic at its home: refused (R409), or performed once the line is free and its copies are gone (R365, R410). -/
def atomicAt (gop : Nat) (a : Atomic) (s : State) : Out :=
  .next (if !cacheable s a.pa then s
    else if atomicRefused gop a then
      settle (respondAtomic a .refused [] 0 (giveBack (outSlice (sliceOf s a.pa)) .ask a.env.tc (sourceNo a.src) s))
    else enter (a.pa / 64) (.atomic gop a) (detect a.src true (a.pa / 256) s).2)

/-- GOP_ADD (R406). -/
def execGopAdd (a : Atomic) (s : State) : Out := atomicAt gopADD a s
/-- GOP_AND (R406). -/
def execGopAnd (a : Atomic) (s : State) : Out := atomicAt gopAND a s
/-- GOP_OR (R406). -/
def execGopOr (a : Atomic) (s : State) : Out := atomicAt gopOR a s
/-- GOP_XOR (R406). -/
def execGopXor (a : Atomic) (s : State) : Out := atomicAt gopXOR a s
/-- SMIN (R406). -/
def execSmin (a : Atomic) (s : State) : Out := atomicAt gopSMIN a s
/-- SMAX (R406). -/
def execSmax (a : Atomic) (s : State) : Out := atomicAt gopSMAX a s
/-- UMIN (R406). -/
def execUmin (a : Atomic) (s : State) : Out := atomicAt gopUMIN a s
/-- UMAX (R406). -/
def execUmax (a : Atomic) (s : State) : Out := atomicAt gopUMAX a s
/-- SWAP (R406). -/
def execSwap (a : Atomic) (s : State) : Out := atomicAt gopSWAP a s
/-- CAS (R406). -/
def execCas (a : Atomic) (s : State) : Out := atomicAt gopCAS a s
/-- FADD32 (R407). -/
def execFadd32 (a : Atomic) (s : State) : Out := atomicAt gopFADD32 a s
/-- FADD64 (R407). -/
def execFadd64 (a : Atomic) (s : State) : Out := atomicAt gopFADD64 a s
/-- FMAX (R408). -/
def execFmax (a : Atomic) (s : State) : Out := atomicAt gopFMAX a s
/-- XADD (R120, R122). -/
def execXadd (a : Atomic) (s : State) : Out := atomicAt gopXADD a s
/-- BXOR (R406). -/
def execBxor (a : Atomic) (s : State) : Out := atomicAt gopBXOR a s

/-! ## Probes (R323, R366, R367, R27) -/

/-- A probe reaches a caching agent. A core defers an invalidating probe of its reserved line (R323). A Jegon port passes the
snoop on, or answers it itself once the engine has quiesced (R27) or the port refuses (R25). -/
def probeAgent (agent line : Nat) (kind : Probe) (for_ : ProbeFor) (s : State) : State :=
  if agent < 201 then
    let c := coreOf s agent
    if (kind == .take || kind == .kill) && c.deferral && c.resv == some line then
      modCore agent (fun c => { c with deferred := c.deferred ++ [(kind, line, for_)] }) s
    else answerProbe agent line kind for_ s
  else
    let p := portOf agent
    let j := jegonOf s p
    let miss (s : State) : State := send (.answer agent (line * 64) .miss false [] false (probeTc for_)) s
    if j.engineAck then miss s
    else if j.refusing then
      (if ownerOf s line = some agent && kind != .kill then supplyData agent line for_ true (zeroBytes 64) true s else miss s)
    else send (.jegSnp p (line * 64) kind) (modJegon p (fun j => { j with snoops := j.snoops ++ [(line, kind, for_)] }) s)

/-- A probe arrives from the home of its line; its credit goes back (R350). -/
def probeCommand (agent pa : Nat) (kind : Probe) (for_ : ProbeFor) (s : State) : Out :=
  onUnit (hasAgent s agent) s
    (probeAgent agent (pa / 64) kind for_ (giveBack (outAgent agent) .probe (probeTc for_) (1024 + sliceOf s pa) s))

/-- PRB_SHARE (R366). -/
def execPrbShare (agent pa : Nat) (for_ : ProbeFor) (s : State) : Out := probeCommand agent pa .share for_ s
/-- PRB_TAKE (R366). -/
def execPrbTake (agent pa : Nat) (for_ : ProbeFor) (s : State) : Out := probeCommand agent pa .take for_ s
/-- PRB_KILL (R366). -/
def execPrbKill (agent pa : Nat) (for_ : ProbeFor) (s : State) : Out := probeCommand agent pa .kill for_ s
/-- PRB_PEEK (R366). -/
def execPrbPeek (agent pa : Nat) (for_ : ProbeFor) (s : State) : Out := probeCommand agent pa .peek for_ s

/-- What the answer of the owner to a probe tells the filter (R366, R374). -/
def noteAnswer (line agent : Nat) (kind : Probe) (ans : Answer) (dirty : Bool) (s : State) : State :=
  if ownerOf s line ≠ some agent then s
  else match kind, ans with
    | .share, .forwarded => share
    | .share, .toHome => share
    | .share, .clean => dropOwner line true s
    | .share, .miss => dropOwner line false s
    | .peek, .miss => dropOwner line false s
    | _, _ => s
where
  /-- A share probe leaves a dirty owner in O and a clean one in S. -/
  share : State :=
    if dirty then match filterOf s line with
      | some e => setFilter line { e with state := .owned } s
      | none => s
    else dropOwner line true s

/-- The kind of probe that a request sends. -/
def probeKind (line : Nat) (r : Req) : Probe := ((probeOf line r).map fun x => x.1).getD .peek

/-- A write-back of an agent that already waits for its line when the agent answers `EVICTING` (R372). -/
def queuedEvict (s : State) (line agent : Nat) : Option Req :=
  ((s.home.lineQ.find? fun p => p.1 == line && (match p.2 with | .evict a _ _ _ _ => a == agent | _ => false))).map fun p => p.2

/-- An agent that answers `EVICTING` is awaited for its write-back, unless that has come. -/
def awaitEvict (key : Nat) (t : Txn) (agent pa : Nat) (s : State) : State :=
  let line := pa / 64
  if t.came.contains agent then setTxn key t s
  else match queuedEvict s line agent with
    | some (.evict a d p tc id) =>
      matchEvict key t agent pa d p tc id
        { s with home := { s.home with lineQ := removeFirst (· = (line, .evict a d p tc id)) s.home.lineQ } }
    | _ => setTxn key { t with evicting := agent :: t.evicting } s

/-- PROBE_ANSWER (R366, R372): the answer of an agent reaches the home. An answer to a recall of R509 brings dirty host data that is
discarded and counted. -/
def execProbeAnswer (agent pa : Nat) (ans : Answer) (dirty : Bool) (data : List Byte) (poison : Bool) (s : State) : Out :=
  onUnit (hasAgent s agent) s
    (let line := pa / 64
     match awaits s line agent with
     | some (k, t) =>
       if !t.probing.contains agent then s
       else
         let kind := probeKind line t.req
         let t := { t with probing := t.probing.filter (· ≠ agent) }
         let s := match ans with
           | .evicting => awaitEvict k t agent pa s
           | .forwarded => setTxn k { t with supplied := some ([], dirty, poison) } s
           | .toHome => setTxn k { t with supplied := some (data, dirty, poison) } s
           | _ => setTxn k t s
         settle (noteAnswer line agent kind ans dirty s)
     | none => if isHost pa && s.link.hostAbsent && dirty then countReg offLinDiscardCnt 1 s else s)

/-! ## Fills (R368, R369) -/

/-- A part of the answer to the line request of an agent, under the identifier of the request. -/
def fillAnswer (agent line : Nat) (id : OpId) (f : Fill → Fill) (s : State) : State :=
  let mine (x : Fill) : Fill := if x.id = some id then f x else x
  if agent < 201 then fillPart agent line mine s else jegFill (portOf agent) line mine s

/-- The requester of a transaction that grants a state. -/
def requesterOf : Req → Option Nat
  | .share a _ _ => some a
  | .own a _ _ => some a
  | _ => none

/-- COMPLETION_ACK (R371): the home unblocks the line and serves what waits. -/
def execCompletionAck (agent pa : Nat) (s : State) : Out :=
  onUnit (hasAgent s agent) s
    (match txnOf s (pa / 64) with
     | some t => if t.granted && requesterOf t.req == some agent then settle (dropTxn (pa / 64) s) else s
     | none => s)

/-- The write-back of a line is acknowledged: the agent leaves the write-back-pending condition (R364). -/
def wbDone (agent line : Nat) (id : OpId) (s : State) : State :=
  if agent < 201 then
    match tfind (coreOf s agent).wb line with
    | some w => if w.id = some id then
        resumeCore agent (releaseId id false (modCore agent (fun c => { c with wb := terase c.wb line }) s))
      else s
    | none => s
  else
    let p := portOf agent
    match (jegonOf s p).wbs.find? (fun x => x.2.1 == line && x.2.2 == some id) with
    | some x =>
      let s := releaseId id false (modJegon p (fun j => { j with wbs := removeFirst (· = x) j.wbs }) s)
      if (jegonOf s p).owed.contains x.1 then jegAnswer p x.1 .ok 0 s else s
    | none => s

/-! ## The host (R379 to R382, R484 to R490) -/

def watchDefault (_n : Nat) : Watch := { inS := false, rereading := none, again := false, data := [], poison := false }

/-- A watched line by its number; unlisted lines are not watched. -/
def watchOf (s : State) (l : Nat) : Option Watch := tfind s.watches l
def setWatch (l : Nat) (w : Watch) (s : State) : State := { s with watches := tinsert s.watches l w }

/-- Outstanding re-reads. -/
def rereads (s : State) : Nat := (s.watches.filter fun p => p.2.rereading.isSome).length

/-- Re-reads leave in the order of ringing while fewer than 64 are outstanding (R486), each under an identifier (R383). -/
def pumpRereads : Nat → State → State
  | 0, s => s
  | n + 1, s =>
    match s.link.rereadQ with
    | [] => s
    | l :: rest =>
      if 64 ≤ rereads s || s.link.hostAbsent then s
      else
        let out (s : State) : State := { s with link := { s.link with rereadQ := rest } }
        match watchOf s l with
        | none => pumpRereads n (out s)
        | some w => match takeId pathHost 0 s with
          | some (id, s) => pumpRereads n (send (.reread (l * 64) 0 id) (out (setWatch l { w with rereading := some id } s)))
          | none => s

/-- Rings a watched line: a re-read follows, after the outstanding one where there is one (R486, R489). -/
def ringLine (l : Nat) (s : State) : State :=
  match watchOf s l with
  | none => s
  | some w =>
    if w.rereading.isSome then setWatch l { w with inS := false, again := true } s
    else if s.link.rereadQ.contains l then setWatch l { w with inS := false } s
    else
      let s := setWatch l { w with inS := false } s
      pumpRereads 64 { s with link := { s.link with rereadQ := s.link.rereadQ ++ [l] } }

/-- The home slice has something to say about a host line. -/
def homeHolds (s : State) (line : Nat) : Bool :=
  hostStateOf s (line * 64) != .i || (filterOf s line).isSome || (txnOf s line).isSome || queuedLine s line

/-- A host snoop: the watch table answers for a watched line, the home slice for a line that it holds, and one response goes to
the host (R379, R490). -/
def hostSnoop (hpa : Nat) (kind : Probe) (s : State) : State :=
  let line := hostKey hpa / 64
  let w := watchOf s (hpa / 64)
  let s := if kind == .take then ringLine (hpa / 64) s else s
  if homeHolds s line then enterQueue line (.snoop kind) s
  else send (.snoopRsp (hpa / 64 * 64) (if w.isSome && kind != .take then .s else .i) none false) s

/-- HOST_SNP_INV (R379, R486). -/
def execHostSnpInv (hpa : Nat) (s : State) : Out := .next (hostSnoop hpa .take s)
/-- HOST_SNP_DATA (R379, R487). -/
def execHostSnpData (hpa : Nat) (s : State) : Out := .next (hostSnoop hpa .share s)
/-- HOST_SNP_CUR (R379, R487). -/
def execHostSnpCur (hpa : Nat) (s : State) : Out := .next (hostSnoop hpa .peek s)

/-- The host grants a line (R379): the home raises its state, takes the data, and goes on. While the block is host-absent a late answer is
dropped, and the request ends by its timeout (R508). -/
def hostGrants (id : OpId) (line : Nat) (state : HState) (data : List Byte) (poison : Bool) (s : State) : State :=
  let pa := line * 64
  let whole := decide (data.length = 64)
  match txnOf s line with
  | some t =>
    if t.hostWait ≠ some id || s.link.hostAbsent then s
    else
      let s := releaseId id false s
      let s := if whole then
          countCtx (reqCtx s t.req) cntLinRd 64
            { s with mem := { s.mem with host := writeBytes s.mem.host (pa - 2 ^ 56) data,
                                         hostBad := tset noB s.mem.hostBad ((pa - 2 ^ 56) / 64) poison } }
        else s
      let s := match sectorOf s pa with
        | some c => putSector pa { c with h := state } s
        | none => if state = .i then s
          else if whole then putSector pa ⟨true, false, poison, state, data⟩ s
          else putSector pa ⟨false, false, false, state, zeroBytes 64⟩ s
      let sup := if whole && t.supplied.isNone && (sectorOf s pa).isSome then some (data, false, poison) else t.supplied
      settle (setTxn line { t with hostWait := none, supplied := sup } s)
  | none => s

/-- A request of the host enters Mortar toward the home of its line (R354, R358, R380). -/
def hostRequest (line bytes : Nat) (r : Req) (s : State) : State :=
  settle (carry .ask 1 (sourceNo .host) [outBridge, outSlice (sliceOf s (line * 64))] (unitsOf bytes) (.req line r) s)

/-- MEM_RD (R271, R380, R507): a host read of own device memory is served by the line's home; at any other address it returns
poisoned data. -/
def execMemRd (tag hpa : Nat) (snp : MemSnp) (s : State) : Out :=
  .next (if hostMayReach s hpa then
      let line := hostOffset s hpa / 64
      let (stream, s) := detect .host false (line / 4) s
      hostRequest line 0 (.hostRead tag snp stream) s
    else send (.memData tag (zeroBytes 64) true) s)

/-- MEM_WR (R271, R380, R507): a host write of own device memory: the data of an open back-invalidate, or performed at the home; at
any other address it is dropped and counted. -/
def execMemWr (tag hpa : Nat) (line : LineData) (en : List Bool) (keeps : MemState) (s : State) : Out :=
  let data := line.data
  let poison := line.poison
  .next (if hostMayReach s hpa then
      let line := hostOffset s hpa / 64
      match (txnOf s line).bind fun t => if t.biWait.isSome then some t else none with
      | some t =>
        let d := mergeLine (homeData s line).1 line (line * 64) data en
        send (.memDone tag) (notePage (line * 64)
          (setTxn line { t with supplied := some (d, true, poison), came := hostMark :: t.came } s))
      | none =>
        let (stream, s) := detect .host true (line / 4) s
        hostRequest line 64 (.hostWrite tag data en poison keeps stream) s
    else countReg offLinDropCnt 1 (send (.memDone tag) s))

/-- MEM_SPEC_RD (R478): accepted and ignored. -/
def execMemSpecRd (_hpa : Nat) (s : State) : Out := .next s

/-- The host answers a back-invalidate (R380): the directory records the host's new state. -/
def biAnswered (id : OpId) (line : Nat) (ans : BiAnswer) (s : State) : State :=
  match txnOf s line with
  | some t =>
    if t.biWait ≠ some id then s
    else settle (setHdm line (match ans with | .i => .i | .s => .s) (setTxn line { t with biWait := none } (releaseId id false s)))
  | none => s

/-- The host does not answer a back-invalidate (R381): the line is recorded as I, its data counts as poisoned, and the fault is raised. -/
def biLate (line : Nat) (s : State) : State :=
  let pa := line * 64
  match txnOf s line with
  | some t => match t.biWait with
    | some id =>
      settle (raise (unitSlice (sliceOf s pa)) srcBiTimeout (sliceOf s pa) none pa 0
        (setTxn line { t with biWait := none, bad := true } (setHdm line .i (releaseId id true s))))
    | none => s
  | none => s

/-! ## Grout: prefetch and streams (R398, R399) -/

/-- PREFETCH_HINT (R398): the home takes the hint where it has room for one and the line is absent, and fills the line. `line` is the
number of the 256-byte line. -/
def execPrefetchHint (line : Nat) (tc : BitVec 2) (s : State) : Out :=
  .next (
    let n := sliceOf s (line * 256)
    let hs := tget noHints s.home.hints n
    if !cacheable s (line * 256) || decide (8 ≤ hs.length) || hs.contains line || (tfind s.home.grout line).isSome then s
    else
      let s := { s with home := { s.home with hints := tset noHints s.home.hints n (hs ++ [line]) } }
      settle (forEach (linesOfGrout line) (fun l => queueReq l (.prefetch tc)) s))

/-- STREAM_RUN_END (R399): the run that waits for the line `next` ends. -/
def execStreamRunEnd (src : Src) (write : Bool) (next : Nat) (s : State) : Out :=
  .next { s with home := { s.home with
    streams := removeFirst (fun x => x.src = src && x.write == write && x.last + 1 == next) s.home.streams } }

/-! ## Stacks (R420 to R427) -/

/-- Records a corrected sector in the correction log of a controller (file 10): a known address counts again, a free entry takes a
new one, a full log takes nothing. -/
def logCorrection (n pa : Nat) (place : DramPlace) (symbols : Nat) (s : State) : State :=
  modCtl n (fun c =>
    let log := c.corrLog
    match log.find? (fun p => p.2.pa == pa) with
    | some (i, e) => { c with corrLog := tinsert log i { e with place := place, count := min 255 (e.count + 1), symbols := symbols } }
    | none => match (List.range 16).find? (fun i => (tfind log i).isNone) with
      | some i => { c with corrLog := tinsert log i ⟨pa, place, 1, symbols⟩ }
      | none => c) s

/-- A correction-log word without `VALID` (R443). -/
def logWord (p : DramPlace) (count symbols : Nat) : Nat :=
  p.channel.toNat * 2 ^ 58 + p.pc.toNat * 2 ^ 57 + p.bank.toNat * 2 ^ 53 + p.row.toNat * 2 ^ 35 + p.column.toNat * 2 ^ 29 +
    count % 256 * 2 ^ 21 + symbols % 4 * 2 ^ 19

/-- The detail of a fault of a stack: bits [62:19] of that layout (R631). -/
def stackDetail (p : DramPlace) (count symbols : Nat) : Word64 := BitVec.ofNat 64 (logWord p count symbols / 2 ^ 19)

/-- The controller rewrites a sector, unless the Grout holds it dirty: within the transaction of the read, so that no write of the line comes
between (R423, R424). -/
def rewrite (pa : Nat) (d : List Byte) (poison : Bool) (s : State) : State :=
  if ((sectorOf s pa).map fun c => c.d).getD false then s else queueWrite pa d poison s

/-- What the controller makes of a read of a sector (R420, R423): the bytes of a queued write, or its data and poison, and what follows
from the outcome. The poison pattern is tested first; an uncorrectable error destroys it, and counts as an error of its own. -/
def readOutcome (n pa : Nat) (outcome : ReadOutcome) (place : DramPlace) (s : State) : List Byte × Bool × State :=
  match queuedOf s pa with
  | some w => (w.data, w.poison, s)
  | none =>
  let d := stackBytes s pa
  if tget noB s.mem.devBad (pa / 64) && !(match outcome with | .uncorrectable => true | _ => false) then (d, true, s)
  else match outcome with
    | .clean => (d, false, s)
    | .corrected k =>
      (d, false, raise (unitCtl n) srcStackCorr n none pa (stackDetail place 1 k)
        (countReg (offCorrCnt n) 1 (logCorrection n pa place k (rewrite pa d false s))))
    | .uncorrectable =>
      (d, true, raise (unitCtl n) srcStackBad n none pa (stackDetail place 0 0) (countReg (offUncorrCnt n) 1 (rewrite pa d true s)))

/-- A read of a sector returns (R423, R424): its sector enters the Grout, and the transaction that awaits it goes on. -/
def readDone (id : OpId) (pa : Nat) (outcome : ReadOutcome) (place : DramPlace) (s : State) : State :=
  let n := sliceOf s pa
  if !((ctlOf s n).readQ.any fun r => r.1 == pa && r.2.2 == id) || (ctlOf s n).shutdown || !s.clk.plinthOut then s
  else
    let s := releaseId id false (modCtl n (fun c => { c with readQ := c.readQ.filter fun r => r.1 != pa }) s)
    let (d, p, s) := readOutcome n pa outcome place s
    let absent := (sectorOf s pa).isNone
    let s := if (groutOf s pa).isSome && absent then putSector pa ⟨true, false, p, .i, d⟩ s else s
    match txnOf s (pa / 64) with
    | some t =>
      let sup := if t.supplied.isNone && absent then some (d, false, p) else t.supplied
      settle (setTxn (pa / 64) { t with fillWait := false, supplied := sup } s)
    | none => settle s

/-- WRITE_DRAIN (R420): the controller starts to drain its write queue, oldest write first. A drain goes on, one write at each tick,
until 32 writes are queued. -/
def execWriteDrain (stack : Nat) (s : State) : Out :=
  onUnit (hasStack s stack) s
    (if (ctlOf s stack).writeQ.isEmpty || (ctlOf s stack).shutdown || !s.clk.plinthOut then s
     else
       let s := writeOut stack s
       modCtl stack (fun c => { c with draining := decide (32 < c.writeQ.length) }) s)

/-- A tick of a controller that drains: one write leaves (R420). -/
def drainTick (stack : Nat) (s : State) : State :=
  if (ctlOf s stack).draining && !(ctlOf s stack).shutdown && s.clk.plinthOut then
    modCtl stack (fun c => { c with draining := decide (32 < c.writeQ.length) }) (writeOut stack s)
  else s

/-- DRAIN_READ_INTERRUPT (R420): a waiting read of TC0 or TC1 interrupts a drain unless 120 or more writes are queued. -/
def execDrainReadInterrupt (stack pa : Nat) (s : State) : Out :=
  onUnit (hasStack s stack) s
    (let c := ctlOf s stack
     if c.draining && c.readQ.any (fun r => r.1 == pa && r.2.1.toNat < 2) && decide (c.writeQ.length < 120) then
       modCtl stack (fun c => { c with draining := false }) s
     else s)

/-- The key of sector `i` of a stack: the inverse of `device_home` (R389). -/
def stackLine (s : State) (n k : Nat) : List Nat → Nat → Nat → Nat
  | [], _, _ => 0
  | c :: cs, base, prev =>
    let set := (liveStacks s).filter fun m => c ≤ capMib s m * 4096
    let w := set.length
    if k < c then
      let j := (set.findIdx? (· == n)).getD 0
      base + (k - prev) * w + (j + (w - fold8 (k - prev) % w)) % w
    else stackLine s n k cs (base + w * (c - prev)) c

def stackSectorKey (s : State) (n i : Nat) : Nat := stackLine s n (i / 4) (tierLevels s) 0 0 * 256 + i % 4 * 64

/-- The next sector of a pass that the Grout does not hold dirty. -/
def nextScrub (s : State) (n total : Nat) : Nat → Nat → Nat
  | 0, i => i % total
  | f + 1, i =>
    if ((sectorOf s (stackSectorKey s n (i % total))).map fun c => c.d).getD false then nextScrub s n total f (i + 1) else i % total

/-- SCRUB_READ (R427): while scrubbing is enabled at level 0, the next live sector is read at TC3 and handled under R423. -/
def execScrubRead (stack : Nat) (outcome : ReadOutcome) (place : DramPlace) (s : State) : Out :=
  onUnit (hasStack s stack) s
    (let c := ctlOf s stack
     let total := capMib s stack * 16384
     if !bitOf (reg s (offPln stack + 0x20)) 31 || c.level != 0 || c.neg != 5 || c.shutdown || !s.clk.plinthOut || total == 0 then s
     else match takeId pathCtl stack s with
      | none => s
      | some (id, s) =>
        let i := nextScrub s stack total (4 * s.home.grout.length + 1) c.scrubNext
        let pa := stackSectorKey s stack i
        let (_, _, s) := readOutcome stack pa outcome place (send (.stackRead stack pa 3 id) s)
        releaseId id false (modCtl stack (fun c => { c with scrubNext := (i + 1) % total }) s))

end Sys2Proof.Machine
end

