-- ==== Sys2Proof/Machine/Lintel.lean ====
section
/-! DEFINITION. What the Lintel's units share (files 12, 13): host interrupts, core interrupts, the front end's access to memory,
completion records, fences and watched doorbell lines. -/
namespace Sys2Proof.Machine

/-! ## Host interrupts (R502 to R504) -/

/-- The message of a vector leaves; its hold-off begins. -/
def sendVec (v : Nat) (s : State) : State :=
  let x := vecOf s v
  send (.msix v x.addr x.data)
    (modVec v (fun x => { x with pending := false, holdoff := decide (fieldOf (reg s offHoldoff) 7 0 ≠ 0) }) s)

/-- Raises a vector: masked, it sets its pending bit; in its hold-off it waits for the end of it (R503). While the block is host-absent,
a vector that is not masked sends nothing and leaves nothing pending (R507; DEDUCED, log 36). -/
def raiseVec (v : Nat) (s : State) : State :=
  let x := vecOf s v
  if x.masked then modVec v (fun x => { x with pending := true }) s
  else if s.link.hostAbsent then s
  else if x.holdoff then modVec v (fun x => { x with again := true }) s
  else sendVec v s

/-- The machine external interrupt of a control core or of the Kiln. -/
def raiseCore (n : Nat) (s : State) : State :=
  send (.coreIrq n) (modCore n (fun c => { c with csr := { c.csr with meip := true } }) s)

/-! ## The front end's memory accesses (R533, R710) -/

/-- The code of a status (R288). -/
def statusCode : RStatus → Nat
  | .ok => 0 | .poison => 1 | .notarget => 2 | .denied => 3 | .refused => 4 | .noroute => 5 | .timeout => 6 | .hostabsent => 7

/-- The key of an address: a host physical address, or an agent address (R533). -/
def lintelKey (s : State) (agentForm : Bool) (a : Nat) : Option Nat :=
  if agentForm then sortAgent s a else if a < 2 ^ 52 then some (sortHost s a) else none

/-- An access of a unit that goes to the home of its target as a remote operation (log 23). -/
def unitOp (next : LinNext) (kind : OpKind) (gop pa len : Nat) (data : List Byte) : RemoteOp :=
  newOp .lintel (.unit next) none kind gop false 0 pa len data [] 0

/-- A read of a unit is under way. -/
def readUnderWay (s : State) (next : LinNext) (pa : Nat) : Bool :=
  s.ops.any fun o => o.src = .lintel && o.owner = .unit next && o.kind = .get && o.pa == pa

/-- A read of a unit goes to the home of its target. -/
def issueRead (next : LinNext) (pa n : Nat) (s : State) : Option (List Byte × RStatus) × State :=
  if readUnderWay s next pa then (none, s)
  else match issueOp (unitOp next .get 0 pa n []) s with
    | .ok s => (none, s)
    | .error st => (some ([], st), s)

/-- A unit of the Lintel reads bytes: what an earlier read has brought; at once where the home of the line can answer alone; otherwise by a
remote operation, and none until its answer has come (log 23). -/
def lintelRead (next : LinNext) (pa : Option Nat) (n : Nat) (s : State) : Option (List Byte × RStatus) × State :=
  match pa with
  | none => (some ([], .notarget), s)
  | some pa => match s.front.find? fun f => f.next = next && f.pa == pa with
    | some f => (some (f.data, f.status), s)
    | none =>
      let free := (placeOf s pa).cacheable && (rangeLines pa n).all (canReadLine s) && !(isHost pa && s.link.hostAbsent)
      if free then
        let (d, p) := readMem s pa n
        (some (d, if p then .poison else .ok), s)
      else issueRead next pa n s

/-- A unit reads a range line by line: its bytes and the first status other than `OK`, and none until every line has come. -/
def lintelReadLines (next : LinNext) : List Nat → State → Option (List Byte × RStatus) × State
  | [], s => (some ([], .ok), s)
  | l :: ls, s =>
    let (x, s) := lintelRead next (some (l * 64)) 64 s
    let (y, s) := lintelReadLines next ls s
    match x, y with
    | some (d, st), some (e, st') => (some (d ++ e, if st = .ok then st' else st), s)
    | _, _ => (none, s)

/-- A unit reads `n` bytes. -/
def lintelReadRange (next : LinNext) (pa : Option Nat) (n : Nat) (s : State) : Option (List Byte × RStatus) × State :=
  match pa with
  | none => (some ([], .notarget), s)
  | some pa =>
    let (x, s) := lintelReadLines next (rangeLines pa n) s
    (x.map fun x => ((x.1.drop (pa % 64)).take n, x.2), s)

/-- The reads of a unit that have been used are forgotten. -/
def dropFront (used : LinNext → Bool) (s : State) : State := { s with front := s.front.filter fun f => !used f.next }

/-- A record or fence that ends the work of a lost or destroyed context; while the block is host-absent it leaves host memory alone
(R554). -/
def lossWrite (s : State) : LinNext → Bool
  | .loss _ => true
  | .record r _ => ended r
  | .fence r _ => ended r
  | _ => false
where
  ended (r : Nat) : Bool := match ringOf s r with
    | some x => ((ctxOf s x.ctx).map fun c => c.state != .active).getD true
    | none => true

/-- A write or an atomic of a unit that goes to the home of its target: true where it has ended already, or is not issued at all
(R554). -/
def issueWrite (next : LinNext) (o : RemoteOp) (s : State) : Bool × State :=
  if isHost o.pa && s.link.hostAbsent && lossWrite s next then (true, s)
  else match issueOp o s with
    | .ok s => (false, s)
    | .error st => (true, countDrop st o s)

/-- A unit of the Lintel writes bytes: at once where the home of the line can perform it alone, and otherwise by a remote operation; true
where nothing is left to wait for (log 23). -/
def lintelWrite (next : LinNext) (pa : Option Nat) (d : List Byte) (s : State) : Bool × State :=
  match pa with
  | none => (true, s)
  | some pa =>
    if (placeOf s pa).cacheable && (rangeLines pa d.length).all (canWriteLine s) then (true, writeMem pa d s)
    else issueWrite next (unitOp next .put 0 pa d.length d) s

/-- An access of a unit is under way. -/
def unitWaits (s : State) (next : LinNext) : Bool := s.ops.any fun o => o.src = .lintel && o.owner = .unit next

/-- Signals a fence with `FMAX` (R408, R555): at its home, or on another chip by a remote atomic; true where nothing is left to wait
for. -/
def signalFence (next : LinNext) (pa : Option Nat) (v : Nat) (s : State) : Bool × State :=
  match pa with
  | none => (true, s)
  | some pa =>
    if (placeOf s pa).cacheable && canWriteLine s (pa / 64) then (true, fmaxMem pa v s)
    else issueWrite next (unitOp next .atomic gopFMAX pa 8 (leBytes 8 v)) s

/-! ## Completion records (R539, R541) -/

/-- A completion record. -/
def recordBytes (status seq : Nat) (tag : Word64) (ring ctx : Nat) : List Byte :=
  leBytes 1 1 ++ leBytes 1 8 ++ leBytes 1 status ++ leBytes 1 0 ++ leBytes 4 (seq % 2 ^ 32) ++ leBytes 8 tag.toNat ++
    leBytes 2 ring ++ leBytes 2 ctx ++ leBytes 12 0

/-- `w` bytes of an entry from byte `i` as a number. -/
def entryField (e : List Byte) (i w : Nat) : Nat := leNat ((e.drop i).take w)

/-- The bytes [i, j) of an entry are all zero. -/
def zeroField (e : List Byte) (i j : Nat) : Bool := ((e.drop i).take (j - i)).all (· == 0)

/-! ## Watched lines (R484, R535, R545) -/

/-- The host line number of a key. -/
def hostLineNo (pa : Nat) : Nat := (pa - 2 ^ 56) / 64

/-- A ring, an admin queue or a fence wait names a line of host memory. -/
def lineNamed (s : State) (pa : Nat) : Bool :=
  s.rings.any (fun p => p.2.doorbell / 64 == pa / 64) || s.admqs.any (fun p => p.2.en && p.2.doorbell / 64 == pa / 64) ||
    s.waits.any (fun w => w.watched && w.pa / 64 == pa / 64)

/-- Another ring or admin queue uses the doorbell word of a key (R483). -/
def wordServed (s : State) (pa : Nat) : Bool :=
  s.rings.any (fun p => p.2.doorbell == pa) || s.admqs.any (fun p => p.2.en && p.2.doorbell == pa)

/-- Watches the line of a doorbell word: a host line in the watch table, which the block obtains by a RdShared (R484), an own line in the
device doorbell table; none where the table is full, the host is absent, or the word lies elsewhere (R522, R534, R535). -/
def watchDoorbell (pa : Nat) (s : State) : Option State :=
  match placeOf s pa with
  | .host h =>
    if s.link.hostAbsent then none
    else if (watchOf s (h / 64)).isSome then some s
    else if 16384 ≤ s.watches.length then none
    else some (ringLine (h / 64) (setWatch (h / 64) (watchDefault 0) s))
  | .dev off =>
    if tget noB s.devWatch (off / 64) then some s
    else if 1024 ≤ s.devWatch.length then none
    else some { s with devWatch := tset noB s.devWatch (off / 64) true }
  | _ => none

/-- What the watch table has of a line of host memory: none while its first read or a re-read is under way. -/
def watchedData (s : State) (pa : Nat) : Option (List Byte × Bool) :=
  match watchOf s (hostLineNo pa) with
  | some w => if w.inS && !w.data.isEmpty then some (w.data, w.poison) else none
  | none => none

/-- An 8-byte word of a watched line: none until the line has been read. -/
def watchedWord (next : LinNext) (pa : Nat) (s : State) : Option (List Byte × RStatus) × State :=
  if isHost pa && (watchOf s (hostLineNo pa)).isSome then
    ((watchedData s pa).map fun x => ((x.1.drop (pa % 64)).take 8, if x.2 then .poison else .ok), s)
  else lintelRead next (some pa) 8 s

/-- Ends the watch of a line that nothing names any longer. -/
def unwatch (pa : Nat) (s : State) : State :=
  if lineNamed s pa then s
  else if isHost pa then { s with watches := terase s.watches (hostLineNo pa) }
  else { s with devWatch := tset noB s.devWatch (pa / 64) false }

end Sys2Proof.Machine
end

