-- ==== Sys2Proof/Machine/Hod.lean ====
section
/-! DEFINITION. The Hod engines (file 12): descriptors, their checks, the operations that a started descriptor issues, and what their
responses do. -/
namespace Sys2Proof.Machine

/-! ## Descriptors (R493 to R496) -/

def stBadDesc : Nat := 0x10
def stDirection : Nat := 0x11
def stXlate : Nat := 0x12
def stPhysDenied : Nat := 0x13
def stFenceErr : Nat := 0x14
def stWaitTimeout : Nat := 0x15
def stFailed : Nat := 0x16
def stLost : Nat := 0x1F
def stBadCmd : Nat := 0x20
def stBusy : Nat := 0x21
def stNoSuch : Nat := 0x22
def stEpoch : Nat := 0x23
def stNoAccess : Nat := 0x24
def stLimit : Nat := 0x25

def hFlags (e : List Byte) : Byte := e.getD 2 0
def fPhys (f : Byte) : Bool := bitOf f 7
def fNsSrc (f : Byte) : Bool := bitOf f 6
def fNsDst (f : Byte) : Bool := bitOf f 5
def fOrd (f : Byte) : Bool := bitOf f 4
def fTc (f : Byte) : Nat := fieldOf f 3 2
def fFence (f : Byte) : Bool := bitOf f 1
def fIntr (f : Byte) : Bool := bitOf f 0

/-- The operand size of a reduce (R494); none where the operation or the choice is not permitted. -/
def hodOpSize (gop sel : Nat) : Option Nat :=
  let small : Bool := sel == 1
  if 1 < sel then none
  else if 1 ≤ gop && gop ≤ 4 then some (if small then 4 else 8)
  else if gop = gopBXOR then some (if small then 64 else 256)
  else if gop = gopFADD32 && !small then some 4
  else if gop = gopFADD64 && !small then some 8
  else none

/-- A descriptor that the block refuses with `BADDESC` (R496). -/
def hodBad (e : List Byte) : Bool :=
  let kind := entryField e 1 1
  let len := entryField e 8 5
  let fence := entryField e 32 8
  entryField e 0 1 != 1 || kind == 0 || decide (3 < kind) || !zeroField e 4 8 || !zeroField e 13 16 || !zeroField e 57 64 ||
    decide (128 ≤ entryField e 47 1) || len == 0 || fence % 8 != 0 ||
    (if kind = 3 then
      match hodOpSize (entryField e 3 1) (entryField e 56 1) with
      | none => true
      | some n => entryField e 24 8 % n != 0 || len % n != 0
     else entryField e 3 1 != 0 || entryField e 56 1 != 0)

/-- A started descriptor from its entry. -/
def runOfEntry (ring seq ctx : Nat) (e : List Byte) : HodRun :=
  { ring := ring, seq := seq, ctx := ctx, kind := entryField e 1 1, flags := hFlags e, gop := entryField e 3 1,
    length := entryField e 8 5, src := entryField e 16 8, dst := entryField e 24 8, fenceAddr := entryField e 32 8,
    fenceVal := BitVec.ofNat 64 (entryField e 40 8), tag := BitVec.ofNat 64 (entryField e 48 8),
    opsize := (hodOpSize (entryField e 3 1) (entryField e 56 1)).getD 0, issued := 0, nsWrote := false,
    status := 0, stopped := false, todo := [] }

/-! ## Addresses of a descriptor -/

/-- Inbound engines are the even ones. -/
def hodInbound (e : Nat) : Bool := e % 2 == 0

/-- Some byte of an agent-form range is host memory. -/
def touchesHost (s : State) (a n : Nat) : Bool :=
  let h := a % 2 ^ 52
  a / 2 ^ 56 % 2 == 1 &&
    !(chipValid s && decide (windowBase s ≤ h) && decide (h + n ≤ windowBase s + chipCount s * 2 ^ 40))

/-- The direction of an engine is broken by a source or destination key (R495). -/
def wrongWay (e : Nat) (source : Bool) (pa : Nat) : Bool := isHost pa && (if source then !hodInbound e else hodInbound e)

/-- The key of an address of a descriptor: translated, or an agent address, checked at each access (R647), that counts as an access of
its context (R495, R511). -/
def hodKey (e : Nat) (r : HodRun) (addr : Nat) (need : Perm) (s : State) : Except RStatus XlatRes × State :=
  if fPhys r.flags then
    match sortAgent s addr with
    | none => (.error .notarget, s)
    | some pa =>
      let own := pa < hdmTop s
      if own && changing s pa then (.ok .wait, s)
      else if own && !admits s .firmware pa then (.error .denied, s)
      else (.ok (.hit pa), if isHost pa then modCtx r.ctx (fun c => { c with hostDep := true }) s else s)
  else
    let (x, s) := translate (waiterOf (.hod e) (.ring r.ring r.seq) r.ctx addr need (bufHod e)) s
    (.ok x, s)

/-! ## Issue -/

def runAtSeq (s : State) (e ring seq : Nat) : Option HodRun := (hodOf s e).started.find? fun r => r.ring = ring && r.seq = seq

def modRun (e ring seq : Nat) (f : HodRun → HodRun) (s : State) : State :=
  modHod e (fun h => { h with started := replaceFirst (fun r => r.ring = ring && r.seq = seq) f h.started }) s

/-- The first status other than `OK` stays (R496). -/
def runStatus (e ring seq st : Nat) (s : State) : State :=
  modRun e ring seq (fun r => if r.status = 0 then { r with status := st } else r) s

/-- A descriptor that issues nothing more. -/
def runStop (e ring seq st : Nat) (s : State) : State :=
  runStatus e ring seq st (modRun e ring seq (fun r => { r with stopped := true, todo := [] }) s)

/-- Operations of an engine that are outstanding. -/
def hodOps (s : State) (e : Nat) : Nat := (s.ops.filter fun o => o.src = .hod e).length

def runOps (s : State) (e ring seq : Nat) : Bool := s.ops.any fun o => o.src = .hod e && o.owner = .ring ring seq

/-- Bytes of the next piece: within one line of the source and of the destination, or of one operand (R284, R497). -/
def pieceLen (r : HodRun) : Nat :=
  let rest := r.length - r.issued
  let d := 256 - (r.dst + r.issued) % 256
  let a := 256 - (r.src + r.issued) % 256
  if r.kind = 3 then min a (r.opsize - r.issued % r.opsize)
  else if r.kind = 2 then min rest d
  else min rest (min a d)

/-- The bytes that a fill writes (R494). -/
def fillBytes (r : HodRun) (addr n : Nat) : List Byte :=
  (List.range n).map fun i => BitVec.ofNat 8 (r.src / 2 ^ (8 * ((addr + i) % 8)))

/-- Whether a descriptor waits on a page request (R461). -/
def runFaulted (s : State) (e ring seq : Nat) : Bool :=
  let mine (w : Waiter) : Bool := w.src = .hod e && w.owner = .ring ring seq
  s.xlat.prgs.any (fun p => p.2.waiters.any mine) || s.xlat.faultQ.any mine

/-- A descriptor waits on any translation. -/
def runWaits (s : State) (e ring seq : Nat) : Bool :=
  let mine (w : Waiter) : Bool := w.src = .hod e && w.owner = .ring ring seq
  runFaulted s e ring seq || s.xlat.reqs.any (fun r => r.waiters.any mine)

/-- Fails a descriptor in translation (R465). -/
def runXlate (e : Nat) (r : HodRun) (addr : Nat) (s : State) : State :=
  runStop e r.ring r.seq stXlate (raise unitLin srcXlt e (some r.ctx) addr 0 s)

/-- Sends one operation of a descriptor. -/
def hodIssue (e : Nat) (r : HodRun) (kind : OpKind) (pa len : Nat) (data : List Byte) (poison : Marks) (into : List Nat) (ns : Bool)
    (s : State) : State :=
  let o := newOp (.hod e) (.ring r.ring r.seq) (some r.ctx) kind (if kind = .atomic then r.gop else 0) (fOrd r.flags)
    (BitVec.ofNat 2 (fTc r.flags)) pa len data [] poison
  match issueOp { o with into := into, noSnoop := ns && isHost pa } s with
  | .ok s => s
  | .error st => runStatus e r.ring r.seq (statusCode st) (countDrop st o s)

/-- Issues an operation whose data is at hand: a put, an atomic, or the rest of an operand's read. -/
def issueReady (e : Nat) (r : HodRun) (u : Run) (s : State) : State :=
  let take (s : State) : State := modRun e r.ring r.seq (fun r => { r with todo := removeFirst (· = u) r.todo }) s
  let source : Bool := u.kind == .get
  match hodKey e r u.addr u.perm s with
  | (.error st, s) => runStatus e r.ring r.seq (statusCode st) (take s)
  | (.ok .wait, s) => s
  | (.ok .fail, s) => runXlate e r u.addr s
  | (.ok (.hit pa), s) =>
    if wrongWay e source pa then runStop e r.ring r.seq stDirection s
    else
      let ns := if source then fNsSrc r.flags else fNsDst r.flags
      let s := hodIssue e r u.kind pa u.len u.data u.poison u.into ns (take s)
      if !source && ns && isHost pa then modRun e r.ring r.seq (fun r => { r with nsWrote := true }) s else s

/-- Issues the read of the next piece, or makes the next piece of a fill ready. -/
def issueNext (e : Nat) (r : HodRun) (s : State) : State :=
  let o := r.issued
  let n := pieceLen r
  let dst := r.dst + (if r.kind = 3 then o / r.opsize * r.opsize else o)
  let step (k : Nat) (s : State) : State := modRun e r.ring r.seq (fun r => { r with issued := o + k }) s
  if r.kind = 2 then
    let u : Run := { kind := .put, gop := 0, addr := dst, len := n, data := fillBytes r dst n, comparand := [], poison := 0,
                     perm := permW, into := [o] }
    modRun e r.ring r.seq (fun r => { r with todo := r.todo ++ [u] }) (step n s)
  else
    let k := if r.kind = 3 then r.opsize else n
    let lost (st : Nat) (s : State) : State :=
      runStatus e r.ring r.seq st (modRun e r.ring r.seq (fun r => { r with issued := o + k }) s)
    match hodKey e r (r.src + o) permR s with
    | (.error st, s) => lost (statusCode st) s
    | (.ok .wait, s) => s
    | (.ok .fail, s) => runXlate e r (r.src + o) s
    | (.ok (.hit pa), s) =>
      if wrongWay e true pa then runStop e r.ring r.seq stDirection s
      else match hodKey e r dst permW s with
        | (.error st, s) => lost (statusCode st) s
        | (.ok .wait, s) => s
        | (.ok .fail, s) => runXlate e r dst s
        | (.ok (.hit pd), s) =>
          if wrongWay e false pd then runStop e r.ring r.seq stDirection s
          else
            let before := s.ops.length
            let s' := hodIssue e r .get pa n [] 0 [o, k - n] (fNsSrc r.flags) s
            if s'.ops.length = before then lost 0 s' else step k s'

/-- The zero-length read that confirms no-snoop writes (R499). -/
def confirmRead (e : Nat) (r : HodRun) (s : State) : State :=
  hodIssue e r .get (hostKey 0) 0 [] 0 [] true (modRun e r.ring r.seq (fun r => { r with nsWrote := false }) s)

/-- An ordered write whose turn it is: nothing of a lower offset is still to be read or written. -/
def inTurn (s : State) (e : Nat) (r : HodRun) (u : Run) : Bool :=
  let off := u.into.headD 0
  u.kind == .get || (r.todo.all (fun x => decide (off ≤ x.into.headD 0)) &&
    !s.ops.any fun o => o.src = .hod e && o.owner = .ring r.ring r.seq && o.kind == .get && decide (o.into.headD 0 < off))

/-- A started descriptor issues what it can, while the engine has room (R497). Ordered writes leave in ascending order. -/
def pumpRun (e ring seq : Nat) : Nat → State → State
  | 0, s => s
  | f + 1, s =>
    match runAtSeq s e ring seq with
    | none => s
    | some r =>
      if r.stopped || !enginesRun s || decide (1024 ≤ hodOps s e) || runWaits s e ring seq then s
      else
        let ready := if fOrd r.flags then r.todo.find? (inTurn s e r) else r.todo.head?
        match ready with
        | some u =>
          let s := issueReady e r u s
          if runAtSeq s e ring seq = some r then s else pumpRun e ring seq f s
        | none =>
          if r.issued < r.length then
            let s := issueNext e r s
            if runAtSeq s e ring seq = some r then s else pumpRun e ring seq f s
          else if r.nsWrote && !runOps s e ring seq && r.todo.isEmpty then confirmRead e r s
          else s

/-- Steps that suffice for one descriptor to fill its engine. -/
def hodFuel : Nat := 4096

/-- Every started descriptor of an engine issues what it can, in the order of their starts; a descriptor that waits on a page request
holds the later ones (R461). -/
def pumpRuns (e : Nat) : List HodRun → State → State
  | [], s => s
  | r :: rs, s =>
    let s := pumpRun e r.ring r.seq hodFuel s
    if runFaulted s e r.ring r.seq then s else pumpRuns e rs s

def pumpHod (e : Nat) (s : State) : State := pumpRuns e (hodOf s e).started s

/-! ## Responses -/

/-- An operation of a descriptor has ended; the poison marks of its data are kept by their place at the destination (R287). -/
def hodOpEnded (e ring seq : Nat) (o : RemoteOp) (st : RStatus) (data : List Byte) (marks : Marks) (s : State) : State :=
  let s := if st = .ok then s else runStatus e ring seq (statusCode st) s
  let s := match runAtSeq s e ring seq with
    | none => s
    | some r =>
      if r.stopped then s
      else match o.kind with
        | .get =>
          if o.len = 0 then s
          else
            let off := o.into.headD 0
            let rest := o.into.getD 1 0
            if !(st = .ok || st = .poison) then s
            else
              let all := o.data ++ data
              let bad : Marks := o.poison ||| moveMarks marks o.pa (r.dst + off + o.data.length) data.length
              let u : Run :=
                if rest ≠ 0 then
                  { kind := .get, gop := 0, addr := r.src + off + all.length, len := rest, data := all, comparand := [], poison := bad,
                    perm := permR, into := [off, 0] }
                else
                  { kind := if r.kind = 3 then .atomic else .put, gop := r.gop, addr := r.dst + off, len := all.length, data := all,
                    comparand := [], poison := bad, perm := permW, into := [off] }
              modRun e ring seq (fun r => { r with todo := r.todo ++ [u] }) s
        | _ =>
          if st = .ok then
            let n := (reg s (offHodBytes e)).toNat + (reg s (offHodBytes e + 4)).toNat * 2 ^ 32 + o.len
            let n := min n (2 ^ 64 - 1)
            setReg (offHodBytes e) (BitVec.ofNat 32 n) (setReg (offHodBytes e + 4) (BitVec.ofNat 32 (n / 2 ^ 32)) s)
          else s
  pumpHod e s

/-- A descriptor has ended: it has stopped or issued everything, and nothing is outstanding. -/
def runEnded (s : State) (e : Nat) (r : HodRun) : Bool :=
  !runOps s e r.ring r.seq && (r.stopped || (r.length ≤ r.issued && r.todo.isEmpty && !r.nsWrote))

/-! ## Undefined bytes (R494, R496) -/

/-- The bytes [from, upto) of a destination take free values, page by page where its address is known. -/
def spoilDest (e : Nat) (r : HodRun) : Nat → Nat → Nat → State → State
  | 0, _, _, s => s
  | f + 1, from_, upto, s =>
    if upto ≤ from_ then s
    else
      let n := min (upto - from_) (256 - from_ % 256)
      let key := if fPhys r.flags then sortAgent s from_ else keyHeld s r.ctx (bufHod e) from_
      let s := match key with
        | some pa => spoilBytes pa (freeRun s.ticket n) { s with ticket := s.ticket + n }
        | none => s
      spoilDest e r f (from_ + n) upto s

/-- A failed descriptor leaves its destination undefined (R496), and a copy whose ranges overlap leaves the overlap undefined
(R494). -/
def spoilRun (e : Nat) (r : HodRun) (s : State) : State :=
  if r.status ≠ 0 then
    (if r.status = stBadDesc || r.status = stPhysDenied then s else spoilDest e r (r.length / 256 + 2) r.dst (r.dst + r.length) s)
  else if r.kind = 1 then
    let lo := max r.src r.dst
    let hi := min (r.src + r.length) (r.dst + r.length)
    if lo < hi then spoilDest e r (r.length / 256 + 2) lo hi s else s
  else s

end Sys2Proof.Machine
end

