-- ==== Sys2Proof/Machine/Rights.lean ====
section
/-! DEFINITION. Which agent reaches which set-up register (R32, R519, R687). -/
namespace Sys2Proof.Machine

/-- Regions of the set-up space (R685). -/
inductive Region where
  | glb | clk | flt | lin | mor | unit_ | kln (mb : Nat) | dbg | none
  deriving DecidableEq, Repr

def regionOf (off : Nat) : Region :=
  if off < 0x100000 then .glb
  else if off < 0x200000 then .clk
  else if off < 0x300000 then .flt
  else if 0x400000 ≤ off && off < 0x600000 then .lin
  else if 0x600000 ≤ off && off < 0x800000 then .unit_
  else if 0x800000 ≤ off && off < 0xA00000 then .mor
  else if 0xA00000 ≤ off && off < 0x3700000 then .unit_
  else if 0x3800000 ≤ off && off < 0x3803000 then .kln ((off - 0x3800000) / 0x1000)
  else if 0x3C00000 ≤ off && off < 0x3D00000 then .dbg
  else .none

/-- The admin queue of a register (R520). -/
def admqOfOff (off : Nat) : Option Nat := if 0x400100 ≤ off && off < 0x400130 then some ((off - 0x400100) / 0x10) else none

/-- Registers of `LIN` that the host and the Kiln may write besides their queues (R687). -/
def linHostWritable (off : Nat) : Bool :=
  off == offLinTimeout || off == offRearm || off == offDbPoll || off == offHoldoff || off == offLinDropCnt ||
    off == offLinDiscardCnt

/-- The agent exists: control cores are 0 to 7. -/
def agentPresent : RegAgent → Bool
  | .core k => k < 8
  | _ => true

/-- A write of an agent takes effect, as the field's access type allows (R687). -/
def mayWrite (a : RegAgent) (off : Nat) : Bool :=
  match regionOf off, a with
  | .glb, .kiln => true
  | .glb, .sideband => false
  | .glb, _ => off == offSeal
  | .clk, .host => false
  | .clk, .sideband => off == offPwrLimit || off == offPartCtl
  | .clk, _ => off != offPwrLimit
  | .flt, .sideband => false
  | .flt, _ => true
  | .lin, .host => admqOfOff off == some 0 || linHostWritable off
  | .lin, .core _ => admqOfOff off == some 1
  | .lin, .kiln => admqOfOff off == some 2 || linHostWritable off
  | .lin, .sideband => false
  | .mor, .core _ => true
  | .mor, .kiln => true
  | .unit_, .core _ => true
  | .unit_, .kiln => true
  | .kln 0, .host => true
  | .kln 1, .core _ => true
  | .kln 2, .sideband => true
  | .dbg, .kiln => true
  | _, _ => false

/-- A read of an agent returns the register; otherwise it returns zero (R687). -/
def mayRead (a : RegAgent) (off : Nat) : Bool :=
  match regionOf off, a with
  | .none, _ => false
  | .kln m, .host => m == 0
  | .kln m, .core _ => m == 1
  | .kln _, .kiln => true
  | .kln m, .sideband => m == 2
  | .glb, _ => true
  | .clk, _ => true
  | .flt, _ => true
  | .dbg, _ => true
  | _, .sideband => false
  | _, _ => true

/-- A command that writes a register: the machine stops where the agent or the unit does not exist, and the write is ignored where the
agent has no right to it. -/
def regCommand (a : RegAgent) (off : Nat) (present : Bool) (f : State → State) (s : State) : Out :=
  onUnit (agentPresent a && present) s (if mayWrite a off then f s else s)

end Sys2Proof.Machine
end

