-- ==== Sys2Proof/Machine/Jegon.lean ====
section
/-! DEFINITION. Jegon ports (files 01, 08, 09, 11, 18): requests, barriers, snoop responses, translations, quiesce, refusal and port
reset. -/
namespace Sys2Proof.Machine

/-! ## Requests (R24, R362, R475) -/

/-- The permission that a request needs (R447). -/
def jegPerm : JegonKind → Perm
  | .shareRd => permR
  | .ownRd => permRW
  | .writeBack _ => permW
  | .get _ => permR
  | .put _ => permW
  | .atomic _ _ _ _ _ => permRW
  | .barrier => ⟨false, false, false⟩

/-- Translations that the engine may still use: those of its port's buffer and those that it has not yet acknowledged (R475). -/
def jegEntries (s : State) (p : Nat) : List TlbEntry := entriesOf s (bufJegon p) ++ (jegonOf s p).leaving

/-- The key of a request's address. A translated address must lie in a translation of its context's PASID (R475). -/
def jegKey (p : Nat) (m : JegonMsg) (s : State) : XlatRes × State :=
  if m.translated then
    let ok := (jegEntries s p).any fun e =>
      e.pasid == pasidOf s m.ctx && decide (e.pbase ≤ m.addr) && decide (m.addr < e.pbase + e.span) && grants e.perm (jegPerm m.kind)
    if ok then sortedFor m.ctx m.addr s else (.fail, s)
  else translate (waiterOf (.jegon p) (.tag m.tag) m.ctx m.addr (jegPerm m.kind) (bufJegon p)) s

/-- Keeps a request of a port for later, once. -/
def jegHold (p : Nat) (m : JegonMsg) (s : State) : State :=
  modJegon p (fun j => { j with heldMsgs := if j.heldMsgs.contains m then j.heldMsgs else j.heldMsgs ++ [m] }) s

def jegUnhold (p : Nat) (m : JegonMsg) (s : State) : State :=
  modJegon p (fun j => { j with heldMsgs := j.heldMsgs.filter (· ≠ m) }) s

/-- Adds to the barrier status of a port (R338). -/
def jegBar (p : Nat) (b : BitVec 4) (s : State) : State := modJegon p (fun j => { j with barStatus := j.barStatus ||| b }) s

/-- A request is a remote operation, which a barrier awaits (R338). -/
def isOperation : JegonKind → Bool
  | .get _ => true
  | .put _ => true
  | .atomic _ _ _ _ _ => true
  | _ => false

/-- A request ends before it has any effect; a remote operation counts for the port's barrier (R338). -/
def jegRefuse (p : Nat) (m : JegonMsg) (st : RStatus) (s : State) : State :=
  jegAnswer p m.tag st 0 (if isOperation m.kind then jegBar p (barBits st) s else s)

/-- A request whose translation fails, or is not permitted (R465, R475). -/
def jegDenied (p : Nat) (m : JegonMsg) (s : State) : State := jegRefuse p m .denied (jegUnhold p m s)

/-- A remote operation of an engine is issued. -/
def jegOperation (p : Nat) (m : JegonMsg) (kind : OpKind) (gop pa len : Nat) (data cmp : List Byte) (s : State) : State :=
  let o := newOp (.jegon p) (.tag m.tag) (some m.ctx) kind gop m.ord m.tc pa len data cmp 0
  match issueOp o s with
  | .ok s => s
  | .error st => jegRefuse p m st (countDrop st o s)

/-- The status of a coherent request whose target is no memory of this chip: nothing lies there (R261), or the port may not reach it
(R281). -/
def noMemory (s : State) (pa : Nat) : RStatus :=
  match placeOf s pa with
  | .hole => .notarget
  | _ => .denied

/-- A coherent request leaves toward its home under an identifier, or waits for one (R362, R383). -/
def jegAsk (p : Nat) (m : JegonMsg) (line : Nat) (own : Bool) (s : State) : State :=
  match takeId pathBridge 1 s with
  | some (id, s) =>
    carryUp .ask m.tc (201 + p) (line * 64) 0 (.ask (201 + p) (line * 64) own m.tc id)
      (modJegon p (fun j => { j with fills := j.fills ++ [(m.tag, line, ⟨own, m.tc, some id, none, none⟩)] }) s)
  | none => jegHold p m s

/-- A request goes on: it is translated and placed on Mortar, or it waits for its translation. A barrier stands at the port. -/
def jegGo (p : Nat) (m : JegonMsg) (s : State) : State :=
  match m.kind with
  | .barrier => modJegon p (fun j => { j with barrier := some m.tag }) (jegUnhold p m s)
  | _ => match jegKey p m s with
  | (.wait, s) => jegHold p m s
  | (.fail, s) =>
    jegDenied p m (if m.translated then s else raise unitLin srcXlt p (some m.ctx) m.addr 0 s)
  | (.hit pa, s) =>
    let s := jegUnhold p m s
    let line := pa / 64
    let coherent (f : State → State) (s : State) : State := if cacheable s pa then f s else jegAnswer p m.tag (noMemory s pa) 0 s
    match m.kind with
    | .shareRd => coherent (jegAsk p m line false) s
    | .ownRd => coherent (jegAsk p m line true) s
    | .writeBack d => coherent (fun s => (jegEvict p m.tag line m.tc d false s).getD (jegHold p m s)) s
    | .get n => jegOperation p m .get 0 pa n [] [] s
    | .put d => jegOperation p m .put 0 pa d.length d [] s
    | .atomic gop n d c f => jegOperation p m (if f then .fetching else .atomic) gop pa n d c s
    | .barrier => s

/-- A held request waits for its translation. -/
def jegWaits (s : State) (p : Nat) (tag : Nat) : Bool :=
  let mine (w : Waiter) : Bool := w.src = .jegon p && w.owner = .tag tag
  s.xlat.reqs.any (fun r => r.waiters.any mine) || s.xlat.prgs.any (fun q => q.2.waiters.any mine) || s.xlat.faultQ.any mine

/-- The held requests of a port go on, in order, up to the next barrier. -/
def jegRelease (p : Nat) (s : State) : State :=
  forEach (jegonOf s p).heldMsgs (fun m s => if (jegonOf s p).barrier.isSome then s else jegGo p m s) s

/-- A barrier completes once nothing earlier of its engine is under way: it is answered with the status bits, and the requests behind
it go on, up to the next barrier (R338). -/
def jegBarriers (p : Nat) : Nat → State → State
  | 0, s => s
  | f + 1, s =>
    let j := jegonOf s p
    match j.barrier with
    | none => s
    | some tag =>
      if s.ops.any (fun o => o.src = .jegon p) || j.heldMsgs.any (fun m => jegWaits s p m.tag) then s
      else
        let s := modJegon p (fun j => { j with barrier := none, barStatus := 0 }) s
        jegBarriers p f (jegRelease p (jegAnswer p tag .ok j.barStatus s))

def jegBarrierEnd (p : Nat) (s : State) : State := jegBarriers p ((jegonOf s p).heldMsgs.length + 1) s

/-- The context of a request is one that may act. -/
def ctxActive (s : State) (c : Nat) : Bool := ((ctxOf s c).map fun x => x.state == .active).getD false

/-- A message on `REQ` waits behind a barrier, or goes on. -/
def jegTake (p : Nat) (m : JegonMsg) (s : State) : State :=
  if (jegonOf s p).barrier.isSome then jegHold p m s else jegBarrierEnd p (jegGo p m s)

/-- JEGON_REQ (R24, R25, R695): the port takes the request where it is enabled, or a write-back while it quiesces. A refusing port, and a
context that is not active, answer `DENIED` (DESIGN CHOICE, log 94: no rule names the status). -/
def execJegonReq (port : Nat) (msg : JegonMsg) (s : State) : Out :=
  onUnit (hasJegon s port) s
    (let j := jegonOf s port
     let wb : Bool := match msg.kind with
       | .writeBack _ => true
       | _ => false
     if j.reset || !enginesRun s || j.owed.contains msg.tag || !(j.en || (wb && j.quiesce && !j.engineAck)) then s
     else
       let s := modJegon port (fun j => { j with owed := j.owed ++ [msg.tag] }) s
       if j.refusing || !(msg.kind == .barrier || ctxActive s msg.ctx) then jegRefuse port msg .denied s
       else jegTake port msg s)

/-- JEGON_BARRIER (R338): a barrier on `REQ`; behind another one it waits. A refusing port answers `DENIED` (DESIGN CHOICE, log 94). -/
def execJegonBarrier (port tag : Nat) (s : State) : Out :=
  onUnit (hasJegon s port) s
    (let j := jegonOf s port
     if j.reset || !enginesRun s || !j.en || j.owed.contains tag then s
     else
       let m : JegonMsg := { tag := tag, ctx := 0, translated := false, addr := 0, tc := 1, ord := false, kind := .barrier }
       let s := modJegon port (fun j => { j with owed := j.owed ++ [tag] }) s
       if j.refusing then jegAnswer port tag .denied 0 s else jegTake port m s)

/-- A remote operation of an engine has ended: it is answered where the engine still awaits it. -/
def jegOpEnded (p tag : Nat) (st : RStatus) (data : List Byte) (poison : Marks) (s : State) : State :=
  let s := if tag = deadTag then s else jegBar p (barBits st) s
  let s := if (jegonOf s p).owed.contains tag then jegRespond p tag st data poison 0 s else s
  jegBarrierEnd p s

/-! ## Snoops (R25, R27, R366) -/

/-- JEGON_SNPRSP (R366): the engine's answer to the oldest snoop of the line that the port passed on. -/
def execJegonSnprsp (port pa : Nat) (ans : Answer) (dirty : Bool) (data : List Byte) (poison : Bool) (s : State) : Out :=
  onUnit (hasJegon s port) s
    (let line := pa / 64
     match (jegonOf s port).snoops.find? (fun x => x.1 == line) with
     | none => s
     | some x =>
       let s := modJegon port (fun j => { j with snoops := removeFirst (· = x) j.snoops }) s
       if ans = .forwarded || ans = .toHome then supplyData (201 + port) line x.2.2 dirty data poison s
       else send (.answer (201 + port) (line * 64) ans false [] false (probeTc x.2.2)) s)

/-- Poisons the memory copy of a line (R25). -/
def poisonLine (line : Nat) (s : State) : State :=
  let pa := line * 64
  match sectorOf s pa with
  | some c => putSector pa { c with d := true, p := true } s
  | none => if isHost pa then s else queueWrite pa (stackSector s pa).1 true s

/-- Every line that the engine of a port holds is treated as poisoned, and the port holds it no longer (R25). An owned line whose
transaction waits for the port is poisoned by its answer. -/
def poisonOwned (p : Nat) (s : State) : State :=
  let bit : BitVec 22 := BitVec.ofNat 22 (2 ^ (14 + p))
  let s := forEach s.home.filter (fun x s =>
    if x.2.state != .shared && x.2.owner == 201 + p && (txnOf s x.1).isNone then dropOwner x.1 false (poisonLine x.1 s) else s) s
  forEach s.home.filter (fun x s =>
    if x.2.groups &&& bit = 0 then s
    else
      let e := { x.2 with groups := x.2.groups &&& ~~~bit }
      let s := poisonLine x.1 s
      if e.state = .shared && e.groups = 0 then dropFilter x.1 s else setFilter x.1 e s) s

/-- A late engine (R25, R475): its lines are poisoned, the snoops that it owes are answered for it, and the port refuses requests. -/
def refusePort (p : Nat) (cause : BitVec 3) (s : State) : State :=
  let owed := (jegonOf s p).snoops
  let s := poisonOwned p (modJegon p (fun j => { j with refusing := true, cause := cause, snoops := [], ctxEnds := [] }) s)
  forEach owed (fun x s => probeAgent (201 + p) x.1 x.2.1 x.2.2 s) s

/-- JEGON_SNOOP_TIMEOUT (R25). -/
def execJegonSnoopTimeout (port pa : Nat) (s : State) : Out :=
  onUnit (hasJegon s port) s
    (if (jegonOf s port).snoops.any (fun x => x.1 == pa / 64) then
       refusePort port 1 (raise (unitJegon port) srcJegSnoop port none pa 0 s)
     else s)

/-! ## Translations of an engine (R475) -/

/-- The owner of a translation request on `XLT`. -/
def xltOwner (tag : Nat) : Owner := .tag (2 ^ 16 + tag)

/-- A translation request ends: its completion leaves on `XLT`, unless a port reset has discarded it (R696). -/
def jegXltEnd (p tag : Nat) (e : Option TlbEntry) (perm : Perm) (s : State) : State :=
  if !(jegonOf s p).xlts.contains tag then s
  else
    let s := modJegon p (fun j => { j with xlts := j.xlts.filter (· ≠ tag) }) s
    jegQuiet p (match e with
      | some e => send (.jegXlt p tag true e.vbase e.pbase e.span e.perm) s
      | none => send (.jegXlt p tag false 0 0 0 perm) s)

/-- A translation request on `XLT` is answered from the buffer, or waits. -/
def jegXltGo (p tag ctx va : Nat) (perm : Perm) (s : State) : State :=
  let (x, s) := translate (waiterOf (.jegon p) (xltOwner tag) ctx va perm (bufJegon p)) s
  match x with
  | .wait => s
  | .fail => jegXltEnd p tag none perm (raise unitLin srcXlt p (some ctx) va 0 s)
  | .hit _ => jegXltEnd p tag (hitOf s (bufJegon p) (pasidOf s ctx) va perm) perm s

/-- JEGON_XLT_REQUEST (R475). A refusing port, and a context that is not active, answer with an unsuccessful completion (DESIGN CHOICE,
log 94). -/
def execJegonXltRequest (port tag ctx va : Nat) (perm : Perm) (s : State) : Out :=
  onUnit (hasJegon s port) s
    (let j := jegonOf s port
     if j.reset || !lintelRuns s || !j.en || j.xlts.contains tag then s
     else
       let s := modJegon port (fun j => { j with xlts := j.xlts ++ [tag] }) s
       if j.refusing || !ctxActive s ctx then jegXltEnd port tag none perm s else jegXltGo port tag ctx va perm s)

/-- The engine no longer uses a translation: invalidations that wait for it go on (R469). -/
def endLeaving (p vbase : Nat) (s : State) : State :=
  let s := modJegon p (fun j => { j with leaving := j.leaving.filter (fun e => e.vbase ≠ vbase) }) s
  { s with xlat := { s.xlat with invals := s.xlat.invals.map fun i => { i with ports := i.ports.filter (· ≠ (p, vbase)) } } }

/-- JEGON_INVALIDATE_ACK (R475). -/
def execJegonInvalidateAck (port vbase : Nat) (s : State) : Out := onUnit (hasJegon s port) s (endLeaving port vbase s)

/-- JEGON_XLT_TIMEOUT (R475). -/
def execJegonXltTimeout (port vbase : Nat) (s : State) : Out :=
  onUnit (hasJegon s port) s
    (if (jegonOf s port).leaving.any (fun e => e.vbase == vbase) then
       refusePort port 2 (endLeaving port vbase (raise (unitJegon port) srcJegXlt port none vbase 0 s))
     else s)

/-! ## Quiesce, context end, reset (R26, R552, R695, R696) -/

/-- JEGON_QUIESCE_ACK (R26, R552): the engine raises its acknowledge on `CTL`: it ends the requests of destroyed contexts, and in a
quiesce it holds nothing more. -/
def execJegonQuiesceAck (port : Nat) (s : State) : Out :=
  onUnit (hasJegon s port) s
    (let s := modJegon port (fun j => { j with ctxEnds := [] }) s
     let j := jegonOf s port
     if !j.quiesce || j.engineAck then s
     else jegQuiet port (modJegon port (fun j => { j with engineAck := true }) s))

/-- JEGON_CONTEXT_END_TIMEOUT (R552, R25). -/
def execJegonContextEndTimeout (port ctx : Nat) (s : State) : Out :=
  onUnit (hasJegon s port) s
    (if (jegonOf s port).ctxEnds.contains ctx then refusePort port 1 (raise (unitJegon port) srcJegSnoop port none 0 0 s) else s)

def offJegCtl (p : Nat) : Nat := 0x3600000 + 0x10000 * p

/-- JEG_ENABLE_WRITE (R695, R696): a 1 enables the port, or withdraws a quiesce request; a 0 raises one. -/
def execJegEnableWrite (agent : RegAgent) (port : Nat) (en : Bool) (s : State) : Out :=
  regCommand agent (offJegCtl port) (hasJegon s port) (fun s =>
    let j := jegonOf s port
    if j.en == en then s
    else if en then
      let s := if j.quiesce then send (.jegCtl port .withdraw) s else s
      modJegon port (fun j => { j with en := true, quiesce := false, engineAck := false, blockAck := false }) s
    else send (.jegCtl port .quiesce) (modJegon port (fun j => { j with en := false, quiesce := true }) s)) s

/-- Accesses of some sources no longer wait for a translation. -/
def dropWaiters (mine : Waiter → Bool) (s : State) : State :=
  let keep (ws : List Waiter) : List Waiter := ws.filter fun w => !mine w
  { s with xlat := { s.xlat with
    reqs := s.xlat.reqs.map (fun r => { r with waiters := keep r.waiters }),
    prgs := s.xlat.prgs.map (fun x => (x.1, { x.2 with waiters := keep x.2.waiters })), faultQ := keep s.xlat.faultQ } }

/-- What a port reset does to the port (R696). Requests that are under way end without a response. -/
def resetPort (p : Nat) (s : State) : State :=
  let s := if (jegonOf s p).refusing then poisonOwned p s else s
  let gone := (jegonOf s p).leaving.map fun e => e.vbase
  let s := forEach gone (fun v s => endLeaving p v s) s
  let s := dropWaiters (fun w => w.src = .jegon p) (setEntries (bufJegon p) [] s)
  let dead (o : RemoteOp) : RemoteOp := if o.src = .jegon p then { o with owner := .tag deadTag } else o
  send (.jegCtl p .reset) (modJegon p (fun j => { jegonDefault p with
    cause := j.cause, reset := true, fills := j.fills.map (fun x => (deadTag, x.2)), wbs := j.wbs.map (fun x => (deadTag, x.2)),
    engineAck := true, blockAck := true }) { s with ops := s.ops.map dead })

/-- JEG_RESET (R696): takes effect only while the port is quiesced or refusing. -/
def execJegReset (agent : RegAgent) (port : Nat) (s : State) : Out :=
  regCommand agent (offJegCtl port) (hasJegon s port) (fun s =>
    let j := jegonOf s port
    if (j.engineAck && j.blockAck) || j.refusing then resetPort port s else s) s

end Sys2Proof.Machine
end

