-- ==== Sys2Proof/Machine/Loss.lean ====
section
/-! DEFINITION. Accesses that wait for a translation, completion of ring entries, and the loss and destruction of contexts (files 11
and 13). -/
namespace Sys2Proof.Machine

/-! ## Ring entries (R530, R538 to R541) -/

/-- The address form of a context's rings and fences: agent addresses on queues 1 and 2 (R533). -/
def agentForm (s : State) (ctx : Nat) : Bool := ((ctxOf s ctx).map fun c => c.queue != 0).getD false

/-- The bytes of entry `seq` of a ring as they stand in memory; none while their read is under way. -/
def readEntry (next : LinNext) (r : Ring) (seq : Nat) (s : State) : Option (List Byte × RStatus) × State :=
  lintelRead next (some (r.entries + seq % 2 ^ r.log2n * 64)) 64 s

/-- A read that is for the front end of a ring. -/
def ofRing (ring : Nat) : LinNext → Bool
  | .entry r _ => r == ring
  | .lost r => r == ring
  | _ => false

/-- An entry of another version than 0x01 is refused, and no other field of it is interpreted (R10; log 56). -/
def knownEntry (e : List Byte) : List Byte := if entryField e 0 1 = 1 then e else []

/-- The oldest entry that has not completed, once an entry has. -/
def nextOldest (done : List Nat) : Nat → Nat → Nat
  | 0, h => h
  | f + 1, h => if done.contains h then nextOldest done f (h + 1) else h

/-- The key of an entry's fence word: none awaited; a key, where it has one; or a wait for its translation. -/
inductive FenceKey where
  | none
  | key (pa : Option Nat)
  | wait
  deriving DecidableEq, Repr

/-- The waiter of a fence address of an entry. -/
def fenceWaiter (r : Ring) (ring seq addr : Nat) (need : Perm) : Waiter :=
  waiterOf .lintel (.ring ring seq) r.ctx addr need (if r.kind = 1 then bufHod r.engine else bufShared)

/-- Resolves the address of a fence: an agent address of a physical descriptor, or translated in the ring's context (R495, R542). -/
def fenceAt (r : Ring) (ring seq addr : Nat) (phys : Bool) (need : Perm) (s : State) : FenceKey × State :=
  if phys then (.key (sortAgent s addr), s)
  else
    let w := fenceWaiter r ring seq addr need
    if s.xlat.failed.any (sameAccess w) then
      (.key none, { s with xlat := { s.xlat with failed := s.xlat.failed.filter (fun v => !sameAccess w v) } })
    else match translate w s with
      | (.hit pa, s) => (.key (some pa), s)
      | (.wait, s) => (.wait, s)
      | (.fail, s) => (.key none, raise unitLin srcXlt r.engine (some r.ctx) addr 0 s)

/-- The fence that an entry signals. -/
def entryFence (r : Ring) (ring seq : Nat) (e : List Byte) (s : State) : FenceKey × State :=
  let k := entryField e 1 1
  let addr := entryField e 32 8
  if e.isEmpty || !(k == 0x21 || (1 ≤ k && k ≤ 3)) || addr == 0 || addr % 8 != 0 then (.none, s)
  else fenceAt r ring seq addr (k != 0x21 && fPhys (hFlags e)) permRW s

/-- The record of an entry is written, once; its ring halts where it ended in an error and the ring asks for that (R498, R536, R541). -/
def recordEntry (ring seq status : Nat) (e : List Byte) (s : State) : State :=
  match ringOf s ring with
  | none => s
  | some r =>
    if r.recorded.any (fun x => x.1 == seq) then s
    else
      let tag : Word64 := BitVec.ofNat 64 (entryField e 48 8)
      let s := dropFront (ofRing ring) s
      let (_, s) := lintelWrite (.record ring seq) (some (r.compl + seq % 2 ^ r.log2n * 32)) (recordBytes status seq tag ring r.ctx) s
      modRing ring (fun r => { r with
        started := if r.started.any (fun x => x.1 == seq) then r.started else r.started ++ [(seq, e)],
        recorded := (seq, status) :: r.recorded, next := max r.next (seq + 1),
        state := if status ≠ 0 && bitOf r.flags 0 && r.state = .run then .halt else r.state }) s

/-- The bytes of a started entry. -/
def startedBytes (r : Ring) (seq : Nat) : List Byte := ((r.started.find? fun y => y.1 == seq).map fun y => y.2).getD []

/-- A recorded entry whose fence is signalled raises its vector, and has then completed (R498). -/
def closeEntry (ring seq : Nat) (s : State) : State :=
  match ringOf s ring with
  | none => s
  | some r =>
    let s := if fIntr (hFlags (knownEntry (startedBytes r seq))) && bitOf r.flags 2 then raiseVec r.vector s else s
    modRing ring (fun r =>
      let done := seq :: r.done
      let h := nextOldest done (done.length + 1) r.oldest
      { r with
        started := r.started.filter (fun x => x.1 ≠ seq), recorded := r.recorded.filter (fun x => x.1 ≠ seq), oldest := h,
        done := done.filter (fun d => decide (h ≤ d)) }) s

/-- The operand of an entry's fence: its value, with the error flag where it has failed (R498, R550). -/
def fenceOperand (r : Ring) (seq : Nat) (e : List Byte) : Nat :=
  entryField e 40 8 % 2 ^ 63 + (if r.recorded.any (fun x => x.1 == seq && x.2 != 0) then 2 ^ 63 else 0)

/-- Steps 3 and 4 of R498 for a recorded entry; false while its record or its fence is on its way, or its fence waits for a
translation. -/
def settleEntry (ring seq : Nat) (s : State) : State × Bool :=
  match ringOf s ring with
  | none => (s, true)
  | some r =>
    if unitWaits s (.record ring seq) || unitWaits s (.fence ring seq) then (s, false)
    else
      let e := knownEntry (startedBytes r seq)
      match entryFence r ring seq e s with
      | (.wait, s) => (s, false)
      | (.none, s) => (closeEntry ring seq s, true)
      | (.key pa, s) => match signalFence (.fence ring seq) pa (fenceOperand r seq e) s with
        | (true, s) => (closeEntry ring seq s, true)
        | (false, s) => (s, false)

/-- An entry of a ring completes: its record, then its fence and its vector, for each of which it may wait (R498, R541). -/
def completeEntry (ring seq status : Nat) (e : List Byte) (s : State) : State :=
  (settleEntry ring seq (recordEntry ring seq status e s)).1

/-- An entry whose record is written and which has not completed. -/
def fenceWaits (s : State) (ring seq : Nat) : Bool :=
  ((ringOf s ring).map fun r => r.recorded.any fun x => x.1 == seq).getD false

/-! ## Waiting accesses (R461, R464, R465) -/

/-- An access goes on: it is performed with what the buffers hold, or waits again. -/
def wakeWaiter (w : Waiter) (s : State) : State :=
  match w.src, w.owner with
  | .core n, _ =>
    modCore n (fun c => match c.wait with
      | some (.xlt _ _) => { c with wait := none }
      | _ => c) s
  | .mover n, _ => wakeTrowel n (pumpTile n s)
  | .hod e, _ => pumpHod e s
  | .jegon p, .tag t =>
    if t < 2 ^ 16 then
      match (jegonOf s p).heldMsgs.find? (fun m => m.tag == t) with
      | some m => jegBarrierEnd p (jegGo p m s)
      | none => s
    else jegXltGo p (t - 2 ^ 16) w.ctx w.addr w.perm s
  | .lintel, .ring r q => if fenceWaits s r q then (settleEntry r q s).1 else s
  | _, _ => s

/-- A core waits for the translation of this access, not of one that an interrupt has put off (R461). -/
def coreAwaits (s : State) (w : Waiter) (n : Nat) : Option (Nat × Word64) :=
  match (coreOf s n).wait with
  | some (.xlt cause addr) =>
    let need : Perm := if cause = causeFetchPage then permX else if cause = causeLoadPage then permR else ⟨w.perm.r, true, false⟩
    if w.addr = addr.toNat && w.perm = need then some (cause, addr) else none
  | _ => none

/-- An access ends without a translation (R465). -/
def dropAccess (w : Waiter) (s : State) : State :=
  match w.src, w.owner with
  | .core n, _ =>
    match coreAwaits s w n with
    | some (cause, addr) => takeTrap n false cause addr s
    | none => s
  | .mover n, .cmd seq => wakeTrowel n (pumpTile n (failCmd n seq 0x12 s))
  | .hod e, .ring r q => pumpHod e (runStop e r q stXlate s)
  | .jegon p, .tag t =>
    if t < 2 ^ 16 then
      match (jegonOf s p).heldMsgs.find? (fun m => m.tag == t) with
      | some m => jegBarrierEnd p (jegDenied p m s)
      | none => s
    else jegXltEnd p (t - 2 ^ 16) none w.perm s
  | .lintel, .ring r q =>
    let s := { s with xlat := { s.xlat with failed := s.xlat.failed ++ [w] } }
    if fenceWaits s r q then (settleEntry r q s).1 else s
  | .lintel, _ => { s with xlat := { s.xlat with failed := s.xlat.failed ++ [w] } }
  | _, _ => s

/-- The number of the unit that an access belongs to. -/
def waiterUnit : Src → Nat
  | .core n => n
  | .mover n => n
  | .hod e => e
  | .jegon p => p
  | _ => 0

/-- An access fails in translation: its fault is raised and it ends (R465). -/
def failAccess (w : Waiter) (s : State) : State :=
  dropAccess w (raise unitLin srcXlt (waiterUnit w.src) (some w.ctx) w.addr 0 s)

/-- Frees the fence-wait slot and the watch of a wait. -/
def dropWait (ring seq : Nat) (s : State) : State :=
  match s.waits.find? (fun w => w.ring == ring && w.seq == seq) with
  | none => s
  | some w =>
    let s := { s with waits := s.waits.filter (· ≠ w) }
    if w.watched then unwatch w.pa s else s

/-- A descriptor that leaves its engine. -/
def dropRun (ring seq : Nat) (s : State) : State :=
  match ringOf s ring with
  | none => s
  | some r => if r.kind = 1 then
      modHod r.engine (fun h => { h with started := h.started.filter (fun x => !(x.ring == ring && x.seq == seq)) }) s
    else s

/-- Completes the entries of a ring that have been announced and not completed with `LOST`, in sequence order (R550); false where one of
them waits for its read, its record or its fence. With `all` false, only those not started (R536). A descriptor whose own translation
failed keeps that status (R465, R466; DEDUCED, log 34). -/
def loseEntries (ring : Nat) (all : Bool) : Nat → Nat → State → State × Bool
  | 0, _, s => (s, true)
  | f + 1, seq, s =>
    match ringOf s ring with
    | none => (s, true)
    | some r =>
      if r.tail ≤ seq then (s, true)
      else if r.done.contains seq || decide (seq < r.oldest) then loseEntries ring all f (seq + 1) s
      else
        let st := r.started.find? (fun x => x.1 == seq)
        let armed := s.waits.any (fun w => w.ring == ring && w.seq == seq)
        if st.isSome && !all && !armed then loseEntries ring all f (seq + 1) s
        else
          match (match st with
            | some x => (some (x.2, RStatus.ok), s)
            | none => readEntry (.lost ring) r seq s) with
          | (none, s) => (s, false)
          | (some (e, rd), s) =>
            let e := if rd = .ok then e else []
            let run := runAtSeq s r.engine ring seq
            let status : Nat := match run with
              | some x => if x.status = stXlate then stXlate else stLost
              | none => stLost
            let s := match run with
              | some x => spoilRun r.engine { x with status := status } s
              | none => s
            match settleEntry ring seq (recordEntry ring seq status e (dropRun ring seq (dropWait ring seq s))) with
            | (s, true) => loseEntries ring all f (seq + 1) s
            | (s, false) => (s, false)

/-- Steps that suffice for the entries of a ring. -/
def entryFuel (r : Ring) : Nat := r.tail - r.oldest + 1

/-! ## Loss and destruction (R199, R549, R550, R552) -/

def tilesOf (s : State) (ctx : Nat) : List Nat := (s.tiles.filter fun p => p.2.bound == some ctx).map fun p => p.1
def ringsOf (s : State) (ctx : Nat) : List Nat := (s.rings.filter fun p => p.2.ctx == ctx).map fun p => p.1

/-- A Tile's context is lost: combining buffers are flushed, commands end with LOST, stores drain (R199, R344). -/
def loseTileOf (n : Nat) (s : State) : State := resumeCore n (loseTile n (flushAllNt n s))

/-- Steps 1 to 5 of R552: Tiles and Jegon ports get their notices, engines issue nothing more for the context, and its accesses that wait on
page requests fail. -/
def endWork (ctx : Nat) (s : State) : State :=
  let s := forEach (tilesOf s ctx) loseTileOf s
  let s := forEach (List.range s.build.jegonPorts) (fun p s =>
    let j := jegonOf s p
    let s := send (.jegCtl p (.contextLoss ctx)) s
    if j.en && !j.refusing && !j.ctxEnds.contains ctx then modJegon p (fun j => { j with ctxEnds := j.ctxEnds ++ [ctx] }) s
    else s) s
  let s := forEach s.hods (fun p s => modHod p.1 (fun h => { h with
    started := h.started.map fun r => if r.ctx = ctx then { r with stopped := true, todo := [] } else r }) s) s
  let quiet (o : RemoteOp) : Bool := match o.src with
    | .mover _ => true
    | .hod _ => true
    | _ => false
  let s := { s with ops := s.ops.filter fun o => !(o.ctx == some ctx && !o.sent && quiet o) }
  let mine (w : Waiter) : Bool := w.ctx == ctx
  let gone := (s.xlat.prgs.flatMap fun p => p.2.waiters.filter mine) ++ s.xlat.faultQ.filter mine
  let s := { s with xlat := { s.xlat with
    prgs := s.xlat.prgs.map (fun p => (p.1, { p.2 with waiters := p.2.waiters.filter (fun w => !mine w) })),
    faultQ := s.xlat.faultQ.filter (fun w => !mine w) } }
  forEach gone dropAccess s

/-- A context is lost (R549): its state and that of its rings change at once, and its work ends. A context that is already lost or being
destroyed stays as it is. -/
def loseContext (ctx : Nat) (s : State) : State :=
  match ctxOf s ctx with
  | none => s
  | some c =>
    if c.state ≠ .active then s
    else
      let s := setCtx ctx { c with state := .lost } s
      let s := forEach (ringsOf s ctx) (fun r s =>
        modRing r (fun x => { x with state := if x.state = .stop then .stop else .lost }) s) s
      endWork ctx s

/-- Steps 2 to 4 of R552 have ended: no operation of the context to device memory is outstanding, and every engine has ended its
requests. -/
def workEnded (s : State) (ctx : Nat) : Bool :=
  !s.ops.any (fun o => o.ctx == some ctx && !isHost o.pa) &&
    (List.range s.build.jegonPorts).all fun p => !(jegonOf s p).ctxEnds.contains ctx

/-- Step 6 of R552: the entries of the rings and the bound fences; false where a fence waits for its translation. -/
def loseRings : List Nat → State → State × Bool
  | [], s => (s, true)
  | r :: rs, s =>
    match ringOf s r with
    | none => loseRings rs s
    | some x => match loseEntries r true (entryFuel x) x.oldest s with
      | (s, true) => loseRings rs s
      | (s, false) => (s, false)

/-- The bound fences of a context get their error flag, once (R551). -/
def flagFences (ctx : Nat) (s : State) : State :=
  match ctxOf s ctx with
  | some c =>
    if c.flagged then s
    else forEach c.fences (fun f s => (signalFence (.loss ctx) (some f) (2 ^ 63) s).2) (setCtx ctx { c with flagged := true } s)
  | none => s

/-- Step 6 of R552: the entries of the rings, then the bound fences; false while something is on its way. -/
def stepSix (ctx : Nat) (s : State) : State × Bool :=
  match loseRings (ringsOf s ctx) s with
  | (s, false) => (s, false)
  | (s, true) =>
    let s := flagFences ctx s
    (s, !unitWaits s (.loss ctx))

/-- CONTEXT_LOSS_DONE (R550): step 6 for a lost context; `LOSS_VEC` is raised once at its end. Entries announced later complete in the
same way. -/
def execContextLossDone (ctx : Nat) (s : State) : Out :=
  .next (match ctxOf s ctx with
    | none => s
    | some c =>
      if c.state ≠ .lost || !workEnded s ctx then s
      else match stepSix ctx s with
        | (s, false) => s
        | (s, true) =>
          if c.lossDone then s
          else
            let s := modCtx ctx (fun c => { c with lossDone := true }) s
            if bitOf c.lossVec 15 then raiseVec (fieldOf c.lossVec 10 0) s else s)

/-! ## Tiles between contexts (R175, R657) -/

/-- A Tile is cleared (R657): its tile store reads zero, its Trowel is reset after its caches have been written back, and its registers,
flags, log, counters and translations are empty. Its buffered stores drain (R344); those to the own tile store end in what is cleared
(R175). Its commands are numbered from 0 again (R210). -/
def clearTile (n : Nat) (s : State) : State :=
  let s := flushAllNt n s
  let s := forEach (coreOf s n).lines (fun p s => dropOwnLine n p.1 s) s
  let own (e : StoreEntry) : Bool := match placeOf s e.pa with
    | .tile t _ => t == n
    | _ => false
  let s := setEntries (bufFetch n) [] (setEntries (bufData n) [] (setEntries (bufCmd n) [] s))
  let s := modCore n (fun c => { coreDefault n with
    wb := c.wb, fills := c.fills, storeBuf := c.storeBuf.filter (fun e => !own e), ntHeld := c.ntHeld }) s
  modTile n (fun t => { tileDefault n with bound := t.bound, prot := t.prot, barStatus := t.barStatus, clearing := true }) s

/-- A Tile leaves its context. -/
def unbindTile (n : Nat) (s : State) : State :=
  let keyed : Bool := match (tileOf s n).bound with
    | some c => ((ctxOf s c).map fun x => bitOf x.security 10).getD false
    | none => false
  let s := modTile n (fun t => { t with bound := none }) s
  if keyed then clearTile n s else s

/-- A ring number is freed with its doorbell watch. -/
def freeRing (ring : Nat) (s : State) : State :=
  match ringOf s ring with
  | none => s
  | some r => unwatch r.doorbell (dropRing ring s)

/-! ## Admin completions (R522, R539) -/

/-- The record of an admin entry is written: the queue goes on. -/
def adminClose (q : Nat) (s : State) : State :=
  let a := admqOf s q
  match a.busy with
  | none => s
  | some (seq, _) =>
    let s := modAdmq q (fun a => { a with busy := none, next := seq + 1 }) s
    if q = 0 && bitOf a.vector 15 then raiseVec (fieldOf a.vector 10 0) s else s

/-- A read that is for the commands of an admin queue. -/
def ofAdmin (q : Nat) : LinNext → Bool
  | .admin x _ => x == q
  | _ => false

/-- An admin command completes: its record is written, and then the queue goes on. -/
def adminDone (q status ctx : Nat) (s : State) : State :=
  let a := admqOf s q
  match a.busy with
  | none => s
  | some (seq, tag) =>
    match lintelWrite (.done q) (some (a.compl + seq % 2 ^ a.log2n * 32)) (recordBytes status seq tag (0xFFF0 + q) ctx)
        (dropFront (ofAdmin q) s) with
    | (true, s) => adminClose q s
    | (false, s) => s

/-- Step 3 of R656: once no context, granule or change names a protected slot any longer, they are released, while the interface is out
of RUN. -/
def reapSlots (s : State) : State :=
  if s.kiln.tdi = .run then s
  else
    let named (k : Nat) : Bool :=
      s.ctxs.any (fun p => bitOf p.2.security 10 && fieldOf p.2.security 9 0 == k) ||
        s.kiln.access.any (fun p => fieldOf p.2 15 14 == 1 && fieldOf p.2 9 0 == k) ||
        s.kiln.change.any (fun c => fieldOf c.entry 15 14 == 1 && fieldOf c.entry 9 0 == k)
    if s.kiln.slots.any (fun p => p.2.protected_ && named p.1) then s
    else { s with kiln := { s.kiln with slots := s.kiln.slots.filter fun p => !p.2.protected_ } }

/-- CTX_DESTROY_DONE (R552): step 6, then step 7: Tiles are unbound, ring numbers, watches and the context number freed, and the admin
command completes. -/
def execCtxDestroyDone (ctx : Nat) (s : State) : Out :=
  .next (match ctxOf s ctx with
    | none => s
    | some c =>
      if c.state ≠ .destroying || !workEnded s ctx then s
      else match stepSix ctx s with
        | (s, false) => s
        | (s, true) =>
          let s := forEach (tilesOf s ctx) unbindTile s
          let s := forEach (ringsOf s ctx) freeRing s
          let s := reapSlots (dropCtx ctx s)
          match c.destroyer with
          | some q => adminDone q 0 ctx s
          | none => s)

end Sys2Proof.Machine
end

