-- ==== Sys2Proof/Machine/XlatDone.lean ====
section
/-! DEFINITION. Answers of the host to translation and page requests, and invalidations (file 11). -/
namespace Sys2Proof.Machine

/-! ## Completions (R455, R460) -/

/-- The greatest power of two that is not above n, at most 16 (R454, R455). -/
def runPow (n : Nat) : Nat := if 16 ≤ n then 16 else if 8 ≤ n then 8 else if 4 ≤ n then 4 else if 2 ≤ n then 2 else 1

/-- The span of the entry that a range of S bytes is stored as (R455). -/
def entrySpan (range : Nat) : Nat :=
  let p := if 2 ^ 30 ≤ range then 2 ^ 30 else if 2 ^ 21 ≤ range then 2 ^ 21 else 4096
  p * runPow (range / p)

/-- The entry of a completion: the aligned run that holds the requested address (R455). -/
def entryFor (pasid va phys range : Nat) (perm : Perm) : TlbEntry :=
  let span := entrySpan range
  { pasid := pasid, span := span, vbase := va / span * span, pbase := phys / span * span, perm := perm, used := true }

/-- The granules of own device memory that an entry covers. -/
def entryGranules (s : State) (e : TlbEntry) : List Nat :=
  let k := sortHost s e.pbase
  if hdmTop s ≤ k then []
  else (List.range ((k % 2 ^ 21 + e.span + 2 ^ 21 - 1) / 2 ^ 21)).map fun i => (k / 2 ^ 21 + i) * 2 ^ 21

/-- The access table admits an entry for a context (R450, R647). -/
def entryAdmitted (s : State) (ctx : Nat) (e : TlbEntry) : Bool :=
  match ctxOf s ctx with
  | none => false
  | some c => (entryGranules s e).all fun g => admits s (.context c.security) g

/-- Sends a page request for an access, or joins the one of its page, or waits for a PRG index (R462, R463). Either way the access has spent
one of its translations (R464). -/
def sendPage (w : Waiter) (s : State) : State :=
  let pasid := pasidOf s w.ctx
  let page := w.addr / 4096
  match s.xlat.prgs.find? (fun p => p.2.pasid == pasid && p.2.page == page) with
  | some (i, p) => { s with xlat := { s.xlat with prgs := tinsert s.xlat.prgs i { p with waiters := addWaiter p.waiters { w with tries := w.tries + 1 } } } }
  | none =>
    match (List.range 512).find? (fun i => (tfind s.xlat.prgs i).isNone) with
    | none => { s with xlat := { s.xlat with faultQ := addWaiter s.xlat.faultQ w } }
    | some i =>
      send (.pageRequest i pasid page w.perm) { s with xlat := { s.xlat with
        prgs := tinsert s.xlat.prgs i ⟨pasid, page, w.perm, [{ w with tries := w.tries + 1 }]⟩ } }

/-- A translation lacks a permission that an access needs: a page request, or the end of the access (R464, R467). -/
def lacking (w : Waiter) (s : State) : State :=
  if s.xlat.blocked || !s.link.pri then failAccess w s
  else if !ctxActive s w.ctx then dropAccess w s
  else if 3 ≤ w.tries then failAccess w s
  else sendPage w s

/-- One access of a completed request (R460). -/
def completeWaiter (e : TlbEntry) (untranslated : Bool) (w : Waiter) (s : State) : State :=
  if untranslated then failAccess w s
  else if !grants e.perm w.perm then lacking w s
  else if !entryAdmitted s w.ctx e then failAccess w s
  else
    let s := (storeEntry bufShared e s).1
    wakeWaiter w (if w.buffer = bufShared then s else storeFor w.buffer e s)

/-- TRANSLATION_COMPLETION (R459, R460, R472): a discarded request, and one whose result lies in a changing granule (R650), is sent
again. -/
def execTranslationCompletion (pasid va : Nat) (result : XltResult) (s : State) : Out :=
  .next (
    let mine (r : XltReq) : Bool := r.sent && r.pasid == pasid && r.page == va / 4096
    match s.xlat.reqs.find? mine with
    | none => s
    | some r =>
      let again (s : State) : State :=
        send (.xltRequest r.pasid (r.page * 4096) r.noWrite r.exec)
          { s with xlat := { s.xlat with reqs := replaceFirst mine (fun q => { q with discard := false }) s.xlat.reqs } }
      let done (s : State) : State := pumpXlt { s with xlat := { s.xlat with reqs := removeFirst mine s.xlat.reqs } }
      if r.discard then again s
      else match result with
        | .failure => forEach r.waiters failAccess (done s)
        | .success phys range perm u =>
          let e := entryFor pasid va phys range perm
          if (entryGranules s e).any (changing s) then again s
          else forEach r.waiters (completeWaiter e u) (done s))

/-! ## Page requests (R464 to R467) -/

/-- New faults take freed PRG indices in order of arrival. -/
def pumpFaults : Nat → State → State
  | 0, s => s
  | n + 1, s =>
    match s.xlat.faultQ with
    | [] => s
    | w :: ws =>
      if 512 ≤ s.xlat.prgs.length then s
      else
        let s := { s with xlat := { s.xlat with faultQ := ws } }
        pumpFaults n (if s.xlat.blocked then failAccess w s else sendPage w s)

/-- A page request ends: its index is free. -/
def endPage (prg : Nat) (s : State) : State := { s with xlat := { s.xlat with prgs := terase s.xlat.prgs prg } }

/-- An access translates again (R464). -/
def retryAccess (w : Waiter) (s : State) : State :=
  match translate w s with
  | (.hit _, s) => wakeWaiter w s
  | (.wait, s) => s
  | (.fail, s) => failAccess w s

/-- A page request has failed: its accesses fail, and their contexts are lost (R465, R466). -/
def failPage (prg : Nat) (p : PageReq) (s : State) : State :=
  let s := forEach p.waiters failAccess (endPage prg s)
  let s := forEach ((p.waiters.map fun w => w.ctx).eraseDups) loseContext s
  pumpFaults s.xlat.faultQ.length s

/-- PAGE_REQUEST_RESPONSE (R464 to R467). -/
def execPageRequestResponse (prg : Nat) (resp : PageResponse) (s : State) : Out :=
  .next (match tfind s.xlat.prgs prg with
    | none => s
    | some p =>
      match resp with
      | .success => let s := forEach p.waiters retryAccess (endPage prg s)
        pumpFaults s.xlat.faultQ.length s
      | .invalidRequest => failPage prg p s
      | .responseFailure => failPage prg p { s with xlat := { s.xlat with blocked := true } })

/-- PAGE_REQUEST_TIMEOUT (R465). -/
def execPageRequestTimeout (prg : Nat) (s : State) : Out :=
  .next (match tfind s.xlat.prgs prg with
    | none => s
    | some p => failPage prg p s)

/-- PRI_ENABLE (R452, R467). -/
def execPriEnable (s : State) : Out :=
  .next (if s.link.pri then s
    else { s with link := { s.link with pri := true }, xlat := { s.xlat with blocked := false } })

/-! ## Invalidations (R468 to R473) -/

/-- An entry overlaps the range of an invalidation. -/
def overlapsRange (pasid : Nat) (global : Bool) (va len : Nat) (e : TlbEntry) : Bool :=
  (global || e.pasid == pasid) && decide (e.vbase < va + len) && decide (va < e.vbase + e.span)

/-- A key lies in the physical range of an entry. -/
def entryReaches (s : State) (e : TlbEntry) (pa : Nat) : Bool :=
  decide (sortHost s e.pbase ≤ pa) && decide (pa < sortHost s e.pbase + e.span)

/-- The line that a waiting load, LR, SC, AMO or `tdld` accesses. -/
def waitLine : Option CoreWait → Option Nat
  | some (.load _ _ _ pa _) => some (pa / 64)
  | some (.lr _ _ pa _) => some (pa / 64)
  | some (.sc _ _ pa _ _) => some (pa / 64)
  | some (.amo _ _ _ pa _ _ _) => some (pa / 64)
  | some (.tdld _ pa _) => some (pa / 64)
  | _ => none

/-- The lines that a core is still accessing. -/
def coreLines (c : Core) : List Nat :=
  (c.storeBuf.map fun e => e.pa / 64) ++ (c.ntHeld.flatMap fun b => (List.range 4).map fun i => b.line * 4 + i) ++ (match waitLine c.wait with
    | some l => [l]
    | none => [])

/-- The PASID of the context to which a Trowel's Tile is bound. -/
def trowelPasid (s : State) (n : Nat) : Option Nat := (tileOf s n).bound.map (pasidOf s)

/-- The entries that meet a condition leave every buffer; the accesses that used one are noted under a tag; combining buffers that hold
a line reached through one are flushed (R468, R469, R471); requests under way whose results would be stale are discarded (R472). -/
def startInval (tag : Nat) (hit : TlbEntry → Bool) (stale : XltReq → Bool) (s : State) : State :=
  let gone := (s.xlat.buffers.flatMap fun b => b.2.filter hit).eraseDups
  let atPorts := s.xlat.buffers.flatMap fun b =>
    if 1024 ≤ b.1 && b.1 < 2048 then (b.2.filter hit).map fun e => (b.1 - 1024, e) else []
  let s := forEach s.xlat.buffers (fun b s => setEntries b.1 (b.2.filter (fun e => !hit e)) s) s
  let s := forEach atPorts (fun x s => send (.jegInvalidate x.1 x.2.vbase)
    (modJegon x.1 (fun j => { j with leaving := j.leaving ++ [x.2] }) s)) s
  let used (ctxPasid : Nat) (pa : Nat) : Bool := gone.any fun e => e.pasid == ctxPasid && entryReaches s e pa
  let trowels (s : State) : Table Core := s.cores.filter fun p => isTrowel p.1
  let flushes := (trowels s).flatMap fun p => match trowelPasid s p.1 with
    | none => []
    | some q => (p.2.ntBufs.filter fun b => used q (b.line * 256)).map fun b => (p.1, b.line)
  let s := forEach flushes (fun x s => flushNt x.1 x.2 s) s
  let stores := (trowels s).flatMap fun p => match trowelPasid s p.1 with
    | none => []
    | some q => ((coreLines p.2).filter fun l => used q (l * 64)).map fun l => (p.1, l)
  let mine (o : RemoteOp) : Bool := match o.ctx, o.owner, o.src with
    | some c, _, _ => used (pasidOf s c) o.pa
    | none, .fence, .core n => ((trowelPasid s n).map fun q => used q o.pa).getD false
    | _, _, _ => false
  let ops := s.ops.map fun o => if mine o then { o with invals := o.invals ++ [tag] } else o
  let leaving := s.jegons.flatMap fun x => (x.2.leaving.filter hit).map fun e => (x.1, e.vbase)
  let ports := ((atPorts.map fun x => (x.1, x.2.vbase)) ++ leaving).eraseDups
  { s with ops := ops, xlat := { s.xlat with
      reqs := s.xlat.reqs.map (fun r => if r.sent && stale r then { r with discard := true } else r),
      invals := s.xlat.invals ++ [⟨tag, stores, ports⟩] } }

/-- Tags at and above this one belong to the block's own invalidations (R650). -/
def ownTag : Nat := 2 ^ 16

/-- ATS_INVALIDATE_REQUEST (R468, R469, R471, R472). At most 32 are in flight. -/
def execAtsInvalidateRequest (tag pasid : Nat) (global : Bool) (va len : Nat) (s : State) : Out :=
  .next (
    if ownTag ≤ tag || 32 ≤ (s.xlat.invals.filter fun i => decide (i.tag < ownTag)).length || s.xlat.invals.any (fun i => i.tag == tag) then s
    else
      startInval tag (overlapsRange pasid global va len) (fun r =>
        (global || r.pasid == pasid) && decide (r.page * 4096 < va + len) && decide (va < r.page * 4096 + 4096)) s)

/-- Every access through a removed entry has ended (R469). -/
def invalEnded (s : State) (i : Inval) : Bool :=
  i.ports.isEmpty && !s.ops.any (fun o => o.invals.contains i.tag) &&
    i.stores.all fun x => !(coreLines (coreOf s x.1)).contains x.2

/-- INVALIDATE_COMPLETION (R469, R470). -/
def execInvalidateCompletion (tag : Nat) (s : State) : Out :=
  .next (match s.xlat.invals.find? (fun i => i.tag == tag) with
    | none => s
    | some i =>
      if tag < ownTag && invalEnded s i then
        send (.invalidateDone tag) { s with xlat := { s.xlat with invals := s.xlat.invals.filter (fun i => i.tag ≠ tag) } }
      else s)

end Sys2Proof.Machine
end

