-- ==== Sys2Proof/Machine/Rings.lean ====
section
/-! DEFINITION. Doorbells, the ring front end, Hod descriptors, fence waits and scheduler entries (files 12, 13). -/
namespace Sys2Proof.Machine

/-! ## Tails (R488, R491, R531, R709) -/

/-- How far a tail lies ahead of the last accepted one, modulo 2^32. -/
def tailStep (tail : Nat) (w : Word64) : Nat := (w.toNat % 2 ^ 32 + 2 ^ 32 - tail % 2 ^ 32) % 2 ^ 32

/-- A doorbell word is passed to its ring (R488, R531). -/
def passTail (ring : Nat) (w : Word64) (s : State) : State :=
  match ringOf s ring with
  | none => s
  | some r =>
    if w = r.passed then s
    else
      let s := modRing ring (fun r => { r with passed := w }) s
      let d := tailStep r.tail w
      if d = 0 || r.state = .stop then s
      else if d ≤ 2 ^ r.log2n - (r.tail - r.oldest) then modRing ring (fun r => { r with tail := r.tail + d }) s
      else loseContext r.ctx (raise unitLin srcOverrun r.engine (some r.ctx) r.doorbell 0 s)

/-- A doorbell word is passed to its admin queue (R709). -/
def passAdmin (q : Nat) (w : Word64) (s : State) : State :=
  let a := admqOf s q
  if w = a.passed then s
  else
    let s := modAdmq q (fun a => { a with passed := w }) s
    let d := tailStep a.tail w
    if d = 0 then s
    else if d ≤ 2 ^ a.log2n - (a.tail - a.next) then modAdmq q (fun a => { a with tail := a.tail + d }) s
    else raise unitLin srcOverrun q none a.doorbell 0 s

/-- Word `w` of a line. -/
def lineWord (d : List Byte) (w : Nat) : Word64 := BitVec.ofNat 64 (leNat ((d.drop (8 * w)).take 8))

/-- The line of a doorbell has been read: its words are passed on (R488), or its contexts are lost where it is poisoned (R491). -/
def passLine (key : Nat) (data : List Byte) (poison : Bool) (s : State) : State :=
  let rings := s.rings.filter fun p => p.2.doorbell / 64 == key / 64
  if poison then
    let ctxs := (rings.map fun p => p.2.ctx).eraseDups
    forEach ctxs (fun c s => loseContext c (raise unitLin srcReread 0 (some c) (key / 64 * 64) 0 s)) s
  else
    let s := forEach rings (fun p s => passTail p.1 (lineWord data (p.2.doorbell / 8 % 8)) s) s
    forEach (s.admqs.filter fun p => p.2.en && p.2.doorbell / 64 == key / 64)
      (fun p s => passAdmin p.1 (lineWord data (p.2.doorbell / 8 % 8)) s) s

/-- A re-read has returned (R488, R489, R491): the line is watched in S again, unless it was rung meanwhile, and its words are passed on.
The re-read of a line that is watched no longer only gives its identifier back. -/
def rereadDone (id : OpId) (hpa : Nat) (data : List Byte) (poison : Bool) (s : State) : State :=
  let gone (s : State) : State :=
    if s.ops.any (fun o => o.sent && o.id = id) || s.home.txns.any (fun p => p.2.hostWait == some id || p.2.biWait == some id) ||
        s.watches.any (fun p => p.2.rereading == some id) then s
    else releaseId id false s
  match watchOf s (hpa / 64) with
  | none => gone s
  | some w =>
    if w.rereading ≠ some id || data.length ≠ 64 then gone s
    else
      let s := releaseId id false s
      let s := setWatch (hpa / 64) { inS := !w.again, rereading := none, again := false, data := data, poison := poison } s
      let s := if w.again then { s with link := { s.link with rereadQ := s.link.rereadQ ++ [hpa / 64] } } else s
      let s := { s with mem := { s.mem with host := writeBytes s.mem.host (hpa / 64 * 64) data,
                                            hostBad := tset noB s.mem.hostBad (hpa / 64) poison } }
      pumpRereads 64 (passLine (hostKey (hpa / 64 * 64)) data poison s)

/-- DOORBELL_POLL (R486, R492): every watched line is rung while the interval is not zero. -/
def execDoorbellPoll (s : State) : Out :=
  .next (if fieldOf (reg s offDbPoll) 15 0 = 0 then s else forEach s.watches (fun p s => ringLine p.1 s) s)

/-- A watched line of own device memory is read, and its words are passed on once it has come (R535). -/
def deviceBell (line : Nat) (s : State) : State :=
  match lintelRead (.bell line) (some (line * 64)) 64 s with
  | (none, s) => s
  | (some (d, st), s) =>
    let s := dropFront (· = .bell line) s
    if tget noB s.devWatch line then passLine (line * 64) d (decide (st ≠ .ok)) s else s

/-- DEVICE_DOORBELL_RING (R535). -/
def execDeviceDoorbellRing (pa : Nat) (s : State) : Out :=
  .next (if tget noB s.devWatch (pa / 64) then deviceBell (pa / 64) s else s)

/-! ## The front end (R536 to R538) -/

/-- The front end may act on the next entry of a ring: the ring runs, an entry is announced, no fence wait holds it back. -/
def runnable (s : State) (ring : Nat) (r : Ring) : Bool :=
  r.state == .run && decide (r.next < r.tail) && !s.waits.any (fun w => w.ring == ring) && ctxActive s r.ctx && lintelRuns s

/-- Every earlier entry of the ring has completed. -/
def allDone (r : Ring) : Bool := r.oldest == r.next

/-- An entry kind that the ring takes (R537). -/
def kindFits (r : Ring) (k : Nat) : Bool := k == 0x20 || (if r.kind = 1 then 1 ≤ k && k ≤ 3 else k == 0x21)

/-- The front end reads the next entry, for a command that starts entries of a kind: an entry that cannot be read, of another version than
0x01, or whose kind the ring does not take completes at once (R10, R537, R710); otherwise `act` takes it. -/
def frontEnd (kind ring : Nat) (act : Ring → List Byte → State → State) (s : State) : State :=
  match ringOf s ring with
  | none => s
  | some r =>
    if !runnable s ring r then s
    else match readEntry (.entry ring kind) r r.next s with
      | (none, s) => s
      | (some (e, .ok), s) =>
        if (knownEntry e).isEmpty then completeEntry ring r.next stBadDesc e s
        else if fFence (hFlags e) && !allDone r then s
        else if kindFits r (entryField e 1 1) then act r e s
        else completeEntry ring r.next stBadDesc e s
      | (some (_, st), s) => completeEntry ring r.next (statusCode st) [] s

/-- An entry starts. -/
def startEntryOf (ring : Nat) (e : List Byte) (s : State) : State :=
  modRing ring (fun r => { r with started := r.started ++ [(r.next, e)], next := r.next + 1 }) (dropFront (ofRing ring) s)

/-! ## Hod descriptors (R494 to R498, R529) -/

/-- The bytes of the next entry of a ring, where the front end has them or its home can show them at once. -/
def entryAtHand (s : State) (ring : Nat) (r : Ring) : Option (List Byte) :=
  let pa := r.entries + r.next % 2 ^ r.log2n * 64
  match s.front.find? fun f => ofRing ring f.next && f.pa == pa with
  | some f => some f.data
  | none => if (placeOf s pa).cacheable && canReadLine s (pa / 64) then some (readMem s pa 64).1 else none

/-- The next entry of a ring is a fence wait as far as the front end can tell. -/
def waitNext (s : State) (ring : Nat) (r : Ring) : Bool :=
  ((entryAtHand s ring r).map fun e => entryField (knownEntry e) 1 1 == 0x20).getD false

/-- The rings of an engine that have a descriptor to start. -/
def turnRings (s : State) (engine : Nat) : List Nat :=
  (s.rings.filter fun p => p.2.kind == 1 && p.2.engine == engine && runnable s p.1 p.2 && !waitNext s p.1 p.2).map fun p => p.1

/-- The ring whose turn it is (R529). -/
def turnRing (s : State) (engine : Nat) : Option Nat :=
  let rs := turnRings s engine
  (rs.find? fun r => decide ((hodOf s engine).turn ≤ r)).orElse fun _ => rs.head?

/-- The status with which a descriptor is refused before it issues anything (R496): 0 where it is not. -/
def refusal (s : State) (engine : Nat) (r : Ring) (e : List Byte) : Nat :=
  let x := runOfEntry 0 0 r.ctx e
  if hodBad e then stBadDesc
  else if fPhys x.flags && !bitOf r.flags 1 then stPhysDenied
  else if fPhys x.flags &&
      (if hodInbound engine then touchesHost s x.dst x.length else x.kind != 2 && touchesHost s x.src x.length) then stDirection
  else 0

/-- An engine starts the next descriptor of a ring, of kind `kind`. A physical descriptor refused for its direction has had its
addresses sorted as host memory (R495, R511). -/
def startHod (kind engine ring : Nat) (s : State) : State :=
  if !enginesRun s || turnRing s engine ≠ some ring then s
  else frontEnd kind ring (fun r e s =>
    let h := hodOf s engine
    if entryField e 1 1 ≠ kind || decide (512 ≤ h.started.length) || (fFence (hFlags e) && !h.started.isEmpty) then s
    else
      let st := refusal s engine r e
      let x : HodRun := { runOfEntry ring r.next r.ctx e with status := st, stopped := decide (st ≠ 0) }
      let s := if st = stDirection then modCtx r.ctx (fun c => { c with hostDep := true }) s else s
      pumpHod engine (modHod engine (fun h => { started := h.started ++ [x], turn := ring + 1 }) (startEntryOf ring e s))) s

/-- A start is for a ring of the engine. -/
def hodStart (kind engine ring : Nat) (s : State) : Out :=
  onUnit (hasHod s engine) s (match ringOf s ring with
    | some r => if r.kind = 1 && r.engine = engine then startHod kind engine ring s else s
    | none => s)

/-- HOD_COPY (R494). -/
def execHodCopy (engine ring : Nat) (s : State) : Out := hodStart 1 engine ring s
/-- HOD_FILL (R494). -/
def execHodFill (engine ring : Nat) (s : State) : Out := hodStart 2 engine ring s
/-- HOD_REDUCE (R494). -/
def execHodReduce (engine ring : Nat) (s : State) : Out := hodStart 3 engine ring s

/-- HOD_COMPLETE (R498): once a descriptor has ended, its entry completes. -/
def execHodComplete (engine ring seq : Nat) (s : State) : Out :=
  onUnit (hasHod s engine) s (match runAtSeq s engine ring seq, ringOf s ring with
    | some x, some r =>
      if !runEnded s engine x || !ctxActive s x.ctx then s
      else completeEntry ring seq x.status (startedBytes r seq) (dropRun ring seq (spoilRun engine x s))
    | _, _ => s)

/-! ## Fence waits (R542 to R545) -/

/-- A wait entry whose fence word is misaligned (R542; DEDUCED, log 56). Its reserved bits are ignored (R12). -/
def waitBad (e : List Byte) : Bool := entryField e 8 8 % 8 != 0

/-- A wait may take a watch-table entry (R545). -/
def mayWatch (s : State) (pa : Nat) : Bool :=
  (watchOf s (hostLineNo pa)).isSome || decide (s.watches.length + 1 + 1024 ≤ 16384)

/-- Takes a watch for a wait on host memory where it may; a wait on own memory needs none. -/
def takeWatch (pa : Nat) (s : State) : Bool × State :=
  if !isHost pa then (true, s)
  else if !mayWatch s pa then (false, s)
  else match watchDoorbell pa s with
    | some s => (true, s)
    | none => (false, s)

/-- An armed wait completes. -/
def endFenceWait (w : FenceW) (status : Nat) (s : State) : State :=
  match ringOf s w.ring with
  | none => dropWait w.ring w.seq s
  | some r => completeEntry w.ring w.seq status (startedBytes r w.seq) (dropWait w.ring w.seq s)

/-- A read for the evaluation of the wait of a ring. -/
def ofWait (ring : Nat) : LinNext → Bool
  | .wait r _ => r == ring
  | _ => false

/-- The fence word of a wait: from the watch table for a watched line, and by a read of its own where the time is over. -/
def waitWord (w : FenceW) (pa : Nat) (timeout : Bool) (s : State) : Option (List Byte × RStatus) × State :=
  if timeout then lintelRead (.wait w.ring true) (some pa) 8 s else watchedWord (.wait w.ring false) pa s

/-- Evaluates an armed wait: the address is translated again, and the word decides once it has come; where the time is over it decides
last (R542, R543). A word that lies in no memory of this chip any longer ends the wait (R544). -/
def evalWait (w : FenceW) (timeout : Bool) (s : State) : State :=
  match ringOf s w.ring with
  | none => s
  | some r =>
    match fenceAt r w.ring w.seq w.addr false permR s with
    | (.key (some pa), s) =>
      let s := if pa = w.pa then s
        else
          let (ok, s) := takeWatch pa s
          let s := { s with waits := replaceFirst (· = w) (fun w => { w with pa := pa, watched := ok }) s.waits }
          if w.watched then unwatch w.pa s else s
      let w := (s.waits.find? fun x => x.ring == w.ring && x.seq == w.seq).getD w
      if !cacheable s pa then endFenceWait w stBadDesc s
      else match waitWord w pa timeout s with
      | (none, s) => s
      | (some (d, st), s) =>
        let s := dropFront (ofWait w.ring) s
        let v := leNat d
        if st ≠ .ok then endFenceWait w (statusCode st) s
        else if 2 ^ 63 ≤ v then endFenceWait w stFenceErr s
        else if w.target ≤ v then endFenceWait w 0 s
        else if timeout then endFenceWait w stWaitTimeout s
        else s
    | (.key none, s) => endFenceWait w stXlate s
    | (_, s) => if timeout then endFenceWait w stWaitTimeout s else s

/-- The armed wait of a ring. -/
def waitOf (s : State) (ring : Nat) : Option FenceW := s.waits.find? fun w => w.ring == ring

/-- The wait that is the next entry of a ring arms: it takes its slot and its watch, and evaluates the fence word (R543 to R545). Bit 63
of `TARGET` is reserved and ignored (R12). -/
def armWait (ring : Nat) (s : State) : State :=
  frontEnd 0x20 ring (fun r e s =>
    if entryField e 1 1 ≠ 0x20 || decide (65536 ≤ s.waits.length) then s
    else if waitBad e then completeEntry ring r.next stBadDesc e s
    else
      let addr := entryField e 8 8
      match fenceAt r ring r.next addr false permR s with
      | (.key none, s) => completeEntry ring r.next stXlate e s
      | (.key (some pa), s) =>
        if !cacheable s pa then completeEntry ring r.next stBadDesc e s
        else
          let (ok, s) := takeWatch pa s
          let w : FenceW := { ring := ring, seq := r.next, addr := addr, pa := pa, target := entryField e 16 8 % 2 ^ 63,
                              timeout := entryField e 24 4, watched := ok }
          evalWait w false (startEntryOf ring e { s with waits := s.waits ++ [w] })
      | (_, s) => s) s

/-- FENCE_WAIT (R543 to R545). -/
def execFenceWait (ring : Nat) (s : State) : Out := .next (armWait ring s)

/-- FENCE_WAIT_EVALUATE (R543). -/
def execFenceWaitEvaluate (ring : Nat) (s : State) : Out :=
  .next (match waitOf s ring with
    | some w => evalWait w false s
    | none => s)

/-- FENCE_WAIT_TIMEOUT (R543): the error flag and the value are looked at first. -/
def execFenceWaitTimeout (ring : Nat) (s : State) : Out :=
  .next (match waitOf s ring with
    | some w =>
      if w.timeout = 0 then s else evalWait w true s
    | none => s)

/-- FENCE_WAIT_POLL (R545): a wait without a watch re-reads its word, and takes a watch where it may by now. -/
def execFenceWaitPoll (ring : Nat) (s : State) : Out :=
  .next (match waitOf s ring with
    | some w =>
      if w.watched then s
      else
        let (ok, s) := takeWatch w.pa s
        let s := { s with waits := replaceFirst (· = w) (fun w => { w with watched := ok }) s.waits }
        evalWait { w with watched := ok } false s
    | none => s)

/-! ## Scheduler entries (R546, R547) -/

/-- A scheduler entry whose fence word is misaligned (R546; DEDUCED, log 56). Its reserved bits are ignored (R12). -/
def schedBad (e : List Byte) : Bool := entryField e 32 8 % 8 != 0

/-- The bytes of an inbox slot (R547). -/
def slotBytes (e : List Byte) (seq ring ctx : Nat) : List Byte :=
  e ++ leBytes 4 (seq % 2 ^ 32) ++ leBytes 2 ring ++ leBytes 2 ctx ++ zeroBytes 56

/-- The scheduler entry that is next on a ring is copied into the next slot of the inbox while that has room, and control core 0 is then
interrupted (R547). -/
def schedGo (ring : Nat) (s : State) : State :=
  frontEnd 0x21 ring (fun r e s =>
    let a := admqOf s 1
    if entryField e 1 1 ≠ 0x21 then s
    else if schedBad e then
      completeEntry ring r.next stBadDesc e s
    else if !a.en || decide (2 ^ a.inboxLog2 ≤ s.inbox.2.length) then s
    else
      let k := s.inbox.1
      let (done, s) := lintelWrite .inbox (some (a.inbox + k % 2 ^ a.inboxLog2 * 128)) (slotBytes e r.next ring r.ctx) s
      let s := startEntryOf ring e { s with inbox := (k + 1, s.inbox.2 ++ [(ring, r.next)]) }
      if done then raiseCore 192 s else s) s

/-- SCHED_ENTRY (R547). -/
def execSchedEntry (ring : Nat) (s : State) : Out := .next (schedGo ring s)

end Sys2Proof.Machine
end

