-- ==== Sys2Proof/Machine/Admin.lean ====
section
/-! DEFINITION. Admin queues and their commands: contexts, rings, queries, fences, Tiles, scheduler completions (file 13, R649). -/
namespace Sys2Proof.Machine

/-! ## The queues (R519 to R522) -/

def offAdmq (q : Nat) : Nat := 0x400100 + 0x10 * q

/-- A key where nothing lies, for an address that breaks the layout of agent addresses (R280). -/
def holeKey : Nat := 0xE000000000

def keyOr (s : State) (agent : Bool) (a : Nat) : Nat := (lintelKey s agent a).getD holeKey

/-- An admin queue record that breaks R10, R11 or the table of R521. -/
def queueBad (q : Nat) (d : List Byte) : Bool :=
  let l := entryField d 2 1
  let i := entryField d 3 1
  let v := entryField d 4 2
  entryField d 0 1 != 1 || entryField d 1 1 != 7 || decide (l < 4) || decide (12 < l) ||
    (if q = 1 then decide (i < 4) || decide (12 < i) else i != 0) || (if q = 0 then v / 2 ^ 11 % 16 != 0 else v != 0) ||
    !zeroField d 6 8 || entryField d 8 8 % 64 != 0 || entryField d 16 8 % 32 != 0 || entryField d 24 8 % 8 != 0 ||
    (if q = 1 then entryField d 32 8 == 0 || entryField d 32 8 % 128 != 0 else entryField d 32 8 != 0) || !zeroField d 40 64

/-- The accesses of a queue that is being enabled. -/
def ofEnable (q : Nat) (x : LinNext) : Bool := x == .enable q

/-- The doorbell of a queue or ring that is being set up is watched and its word read: none where the line cannot be watched, and no word
while the line is on its way (R488, R522, R534). -/
def takeDoorbell (next : LinNext) (bell : Nat) (s : State) : Option (Option (List Byte × RStatus) × State) :=
  (watchDoorbell bell s).map fun s => watchedWord next bell s

/-- The queue is accepted with the fields of its record and its doorbell word (R522). -/
def acceptQueue (q bell : Nat) (d : List Byte) (w : Word64) (s : State) : State :=
  let agent : Bool := q != 0
  let t := w.toNat % 2 ^ 32
  modAdmq q (fun a => { a with
    en := true, loading := false, bad := false, log2n := entryField d 2 1, inboxLog2 := entryField d 3 1,
    vector := BitVec.ofNat 16 (entryField d 4 2), entries := keyOr s agent (entryField d 8 8),
    compl := keyOr s agent (entryField d 16 8), doorbell := bell, inbox := keyOr s agent (entryField d 32 8),
    tail := t, next := t, passed := w }) (dropFront (ofEnable q) (if q = 1 then { s with inbox := (0, []) } else s))

/-- A queue being enabled goes on: its record has been read, then the word at its doorbell, and it is accepted or refused (R522). -/
def enableQueue (q : Nat) (s : State) : State :=
  let a := admqOf s q
  let agent : Bool := q != 0
  let addr := a.ptrHi.toNat * 2 ^ 32 + a.ptrLo.toNat
  let refuse (s : State) : State :=
    modAdmq q (fun a => { a with bad := true, en := false, loading := false }) (dropFront (ofEnable q) s)
  if !a.loading then s
  else match lintelRead (.enable q) (lintelKey s agent addr) 64 s with
    | (none, s) => s
    | (some (d, .ok), s) =>
      if queueBad q d then refuse s
      else match lintelKey s agent (entryField d 24 8) with
        | none => refuse s
        | some bell => match takeDoorbell (.enable q) bell s with
          | none => refuse s
          | some (none, s) => s
          | some (some (w, .ok), s) => acceptQueue q bell d (BitVec.ofNat 64 (leNat w)) s
          | some (some _, s) => refuse (unwatch bell s)
    | (some _, s) => refuse s

/-- ADMQ_ENABLE (R519, R522): while a record is read, the command takes it up again. -/
def execAdmqEnable (agent : RegAgent) (q : Nat) (s : State) : Out :=
  regCommand agent (offAdmq q) (q < 3) (fun s =>
    if (admqOf s q).en then s else enableQueue q (modAdmq q (fun a => { a with loading := true }) s)) s

/-- EN is cleared: the queue stops after its current entry, and its doorbell is no longer watched. -/
def disableQueue (q : Nat) (s : State) : State :=
  if (admqOf s q).en then unwatch (admqOf s q).doorbell (modAdmq q (fun a => { a with en := false }) s)
  else modAdmq q (fun a => { a with loading := false }) s

/-- ADMQ_DISABLE (R522). -/
def execAdmqDisable (agent : RegAgent) (q : Nat) (s : State) : Out := regCommand agent (offAdmq q) (q < 3) (disableQueue q) s

/-! ## Entries (R523, R524, R710) -/

/-- The queue takes its next entry, once it has been read, where it is of the command's kind. An entry that cannot be read, of another
version, of a reserved `OP` or of one that the queue does not take completes at once (R10, R523, R710). -/
def adminTake (q op : Nat) (act : List Byte → State → State) (s : State) : State :=
  let a := admqOf s q
  if !a.en || a.busy.isSome || decide (a.tail ≤ a.next) || !lintelRuns s then s
  else match lintelRead (.admin q op) (some (a.entries + a.next % 2 ^ a.log2n * 64)) 64 s with
    | (none, s) => s
    | (some (e, .ok), s) =>
      let o := entryField e 1 1
      let s' := modAdmq q (fun a => { a with busy := some (a.next, BitVec.ofNat 64 (entryField e 48 8)) }) s
      if entryField e 0 1 ≠ 1 || o = 0 || decide (0x0A < o) || (q ≠ 1 && decide (9 ≤ o)) then adminDone q stBadCmd 0xFFFF s'
      else if o ≠ op then dropFront (ofAdmin q) s
      else act e s'
    | (some (_, st), s) => adminDone q (statusCode st) 0xFFFF (modAdmq q (fun a => { a with busy := some (a.next, 0) }) s)

/-- A command of an admin queue. -/
def adminCommand (q : Nat) (go : Nat → State → State) (s : State) : Out := onUnit (q < 3) s (go q s)

/-- The command is taken up again later: a read of it is under way, or a granule is changing. -/
def adminLater (q : Nat) (s : State) : State := modAdmq q (fun a => { a with busy := none }) s

/-- The context that a command names, where its queue may act on it (R524). -/
def ctxFor (s : State) (q c : Nat) : Option Ctx :=
  match ctxOf s c with
  | none => none
  | some x => if q = 2 || x.queue = q then some x else none

/-- The ring that a command names, where its queue may act on its context (R524). -/
def ringFor (s : State) (q n : Nat) : Option Ring :=
  match ringOf s n with
  | none => none
  | some r => if (ctxFor s q r.ctx).isSome then some r else none

/-! ## Contexts (R525, R526, R552, R649) -/

/-- A context record that breaks R10, R11 or the layout of R525. -/
def ctxBad (c : Nat) (d : List Byte) : Bool :=
  entryField d 0 1 != 1 || entryField d 1 1 != 5 || entryField d 2 2 != c || decide (4096 ≤ c) ||
    decide (2 ^ 20 ≤ entryField d 8 4) || decide (2 ^ 12 ≤ entryField d 12 4) || entryField d 16 8 % 2 ^ 21 != 0 ||
    entryField d 56 2 / 2 ^ 11 % 16 != 0 || !zeroField d 58 64

/-- The access table refuses a `SECURITY` word for a PASID (R649). -/
def securityRefused (s : State) (q pasid : Nat) (sec : BitVec 12) : Bool :=
  let slot := tfind s.kiln.slots (fieldOf sec 9 0)
  let mark := (slot.map fun x => x.protected_).getD false
  s.ctxs.any (fun p => p.2.pasid == pasid && p.2.security != sec) ||
    (bitOf sec 10 && ((slot.map fun x => x.pasid) != some pasid)) ||
    (bitOf sec 11 && !bitOf sec 10) || (bitOf sec 10 && bitOf sec 11 != mark) || (bitOf sec 11 && q != 2)

/-- A context from its record. -/
def ctxOfRecord (q : Nat) (d : List Byte) : Ctx :=
  { state := .active, queue := q, pasid := entryField d 8 4, security := BitVec.ofNat 12 (entryField d 12 4),
    ttsbase := BitVec.ofNat 64 (entryField d 16 8),
    ntwin := (List.range 4).map fun j => BitVec.ofNat 64 (entryField d (24 + 8 * j) 8),
    lossVec := BitVec.ofNat 16 (entryField d 56 2), hostDep := false, fences := [], pages := 0, counters := [],
    destroyer := none, lossDone := false, flagged := false }

/-- What CTX_CREATE does with the record that it has read: its status, and the context (R526). -/
def createCtx (q c : Nat) (d : List Byte) (s : State) : Nat × State :=
  if ctxBad c d then (stBadCmd, s)
  else if (ctxOf s c).isSome then (stBusy, s)
  else if entryField d 4 4 ≠ s.link.epoch.toNat then (stEpoch, s)
  else if securityRefused s q (entryField d 8 4) (BitVec.ofNat 12 (entryField d 12 4)) then (stNoAccess, s)
  else (0, setCtx c (ctxOfRecord q d) s)

/-- CTX_CREATE (R526). -/
def goCtxCreate (q : Nat) (s : State) : State :=
  adminTake q 0x01 (fun e s =>
    let c := entryField e 2 2
    match lintelRead (.admin q 0x01) (lintelKey s (q != 0) (entryField e 8 8)) 64 s with
    | (none, s) => adminLater q s
    | (some (d, .ok), s) => let (st, s) := createCtx q c d s
      adminDone q st c s
    | (some (_, st), s) => adminDone q (statusCode st) c s) s

/-- CTX_CREATE (R523). -/
def execCtxCreate (q : Nat) (s : State) : Out := adminCommand q goCtxCreate s

/-- A context enters `DESTROYING`; `q` is the queue whose command awaits the end (R527, R552). -/
def destroyCtx (c : Nat) (x : Ctx) (q : Option Nat) (s : State) : State :=
  let s := setCtx c { x with state := .destroying, destroyer := q } s
  let s := forEach (ringsOf s c) (fun r s => modRing r (fun x => { x with state := .stop }) s) s
  if x.state = .active then endWork c s else s

/-- CTX_DESTROY (R552, R553): steps 1 to 5; CTX_DESTROY_DONE ends it. -/
def goCtxDestroy (q : Nat) (s : State) : State :=
  adminTake q 0x02 (fun e s =>
    let c := entryField e 2 2
    match ctxFor s q c with
    | none => adminDone q stNoSuch c s
    | some x => if x.state = .destroying then adminDone q stBusy c s else destroyCtx c x (some q) s) s

/-- CTX_DESTROY (R523). -/
def execCtxDestroy (q : Nat) (s : State) : Out := adminCommand q goCtxDestroy s

/-! ## Rings (R532 to R536) -/

/-- A `RING_CREATE` entry that breaks R532 or R534, apart from its doorbell; reserved bits are ignored (R12). -/
def ringBad (s : State) (q : Nat) (e : List Byte) : Bool :=
  let kind := entryField e 6 1
  let engine := entryField e 17 1
  kind == 0 || decide (2 < kind) || entryField e 8 8 % 64 != 0 ||
    decide (entryField e 16 1 < 4) || decide (12 < entryField e 16 1) ||
    (if kind = 1 then !hasHod s engine else engine != 0) ||
    entryField e 24 8 % 32 != 0 || entryField e 32 8 % 8 != 0 || (bitOf (e.getD 7 0) 1 && q == 0)

/-- The granules of own device memory that a range of keys touches. -/
def rangeGranules (s : State) (pa n : Nat) : List Nat :=
  if hdmTop s ≤ pa then [] else (List.range ((pa % 2 ^ 21 + n + 2 ^ 21 - 1) / 2 ^ 21)).map fun i => (pa / 2 ^ 21 + i) * 2 ^ 21

/-- RING_CREATE (R532 to R534). -/
def goRingCreate (q : Nat) (s : State) : State :=
  adminTake q 0x03 (fun e s =>
    let c := entryField e 2 2
    let n := entryField e 4 2
    let flags := e.getD 7 0
    let agent : Bool := q != 0 || bitOf flags 1
    let log2n := entryField e 16 1
    let entries := keyOr s agent (entryField e 8 8)
    let compl := keyOr s agent (entryField e 24 8)
    match lintelKey s agent (entryField e 32 8) with
    | none => adminDone q stBadCmd c s
    | some bell =>
      if ringBad s q e || wordServed s bell || !cacheable s bell then adminDone q stBadCmd c s
      else if (ringOf s n).isSome then adminDone q stBusy c s
      else match ctxFor s q c with
        | none => adminDone q stNoSuch c s
        | some x =>
          if x.state ≠ .active then adminDone q stNoSuch c s
          else
            let gs := rangeGranules s entries (2 ^ log2n * 64) ++ rangeGranules s compl (2 ^ log2n * 32) ++ rangeGranules s bell 8
            if gs.any (changing s) then adminLater q s
            else if !gs.all (admits s (.context x.security)) then adminDone q stNoAccess c s
            else if decide (16384 ≤ n) || decide (16384 ≤ s.rings.length) || decide (256 ≤ (ringsOf s c).length) then
              adminDone q stLimit c s
            else if isHost bell && s.link.hostAbsent then adminDone q (statusCode .hostabsent) c s
            else match takeDoorbell (.admin q 0x03) bell s with
              | none => adminDone q stLimit c s
              | some (none, s) => adminLater q s
              | some (some (d, _), s) =>
                let w : Word64 := BitVec.ofNat 64 (leNat d)
                let t := w.toNat % 2 ^ 32
                let r : Ring :=
                  { ctx := c, kind := entryField e 6 1, flags := flags, entries := entries, log2n := log2n,
                    engine := entryField e 17 1, vector := fieldOf (BitVec.ofNat 16 (entryField e 18 2)) 10 0, compl := compl,
                    doorbell := bell, state := .run, tail := t, next := t, passed := w, oldest := t, done := [], started := [],
                    recorded := [], destroyer := none }
                adminDone q 0 c (setRing n r s)) s

/-- RING_CREATE (R523). -/
def execRingCreate (q : Nat) (s : State) : Out := adminCommand q goRingCreate s

/-- Steps 1 and 2 of `RING_DESTROY`, and step 4 once every started entry has completed (R536). -/
def ringDestroyGo (n : Nat) (s : State) : State :=
  match ringOf s n with
  | none => s
  | some r => match loseEntries n false (entryFuel r) r.oldest s with
    | (s, false) => s
    | (s, true) => match ringOf s n with
      | none => s
      | some r =>
        if !r.started.isEmpty then s
        else match r.destroyer with
          | none => s
          | some q => adminDone q 0 0xFFFF (freeRing n s)

/-- RING_DESTROY (R536). -/
def goRingDestroy (q : Nat) (s : State) : State :=
  adminTake q 0x04 (fun e s =>
    let n := entryField e 4 2
    match ringFor s q n with
    | none => adminDone q stNoSuch 0xFFFF s
    | some r =>
      if r.destroyer.isSome then adminDone q stBusy 0xFFFF s
      else
        let s := setRing n { r with state := .stop, destroyer := some q } s
        match loseEntries n false (entryFuel r) r.oldest s with
        | (s, _) => s) s

/-- RING_DESTROY (R523). -/
def execRingDestroy (q : Nat) (s : State) : Out := adminCommand q goRingDestroy s

/-- RING_DESTROY_DONE (R536). -/
def execRingDestroyDone (ring : Nat) (s : State) : Out :=
  .next (match ringOf s ring with
    | none => s
    | some r => if r.destroyer.isSome then ringDestroyGo ring s else s)

/-- RING_RESUME (R536). -/
def goRingResume (q : Nat) (s : State) : State :=
  adminTake q 0x05 (fun e s =>
    let n := entryField e 4 2
    match ringFor s q n with
    | none => adminDone q stNoSuch 0xFFFF s
    | some r =>
      if r.state = .halt then adminDone q 0 0xFFFF (setRing n { r with state := .run } s) else adminDone q stBadCmd 0xFFFF s) s

/-- RING_RESUME (R523). -/
def execRingResume (q : Nat) (s : State) : Out := adminCommand q goRingResume s

/-! ## Queries, pages, fences (R551, R559 to R561) -/

/-- The Grout occupancy estimate of a context, from one set of every 64 (R560). -/
def groutBytes (s : State) (c : Nat) : Nat :=
  64 * 256 * (s.home.grout.filter fun p => p.2.set % 64 == 0 && p.2.ctx == some c).length

/-- The query record (R559). -/
def queryBytes (s : State) (c : Nat) (x : Ctx) : List Byte :=
  let cnt (k : Nat) : List Byte := leBytes 8 (tget zeroOf x.counters k)
  leBytes 1 1 ++ leBytes 1 9 ++ leBytes 2 c ++ leBytes 4 0 ++ leBytes 8 (stampOf s 53).toNat ++
    (List.range 9).flatMap cnt ++ leBytes 8 (groutBytes s c) ++ leBytes 8 x.pages ++ zeroBytes 24

/-- A record of the block is written to memory: its status, and none while the write is under way (R559, R710). -/
def writeRecord (next : LinNext) (pa : Option Nat) (d : List Byte) (s : State) : Option RStatus × State :=
  match pa with
  | none => (some .notarget, s)
  | some pa => match s.front.find? fun f => f.next = next && f.pa == pa with
    | some f => (some f.status, s)
    | none =>
      if unitWaits s next then (none, s)
      else if (placeOf s pa).cacheable && (rangeLines pa d.length).all (canWriteLine s) && !(isHost pa && s.link.hostAbsent) then
        (some .ok, writeMem pa d s)
      else
        let o := unitOp next .put 0 pa d.length d
        match issueOp o s with
        | .ok s => (none, s)
        | .error st => (some st, countDrop st o s)

/-- QUERY (R559). -/
def goQuery (q : Nat) (s : State) : State :=
  adminTake q 0x06 (fun e s =>
    let c := entryField e 2 2
    let addr := entryField e 8 8
    match ctxFor s q c with
    | none => adminDone q stNoSuch c s
    | some x =>
      if addr % 128 ≠ 0 then adminDone q stBadCmd c s
      else
        match writeRecord (.admin q 0x06) (lintelKey s (q != 0) addr) (queryBytes s c x) s with
        | (none, s) => adminLater q s
        | (some st, s) => adminDone q (statusCode st) c s) s

/-- QUERY (R523). -/
def execQuery (q : Nat) (s : State) : Out := adminCommand q goQuery s

/-- PAGES (R561). -/
def goPages (q : Nat) (s : State) : State :=
  adminTake q 0x07 (fun e s =>
    let c := entryField e 2 2
    match ctxFor s q c with
    | none => adminDone q stNoSuch c s
    | some x =>
      let sum : Int := x.pages + signedOf 8 (entryField e 8 8)
      if sum < 0 then adminDone q stBadCmd c s
      else adminDone q 0 c (setCtx c { x with pages := min (2 ^ 64 - 1) sum.toNat } s)) s

/-- PAGES (R523). -/
def execPages (q : Nat) (s : State) : Out := adminCommand q goPages s

/-- Memory that may hold a bound fence (R551). -/
def fencePlace (s : State) (pa : Nat) : Bool :=
  match placeOf s pa with
  | .dev _ => true
  | .host _ => true
  | .remote _ off => off < tileBase
  | _ => false

/-- FENCE_BIND (R551, R711). -/
def goFenceBind (q : Nat) (s : State) : State :=
  adminTake q 0x08 (fun e s =>
    let c := entryField e 2 2
    let addr := entryField e 8 8
    match ctxFor s q c with
    | none => adminDone q stNoSuch c s
    | some x =>
      if x.state ≠ .active then adminDone q stNoSuch c s
      else if addr % 8 ≠ 0 then adminDone q stBadCmd c s
      else match lintelKey s (x.queue != 0) addr with
        | none => adminDone q stBadCmd c s
        | some pa =>
          if entryField e 16 1 % 2 = 1 then
            if x.fences.contains pa then adminDone q 0 c s
            else if !fencePlace s pa then adminDone q stBadCmd c s
            else if 16 ≤ x.fences.length then adminDone q stLimit c s
            else adminDone q 0 c (setCtx c { x with fences := x.fences ++ [pa] } s)
          else if x.fences.contains pa then adminDone q 0 c (setCtx c { x with fences := x.fences.filter (· ≠ pa) } s)
          else adminDone q stNoSuch c s) s

/-- FENCE_BIND (R523). -/
def execFenceBind (q : Nat) (s : State) : Out := adminCommand q goFenceBind s

/-! ## Tiles (R528, R657) -/

/-- Loads the context into a Tile (R181, R326, R528). -/
def bindTile (n c : Nat) (x : Ctx) (s : State) : State :=
  let s := if x.security ≠ (tileOf s n).prot then clearTile n s else s
  let s := modTile n (fun t => { t with bound := some c, prot := x.security }) s
  modCore n (fun k => { k with csr := { k.csr with
    tctx := BitVec.ofNat 12 c, ttsbase := x.ttsbase,
    ntwin := (List.range 4).foldl (fun t j => tset zeroOf t j (x.ntwin.getD j 0)) k.csr.ntwin } }) s

/-- TILE_BIND (R524, R528, R711). -/
def goTileBind (q : Nat) (s : State) : State :=
  adminTake q 0x09 (fun e s =>
    let c := entryField e 2 2
    let n := entryField e 4 2
    let t := tileOf s n
    match ctxOf s c with
    | none => adminDone q stNoSuch c s
    | some x =>
      if !hasTile s n then adminDone q stNoSuch c s
      else if entryField e 6 1 % 2 = 1 then
        if x.state ≠ .active then adminDone q stNoSuch c s
        else if t.bound.isSome || !trowelHeld s n || !(courseOf s (n / 16)).live then adminDone q stBusy c s
        else adminDone q 0 c (bindTile n c x s)
      else if t.bound ≠ some c then adminDone q stNoSuch c s
      else if !t.queue.isEmpty || !trowelHeld s n then adminDone q stBusy c s
      else adminDone q 0 c (unbindTile n s)) s

/-- TILE_BIND (R523). -/
def execTileBind (q : Nat) (s : State) : Out := adminCommand q goTileBind s

/-! ## Scheduler completions (R547, R548) -/

/-- SCHED_DONE (R548): completes a started scheduler entry and acknowledges its inbox slot. -/
def goSchedDone (q : Nat) (s : State) : State :=
  adminTake q 0x0A (fun e s =>
    let n := entryField e 4 2
    let k := entryField e 8 4
    let st := if entryField e 12 1 % 2 = 1 then stFailed else 0
    let ack (s : State) : State := { s with inbox := (s.inbox.1, removeFirst (fun x => x.1 == n && x.2 % 2 ^ 32 == k) s.inbox.2) }
    match ringOf s n with
    | none => adminDone q stNoSuch 0xFFFF (ack s)
    | some r =>
      match (if r.kind = 2 && ctxActive s r.ctx then
          r.started.find? (fun x => x.1 % 2 ^ 32 == k && entryField x.2 1 1 == 0x21 && !r.recorded.any (fun y => y.1 == x.1))
          else none) with
      | none => adminDone q stNoSuch 0xFFFF (ack s)
      | some (seq, b) => adminDone q 0 0xFFFF (completeEntry n seq st b (ack s))) s

/-- SCHED_DONE (R523). -/
def execSchedDone (q : Nat) (s : State) : Out := adminCommand q goSchedDone s

end Sys2Proof.Machine
end

