-- ==== Sys2Proof/Machine/Secure.lean ====
section
/-! DEFINITION. The securing engine (file 14, R585 to R604): its table, `ARM`, the securing of a step, and the commands. -/
namespace Sys2Proof.Machine

/-! ## The securing table (R586 to R588) -/

/-- The own offset of the table (R610). -/
def secBase (s : State) : Nat := fieldOf (reg s offSecBase) 27 0 * 4096

/-! ### The engine's own accesses (log 23) -/

/-- An access of the engine to memory of its own chip, or of another one as far as its table and records go. -/
def secUnitOp (kind : OpKind) (gop : Nat) (tc : BitVec 2) (pa len : Nat) (data : List Byte) (poison : Marks) : RemoteOp :=
  newOp .securing (.unit .secure) none kind gop false tc pa len data [] poison

/-- An access of the engine of this kind is under way. -/
def secWaits (s : State) : Bool := s.ops.any fun o => o.src = .securing && o.owner = .unit .secure

/-- The engine has accesses to a line under way. -/
def secPending (s : State) (line : Nat) : Bool :=
  s.ops.any fun o => o.src = .securing && o.owner = .unit .secure && o.pa / 64 == line

/-- A line as the engine has it: as a read of its own brought it, or as its home has it where the home can answer alone. -/
def secLine (s : State) (line : Nat) : Option (List Byte × Bool) :=
  match tfind s.sec.got line with
  | some x => some x
  | none => if (placeOf s (line * 64)).cacheable && canReadLine s line then some (homeData s line) else none

/-- The bytes of a range as the engine has them, and their poison. -/
def secMem (s : State) (pa n : Nat) : List Byte × Bool :=
  let d (l : Nat) : List Byte × Bool := (secLine s l).getD (zeroBytes 64, false)
  ((rangeLines pa n).flatMap fun l => cutLine (d l).1 l pa n, (rangeLines pa n).any fun l => (d l).2)

/-- What the engine holds of a line is changed with it. -/
def secKeep (line pa : Nat) (d : List Byte) (poison : Bool) (s : State) : State :=
  match tfind s.sec.got line with
  | some (old, p) =>
    let en := d.map fun _ => true
    { s with sec := { s.sec with
      got := tinsert s.sec.got line (mergeLine old line pa d en, poison || (p && !coversLine line pa d en)) } }
  | none => s

/-- The engine forgets the lines that it has read. -/
def secForget (s : State) : State := { s with sec := { s.sec with got := [] } }

/-- The engine writes the bytes of a range that lie in a line: at once where the home can perform it alone and nothing of the engine is
on its way there, otherwise by a put. -/
def secStoreLine (pa : Nat) (d : List Byte) (poison : Bool) (line : Nat) (s : State) : State :=
  let s' := secKeep line pa d poison s
  if (placeOf s pa).cacheable && canWriteLine s line && !secPending s line then
    let s' := writeLine false line pa d s'
    if poison then poisonLine line s' else s'
  else
    let a := max pa (line * 64)
    let part := (d.drop (a - pa)).take (min (pa + d.length) (line * 64 + 64) - a)
    match issueOp (secUnitOp .put 0 3 a part.length part (allMarks a part.length poison)) s' with
    | .ok s => s
    | .error _ => s'

/-- The engine writes bytes of own device memory. -/
def secStore (pa : Nat) (d : List Byte) (s : State) : State := forEach (rangeLines pa d.length) (secStoreLine pa d false) s

/-- The engine applies `FMAX` to a word of own device memory. -/
def secFmaxAt (pa v : Nat) (s : State) : State :=
  let old := secMem s pa 8
  let s' := if old.2 then s else secKeep (pa / 64) pa (leBytes 8 (gopValue 0x20 8 (leNat old.1) v 0)) false s
  if (placeOf s pa).cacheable && canReadLine s (pa / 64) && canWriteLine s (pa / 64) && !secPending s (pa / 64) then fmaxMem pa v s'
  else match issueOp (secUnitOp .atomic gopFMAX 3 pa 8 (leBytes 8 v) 0) s' with
    | .ok s => s
    | .error _ => s'

/-- `w` bytes of the table from offset `i`, as a number. -/
def secWord (s : State) (i w : Nat) : Nat := leNat (secMem s (secBase s + i) w).1

/-- Writes bytes of the table. -/
def secPut (i : Nat) (d : List Byte) (s : State) : State := secStore (secBase s + i) d s

/-- Applies `FMAX` to a fence of the table. -/
def secFmax (i v : Nat) (s : State) : State := secFmaxAt (secBase s + i) v s

/-- The value of a fence without its error flag. -/
def secFence (s : State) (i : Nat) : Nat := secWord s i 8 % 2 ^ 63

def secOff : Nat := 0
def secIdle : Nat := 1
def secSecuring : Nat := 2
def secRunning : Nat := 3
def secFailed : Nat := 4
def secRefused : Nat := 5
def secBreach : Nat := 6

def secState (s : State) : Nat := secWord s 3 1
def setSecState (v : Nat) (s : State) : State := secPut 3 (leBytes 1 v) s

def hdrDone : Nat := 8
def hdrSecured : Nat := 16
def hdrGlobal : Nat := 24
def hdrGate : Nat := 32
def hdrCmd : Nat := 40
def hdrArg : Nat := 48
def hdrRole : Nat := 56

def secLag (s : State) : Nat := fieldOf (reg s offSecCtl) 25 24
def secMirror (s : State) : Nat := secWord s 64 8
def secParity (s : State) : Nat := secWord s 72 8
def secLocal (s : State) : Nat := secWord s 80 8
def secK (s : State) : Nat := secWord s 88 1
def secMembers (s : State) : List Nat := (List.range (secK s)).map fun i => secWord s (96 + 2 * i) 2 % 2 ^ 11

/-- An area on another chip, as a key (R587). -/
def areaKey (s : State) (area off : Nat) : Nat := blockKey s (area / 2 ^ 40 % 2 ^ 11) (area % 2 ^ 40 + off)

/-- Bytes [i, j) of the table are zero. -/
def secZero (s : State) (i j : Nat) : Bool := (secMem s (secBase s + i) (j - i)).1.all (· == 0)

/-- A header that breaks R10, R11 or R587, or a `LAG` other than 1 or 2 (R591). -/
def headerBad (s : State) : Bool :=
  let k := secK s
  let n := secWord s 90 1
  secWord s 0 1 != 1 || secWord s 1 1 != 0x0A || !secZero s 4 8 || n == 0 || decide (60 < n) || !secZero s 91 96 ||
    !secZero s 128 256 || secMirror s % 65536 != 0 || secParity s % 65536 != 0 || secLocal s % 65536 != 0 ||
    (k != 0 && (decide (k < 4) || decide (16 < k) || (secMembers s)[secWord s 89 1]? != some (chipSelf s))) || !secZero s (96 + 2 * min k 16) 128 ||
    !(secLag s == 1 || secLag s == 2)

/-- A record that breaks R10, R11 or R588. Its images are made of securing pages, so its `AREA_OFF` is 64 KiB aligned like the areas
(DEDUCED, log 96). -/
def recordBad (s : State) (i : Nat) : Bool :=
  let r := 256 + 64 * i
  secWord s r 1 != 1 || secWord s (r + 1) 1 != 0x0B || decide (3 < secWord s (r + 2) 1) || !secZero s (r + 4) (r + 8) ||
    !secZero s (r + 48) (r + 64) || secWord s (r + 8) 8 % 65536 != 0 || secWord s (r + 16) 8 % 65536 != 0 ||
    secWord s (r + 24) 8 % 65536 != 0 || secWord s (r + 40) 8 % 8 != 0

/-! ## Reads ahead of an action -/

/-- The lines of the header and the records of a table at an offset of a chip. -/
def tableLines (base : Nat) : List Nat := rangeLines base 0x1000

/-- An operation of the engine's accesses was refused at once, or ended badly. -/
def secRefuse (s : State) : State := settle (setSecState secRefused { s with sec := { s.sec with work := none, held := [] } })

/-- Gets of lines are issued, but for those under way; true where one could not be. -/
def secGets (tc : BitVec 2) : List Nat → State → Bool × State
  | [], s => (false, s)
  | l :: ls, s =>
    if secPending s l then secGets tc ls s
    else match issueOp (secUnitOp .get 0 tc (l * 64) 64 [] 0) s with
      | .ok s => secGets tc ls s
      | .error _ => (true, s)

/-- An action of the engine reads the lines that it needs, and acts once it has them all; `fail` is what it does where a read cannot be
issued. -/
def secTurn (tc : BitVec 2) (lines : List Nat) (fail act : State → State) (s : State) : State :=
  let missing := lines.filter fun l => (secLine s l).isNone
  if missing.isEmpty then act s
  else match secGets tc missing s with
    | (false, s) => s
    | (true, s) => fail s

/-! ## Assignment (R592) -/

/-- The method that a record takes: `peer` is the largest `SIZE` and `DIRTY` among the other members' records at its `AREA_OFF`. -/
def assignOf (s : State) (i : Nat) (peer : Nat × Nat) : Nat :=
  let r := 256 + 64 * i
  let m := secWord s (r + 2) 1
  let size := max (secWord s (r + 16) 8) peer.1
  let dirty := max (secWord s (r + 32) 2) peer.2
  let dense := fieldOf (reg s offSecCtl) 23 16
  if m ≠ 0 then m
  else if secK s = 0 || decide (size ≤ 2 ^ fieldOf (reg s offSecCtl) 7 0) then 1
  else if (if secWord s (r + 3) 1 = 2 then 2 * dirty else dirty) ≤ dense * 256 then 1
  else 2

/-- The other members of the parity group. -/
def secPeers (s : State) : List Nat := (secMembers s).filter (· ≠ chipSelf s)

/-- `w` bytes of another member's table from offset `i`, as a number. -/
def peerWord (s : State) (chip i w : Nat) : Nat := leNat (secMem s (blockKey s chip (secBase s) + i) w).1

/-- The records of another member's table at an `AREA_OFF`: their `SIZE` and `DIRTY`. -/
def peerRecords (s : State) (chip areaOff : Nat) : List (Nat × Nat) :=
  ((List.range (min 60 (peerWord s chip 90 1))).filter fun i => peerWord s chip (256 + 64 * i + 24) 8 == areaOff).map fun i =>
    (peerWord s chip (256 + 64 * i + 16) 8, peerWord s chip (256 + 64 * i + 32) 2)

/-- The largest `SIZE` and `DIRTY` among the other members' records at the `AREA_OFF` of a record. -/
def peerOf (s : State) (i : Nat) : Nat × Nat :=
  ((secPeers s).flatMap fun c => peerRecords s c (secWord s (256 + 64 * i + 24) 8)).foldl
    (fun m x => (max m.1 x.1, max m.2 x.2)) (0, 0)

/-- The tables of the other members. -/
def peerLines (s : State) : List Nat := (secPeers s).flatMap fun c => tableLines (blockKey s c (secBase s))

/-- A record as the engine holds it. -/
def tensorOf (s : State) (i : Nat) (peer : Nat × Nat) : SecTensor :=
  let r := 256 + 64 * i
  { record := i, base := secWord s (r + 8) 8, size := secWord s (r + 16) 8, span := max (secWord s (r + 16) 8) peer.1,
    areaOff := secWord s (r + 24) 8, bitmap := secWord s (r + 40) 8, method := secWord s (r + 2) 1,
    assigned := assignOf s i peer }

/-- The engine assigns every tensor and writes `ASSIGNED` (R588). -/
def assignAll (s : State) : State :=
  let ts := (List.range (secWord s 90 1)).map fun i => tensorOf s i (peerOf s i)
  forEach ts (fun t s => secPut (256 + 64 * t.record + 3) (leBytes 1 t.assigned) s) { s with sec := { s.sec with tensors := ts } }

/-! ## Images and bitmaps -/

/-- The tensors that the engine secures. -/
def securedTensors (s : State) : List SecTensor := s.sec.tensors.filter fun t => t.assigned == 1 || t.assigned == 2

/-- The own offset of local image j of a tensor. -/
def imageOff (s : State) (t : SecTensor) (j : Nat) : Nat := secLocal s + t.areaOff + j * t.size

def tensorPages (t : SecTensor) : Nat := t.size / 65536

/-- The bit of a page in bitmap k. -/
def pageBit (s : State) (t : SecTensor) (k page : Nat) : Bool :=
  bitOf ((secMem s (t.bitmap + k * bitmapBytes t + page / 8) 1).1.headD 0) (page % 8)

/-- Sets every page bit of a bitmap, or clears it. -/
def fillBitmap (t : SecTensor) (k : Nat) (ones : Bool) (s : State) : State :=
  let n := tensorPages t
  secStore (t.bitmap + k * bitmapBytes t) ((List.range (bitmapBytes t)).map fun b =>
    BitVec.ofNat 8 (if ones then 2 ^ min 8 (n - 8 * b) - 1 else 0)) s

/-- The lines of a bitmap of a tensor. -/
def bitmapLines (t : SecTensor) (k : Nat) : List Nat := rangeLines (t.bitmap + k * bitmapBytes t) (bitmapBytes t)

/-- The lines of both bitmaps of every secured tensor. -/
def allBitmaps (s : State) : List Nat := (securedTensors s).flatMap fun t => bitmapLines t 0 ++ bitmapLines t 1

/-- The lines of image j of every secured tensor. -/
def imageLines (s : State) (j : Nat) : List Nat := (securedTensors s).flatMap fun t => rangeLines (imageOff s t j) t.size

/-- Copies memory line by line with its poison. -/
def copyMem (src dst n : Nat) (s : State) : State :=
  forEach (List.range (n / 64)) (fun i s =>
    let (d, p) := secMem s (src + 64 * i) 64
    secStoreLine (dst + 64 * i) d p (dst / 64 + i) s) s

/-! ## ARM and stop (R591, R609) -/

/-- The written fields of `BND_SEC_CTL`; `FEED_OVR` is locked by the seal. -/
def secCtlWrite (s : State) (v : Word32) : Word32 :=
  let old := reg s offSecCtl
  let ovr := if s.sealed_ then old &&& 0x40000000 else v &&& 0x40000000
  (v &&& 0x83FF00FF) ||| ovr

/-- A line of the header of every chip whose feed group counts: the partner, the holder and the other members (R591). -/
def feedLines (s : State) : List Nat :=
  let far (area : Nat) : List Nat := if area = 0 then [] else [areaKey s (area / 2 ^ 40 * 2 ^ 40) (secBase s) / 64]
  far (secMirror s) ++ far (secParity s) ++ (secPeers s).map fun c => blockKey s c (secBase s) / 64

/-- `ARM` refuses (R591). -/
def armRefuse (s : State) : State := secForget (secRefuse s)

/-- Steps 2 to 5 of `ARM`: the feed groups are compared, tensors are assigned, images zeroed and bitmaps set. -/
def armLast (s : State) : State :=
  if (feedLines s).any (fun l => ((secLine s l).map fun x => (x.1.getD 2 0).toNat == s.straps.feedGroup.toNat).getD false) &&
      !bitOf (reg s offSecCtl) 30 then
    raise unitLin srcFeed 0 none (secBase s) 0 (armRefuse s)
  else
    let s := assignAll s
    let s := forEach s.sec.tensors (fun t s =>
      let s := forEach [0, 1] (fun j s => secStore (imageOff s t j) (zeroBytes t.size) s) s
      fillBitmap t 1 true (fillBitmap t 0 true s)) s
    let s := setSecState secIdle s
    secForget { s with sec := { s.sec with
      on := true, work := none, current := (secFence s hdrSecured + 1) % 2, held := [], seen := secFence s hdrGlobal } }

/-- `ARM` goes on (R591): its own table is read and `FEED` written, then the tables of the other chips are read. A read of another chip
that does not end well refuses (log 64). -/
def armGo (s : State) : State :=
  match s.sec.work with
  | some (.arm fed) =>
    if secWaits s then s
    else secTurn 3 (tableLines (secBase s)) armRefuse (fun s =>
      let s := if fed then s
        else { secPut 2 (leBytes 1 s.straps.feedGroup.toNat) s with sec := { s.sec with work := some (.arm true) } }
      if headerBad s || (List.range (secWord s 90 1)).any (recordBad s) then armRefuse s
      else secTurn 3 (feedLines s ++ peerLines s) armRefuse armLast s) s
  | _ => s

/-- `ARM` begins; a table that does not fit into own device memory is not touched. -/
def armEngine (s : State) : State :=
  if hdmTop s < secBase s + 0x9000 then s else armGo { s with sec := { s.sec with work := some (.arm false) } }

/-- A chip without Bond ports has no securing engine (R23). -/
def hasSecuring (s : State) : Bool := decide (0 < s.build.bondPorts)

/-- A write of `BND_SEC_CTL`: it is ignored where there is no engine (R23, R686). -/
def secCtl (agent : RegAgent) (value : Word32) (f : Bool → State → State) (s : State) : Out :=
  regCommand agent offSecCtl true (fun s =>
    if hasSecuring s then f (bitOf (reg s offSecCtl) 31) (setReg offSecCtl (secCtlWrite s value) s) else s) s

/-- A write of `BND_SEC_CTL` with `EN` set: the engine is armed where `EN` was 0 (R591). -/
def armWrite (agent : RegAgent) (value : Word32) (s : State) : Out :=
  secCtl agent value (fun was s => if bitOf value 31 && !was then armEngine s else s) s

/-- The word of `BND_SEC_CTL` with `EN` set and the other fields as given (R605). -/
def armWord (feedOvr : Bool) (lag : BitVec 2) (limits : SecLimits) : Word32 :=
  0x80000000 ||| (if feedOvr then 0x40000000 else 0) ||| lag.setWidth 32 <<< 24 ||| limits.dense.setWidth 32 <<< 16 |||
    limits.smallLog2.setWidth 32

/-- ARM (R591): `BND_SEC_CTL` is written with `EN` set. -/
def execArm (agent : RegAgent) (feedOvr : Bool) (lag : BitVec 2) (limits : SecLimits) (s : State) : Out :=
  armWrite agent (armWord feedOvr lag limits) s

/-- The engine stops; a write that it held goes on. -/
def stopEngine (state : Nat) (s : State) : State :=
  settle (setSecState state (secForget { s with sec := { s.sec with work := none, held := [] } }))

/-- SECURING_STOP (R609): `EN` is written 0. -/
def execSecuringStop (agent : RegAgent) (value : Word32) (s : State) : Out :=
  secCtl agent value (fun was s =>
    if !bitOf value 31 && was then
      stopEngine secOff { s with sec := { s.sec with on := false, tensors := [] } }
    else s) s

/-! ## Operations of the engine -/

/-- A number that no page has: the report of a step. -/
def reportMark : Nat := 2 ^ 32

/-- An operation of the work in hand is under way. -/
def secOps (s : State) : Bool := s.ops.any fun o => o.src = .securing

/-- An operation of the engine ended in another status than `OK`: a refill or a resend is a breach (R604); a step, its report and the
report of `RESYNC` fail the engine (R601). -/
def secFail (s : State) : State :=
  let result (op r g : Nat) (s : State) : State := secPut hdrCmd (leBytes 8 (op * 2 ^ 56 + r * 2 ^ 48 + g)) s
  let failed (s : State) : State := raise unitLin srcSecSend 0 none (secBase s) 0 (stopEngine secFailed s)
  match s.sec.work with
  | some (.command 4 g _) => result 4 1 g (failed s)
  | some (.command op g _) => result op 3 g (raise unitLin srcBreach 0 none (secBase s) 0 (stopEngine secBreach s))
  | _ => failed s

/-- Issues an operation of the engine at TC3 (R354). -/
def secIssue (mark : Nat) (kind : OpKind) (gop pa len : Nat) (data : List Byte) (into : List Nat) (s : State) : State :=
  let o := newOp .securing (.secure mark) none kind gop false 3 pa len data [] 0
  if s.sec.work.isNone && mark ≠ reportMark then s
  else match issueOp { o with into := into } s with
    | .ok s => s
    | .error _ => secFail s

/-- Sends a range to another chip in pieces of 256 bytes: puts, or `BXOR`s. -/
def secSend (mark : Nat) (xor : Bool) (pa : Nat) (d : List Byte) (s : State) : State :=
  forEach (List.range (d.length / 256)) (fun i s =>
    secIssue mark (if xor then .atomic else .put) (if xor then gopBXOR else 0) (pa + 256 * i) 256 ((d.drop (256 * i)).take 256) [] s) s

/-! ## A step (R594, R597 to R601) -/

/-- `GATE` follows a change of `GLOBAL` (R599). -/
def moveGate (s : State) : State :=
  let g := secFence s hdrGlobal
  if g = s.sec.seen || secState s = secFailed then s
  else secFmax hdrGate (g + secLag s) { s with sec := { s.sec with seen := g } }

/-- The pending pages of a tensor: those with a bit in either bitmap, as page numbers of device memory. -/
def pendingOf (s : State) (t : SecTensor) : List Nat :=
  ((List.range (tensorPages t)).filter fun p => pageBit s t 0 p || pageBit s t 1 p).map fun p => t.base / 65536 + p

/-- Securing of step n begins: its pages are pending, and the bitmap of step n − 1 records from now on. -/
def beginStep (n : Nat) (s : State) : State :=
  let ts := securedTensors s
  let pages := ts.flatMap (pendingOf s)
  let k := (n + 1) % 2
  let s := { s with sec := { s.sec with work := some (.step n pages), held := pages, current := k } }
  setSecState secSecuring (forEach ts (fun t s => fillBitmap t k false s) s)

/-- The written fraction of a tensor in step n, moved into `DIRTY` (R594). -/
def moveDirty (n : Nat) (t : SecTensor) (s : State) : State :=
  let i := 256 + 64 * t.record + 32
  let set := ((List.range (tensorPages t)).filter fun p => pageBit s t (n % 2) p).length
  let f := set * 65536 / tensorPages t
  let d := secWord s i 2
  secPut i (leBytes 2 (if d ≤ f then d + (f - d) / 8 else d - (d - f) / 8)) s

/-- Step n is secured: `SECURED` rises, and so do the reports on the manager and the deputy (R597, R578). -/
def endStep (n : Nat) (s : State) : State :=
  let s := forEach (securedTensors s) (moveDirty n) s
  let s := secFmax hdrSecured n s
  let s := setSecState secIdle { s with sec := { s.sec with work := none, held := [] } }
  report n s
where
  /-- `FMAX` of a step to the reports. -/
  report (n : Nat) (s : State) : State :=
    let role := secWord s hdrRole 8
    let off := secBase s + 0x1000 + 8 * chipSelf s
    forEach [role % 2 ^ 11, role / 2 ^ 11 % 2 ^ 11] (fun c s =>
      if c = chipSelf s then secFmaxAt off n s
      else secIssue reportMark .atomic gopFMAX (blockKey s c off) 8 (leBytes 8 n) [] s) s

/-- The page that is read next: one that a write waits for, if there is one (R598). -/
def nextPage (s : State) (pages : List Nat) : Option Nat :=
  let lines := (s.home.lineQ ++ s.home.input).map Prod.fst ++ s.home.retryQ.map fun r => r.line
  let waited (p : Nat) : Bool := lines.any fun l => l * 64 / 65536 == p
  (pages.find? waited).orElse fun _ => pages.head?

/-- The lines of a pending page and of its page in image j. -/
def pageLines (s : State) (n page : Nat) : List Nat :=
  match (securedTensors s).find? fun t => decide (t.base / 65536 ≤ page) && decide (page < t.base / 65536 + tensorPages t) with
  | none => []
  | some t => rangeLines (page * 65536) 65536 ++ rangeLines (imageOff s t (n % 2) + (page * 65536 - t.base)) 65536

/-- A pending page is read, written into image j and sent on (R597, steps 2 and 3). -/
def securePage (n page : Nat) (s : State) : State :=
  match (securedTensors s).find? fun t => decide (t.base / 65536 ≤ page) && decide (page < t.base / 65536 + tensorPages t) with
  | none => s
  | some t =>
    let j := n % 2
    let off := page * 65536 - t.base
    let img := imageOff s t j + off
    let (new, p) := secMem s (page * 65536) 65536
    let (old, q) := secMem s img 65536
    if p || (t.assigned == 2 && q) then secFail s
    else
      let s := secStore img new { s with sec := { s.sec with held := s.sec.held.filter (· ≠ page) } }
      if t.assigned = 1 then
        (if secMirror s = 0 then s else secSend page false (areaKey s (secMirror s) (t.areaOff + j * t.size + off)) new s)
      else if secParity s = 0 then s
      else secSend page true (areaKey s (secParity s) (t.areaOff + j * t.span + off)) ((old.zip new).map fun x => x.1 ^^^ x.2) s

/-- The work in hand goes on: `ARM` with what it has read; a step or a command ends once everything has been read and answered. -/
def secAdvance (s : State) : State :=
  match s.sec.work with
  | some (.arm _) => armGo s
  | some (.step n []) =>
    if secOps s then s else secTurn 3 (tableLines (secBase s) ++ allBitmaps s) secFail (fun s => secForget (endStep n s)) s
  | some (.command op g true) =>
    if secOps s then s else secTurn 3 (tableLines (secBase s)) secFail (fun s => secForget (endCommand op g s)) s
  | _ => s
where
  /-- A command ends with `RESULT` done (R602). -/
  endCommand (op g : Nat) (s : State) : State :=
    let s := if op = 2 then secFmax hdrSecured g s else s
    let s := { s with sec := { s.sec with work := none } }
    setSecState secIdle (secPut hdrCmd (leBytes 8 (op * 2 ^ 56 + 2 ^ 48 + g)) s)

/-- The engine may act on its next step: `DONE` and `GLOBAL` allow it (R597). -/
def stepReady (s : State) : Bool :=
  let n := secFence s hdrSecured + 1
  secState s == secIdle && decide (n ≤ secFence s hdrDone) && decide (n - 1 ≤ secFence s hdrGlobal)

/-- The engine goes on with securing: a step begins, or a pending page is secured; a page that a write waits for is read at TC1 (R598). -/
def stepGo (s : State) : State :=
  match s.sec.work with
  | none =>
    if stepReady s then
      secTurn 3 (allBitmaps s) secFail (fun s => secForget (secAdvance (beginStep (secFence s hdrSecured + 1) s))) s
    else secForget s
  | some (.step n pages) =>
    (match nextPage s pages with
    | none => secAdvance s
    | some p => secTurn 1 (pageLines s n p) secFail (fun s =>
        let s := { s with sec := { s.sec with work := some (.step n (pages.filter (· ≠ p))) } }
        settle (secAdvance (secForget (securePage n p s)))) s)
  | some _ => secAdvance s

/-- SECURE_STEP (R597): a step begins once `DONE` and `GLOBAL` allow it; then each action secures one pending page. -/
def execSecureStep (s : State) : Out :=
  .next (if !lintelRuns s || secWaits s then s
    else if !s.sec.on then armGo s
    else secTurn 3 (tableLines (secBase s)) secForget (fun s => stepGo (moveGate s)) s)

/-! ## Commands (R602 to R604) -/

/-- A command that has been taken runs once the engine has read what it needs; it fails where a read cannot be issued. -/
def secRun (op g : Nat) (needs : Nat → State → List Nat) (run : Nat → State → State) (s : State) : State :=
  secTurn 3 (needs g s) secFail (fun s => secAdvance (run g { s with sec := { s.sec with work := some (.command op g true) } })) s

/-- A command of the table is taken while the engine is idle, failed or in breach; a reserved code, and a step above `SECURED`
but for `REFILL`, are refused. -/
def secTake (op : Nat) (needs : Nat → State → List Nat) (run : Nat → State → State) (s : State) : State :=
  let w := secWord s hdrCmd 8
  let o := w / 2 ^ 56
  let g := w % 2 ^ 48
  let st := secState s
  let free : Bool := st == secIdle || st == secFailed || st == secBreach
  let refused (s : State) : State := setSecState secIdle (secPut hdrCmd (leBytes 8 (o * 2 ^ 56 + 2 * 2 ^ 48 + g)) s)
  if s.sec.work.isSome || !free || w / 2 ^ 48 % 256 != 0 || w == 0 then secForget s
  else if o == 0 || decide (4 < o) then secForget (refused s)
  else if o ≠ op then secForget s
  else if op ≠ 2 && decide (secFence s hdrSecured < g) then secForget (refused s)
  else secRun op g needs run (setSecState secRunning { s with sec := { s.sec with work := some (.command op g false) } })

/-- A command of the table, and its going on while it reads; `needs` are the lines that it reads besides the table. A command with a step
is not taken while `CMD` names another one. -/
def secCommand (op : Nat) (step : Option Nat) (needs : Nat → State → List Nat) (run : Nat → State → State) (s : State) : Out :=
  .next (if !s.sec.on || !lintelRuns s || secWaits s then s
    else match s.sec.work with
      | some (.command o g false) => if o = op then secRun op g needs run s else s
      | _ => secTurn 3 (tableLines (secBase s)) secForget (fun s =>
          if (step.getD (secWord s hdrCmd 8 % 2 ^ 48)) == secWord s hdrCmd 8 % 2 ^ 48 then secTake op needs run s else secForget s) s)

/-- RESTORE (R602): image g mod 2 is copied into each tensor. -/
def execRestore (s : State) : Out :=
  secCommand 1 none (fun g s => imageLines s (g % 2)) (fun g s => forEach (securedTensors s) (fun t s => copyMem (imageOff s t (g % 2)) t.base t.size s) s) s

/-- Image j of a tensor on another member, as its own table lays it out: where it lies, and its size up to `n` bytes (R587, R588). -/
def peerImages (s : State) (chip areaOff j n : Nat) : List (Nat × Nat) :=
  (peerRecords s chip areaOff).map fun x => (blockKey s chip (peerWord s chip 80 8 + areaOff + j * x.1), min n x.1)

/-- The ranges from which a refill rebuilds a tensor (R603). -/
def refillSources (s : State) (t : SecTensor) (j : Nat) : List (Nat × Nat) :=
  if t.assigned = 1 then [(areaKey s (secMirror s) (t.areaOff + j * t.size), t.size)]
  else (areaKey s (secParity s) (t.areaOff + j * t.span), t.size) ::
    (secPeers s).flatMap fun c => peerImages s c t.areaOff j t.size

/-- The engine holds zero for the lines of a range: the sums of a refill begin with it. -/
def secBlank (a n : Nat) (s : State) : State :=
  forEach (rangeLines a n) (fun l s => { s with sec := { s.sec with got := tinsert s.sec.got l (zeroBytes 64, false) } }) s

/-- REFILL (R603): the tensor and both images start from zero, and every piece that is read is added to them by exclusive or. -/
def execRefill (s : State) : Out :=
  secCommand 2 none (fun _ s => if (securedTensors s).any (fun t => t.assigned == 2) then peerLines s else []) (fun g s => forEach (securedTensors s) (fun t s =>
    let places := [t.base, imageOff s t 0, imageOff s t 1]
    let srcs := refillSources s t (g % 2)
    let s := forEach places (fun a s => secStore a (zeroBytes t.size) (secBlank a t.size s)) s
    forEach srcs (fun a s => forEach (List.range (a.2 / 256)) (fun i s =>
      secIssue (t.base / 65536 + i / 256) .get 0 (a.1 + 256 * i) 256 [] (places.map fun p => p + 256 * i) s) s) s) s) s

/-- RESEND (R602): image g mod 2 goes into both partner images, or by `BXOR` into both holder buffers. -/
def execResend (s : State) : Out :=
  secCommand 3 none (fun g s => imageLines s (g % 2)) (fun g s => forEach (securedTensors s) (fun t s =>
    let (d, p) := secMem s (imageOff s t (g % 2)) t.size
    if p then secFail s
    else forEach [0, 1] (fun j s =>
      if t.assigned = 1 then
        (if secMirror s = 0 then s else secSend (t.base / 65536) false (areaKey s (secMirror s) (t.areaOff + j * t.size)) d s)
      else if secParity s = 0 then s
      else secSend (t.base / 65536) true (areaKey s (secParity s) (t.areaOff + j * t.span)) d s) s) s) s

/-- RESYNC of a step (R602): image g mod 2 is copied onto the other, bitmaps are cleared, tensors assigned, and the steps renumbered. -/
def execResync (step : Nat) (s : State) : Out :=
  secCommand 4 (some step) (fun g s => imageLines s (g % 2) ++ peerLines s) (fun g s =>
    let s := forEach (securedTensors s) (fun t s =>
      copyMem (imageOff s t (g % 2)) (imageOff s t ((g + 1) % 2)) t.size s) s
    let s := forEach s.sec.tensors (fun t s => fillBitmap t 1 false (fillBitmap t 0 false s)) s
    let n := secWord s hdrArg 8
    let s := secFmax hdrSecured n (assignAll s)
    endStep.report n { s with sec := { s.sec with current := (n + 1) % 2 } }) s

/-- An operation of the engine has ended: a piece that a refill has read is added to its places. -/
def secOpEnded (o : RemoteOp) (st : RStatus) (data : List Byte) (s : State) : State :=
  if !s.sec.on then s
  else if st ≠ .ok then (if s.sec.work.isSome || o.owner = .secure reportMark then secFail s else s)
  else
    let s := if o.kind = .get && s.sec.work.isSome then
        forEach o.into (fun a s => secStore a (((secMem s a data.length).1.zip data).map fun x => x.1 ^^^ x.2) s) s
      else s
    settle (secAdvance s)

/-- An access of the engine has ended: a line that it has read is at hand, and the work goes on once nothing is on its way. -/
def secUnitEnded (o : RemoteOp) (st : RStatus) (data : List Byte) (poison : Bool) (s : State) : State :=
  let use := s.sec.on || s.sec.work.isSome
  let fine : Bool := st = .ok || (st = .poison && o.kind = .get)
  if !use then s
  else if !fine then
    match s.sec.work with
    | some (.arm _) => armRefuse s
    | some _ => secFail s
    | none => secForget s
  else
    let s := if o.kind = .get then { s with sec := { s.sec with got := tinsert s.sec.got (o.pa / 64) (data, poison) } } else s
    if secWaits s then s else settle (secAdvance s)

end Sys2Proof.Machine
end

