-- ==== Sys2Proof/Machine/Remote.lean ====
section
/-! DEFINITION. The end of remote operations (files 07, 08, 09, 12): responses, timeouts, identifiers, and the operations that wait. -/
namespace Sys2Proof.Machine

/-! ## What the end of an operation does at its source -/

/-- An AMO of a core has ended (R413, R282). -/
def amoEnded (n : Nat) (st : RStatus) (data : List Byte) (s : State) : State :=
  match (coreOf s n).wait with
  | some (.amo rd _ dbl _ addr _ (some _)) =>
    if st = .ok then resumeCore n (endWait n (setX rd (extend (if dbl then 8 else 4) true (leNat data))) s)
    else resumeCore n (takeTrap n false causeStoreAccess addr (amoStatus n st s))
  | _ => s

/-- A flush of a core has ended: with a status other than `OK` its fault is still to take (R343). -/
def flushEnded (n : Nat) (o : RemoteOp) (st : RStatus) (s : State) : State :=
  let s := if st = .timeout || st = .hostabsent then
      modCore n (fun c => { c with late := c.late ++ [BitVec.ofNat 64 o.addr] }) s
    else s
  resumeCore n s

/-- The operation under an identifier. -/
def opOfId (s : State) (id : OpId) : Option RemoteOp := s.ops.find? fun o => o.sent && o.id = id

/-- The answer to an operation of another chip leaves by a port toward its source (R277, R566, R573); without one it is dropped, and its
source times out (R576). The chip that answers may be the source itself, where a route leads back to it. -/
def answerChip (chip : Nat) (id : OpId) (srcPort off : Nat) (st : RStatus) (data : List Byte) (poison : Marks) (s : State) : State :=
  if chip = chipSelf s then
    if idCurrent s id then match opOfId s id with
      | some o => send (.response o.src o.tc ⟨id, st, data, poison⟩) s
      | none => s
    else s
  else match routePort s chip off false with
    | some p => bondSend p (.rsp chip id srcPort st data poison false) s
    | none => s

/-! ### Units of the Lintel (log 23) -/

/-- The command of an admin queue by its `OP`. -/
def adminGo (q op : Nat) (s : State) : State :=
  match op with
  | 0x01 => goCtxCreate q s
  | 0x02 => goCtxDestroy q s
  | 0x03 => goRingCreate q s
  | 0x04 => goRingDestroy q s
  | 0x05 => goRingResume q s
  | 0x06 => goQuery q s
  | 0x07 => goPages q s
  | 0x08 => goFenceBind q s
  | 0x09 => goTileBind q s
  | 0x0A => goSchedDone q s
  | _ => s

/-- The front end goes on with an entry that has been read. -/
def entryGo (ring kind : Nat) (s : State) : State :=
  if kind = 0x20 then armWait ring s
  else if kind = 0x21 then schedGo ring s
  else match ringOf s ring with
    | some r => startHod kind r.engine ring s
    | none => s

/-- A unit goes on after an access of its own. -/
def resumeUnit (next : LinNext) (s : State) : State :=
  match next with
  | .entry ring kind => entryGo ring kind s
  | .admin q op => adminGo q op s
  | .enable q => enableQueue q s
  | .wait ring timeout => match waitOf s ring with
    | some w => evalWait w timeout s
    | none => dropFront (ofWait ring) s
  | .bell line => deviceBell line s
  | .record ring seq => if fenceWaits s ring seq then (settleEntry ring seq s).1 else s
  | .fence ring seq => if fenceWaits s ring seq then closeEntry ring seq s else s
  | .done q => adminClose q s
  | .inbox => raiseCore 192 s
  | _ => s

/-- An access of a unit has ended: what it has read, or the status of a record that an admin command writes, is at hand, and the unit goes
on. -/
def unitEnded (next : LinNext) (o : RemoteOp) (st : RStatus) (data : List Byte) (poison : Marks) (s : State) : State :=
  let used : Bool := o.kind = .get || (match next with
    | .admin _ _ => true
    | _ => false)
  match next with
  | .secure => secUnitEnded o st data (decide (poison ≠ 0)) s
  | _ => resumeUnit next (if used then { s with front := s.front ++ [⟨next, o.pa, data, st⟩] } else s)

/-- An operation has ended with a status: its owner takes the result (R286). -/
def opEnded (o : RemoteOp) (st : RStatus) (data : List Byte) (poison : Marks) (s : State) : State :=
  let s := { s with ops := removeFirst (· = o) s.ops }
  let s := if st = .timeout && isHost o.pa && o.kind != .get then countReg offLinDropCnt 1 s else s
  match o.owner, o.src with
  | .cmd seq, .mover n => cmdOpEnded n seq o st data poison s
  | .ring r q, .hod e => hodOpEnded e r q o st data poison s
  | .tag t, .jegon p => jegOpEnded p t st data poison s
  | .coreAmo, .core n => amoEnded n st data s
  | .fence, .core n => flushEnded n o st s
  | .secure _, .securing => secOpEnded o st data s
  | .incoming chip id srcPort _, .bond _ => answerChip chip id srcPort o.pa st data poison s
  | .unit next, _ => unitEnded next o st data poison s
  | _, _ => s

/-! ## Operations that wait (R278, R383, R576, R650) -/

/-- An operation from another chip meets a granule that is changing: its check waits (R650). -/
def granuleWaits (s : State) (o : RemoteOp) : Bool :=
  match o.src, placeOf s o.pa with
  | .bond _, .dev off => changing s off
  | _, _ => false

/-- The route of a waiting operation, with the access table for those of other chips (R646). -/
def routeNow (s : State) (o : RemoteOp) : Except RStatus (Nat × Nat × Option Nat) :=
  match o.owner, o.src, placeOf s o.pa with
  | .fence, .core n, _ => .ok ((homePath (.core n)).1, (homePath (.core n)).2, none)
  | _, .bond _, .dev off => if admits s .bond off then opRoute s o else .error .denied
  | _, _, _ => opRoute s o

/-- An ordered operation waits behind an earlier one of its source and chip (R278, R336): one that has left, or one that stands before it
in waiting. -/
def staysHeld (s : State) (before : List RemoteOp) (o : RemoteOp) (port : Option Nat) : Bool :=
  s.ops.any (fun e => e.sent && waitsBehind o e port) || before.any (fun e => !e.sent && waitsBehind o e port)

/-- The first waiting operation that can leave or that ends now; none where all wait on. -/
def firstWaiting (s : State) : List RemoteOp → List RemoteOp → Option State
  | _, [] => none
  | before, o :: rest =>
    if o.sent || granuleWaits s o then firstWaiting s (before ++ [o]) rest
    else match routeNow s o with
      | .error st => some (opEnded o st [] 0 s)
      | .ok (path, unit, port) =>
        if staysHeld s before o port then firstWaiting s (before ++ [o]) rest
        else match takeId path unit s with
          | some (id, s') =>
            some (launch { o with id := id, port := port, held := false } { s' with ops := removeFirst (· = o) s'.ops })
          | none => firstWaiting s (before ++ [o]) rest

def pumpOpsFor : Nat → State → State
  | 0, s => s
  | n + 1, s => match firstWaiting s [] s.ops with
    | some s' => pumpOpsFor n s'
    | none => s

/-- Requests of Jegon engines that wait for an identifier go on where one is free. -/
def pumpJegons (s : State) : State :=
  forEach (List.range s.build.jegonPorts) (fun p s =>
    let s := forEach (jegonOf s p).fills (fun x s => jegFill p x.2.1 (fun f => f) s) s
    if (jegonOf s p).barrier.isSome then s
    else forEach ((jegonOf s p).heldMsgs.filter fun m => !jegWaits s p m.tag) (fun m s =>
      if (jegonOf s p).barrier.isSome then s else jegGo p m s) s) s

/-- Whatever waits for an identifier or behind another operation leaves where it can (R278, R336, R383). -/
def pumpOps (s : State) : State :=
  pumpRereads 64 (pumpJegons (pumpCores (pumpOpsFor (2 * s.ops.length + 16) s)))

/-! ## Responses and timeouts (R286, R291, R339, R384) -/

/-- An operation that has left ends: its identifier is released, and what waited goes on. -/
def finishOp (o : RemoteOp) (quarantine : Bool) (st : RStatus) (data : List Byte) (poison : Marks) (s : State) : State :=
  pumpOps (opEnded o st data poison (releaseId o.id quarantine s))

/-- Ends every operation that has left and meets a condition with `TIMEOUT`; their identifiers are quarantined (R340, R385, R508, R576). -/
def timeoutOps (p : RemoteOp → Bool) (s : State) : State :=
  pumpOps (forEach (s.ops.filter fun o => o.sent && p o) (fun o s =>
    if s.ops.contains o then opEnded o .timeout [] 0 (releaseId o.id true s) else s) s)

/-- Ends every operation that meets a condition with `TIMEOUT`, also one that has still to leave: its target has entered reset (R340). -/
def timeoutAll (p : RemoteOp → Bool) (s : State) : State :=
  pumpOps (forEach (s.ops.filter p) (fun o s =>
    if s.ops.contains o then opEnded o .timeout [] 0 (if o.sent then releaseId o.id true s else s) else s) s)

/-- REMOTE_RESPONSE (R286, R384): the operation under the identifier completes with its status; a message of an old generation is
dropped and counted. -/
def execRemoteResponse (rsp : Response) (s : State) : Out :=
  .next (if !idCurrent s rsp.id then pumpOps (dropStale rsp.id s)
    else match opOfId s rsp.id with
      | some o => finishOp o false rsp.status rsp.data rsp.poison s
      | none => s)

/-- REMOTE_TIMEOUT (R339): an operation to another chip gets no response. -/
def execRemoteTimeout (id : OpId) (s : State) : Out :=
  .next (match opOfId s id with
    | some o => if id.path = pathBond then finishOp o true .timeout [] 0 s else s
    | none => s)

/-! ### Coherence, the host and the stacks (R364, R368, R369, R379 to R384, R423) -/

/-- A message that carries an identifier: of an old generation it is dropped and counted, and otherwise it has its effect; then whatever
waits for an identifier goes on (R384). -/
def answered (id : OpId) (f : State → State) (s : State) : State :=
  pumpOps (if idCurrent s id then f s else dropStale id s)

/-- FORWARDED_DATA (R369, R384). -/
def execForwardedData (agent pa : Nat) (dirty : Bool) (line : LineData) (id : OpId) (s : State) : Out :=
  onUnit (hasAgent s agent) s
    (answered id (fillAnswer agent (pa / 64) id (fun f => { f with data := some (line.data, dirty, line.poison) })) s)

/-- REQUEST_COMPLETION (R368, R369, R384). Whether the data comes from an owner makes no difference to a requester that waits for both
parts. -/
def execRequestCompletion (agent pa : Nat) (done : Granted) (s : State) : Out :=
  onUnit (hasAgent s agent) s
    (answered done.id (fillAnswer agent (pa / 64) done.id (fun f => { f with grant := some done.grant })) s)

/-- WRITEBACK_ACK (R364, R384): the agent leaves the write-back-pending condition. -/
def execWritebackAck (agent : Nat) (line : LineId) (s : State) : Out :=
  onUnit (hasAgent s agent) s (answered line.id (wbDone agent (line.pa / 64) line.id) s)

/-- HOST_CACHE_RESPONSE (R379, R384). -/
def execHostCacheResponse (line : LineId) (state : HState) (data : List Byte) (poison : Bool) (s : State) : Out :=
  .next (answered line.id (hostGrants line.id (hostKey line.pa / 64) state data poison) s)

/-- The queues that are being enabled go on (R522). -/
def enablesGo (s : State) : State := forEach [0, 1, 2] enableQueue s

/-- DOORBELL_REREAD_DONE (R384, R488, R489, R491): the words of the line go to its rings, and a queue that is being enabled with its doorbell
there goes on (R522). -/
def execDoorbellRereadDone (line : LineId) (data : List Byte) (poison : Bool) (s : State) : Out :=
  let awaited := ((watchOf s (line.pa / 64)).bind fun w => w.rereading) == some line.id
  .next (answered line.id (fun s =>
    let s := rereadDone line.id line.pa data poison s
    if awaited then enablesGo s else s) s)

/-- BIRSP (R380, R384). -/
def execBirsp (line : LineId) (ans : BiAnswer) (s : State) : Out :=
  .next (answered line.id (biAnswered line.id (line.pa / 64) ans) s)

/-- BI_TIMEOUT (R381). -/
def execBiTimeout (pa : Nat) (s : State) : Out := .next (pumpOps (biLate (pa / 64) s))

/-- STACK_READ_DONE (R384, R423, R424). -/
def execStackReadDone (line : LineId) (outcome : ReadOutcome) (place : DramPlace) (s : State) : Out :=
  .next (answered line.id (readDone line.id line.pa outcome place) s)

/-! ### Host operations (R339, R460, R508) -/

/-- The use of an identifier toward the host ends by a timeout (R339, R385): an operation, the request of a home for a line, or a re-read
of a watched line, also where it is watched no longer. -/
def hostIdTimeout (id : OpId) (s : State) : State :=
  match opOfId s id with
  | some o => finishOp o true .timeout [] 0 s
  | none => match s.home.txns.find? fun p => p.2.hostWait == some id with
    | some (line, t) => pumpOps (settle (failHostTxn .timeout line { t with hostWait := none } (releaseId id true s)))
    | none => match s.watches.find? fun p => p.2.rereading == some id with
      | some (l, w) =>
        let s := setWatch l { w with rereading := none, again := false } (releaseId id true s)
        pumpOps (if w.again then ringLine l s else s)
      | none => if s.home.txns.any (fun p => p.2.biWait == some id) then s else pumpOps (releaseId id true s)

/-- Host operations that have no identifier: a request that waits at the home of its line, by the number of the host line, and a translation
request, by its PASID and page (log 29). -/
def hostTimeout (unit index : Nat) (s : State) : State :=
  if unit = 1 then
    let line := hostKey (index * 64) / 64
    match s.home.lineQ.find? (fun p => p.1 == line && timed p.2) with
    | some p => settle (endHostReq .timeout line p.2
        { s with home := { s.home with lineQ := removeFirst (· = p) s.home.lineQ } })
    | none => s
  else
    let mine (r : XltReq) : Bool := r.sent && r.pasid * 2 ^ 52 + r.page == index
    match s.xlat.reqs.find? mine with
    | some r =>
      pumpXlt (forEach r.waiters failAccess { s with xlat := { s.xlat with reqs := removeFirst mine s.xlat.reqs } })
    | none => s
where
  /-- A waiting request that reads or writes host memory for its requester (R339, R418). -/
  timed : Req → Bool
    | .share _ _ _ => true
    | .own _ _ _ => true
    | .peek _ _ _ _ _ => true
    | .push _ _ => true
    | .atomic _ _ => true
    | _ => false

/-- LINTEL_COMPLETION_TIMEOUT (R339). -/
def execLintelCompletionTimeout (id : OpId) (s : State) : Out :=
  .next (if id.path ≠ pathHost then s
    else if id.unit = 0 then (if idCurrent s id then hostIdTimeout id s else s)
    else pumpOps (hostTimeout id.unit id.index s))

/-! ## Arbiters and quarantines (R360, R385) -/

/-- ARBITER_AGE_EXPIRY (R360): the message of TC1 to TC3 that waits at an arbiter goes ahead of all but TC0 ones. `index` is its place among
the waiting messages. -/
def execArbiterAgeExpiry (index : Nat) (s : State) : Out :=
  .next (match s.mortar.waiting[index]? with
    | some p =>
      if p.tc = 0 then s
      else runMortar (modMortar (fun m => { m with waiting := m.waiting.set index { p with aged := true } }) s)
    | none => s)

/-- IDENTIFIER_QUARANTINE_END (R385). -/
def execIdentifierQuarantineEnd (path unit index : Nat) (s : State) : Out :=
  .next (
    let d := identOf s path unit index
    if d.quarantined then pumpOps (setIdent path unit index { d with quarantined := false } s) else s)

/-! ## Slice maintenance (R404, R405) -/

def offGroutMaint : Nat := 0xD000000000

/-- An agent that reaches the Grout windows: the control cores and the Kiln (R281). -/
def windowAgent : RegAgent → Bool
  | .core k => k < 8
  | .kiln => true
  | _ => false

/-- Writes `CMD` of a slice with an operation code. -/
def startCode (agent : RegAgent) (slice op : Nat) (s : State) : Out :=
  onUnit (hasStack s slice) s
    (if windowAgent agent then windowWrite (.maint slice 0) (BitVec.ofNat 64 (2 ^ 56 + op * 2 ^ 48)) s else s)

/-- CLEAN_ALL (R405). -/
def execCleanAll (agent : RegAgent) (slice : Nat) (s : State) : Out := startCode agent slice 1 s
/-- FLUSH_ALL (R405). -/
def execFlushAll (agent : RegAgent) (slice : Nat) (s : State) : Out := startCode agent slice 2 s
/-- CLEAN_RANGE (R405). -/
def execCleanRange (agent : RegAgent) (slice : Nat) (s : State) : Out := startCode agent slice 3 s
/-- FLUSH_RANGE (R405). -/
def execFlushRange (agent : RegAgent) (slice : Nat) (s : State) : Out := startCode agent slice 4 s

/-- MAINTENANCE_DONE (R405): the walk ends, unless a covered line has an open transaction. -/
def execMaintenanceDone (slice : Nat) (s : State) : Out :=
  onUnit (hasStack s slice) s ((finishMaint slice s).getD s)

/-! ## Faults of Jegon engines (R613) -/

/-- JEGON_FAULT_REPORT (R613, R549): the port's source is raised with the level and the context that the engine names; what follows from
its severity follows when the fault is collected. A report of loss loses the context at once. -/
def execJegonFaultReport (port : Nat) (source : BitVec 4) (level : BitVec 3) (ctx : Option Nat) (loss : Bool) (s : State) : Out :=
  onUnit (hasJegon s port) s
    (if (jegonOf s port).reset then s
     else
       let y : Syndrome := {
         source := 0x60 + port, part := .lintel, instance_ := port, ctx := ctx, addr := 0,
         stamp := stampOf s (unitDomain (unitJegon port)), detail := BitVec.ofNat 64 (source.toNat + level.toNat * 16),
         level := some level.toNat }
       let s := raiseSyn (unitJegon port) y s
       match ctx with
       | some c => if loss then loseContext c s else s
       | none => s)

end Sys2Proof.Machine
end

