-- ==== Sys2Proof/Machine/Bond.lean ====
section
/-! DEFINITION. Bond ports (files 07, 14): negotiation, frames, relaying, ports going down, routes and chip numbers. -/
namespace Sys2Proof.Machine

/-! ## Registers (R605 to R608) -/

/-- `BND_STATE` of a port (R607). -/
def bndState (s : State) (p : Nat) : Word32 :=
  let b := bondOf s p
  BitVec.ofNat 32 (b.state.toNat * 2 ^ 28 + b.lanes.toNat * 2 ^ 26 + b.rate.toNat * 2 ^ 24 + b.level.toNat * 2 ^ 21 +
    b.partnerChip.toNat * 2 ^ 10 + b.partnerPort.toNat * 2 ^ 5 + b.cause.toNat * 2 ^ 2)

def bndEn (s : State) (p : Nat) : Bool := bitOf (reg s (offBnd p)) 31
def bndDateline (s : State) (p : Nat) : Bool := bitOf (reg s (offBnd p)) 30

/-- A capability code: 0b11 acts as 0b00 (R606). -/
def capCode (n : Nat) : Nat := if n = 3 then 0 else n
def laneCap (s : State) (p : Nat) : Nat := capCode (fieldOf (reg s (offBnd p)) 29 28)
def rateCap (s : State) (p : Nat) : Nat := capCode (fieldOf (reg s (offBnd p)) 27 26)

/-- The codes of a mask at or below a cap: bit k stands for code k. -/
def capMask (m : BitVec 3) (cap : Nat) : BitVec 3 := BitVec.ofNat 3 (m.toNat / 2 ^ cap * 2 ^ cap)

/-- Adds one to a 16-bit half of `BND_ERR_CNT`, saturating (R608). -/
def countErr (p lo : Nat) (s : State) : State :=
  let v := reg s (offBndErr p)
  let n := fieldOf v (lo + 15) lo
  if n = 0xFFFF then s else setReg (offBndErr p) (v + BitVec.ofNat 32 (2 ^ lo)) s

/-! ## Ports going down (R576, R577) -/

/-- The operations of this chip that a port still queues have not been sent: they wait for a route again. -/
def unqueueOps (p : Nat) (s : State) : State :=
  let ids := (bondOf s p).txQ.filterMap fun m => match m with
    | .op _ _ _ _ src _ hop _ _ _ _ _ id sp _ => if src = chipSelf s && hop = 0 && sp = p then some id else none
    | .rsp _ _ _ _ _ _ _ => none
  let s := forEach ids (fun id s => releaseId id false s) s
  let undo (o : RemoteOp) : RemoteOp := if o.sent && ids.contains o.id then { o with sent := false, port := none } else o
  { s with ops := s.ops.map undo }

/-- A port goes down with a cause (R576, R577); one that was not running only records it. -/
def bondDown (p : Nat) (cause : BitVec 3) (s : State) : State :=
  let b := bondOf s p
  let running : Bool := b.state != 0 && b.state != 5
  let s := unqueueOps p s
  let to_ : BitVec 4 := if cause = 7 then 0 else 5
  let s := modBond p (fun b => { bondDefault p with
    state := to_, cause := cause, lanes := b.lanes, rate := b.rate, level := b.level, partnerChip := b.partnerChip,
    partnerPort := b.partnerPort }) s
  let s := timeoutOps (fun o => o.port = some p) s
  if running then raise (unitBond p) srcBondDown p none 0 ((bndState s p).setWidth 64) s else s

/-! ## Negotiation (R563, R564) -/

/-- BOND_ENABLE (R563, R606): `BND_CTL` is written; `EN` going to 1 starts the port, going to 0 takes it down. -/
def execBondEnable (agent : RegAgent) (port : Nat) (value : Word32) (s : State) : Out :=
  regCommand agent (offBnd port) (hasBond s port) (fun s =>
    let was := bndEn s port
    let s := setReg (offBnd port) (value &&& 0xFC000000) s
    if bitOf value 31 && !was then modBond port (fun b => { b with state := 1, laneMask := 0, rateMask := 0 }) s
    else if !bitOf value 31 && was then bondDown port 7 s
    else s) s

/-- BOND_LANES_TRAINED (R563, step 1): a port of a chip without a valid number goes no further (R564). -/
def execBondLanesTrained (port : Nat) (laneMask rateMask : BitVec 3) (s : State) : Out :=
  onUnit (hasBond s port) s
    (let b := bondOf s port
     if b.state == 1 || b.retraining then
       modBond port (fun b => { b with
         laneMask := capMask laneMask (laneCap s port), rateMask := capMask rateMask (rateCap s port),
         state := if b.retraining then b.state else if chipValid s then 2 else 1 }) s
     else s)

/-- The architecture level of `GLB_VERSION`. -/
def archLevel : Nat := 1

/-- CAPABILITY_SEND (R563, step 2). A port that has settled goes on sending until its keys are in, since its partner may have missed its
earlier frames (DEDUCED, log 37). -/
def execCapabilitySend (port : Nat) (s : State) : Out :=
  onUnit (hasBond s port) s
    (let b := bondOf s port
     if b.state == 2 || b.state == 3 || b.retraining then
       send (.capability port ⟨archLevel, b.laneMask, b.rateMask, chipSelf s, chipValid s, port⟩) s
     else s)

/-- The lowest code of a mask: the largest lane count, or the highest rate. -/
def lowestCode (m : BitVec 3) : Option Nat := (List.range 3).find? fun k => bitOf m k

/-- CAPABILITY_FRAME (R563, step 3; R564): the port settles on what both sides have; a partner of level 0 or without a valid number is
refused. -/
def execCapabilityFrame (port : Nat) (cap : Capability) (s : State) : Out :=
  onUnit (hasBond s port) s
    (let b := bondOf s port
     if !(b.state == 2 || b.retraining) || cap.level = 0 || !cap.valid then s
     else match lowestCode (b.laneMask &&& cap.laneMask), lowestCode (b.rateMask &&& cap.rateMask) with
      | some l, some r =>
        modBond port (fun b => { b with
          lanes := BitVec.ofNat 2 l, rate := BitVec.ofNat 2 r, level := BitVec.ofNat 3 (min archLevel cap.level),
          partnerChip := BitVec.ofNat 11 cap.self, partnerPort := BitVec.ofNat 5 cap.port,
          state := if b.retraining then b.state else 3 }) s
      | _, _ => s)

/-- NEGOTIATION_TIMEOUT (R564). -/
def execNegotiationTimeout (port : Nat) (s : State) : Out :=
  onUnit (hasBond s port) s
    (let b := bondOf s port
     if b.state == 2 || b.state == 3 then bondDown port 6 s else s)

/-- BOND_RESTART (R564): a port that is down starts again while `EN` is 1. -/
def execBondRestart (port : Nat) (s : State) : Out :=
  onUnit (hasBond s port) s
    (if (bondOf s port).state == 5 && bndEn s port then modBond port (fun b => { b with state := 1 }) s else s)

/-! ## Keys (R570, R642) -/

/-- The key, or the salt, of a direction: label, the two chip numbers, the direction and the count of key updates. -/
def bondKey (label secret src dst updates : Nat) : Nat := Config.hkdf secret [label, src, dst, updates]

/-- Installs a pair of keys in place `i` of both directions. -/
def installKeys (p i : Nat) (s : State) : State :=
  let me := chipSelf s
  modBond p (fun b =>
    let him := b.partnerChip.toNat
    { b with
      keys := tinsert (tinsert b.keys i (bondKey 0 b.secret me him b.updates)) (2 + i) (bondKey 0 b.secret him me b.updates),
      salts := tinsert (tinsert b.salts i (bondKey 1 b.secret me him b.updates % 2 ^ 32)) (2 + i)
        (bondKey 1 b.secret him me b.updates % 2 ^ 32) }) s

/-- BOND_KEYS_INSTALLED (R563, steps 4 and 5; R642): the Kiln accepts a partner whose chain verifies, whose version is at least its own
fused minimum and whose number is the one that it reported; both keys are installed and the first encrypted frame leaves. -/
def execBondKeysInstalled (port : Nat) (keying : Keying) (s : State) : Out :=
  onUnit (hasBond s port) s
    (let b := bondOf s port
     if b.state == 3 && keying.chainOk && decide (s.kiln.fuses.minVersion ≤ keying.version) && keying.self == b.partnerChip.toNat then
       let s := modBond port (fun b => { b with
         secret := keying.secret, updates := 0, key := false, rxKey := false, txNum := 0, rxNum := 0, state := 4 }) s
       pumpOps (sendFrame port [] (installKeys port 0 s))
     else s)

/-- NEXT_KEY_INSTALL (R570): the next key enters the unused place of the pair, to which the transmitter changes at a frame boundary. A place
that either direction still uses is not unused. -/
def execNextKeyInstall (port : Nat) (s : State) : Out :=
  onUnit (hasBond s port) s
    (let b := bondOf s port
     if b.state == 4 && !keyDue b && b.rxKey == b.key then
       let s := installKeys port (if b.key then 0 else 1) (modBond port (fun b => { b with updates := b.updates + 1 }) s)
       modBond port turned s
     else s)

/-- KEY_NOT_READY (R570). -/
def execKeyNotReady (port : Nat) (s : State) : Out :=
  onUnit (hasBond s port) s (if (bondOf s port).state == 4 then bondDown port 5 s else s)

/-! ## Messages of a frame (R276, R277, R566, R573) -/

/-- An operation from another chip is performed here: refused where its source is not accepted (R277) or the access table does not
admit it (R646). -/
def arriveOp (p : Nat) (kind : OpKind) (gop : Nat) (ord : Bool) (tc : BitVec 2) (src off len : Nat) (data comparand : List Byte)
    (poison : Marks) (id : OpId) (srcPort hop : Nat) (s : State) : State :=
  if !bitOf (reg s (offRoute src)) 30 then answerChip src id srcPort off .denied [] 0 s
  else
    let o := newOp (.bond p) (.incoming src id srcPort hop) none kind gop ord tc off len data comparand poison
    pumpOps { s with ops := s.ops ++ [o] }

/-- The channel half on which a relayed message leaves (R573). -/
def relayVc (s : State) (vc1 : Bool) (out : Nat) : Bool := vc1 || bndDateline s out

/-- A port still holds an ordered operation of a pair of chips: it has not left, or its arrival is not acknowledged. -/
def holdsPair (s : State) (src dst p : Nat) : Bool :=
  let b := bondOf s p
  (b.txQ ++ b.kept.flatMap fun f => f.msgs).any fun m => match m with
    | .op _ _ ord _ a c _ _ _ _ _ _ _ _ _ => ord && a == src && c == dst
    | .rsp _ _ _ _ _ _ _ => false

/-- The port on which an operation is relayed (R276): the ordered operations of one pair of chips stay on one port, also after a change of
the primary one. -/
def relayPort (s : State) (src dst off : Nat) (ord : Bool) : Option Nat :=
  let held := if ord then (List.range s.build.bondPorts).find? fun p => bondUp s p && holdsPair s src dst p else none
  match held with
  | some p => some p
  | none => routePort s dst off ord

/-- A message that has arrived is delivered or relayed; its slots are returned to the partner. -/
def takeMsg (p : Nat) (m : BondMsg) (s : State) : State :=
  let s := modBond p (fun b => { b with owed := tset zeroOf b.owed (msgChannel m) (tget zeroOf b.owed (msgChannel m) + msgSlots m) }) s
  match m with
  | .op k gop ord tc src dst hop off len data cmp poison id sp vc1 =>
    if dst = chipSelf s then arriveOp p k gop ord tc src off len data cmp poison id sp hop s
    else if hop = 15 then answerChip src id sp off .noroute [] 0 s
    else match relayPort s src dst off ord with
      | some out => bondSend out (.op k gop ord tc src dst (hop + 1) off len data cmp poison id sp (relayVc s vc1 out)) s
      | none => answerChip src id sp off .noroute [] 0 s
  | .rsp dst id sp st data poison vc1 =>
    if dst = chipSelf s then
      if !idCurrent s id then dropStale id s
      else match opOfId s id with
        | some o => send (.response o.src o.tc ⟨id, st, data, poison⟩) (countCtx o.ctx cntBondRx (16 * msgSlots m) s)
        | none => s
    else match routePort s dst 0 false with
      | some out => bondSend out (.rsp dst id sp st data poison (relayVc s vc1 out)) s
      | none => s

/-! ## Frames (R567 to R572) -/

/-- The kept frames without those at the front that `ACK` covers: it is the number of the next frame that the partner expects, which lies
among the numbers sent. -/
def acked (ack : Nat) : List SentFrame → List SentFrame
  | [] => []
  | f :: fs =>
    let d := (ack + 65536 - f.seq % 65536) % 65536
    if 1 ≤ d && d ≤ fs.length + 1 then acked ack fs else f :: fs

/-- What a receiver makes of a frame (R568): dropped where the CRC or the tag fails, with a replay asked for; a frame out of its turn, or
under a key that has been left, is dropped, one that was lost is asked for. -/
inductive Check where
  | ok (s : State)
  | dropped (s : State)

def checkFrame (p : Nat) (f : Frame) (s : State) : Check :=
  let b := bondOf s p
  if b.state != 4 then .dropped s
  else if !f.crcOk then .dropped (send (.bondReplayRequest p) (countErr p 0 s))
  else if !f.tagOk then
    let s := raise (unitBond p) srcBondAuth p none 0 ((bndState s p).setWidth 64)
      (send (.bondReplayRequest p) (countReg (offBndAuth p) 1 s))
    .dropped (if f.fourth then bondDown p 3 s else s)
  else if f.version ≠ 1 then .dropped s
  else
    let num := if f.key = b.rxKey then b.rxNum else 0
    let want := BitVec.ofNat 16 num
    if f.key ≠ b.rxKey && f.key ≠ latestKey b then .dropped s
    else if f.seq = want then
      let c := f.crdVc.toNat
      .ok (modBond p (fun b => { b with
        rxKey := f.key, rxNum := num + 1, kept := acked f.ack.toNat b.kept,
        credits := tset creditDefault b.credits c (min 256 (tget creditDefault b.credits c + f.crdN)) }) s)
    else if (f.seq - want).toNat < 32768 then .dropped (send (.bondReplayRequest p) s)
    else .dropped s

/-- What arrived credits and acknowledgements let leave, under the next key where it is due. -/
def pumpPort (p : Nat) (s : State) : State := bondPump p ((bondOf s p).txQ.length) (modBond p turned s)

/-- DATA_FRAME (R568, R572). -/
def execDataFrame (port : Nat) (frame : Frame) (s : State) : Out :=
  onUnit (hasBond s port) s (match checkFrame port frame s with
    | .dropped s => s
    | .ok s => pumpPort port (forEach frame.msgs (takeMsg port) s))

/-- HEARTBEAT_FRAME (R571). -/
def execHeartbeatFrame (port : Nat) (frame : Frame) (s : State) : Out :=
  onUnit (hasBond s port) s (match checkFrame port frame s with
    | .dropped s => s
    | .ok s => pumpPort port s)

/-- FATAL_FRAME (R571): the partner's port takes this port down. -/
def execFatalFrame (port : Nat) (frame : Frame) (s : State) : Out :=
  onUnit (hasBond s port) s (match checkFrame port frame s with
    | .dropped s => s
    | .ok s => bondDown port 4 s)

/-- REPLAY_TIMEOUT (R569): the oldest kept frame is replayed; after eight replays of it the port retrains. -/
def execReplayTimeout (port : Nat) (s : State) : Out :=
  onUnit (hasBond s port) s
    (let b := bondOf s port
     match b.kept with
     | [] => s
     | f :: fs =>
       if b.state != 4 || b.retraining then s
       else if 8 ≤ f.replays then modBond port (fun b => { b with retraining := true }) s
       else
         let s := modBond port (fun b => { b with kept := { f with replays := f.replays + 1 } :: fs }) s
         send (.bondReplay port f.seq) (countErr port 16 s))

/-- BOND_RETRAIN_DONE (R569, R607): a retrain within the window keeps the port up with its keys and frames. -/
def execBondRetrainDone (port : Nat) (inWindow : Bool) (s : State) : Out :=
  onUnit (hasBond s port) s
    (let b := bondOf s port
     if !b.retraining then s
     else if inWindow then
       pumpPort port (modBond port (fun b => { b with
         retraining := false, kept := b.kept.map fun (f : SentFrame) => { f with replays := 0 } }) s)
     else bondDown port 2 s)

/-- PORT_SILENT_TIMEOUT (R565, R607). -/
def execPortSilentTimeout (port : Nat) (s : State) : Out :=
  onUnit (hasBond s port) s
    (let b := bondOf s port
     if b.state == 4 then bondDown port (if b.retraining then 2 else 1) s else s)

/-- HEARTBEAT_TIMER (R571): an up port that has been silent sends a heartbeat frame. It takes a number and is kept like a data frame
(log 30). A port that waits to change its key sends none. -/
def execHeartbeatTimer (port : Nat) (s : State) : Out :=
  onUnit (hasBond s port) s
    (let b := bondOf s port
     if b.state != 4 || b.retraining || keyDue b then s
     else
       let (vc, n, owed) := takeOwed b
       send (.bondHeartbeat port b.txNum b.key (BitVec.ofNat 16 b.rxNum) vc n)
         (modBond port (fun b => { b with owed := owed, txNum := b.txNum + 1, kept := b.kept ++ [⟨b.txNum, b.key, [], 0⟩] }) s))

/-- A chip that has latched a block-fatal fault: each up port sends one fatal frame and stops (R571, R617). -/
def bondsFatal (s : State) : State :=
  forEach (List.range s.build.bondPorts) (fun p s =>
    let b := bondOf s p
    if b.state == 4 then bondDown p 7 (send (.bondFatal p b.txNum b.key) s) else s) s

/-! ## Routes and the chip number (R268, R269, R272, R278) -/

/-- The primary port of the route to a chip has changed: ordered operations that are on their way there hold back later ones of their source
(R278). -/
def movePrimary (chip : Nat) (s : State) : State :=
  let there (o : RemoteOp) : Bool := match placeOf s o.pa with
    | .remote c _ => c == chip
    | _ => false
  { s with ops := s.ops.map fun o => if o.ord && o.sent && there o then { o with moved := true } else o }

/-- ROUTE_WRITE (R272, R278): operations that wait look at their route again. -/
def execRouteWrite (agent : RegAgent) (chip : Nat) (value : Word32) (s : State) : Out :=
  regCommand agent (offRoute chip) (decide (chip < 2048)) (fun s =>
    let old := fieldOf (reg s (offRoute chip)) 22 18
    let s := setReg (offRoute chip) (value &&& 0xC07FFFFF) s
    pumpOps (if fieldOf value 22 18 = old then s else movePrimary chip s)) s

/-- A `MOR_CHIP` that may set `VALID` (R268). -/
def chipOk (s : State) (v : Word32) : Bool :=
  let n := fieldOf v 27 16
  n != 0 && decide (n ≤ 2048) && decide (fieldOf v 10 0 < n) && decide (fieldOf (reg s offWindow) 16 0 + n ≤ 2 ^ 17)

/-- CHIP_VALID_WRITE (R268, R269, R564): the number is fixed once it is valid, and Bond ports that have trained begin to negotiate. -/
def execChipValidWrite (agent : RegAgent) (value : Word32) (s : State) : Out :=
  regCommand agent offChip true (fun s =>
    if s.sealed_ || chipValid s || (bitOf value 31 && !chipOk s value) then s
    else
      let s := setReg offChip (value &&& 0x8FFF07FF) s
      if bitOf value 31 then
        forEach (List.range s.build.bondPorts) (fun p s =>
          let b := bondOf s p
          if b.state == 1 && b.laneMask != 0 then modBond p (fun b => { b with state := 2 }) s else s) s
      else s) s

end Sys2Proof.Machine
end

