-- ==== Sys2Proof/Machine/Power.lean ====
section
/-! DEFINITION. Clock domains, operating points of the Courses and the power limit (file 17, R432, R661 to R667, R675 to R678). -/
namespace Sys2Proof.Machine

/-! ## Operating points (R675, R677) -/

/-- The tensor clock of level 0 in units of 125 MHz. -/
def topFreq (s : State) : Nat := s.build.tensorClkMax / 125

/-- Levels that lower the clock. -/
def clockSteps (s : State) : Nat := topFreq s - 2

/-- The lowest level: 250 MHz at 2/16. -/
def lowestLevel (s : State) : Nat := clockSteps s + 14

/-- The operating point of a level: clock in units of 125 MHz, duty in sixteenths. -/
def pointOf (s : State) (l : Nat) : Nat × Nat :=
  if l ≤ clockSteps s then (topFreq s - l, 16) else (2, 16 - (l - clockSteps s))

/-- The highest throttle level of the stacks below a Course (R432). -/
def couplingOf (s : State) (c : Nat) : Nat :=
  let m := s.build.stackMask.getD c 0
  (List.range s.build.stackCount).foldl (fun l n => if m / 2 ^ n % 2 = 1 then max l (ctlOf s n).level else l) 0

/-- The level for which stack coupling calls (R430): half of the top clock, or 250 MHz. -/
def couplingLevel (s : State) (c : Nat) : Nat :=
  match couplingOf s c with
  | 2 => topFreq s - max 2 (topFreq s / 2)
  | 3 => clockSteps s
  | _ => 0

/-- `PX_THROTTLE_REQ` is taken as active. -/
def throttled (s : State) : Bool := bitOf s.flt.active 0 && !bitOf s.flt.masked 0

/-- The level of a Course: the lowest point that anything calls for. -/
def courseLevel (s : State) (c : Nat) : Nat :=
  max (max s.clk.level (couplingLevel s c)) (if throttled s then lowestLevel s else 0)

/-- What acts on a Course (R684): power limit, `PX_THROTTLE_REQ`, coupling, `PX_EXT_STOP`. -/
def courseCause (s : State) (c : Nat) : BitVec 4 :=
  BitVec.ofNat 4 (b2n (decide (0 < s.clk.level)) + 2 * b2n (throttled s) + 4 * b2n (decide (0 < couplingLevel s c)) +
    8 * b2n (extStopped s))

/-- A Course that is on moves to its point: duty at once, the clock by a request to the generator, during which it runs at 2/16
(R664). -/
def setPoint (c : Nat) (s : State) : State :=
  let x := courseOf s c
  let (f, d) := pointOf s (courseLevel s c)
  let s := modCourse c (fun x => { x with cause := courseCause s c }) s
  if !x.live || x.freqReq.isSome then s
  else if x.freq = f then modCourse c (fun x => { x with duty := d }) s
  else send (.freqRequest c f) (modCourse c (fun x => { x with freqReq := some f, duty := 2 }) s)

def setPoints (s : State) : State := forEach (List.range s.build.courses) setPoint s

/-- FREQ_ACK (R664): the new clock runs, and the duty of the point returns. -/
def execFreqAck (course : Nat) (s : State) : Out :=
  onUnit (hasCourse s course) s (match (courseOf s course).freqReq with
    | some f => setPoint course (modCourse course (fun x => { x with freq := f, freqReq := none }) s)
    | none => s)

/-- FREQ_ACK_TIMEOUT (R664). -/
def execFreqAckTimeout (course : Nat) (s : State) : Out :=
  onUnit (hasCourse s course) s
    (if (courseOf s course).freqReq.isSome then raise unitClk srcPwrUnmet course none 0 0 s else s)

/-! ## Power limit (R32, R676) -/

def pwrEn (s : State) : Bool := bitOf (reg s offPwrLimit) 31
def pwrWatts (s : State) : Nat := fieldOf (reg s offPwrLimit) 15 0

/-- CLK_PWR_LIMIT_WRITE (R32, R676). A limit that is not enforced calls for no level. -/
def execClkPwrLimitWrite (agent : RegAgent) (value : Word32) (s : State) : Out :=
  regCommand agent offPwrLimit true (fun s =>
    let s := setReg offPwrLimit (value &&& 0x8000FFFF) s
    if bitOf value 31 then s else setPoints { s with clk := { s.clk with level := 0 } }) s

/-- The levels by which the estimate exceeds the limit, at least one. -/
def overLevels (watts limit stepW : Nat) : Nat := max 1 ((watts - limit + (stepW - 1)) / stepW)

/-- POWER_ESTIMATE (R676): one 10 µs interval. -/
def execPowerEstimate (watts stepW : Nat) (low100us steady1ms : Bool) (s : State) : Out :=
  .next (
    let s := { s with clk := { s.clk with est := watts } }
    let limit := pwrWatts s
    let low := lowestLevel s
    let l := s.clk.level
    let s := if steady1ms && s.clk.alert && decide (watts ≤ limit) then
        send (.pwrAlert false) { s with clk := { s.clk with alert := false } }
      else s
    if !pwrEn s then s
    else if limit < watts then
      let s := if l = low && !s.clk.alert then
          send (.pwrAlert true) (raise unitClk srcPwrUnmet 0 none 0 0 { s with clk := { s.clk with alert := true } })
        else s
      setPoints { s with clk := { s.clk with level := min low (l + overLevels watts limit stepW) } }
    else if low100us && decide (watts * 100 < limit * 95) then setPoints { s with clk := { s.clk with level := l - 1 } }
    else s)

/-! ## Clock domains (R661, R662, R665, R667) -/

/-- Compact clocking (R662). -/
def compactClocks (s : State) : Bool :=
  s.build.courses == 1 && s.build.stackCount == 1 && s.build.bondPorts == 0 && s.build.jegonPorts == 0

/-- The domain on whose clock a domain runs. -/
def clockOf (s : State) (d : Nat) : Nat :=
  if !compactClocks s then d
  else if d = 12 then 0 else if d = 25 then 24 else if d = 107 then 108 else if d = 113 then 108
  else if d = 110 || d = 112 then 109 else d

/-- A domain that the build has. -/
def hasDomain (s : State) (d : Nat) : Bool :=
  if d < 12 then hasCourse s d
  else if d < 24 then hasCourse s (d - 12)
  else if d = 24 then true
  else if d < 37 then hasStack s (d - 25)
  else if d < 49 then hasStack s (d - 37)
  else if d < 53 then (d - 49) < (s.build.bridgeModules + 11) / 12
  else if d < 55 then true
  else if d < 73 then hasBond s (d - 55)
  else if d < 91 then hasBond s (d - 73)
  else if d < 99 then hasJegon s (d - 91)
  else if d < 107 then hasJegon s (d - 99)
  else d < 114

/-- The clock of a domain runs: a Course's while it is on and out of reset, the Plinth's while it is released, the Lintel's once the Kiln
has released it, those of Kiln, sideband, debug, fuses and telemetry out of cold reset. -/
def clockRuns (s : State) (d : Nat) : Bool :=
  let course (c : Nat) : Bool := (courseOf s c).live
  if s.clk.inCold || !hasDomain s d then false
  else if d < 12 then course d
  else if d < 24 then course (d - 12)
  else if d < 53 then s.clk.plinthOut
  else if d < 109 then s.kiln.released
  else true

/-- Domains with a counter of their own. -/
def ownDomains (s : State) : List Nat := (List.range 114).filter fun d => hasDomain s d && clockOf s d == d

/-- CORR_CAPTURE (R667): every domain stores its counter, and whether its clock ran. -/
def execCorrCapture (agent : RegAgent) (s : State) : Out :=
  regCommand agent offCorrCtl true (fun s =>
    forEach (ownDomains s) (fun d s =>
      { s with clk := { s.clk with captured := tinsert s.clk.captured d (cyclesOf s d, clockRuns s d) } }) s) s

/-- The counters of some domains are zero, as they leave reset (R665). -/
def zeroCounters (p : Nat → Bool) (s : State) : State :=
  { s with clk := { s.clk with counters := s.clk.counters.filter fun x => !p x.1 } }

/-- A tick of the block's clocks: each running domain counts some cycles (R661, R665; log 3), and the timer of the control cores goes
on. -/
def clockTick (s : State) : State :=
  let t := s.ticket
  let s := forEach ((ownDomains s).filter (clockRuns s)) (fun d s =>
    { s with clk := { s.clk with
        counters := tset zeroOf s.clk.counters d (cyclesOf s d + BitVec.ofNat 56 (Config.cycles d t)) } }) s
  { s with ticket := t + 1, clk := { s.clk with mtime := s.clk.mtime + 1 } }

/-! ## Inputs (R629, R632, R678) -/

/-- The number of an input in `FLT_INPUT_STATE`. -/
def pinBit : InPin → Nat
  | .throttleReq => 0
  | .extStop => 1
  | .stackHot n => 2 + n

/-- Work that an external stop held back goes on. -/
def resumeWork (s : State) : State :=
  let s := forEach s.hods (fun p s => pumpHod p.1 s) s
  forEach s.tiles (fun p s => pumpTile p.1 s) s

end Sys2Proof.Machine
end

