-- ==== Sys2Proof/Machine/Plinth.lean ====
section
/-! DEFINITION. Plinth controllers (file 10): negotiation, capacity, repair, temperature. -/
namespace Sys2Proof.Machine

def plnReg (s : State) (n off : Nat) : Word32 := reg s (offPln n + off)
def exclOf (s : State) (n : Nat) : Word32 := plnReg s n 4

/-- Channels of a mask. -/
def channelCount (w : Word32) : Nat := ((List.range 32).filter fun i => bitOf w i).length

/-- More than four channels are mapped out: the whole stack is (R417). -/
def tooFew (live : Word32) : Bool := decide (channelCount live < 28)

/-! ## Negotiation (R415 to R418) -/

/-- PLN_NEG_START (R415, R439): ignored outside state idle. -/
def execPlnNegStart (agent : RegAgent) (stack : Nat) (s : State) : Out :=
  regCommand agent (offPln stack) (hasStack s stack) (fun s =>
    if (ctlOf s stack).neg == 0 && s.clk.plinthOut then modCtl stack (fun c => { c with neg := 1 }) s else s) s

/-- A rate cap; reserved codes act as 0b100 (R439). -/
def plnRateCap (s : State) (n : Nat) : Nat := min 4 (fieldOf (plnReg s n 0) 26 24)

/-- The channels that fail training at a rate, among those that are trained. -/
def failingAt (info : StackInfo) (excl : Word32) (r : Nat) : Word32 :=
  (((info.failing.find? fun p => p.1 == r).map fun p => p.2).getD 0) &&& ~~~excl

/-- The highest rate that the stack supports, that is permitted, and at which at most four channels fail (R416). -/
def chooseRate (s : State) (n : Nat) (info : StackInfo) : Option Nat :=
  [4, 3, 2, 1, 0].find? fun r =>
    decide (r ≤ plnRateCap s n) && decide (r ≤ info.maxRate) && decide (channelCount (failingAt info (exclOf s n) r) ≤ 4)

/-- A stack is mapped out. -/
def mapOut (n : Nat) (s : State) : State := modCtl n (fun c => { c with neg := 6, live := 0 }) s

/-- STACK_TRAINING_DONE (R415, steps 1 to 4): what the stack showed and how its channels trained. -/
def execStackTrainingDone (stack : Nat) (info : StackInfo) (s : State) : Out :=
  onUnit (hasStack s stack) s
    (if (ctlOf s stack).neg != 1 then s
     else if !info.metadata || info.height == 3 || info.density == 3 then mapOut stack s
     else match chooseRate s stack info with
      | none => mapOut stack s
      | some r =>
        let live := ~~~(exclOf s stack) &&& ~~~(failingAt info (exclOf s stack) r)
        let s := modCtl stack (fun c => { c with height := info.height, density := info.density, rate := r, live := live }) s
        if tooFew live then mapOut stack s
        else modCtl stack (fun c => { c with neg := if bitOf (plnReg s stack 0) 27 then 2 else 3 }) s)

/-- NEG_HOLD_RELEASE (R415, R428): firmware clears `HOLD`; channels excluded meanwhile are mapped out. -/
def execNegHoldRelease (agent : RegAgent) (stack : Nat) (s : State) : Out :=
  regCommand agent (offPln stack) (hasStack s stack) (fun s =>
    if s.sealed_ then s
    else
      let s := setReg (offPln stack) (plnReg s stack 0 &&& 0xF7FFFFFF) s
      if (ctlOf s stack).neg != 2 then s
      else
        let live := (ctlOf s stack).live &&& ~~~(exclOf s stack)
        if tooFew live then mapOut stack s else modCtl stack (fun c => { c with neg := 3, live := live }) s) s

/-- STACK_LIVE (R415, steps 5 and 6): the patterns have been read back; channels that failed are mapped out, and the stack is live. -/
def execStackLive (stack : Nat) (failed : Word32) (s : State) : Out :=
  onUnit (hasStack s stack) s
    (if (ctlOf s stack).neg != 3 then s
     else
       let live := (ctlOf s stack).live &&& ~~~failed
       if tooFew live then mapOut stack s else modCtl stack (fun c => { c with neg := 5, live := live, wasLive := true }) s)

/-- The keys of the granules that do not have the key of an unlisted one. -/
def granuleKeys (s : State) : List (Nat × Nat) :=
  (s.kiln.access.map fun p => (p.1, slotKey s (fieldOf p.2 9 0))).filter fun p => p.2 ≠ slotKey s (fieldOf (granuleDefault 0) 9 0)

/-- HDM_TOP_SET (R415, step 7; R417, R418): once every controller is live or mapped out, the capacity is set, every sector reads zero, and
the live slices enter service. -/
def execHdmTopSet (s : State) : Out :=
  .next (if s.home.inService || !(List.range s.build.stackCount).all (fun n => (ctlOf s n).neg == 5 || (ctlOf s n).neg == 6) then s
    else
      let top := (liveStacks s).foldl (fun a n => a + capMib s n) 0
      if top = 0 then raise unitMor srcNoStack 0 none 0 0 { s with home := { s.home with inService := true } }
      else settle { s with mem := { s.mem with topMib := BitVec.ofNat 20 top, dev := [], devBad := [], devKey := [],
                                               zeroKey := slotKey s (fieldOf (granuleDefault 0) 9 0), zeroKeys := granuleKeys s },
                           home := { s.home with inService := true } })

/-! ## Repair and IEEE 1500 (R428, R444, R445) -/

/-- REPAIR_GO (R444): only in state hold (R428). The fields that name a row are set; a repair that runs goes on. -/
def execRepairGo (agent : RegAgent) (stack : Nat) (value : Word32) (s : State) : Out :=
  regCommand agent (offPln stack + 0x200) (hasStack s stack) (fun s =>
    if (ctlOf s stack).neg != 2 then s
    else
      let s := setReg (offPln stack + 0x200) (value &&& 0x0FFFFFFF) s
      if bitOf value 31 && !(ctlOf s stack).repairBusy then modCtl stack (fun c => { c with repairBusy := true, repairResult := 0 }) s else s) s

/-- REPAIR_DONE (R444). -/
def execRepairDone (stack : Nat) (result : BitVec 2) (s : State) : Out :=
  onUnit (hasStack s stack) s
    (if (ctlOf s stack).repairBusy then modCtl stack (fun c => { c with repairBusy := false, repairResult := result }) s else s)

/-- IEEE1500_GO (R445): only in state hold (R428). `WIR` and `LEN` are set; a shift that runs goes on. -/
def execIeee1500Go (agent : RegAgent) (stack : Nat) (value : Word32) (s : State) : Out :=
  regCommand agent (offPln stack + 0x1000) (hasStack s stack) (fun s =>
    if (ctlOf s stack).neg != 2 then s
    else
      let busy := (ctlOf s stack).ieeeBusy
      let s := setReg (offPln stack + 0x1000) (value &&& 0x00FF07FF) s
      if bitOf value 31 && !busy then modCtl stack (fun c => { c with ieeeBusy := true, ieeeLen := fieldOf value 10 0 }) s else s) s

/-- IEEE1500_DONE (R438, R445): the shifted bits are replaced by those captured. -/
def execIeee1500Done (stack : Nat) (captured : List Word32) (s : State) : Out :=
  onUnit (hasStack s stack) s
    (if !(ctlOf s stack).ieeeBusy then s
     else
       let bits := (ctlOf s stack).ieeeLen + 1
       let s := forEach (List.range ((bits + 31) / 32)) (fun i s =>
         let n := min 32 (bits - 32 * i)
         let m : Word32 := BitVec.ofNat 32 (2 ^ n - 1)
         let off := offPln stack + 0x1100 + 4 * i
         setReg off ((reg s off &&& ~~~m) ||| (captured.getD i 0 &&& m)) s) s
       modCtl stack (fun c => { c with ieeeBusy := false }) s)

/-! ## Temperature (R429 to R435, R440) -/

/-- A threshold of a stack: 1 to 3, and 4 for `CRIT`. -/
def threshold (s : State) (n l : Nat) : Nat := fieldOf (plnReg s n 0x10) (8 * l - 1) (8 * (l - 1))

/-- `PX_STACK_HOT[n]` as the block reads it. -/
def stackHot (s : State) (n : Nat) : Bool := bitOf s.flt.active (2 + n) && !bitOf s.flt.masked (2 + n)

/-- The level for which a temperature calls. -/
def calledLevel (s : State) (n temp : Nat) : Nat :=
  if stackHot s n || decide (threshold s n 3 ≤ temp) then 3
  else if threshold s n 2 ≤ temp then 2 else if threshold s n 1 ≤ temp then 1 else 0

/-- A stack enters a level: at 2 or 3 it is slow, with a note (R435), and the Courses above it move (R432). -/
def enterLevel (n l : Nat) (s : State) : State :=
  let s := modCtl n (fun c => { c with level := l, slow := decide (2 ≤ l) }) s
  setPoints (if 2 ≤ l then raise (unitCtl n) srcSlow n none 0 0 s else s)

/-- STACK_TEMP_SAMPLE (R429 to R435): `held10ms`: 10 ms have passed since the current level was entered. -/
def execStackTempSample (stack temp : Nat) (held10ms : Bool) (s : State) : Out :=
  onUnit (hasStack s stack) s
    (let s := modCtl stack (fun c => { c with temp := temp }) s
     let l := (ctlOf s stack).level
     if (ctlOf s stack).shutdown then s
     else if threshold s stack 4 ≤ temp then
       raise (unitCtl stack) srcCritical stack none 0 0 (modCtl stack (fun c => { c with neg := 7, shutdown := true }) s)
     else
       let called := calledLevel s stack temp
       if l < called then enterLevel stack called s
       else if 0 < l && held10ms && called < l && decide (temp + 3 ≤ threshold s stack l) then enterLevel stack (l - 1) s
       else s)

/-- STACK_CHANNEL_FAIL (R419). -/
def execStackChannelFail (stack channel : Nat) (s : State) : Out :=
  onUnit (hasStack s stack) s
    (if (ctlOf s stack).neg == 5 && bitOf (ctlOf s stack).live channel then
       raise (unitCtl stack) srcChannel stack none 0 (stackDetail ⟨BitVec.ofNat 5 channel, 0, 0, 0, 0⟩ 0 0)
         (modCtl stack (fun c => { c with neg := 8 }) s)
     else s)

/-- TEMP_THRESHOLD_WRITE (R440): four values strictly ascending. -/
def execTempThresholdWrite (agent : RegAgent) (stack : Nat) (value : Word32) (s : State) : Out :=
  regCommand agent (offPln stack + 0x10) (hasStack s stack) (fun s =>
    let f (i : Nat) : Nat := fieldOf value (8 * i + 7) (8 * i)
    if !s.sealed_ && decide (f 0 < f 1) && decide (f 1 < f 2) && decide (f 2 < f 3) then setReg (offPln stack + 0x10) value s
    else s) s

end Sys2Proof.Machine
end

