-- ==== Sys2Proof/Machine/KilnBase.lean ====
section
/-! DEFINITION. Changes of the access table, key slots, and the interface leaving RUN (file 16). -/
namespace Sys2Proof.Machine

/-! ## Changing granules (R650) -/

/-- A key lies in the granules of a change. -/
def inChange (c : GranuleChange) (pa : Nat) : Bool :=
  decide (c.first * 2 ^ 21 ≤ pa) && decide (pa < (c.first + c.count) * 2 ^ 21)

/-- A translation reaches the granules of a change. -/
def entryInChange (s : State) (c : GranuleChange) (e : TlbEntry) : Bool :=
  decide (sortHost s e.pbase < (c.first + c.count) * 2 ^ 21) && decide (c.first * 2 ^ 21 < sortHost s e.pbase + e.span)

/-- A request stands in a line queue, or is the line's open transaction. -/
def queued (s : State) (line : Nat) (r : Req) : Bool :=
  s.home.lineQ.contains (line, r) || (match txnOf s line with
    | some t => t.req == r
    | none => false)

/-- Queues the eviction of every agent copy and every host copy of the granules' lines, in the class of the Kiln (R354, R377, R380). -/
def recallChange (c : GranuleChange) (s : State) : State :=
  let fs := s.home.filter.filter fun p => inChange c (p.1 * 64)
  let hs := s.home.hdm.filter fun p => inChange c (p.1 * 64)
  let s := forEach fs (fun p s => if queued s p.1 (.evictFilter 0) then s else queueReq p.1 (.evictFilter 0) s) s
  settle (forEach hs (fun p s => if queued s p.1 (.evictHdm 0) then s else queueReq p.1 (.evictHdm 0) s) s)

/-- Steps 1 to 3 of a change begin: the granules are marked, translations that reach them leave, buffered stores leave, copies are
recalled. -/
def startChange (mb : Option Nat) (first count : Nat) (entry : BitVec 16) (s : State) : State :=
  let c : GranuleChange := ⟨mb, first, count, entry⟩
  let s := { s with kiln := { s.kiln with change := s.kiln.change ++ [c] } }
  let s := startInval (ownTag + first) (entryInChange s c) (fun _ => false) s
  let flushes := s.cores.flatMap fun p => (p.2.ntBufs.filter fun b => inChange c (b.line * 256)).map fun b => (p.1, b.line)
  recallChange c (forEach flushes (fun x s => flushNt x.1 x.2 s) s)

/-- Nothing reaches the granules any longer: their translations' accesses have ended, no agent or host copy is left, and nothing of
their lines is under way. -/
def changeQuiet (s : State) (c : GranuleChange) : Bool :=
  let line (l : Nat) : Bool := inChange c (l * 64)
  (s.xlat.invals.all fun i => i.tag != ownTag + c.first || invalEnded s i) &&
    !s.home.filter.any (fun p => line p.1) && !s.home.hdm.any (fun p => line p.1) &&
    !s.home.txns.any (fun p => line (lineOfKey p.1)) &&
    !s.ops.any (fun o => o.sent && inChange c o.pa) && !s.ctls.any (fun p => p.2.readQ.any fun r => inChange c r.1) &&
    !s.cores.any (fun p => (coreLines p.2).any line || p.2.fills.any (fun f => line f.1) || p.2.wb.any (fun f => line f.1)) &&
    !s.jegons.any (fun p => p.2.fills.any (fun f => line f.2.1) || p.2.wbs.any (fun w => line w.2.1))

/-- The numbers of the granules of a change. -/
def changeGranules (c : GranuleChange) : List Nat := (List.range c.count).map fun i => c.first + i

/-- Step 4: every sector of a granule is zero under its new key (R643, R650). -/
def zeroGranule (g key : Nat) (s : State) : State :=
  let mine (pa : Nat) : Bool := decide (g * 2 ^ 21 ≤ pa) && decide (pa < (g + 1) * 2 ^ 21)
  let s := forEach (List.range s.build.stackCount) (fun n s =>
    modCtl n (fun c => { c with writeQ := c.writeQ.filter fun w => !mine w.pa }) s) s
  { s with mem := { s.mem with dev := s.mem.dev.filter (fun p => !mine p.1),
                               devBad := s.mem.devBad.filter (fun p => !mine (p.1 * 64)),
                               devKey := s.mem.devKey.filter (fun p => !mine (p.1 * 64)),
                               zeroKeys := if key = s.mem.zeroKey then terase s.mem.zeroKeys g else tinsert s.mem.zeroKeys g key } }

/-- Steps 3 to 5 end: Grout lines leave, sectors are zeroed where class or slot changes, the entries are written and the marks clear. -/
def writeEntries (c : GranuleChange) (s : State) : State :=
  let s := forEach (s.home.grout.filter fun p => inChange c (p.1 * 256)) (fun p s => dropGrout p.1 s) s
  forEach (changeGranules c) (fun g s =>
    let old := granuleOf s (g * 2 ^ 21)
    let s := if fieldOf old 15 14 != fieldOf c.entry 15 14 || fieldOf old 9 0 != fieldOf c.entry 9 0 then
        zeroGranule g (slotKey s (fieldOf c.entry 9 0)) s else s
    { s with kiln := { s.kiln with access := tset granuleDefault s.kiln.access g c.entry } }) s

/-- A mailbox request ends: its status and results stand before `BUSY` clears (R699). -/
def mbDone (m : Nat) (status : Nat) (s : State) : State :=
  modMailbox m (fun b => { b with busy := false, status := BitVec.ofNat 8 status }) s

/-- Accesses that waited for a mark go on (R650). -/
def afterChange (s : State) : State :=
  let s := forEach s.cores (fun p s =>
    if isTrowel p.1 then s
    else modCore p.1 (fun c => match c.wait with
      | some (.xlt _ _) => { c with wait := none }
      | _ => c) s) s
  let s := forEach s.hods (fun p s => pumpHod p.1 s) (pumpOps s)
  settle s

/-- A change ends where nothing reaches its granules; otherwise what is left is recalled again. -/
def endChange (c : GranuleChange) (s : State) : State :=
  if !changeQuiet s c then recallChange c s
  else
    let s := writeEntries c s
    let s := { s with
      kiln := { s.kiln with change := s.kiln.change.filter (· ≠ c) },
      xlat := { s.xlat with invals := s.xlat.invals.filter fun i => i.tag ≠ ownTag + c.first } }
    afterChange (match c.mb with
      | some m => mbDone m 0 s
      | none => s)

/-! ## Leaving RUN (R656) -/

/-- A granule is keyed with a protected slot. -/
def protectedEntry (s : State) (e : BitVec 16) : Bool :=
  fieldOf e 15 14 == 1 && (((tfind s.kiln.slots (fieldOf e 9 0)).map fun x => x.protected_).getD false)

/-- Step 2 of R656: once every protected context is gone, every protected granule that is not changing begins to change to open. -/
def openProtected (s : State) : State :=
  if s.ctxs.any (fun p => bitOf p.2.security 11) then s
  else forEach (s.kiln.access.filter fun p => protectedEntry s p.2) (fun p s =>
    if changing s (p.1 * 2 ^ 21) then s else startChange none p.1 1 (p.2 &&& 0x3000) s) s

/-- Protected contexts are destroyed, their granules opened, and their slots released once nothing names them. -/
def leaveRun (s : State) : State :=
  if s.kiln.tdi ≠ .run then s
  else
    let s := { s with kiln := { s.kiln with tdi := .configUnlocked, nonce := 0 } }
    let s := forEach (s.ctxs.filter fun p => bitOf p.2.security 11) (fun p s =>
      match ctxOf s p.1 with
      | some c => if c.state = .destroying then s else destroyCtx p.1 c none s
      | none => s) s
    reapSlots (openProtected s)

/-- Entry to ERROR: from RUN the interface ends in CONFIG_UNLOCKED (R656). -/
def tdiError (s : State) : State :=
  if s.kiln.tdi = .run then leaveRun s else { s with kiln := { s.kiln with tdi := .error } }

/-- GRANULE_CHANGE_DONE (R650): changes that are quiet end. Out of RUN, steps 2 and 3 of R656 follow as far as they may. -/
def execGranuleChangeDone (s : State) : Out :=
  .next (
    let s := forEach s.kiln.change endChange s
    if s.kiln.tdi = .run then s else reapSlots (openProtected s))

end Sys2Proof.Machine
end

