-- ==== Sys2Proof/Machine/Down.lean ====
section
/-! DEFINITION. Units entering reset: Tiles, Courses and the Plinth (files 08, 15, 17). -/
namespace Sys2Proof.Machine

/-! ## Units entering reset (R340, R344, R616, R672) -/

/-- Contexts are lost, one after the other. -/
def loseAll (cs : List Nat) (s : State) : State := forEach cs loseContext s

/-- A core is reset: its buffered stores are discarded (R344), what it has under way at the homes ends there. -/
def resetCore (n : Nat) (s : State) : State :=
  let mine (o : RemoteOp) : Bool := o.src = .core n
  let s := forEach (s.ops.filter fun o => mine o && o.sent) (fun o s => releaseId o.id true s) s
  let s := { s with ops := s.ops.filter fun o => !mine o }
  modCore n (fun c => { coreDefault n with fills := c.fills, wb := c.wb }) s

/-- The Tile whose window holds a key. -/
def windowTile (pa : Nat) : Option Nat :=
  if tileBase ≤ pa && decide (pa < tileBase + 0x30000000) then
    let r := pa - tileBase
    some (r / 0x4000000 * 16 + r % 0x4000000 / 0x400000)
  else none

/-- The Tiles of a Course that the build has. -/
def courseTiles (s : State) (c : Nat) : List Nat := ((List.range 16).map fun i => 16 * c + i).filter (hasTile s)

/-- The remote operations of a Tile's mover end with it; their identifiers are quarantined. -/
def dropMover (n : Nat) (s : State) : State :=
  let mine (o : RemoteOp) : Bool := o.src = .mover n
  let s := forEach (s.ops.filter fun o => mine o && o.sent) (fun o s => releaseId o.id true s) s
  { s with ops := s.ops.filter fun o => !mine o }

/-- Every Tile of a Course is in reset, and reads as after a cold reset but for its store, which is cleared on release. -/
def resetTiles (c : Nat) (s : State) : State :=
  let ns := courseTiles s c
  let mine (w : Waiter) : Bool := match w.src with
    | .core n => ns.contains n
    | .mover n => ns.contains n
    | _ => false
  forEach ns (fun n s => setEntries (bufFetch n) [] (setEntries (bufData n) [] (setEntries (bufCmd n) []
    (setTile n (tileDefault n) (dropMover n (resetCore n s)))))) (dropWaiters mine s)

/-- Steps 1 to 3 of a Course reset: the Course takes nothing, operations to its tile stores end, contexts are lost and Tiles unbound. -/
def courseDown (c : Nat) (s : State) : State :=
  let ns := courseTiles s c
  let cs := (ns.filterMap fun n => (tileOf s n).bound).eraseDups
  let s := modCourse c (fun x => { x with live := false, inReset := true, freqReq := none }) s
  let s := forEach ns resetCore s
  let s := timeoutAll (fun o => match windowTile o.pa with
    | some n => ns.contains n
    | none => false) s
  resetTiles c (loseAll cs s)

/-- Identifiers whose use ends by a reset are quarantined (R385). -/
def quarantine (ids : List (Option OpId)) (s : State) : State := forEach (ids.filterMap fun i => i) (fun i s => releaseId i true s) s

/-- What a core waits for at a home ends with `TIMEOUT`: its loads fault, its stores become late faults (R340, R343). -/
def homesGone (n : Nat) (s : State) : State :=
  let memory (e : StoreEntry) : Bool := cacheable s e.pa
  let c := coreOf s n
  let lost := c.storeBuf.filter memory
  let s := quarantine ((c.fills.map fun f => f.2.id) ++ c.wb.map fun w => w.2.id) s
  let s := modCore n (fun c => { c with
    storeBuf := c.storeBuf.filter (fun e => !memory e), ntHeld := c.ntHeld.map (fun b => { b with after := 0 }),
    late := c.late ++ lost.map (fun e => e.addr), lines := [], fills := [], wb := [], resv := none, deferral := false,
    deferred := [] }) s
  let hit (cause : Nat) (pa : Nat) (addr : Word64) : State := if cacheable s pa then takeTrap n false cause addr s else s
  match c.wait with
  | some (.load rd _ _ pa addr) => hit (loadCause rd) pa addr
  | some (.lr _ _ pa addr) => hit causeLoadAccess pa addr
  | some (.tdld _ pa addr) => hit causeLoadAccess pa addr
  | some (.sc _ _ pa addr _) => hit causeStoreAccess pa addr
  | _ => s

/-- What an engine awaits of a home is answered with `TIMEOUT`; a tag whose response a port reset has discarded is not. -/
def portGone (p : Nat) (s : State) : State :=
  let j := jegonOf s p
  let tags := j.fills.map (fun f => f.1) ++ j.wbs.map (fun w => w.1)
  let ids := j.fills.map (fun f => f.2.2.id) ++ j.wbs.map (fun w => w.2.2)
  let s := modJegon p (fun j => { j with fills := [], wbs := [], snoops := [] }) (quarantine ids s)
  forEach tags (fun t s => if (jegonOf s p).owed.contains t then jegAnswer p t .timeout 0 s else s) s

/-- The controllers after a Plinth reset: what their correction logs hold stands (R443, R688). -/
def ctlsReset (s : State) : Table Ctl :=
  (s.ctls.filter fun p => !p.2.corrLog.isEmpty).map fun p => (p.1, { ctlDefault p.1 with corrLog := p.2.corrLog })

/-- The homes without their contents. -/
def homeReset : Home := State.reset.home

/-- Steps 1 to 3 of a Plinth reset: Grout, filters, directories and controllers are empty, device memory is lost, operations to it end,
what Mortar carries to and from the homes is lost, and every context is lost. -/
def plinthDown (s : State) : State :=
  let s := { s with clk := { s.clk with plinthOut := false } }
  let s := timeoutAll (fun o => match placeOf s o.pa with
    | .dev _ => true
    | _ => false) s
  let s := loseAll (s.ctxs.map fun p => p.1) s
  let s := forEach (s.cores.map fun p => p.1) homesGone s
  let s := forEach (List.range s.build.jegonPorts) portGone s
  let s := quarantine ((s.ctls.flatMap fun p => p.2.readQ.map fun r => some r.2.2) ++
    s.home.txns.flatMap fun p => [p.2.hostWait, p.2.biWait]) s
  { s with
    home := homeReset, ctls := ctlsReset s, devWatch := [], mortar := State.reset.mortar,
    mem := { s.mem with dev := [], devBad := [], devKey := [], zeroKey := 0, zeroKeys := [], topMib := 0 },
    sec := { on := false, work := none, tensors := [], current := 0, held := [], seen := 0, got := [] } }

/-- A gating request is refused (R347). -/
def refuseGating (c : Nat) (s : State) : State :=
  raise unitClk srcGateRefused c none 0 0 (modCourse c (fun x => { x with state := 2, refused := true }) s)

/-- Every Course enters reset; a gating under way is refused (R674). -/
def coursesDown (s : State) : State :=
  forEach (List.range s.build.courses)
    (fun c s => courseDown c (if (courseOf s c).state == 3 then refuseGating c s else s))
    { s with clk := { s.clk with coursesOut := false } }

end Sys2Proof.Machine
end

