-- ==== Sys2Proof/Machine/Faults.lean ====
section
/-! DEFINITION. Fault collection (file 15): severity, escalation, latching, interrupts, what each severity does, wiring, level-sensitive
inputs. -/
namespace Sys2Proof.Machine

/-! ## Severity (R612, R613, R621) -/

/-- `FLT_SEVERITY.LEVEL` of a source. -/
def sevLevel (s : State) (src : Nat) : Nat := fieldOf (reg s (offFltSev src)) 2 0

/-- `FLT_SEVERITY.ESC` of a source. -/
def sevEsc (s : State) (src : Nat) : Bool := bitOf (reg s (offFltSev src)) 7

/-- The severity of a fault before escalation: the largest of level, floor and a reported level, of which 6 and 7 are taken as 5. -/
def severity (s : State) (y : Syndrome) : Nat :=
  let floor := ((sourceLevels s y.source).map fun p => p.2).getD 0
  max (max (sevLevel s y.source) floor) (min 5 (y.level.getD 0))

/-- A repeat of an unacknowledged source is one level higher, up to 5. -/
def escalates (s : State) (src : Nat) : Bool := bitOf s.flt.pend src && sevEsc s src

def raisedLevel (s : State) (y : Syndrome) : Nat := if escalates s y.source then min 5 (severity s y + 1) else severity s y

/-! ## Latches and their interrupts (R618, R625, R628) -/

/-- The key of a latch record: of the collector, or of a unit's own records. -/
def latchKey (s : State) (u l : Nat) : Nat := if s.build.localFaults then 8 * (u + 1) + l else l

def latchOf (s : State) (k : Nat) : Latch := tget latchDefault s.flt.latches k
def setLatch (k : Nat) (x : Latch) (s : State) : State :=
  { s with flt := { s.flt with latches := tset latchDefault s.flt.latches k x } }

/-- The interrupts of a latched record. -/
def faultIrqs (l : Nat) (s : State) : State :=
  let s := raiseCore 192 s
  let s := if 4 ≤ l then raiseCore 200 s else s
  let c := reg s offFltCtl
  if bitOf c 31 && bitOf c (24 + l) then raiseVec (min 2042 (fieldOf c 10 0) + l) s else s

/-- A fault of a level meets its record: an empty one takes it whole, a valid one counts it. -/
def latchFault (u l : Nat) (esc : Bool) (y : Syndrome) (s : State) : State :=
  let k := latchKey s u l
  let x := latchOf s k
  if x.valid then setLatch k { x with ovf := true, count := min 255 (x.count + 1) } s
  else faultIrqs l (setLatch k { valid := true, ovf := false, esc := esc, count := 0, syn := some y } s)

/-! ## Actions (R614 to R617) -/

/-- A block-fatal fault: `PX_FATAL`, fatal frames, viral; every Course, engine and port stops; every context is lost. -/
def blockFatal (s : State) : State :=
  if s.flt.fatal then s
  else
    let s := bondsFatal (send .fatal { s with flt := { s.flt with fatal := true } })
    let s := if s.link.viralOn then send .viral { s with link := { s.link with viral := true } } else s
    loseAll (s.ctxs.map fun p => p.1) s

/-- A partition stops, and its reset starts (R616, R671). The Lintel's stop is that of the block. -/
def partitionStop (p : Part) (s : State) : State :=
  match p with
  | .course => if s.clk.coursesOut then coursesDown s else s
  | .plinth => if s.clk.plinthOut then plinthDown s else s
  | .lintel => blockFatal s

/-- What a latched fault of a level does. A severity-3 fault that names no context acts as severity 2 (R615). -/
def faultAction (l : Nat) (y : Syndrome) (s : State) : State :=
  if l = 3 then
    match y.ctx with
    | some c => loseContext c s
    | none => s
  else if l = 4 then tdiError (partitionStop y.part s)
  else if 5 ≤ l then tdiError (blockFatal s)
  else s

/-- One fault reaches the collector. -/
def takeFault (u : Nat) (y : Syndrome) (s : State) : State :=
  let l := raisedLevel s y
  let esc := escalates s y.source
  let s := { s with flt := { s.flt with pend := s.flt.pend ||| BitVec.ofNat 128 (2 ^ y.source) } }
  faultAction l y (latchFault u l esc y s)

/-- A counted fault has no syndrome of its own (R626). -/
def bareSyndrome (y : Syndrome) : Syndrome :=
  { source := y.source, part := y.part, instance_ := 0, ctx := none, addr := 0, stamp := 0, detail := 0, level := none }

/-- Faults without a syndrome, one after the other. -/
def takeBare (u : Nat) (y : Syndrome) : Nat → State → State
  | 0, s => s
  | n + 1, s => takeBare u y n (takeFault u (bareSyndrome y) s)

/-- An entry of count c is c + 1 faults. -/
def takeEntryFaults (u : Nat) (e : UnitEntry) (s : State) : State := takeBare u e.first e.more (takeFault u e.first s)

/-- Entries in ascending source code (R620). -/
def insertEntry (e : UnitEntry) : List UnitEntry → List UnitEntry
  | [] => [e]
  | f :: l => if e.first.source ≤ f.first.source then e :: f :: l else f :: insertEntry e l

/-- The collector reads and empties the entries of a unit. -/
def collect (u : Nat) (s : State) : State :=
  let mine := (s.flt.units.filter fun e => e.unit == u).foldr insertEntry []
  forEach mine (takeEntryFaults u) { s with flt := { s.flt with units := s.flt.units.filter fun e => e.unit != u } }

/-- A reporting unit that the build has (log 15). -/
def hasUnit (s : State) (u : Nat) : Bool :=
  if u < 192 then hasTile s u
  else if u < 200 then false
  else if u < 216 then hasStack s (u - 200)
  else if u < 232 then hasStack s (u - 216)
  else if u < 256 then hasBond s (u - 232)
  else if u < 264 then hasJegon s (u - 256)
  else 272 ≤ u && u ≤ 275

/-- FAULT_COLLECT (R612 to R622, R626). Under `LOCAL` the unit itself handles its faults (R628). -/
def execFaultCollect (unit : Nat) (s : State) : Out := onUnit (hasUnit s unit) s (collect unit s)

/-! ## Wiring (R627) -/

/-- WIRING_FAULT (R627, R628): never under `LOCAL`. The unit is polled from then on. -/
def execWiringFault (unit : Nat) (s : State) : Out :=
  onUnit (hasUnit s unit) s
    (if s.build.localFaults then s
     else raise unitFlt srcWiring unit none 0 0 { s with flt := { s.flt with wired := tset noB s.flt.wired unit true } })

/-- WIRING_POLL (R627). -/
def execWiringPoll (unit : Nat) (s : State) : Out :=
  onUnit (hasUnit s unit) s (if tget noB s.flt.wired unit then collect unit s else s)

/-! ## Acknowledging (R619, R621, R624) -/

def offFltLatch (l : Nat) : Nat := 0x200000 + 0x20 * l
def offFltPend (i : Nat) : Nat := 0x200100 + 4 * i
def offFltInput : Nat := 0x200204

/-- `VALID`, `OVF` and `COUNT` clear together. -/
def clearLatch (k : Nat) (s : State) : State :=
  let x := latchOf s k
  if x.valid then setLatch k { x with valid := false, ovf := false, count := 0 } s else s

/-- A level-5 record is cleared by a cold or warm reset only (R617). -/
def clearable (l : Nat) : Bool := decide (l < 5)

/-- FLT_LATCH_CLEAR (R617, R619): a 1 is written to `VALID` of a record of the collector. -/
def execFltLatchClear (agent : RegAgent) (level : Nat) (s : State) : Out :=
  regCommand agent (offFltLatch level) true (fun s =>
    if decide (level < 6) && !s.build.localFaults && clearable level then clearLatch level s else s) s

/-- Clears pending bits of one word. -/
def clearPend (word : Nat) (mask : Word32) (s : State) : State :=
  { s with flt := { s.flt with pend := s.flt.pend &&& ~~~((mask.setWidth 128) <<< (32 * word)) } }

/-- FLT_PEND_CLEAR (R621, R630). -/
def execFltPendClear (agent : RegAgent) (word : Nat) (mask : Word32) (s : State) : Out :=
  regCommand agent (offFltPend word) true (fun s => if word < 4 then clearPend word mask s else s) s

/-! ## Level-sensitive inputs (R629, R430, R677, R678) -/

/-- A pin that the block has. -/
def hasPin (s : State) : InPin → Bool
  | .stackHot n => n < 12 && hasStack s n
  | _ => true

/-- The units take the filtered inputs as they now read. -/
def inputsMoved (pin : InPin) (s : State) : State :=
  match pin with
  | .throttleReq => setPoints s
  | .extStop => if extStopped s then setPoints s else resumeWork (setPoints s)
  | .stackHot n => if stackHot s n && decide ((ctlOf s n).level < 3) then enterLevel n 3 s else s

/-- INPUT_LEVEL_CHANGE (R629): a filtered input takes a new level. A falling stack alert leaves level 3 by the samples of R431. -/
def execInputLevelChange (pin : InPin) (level : Bool) (s : State) : Out :=
  onUnit (hasPin s pin) s
    (let bit : BitVec 14 := BitVec.ofNat 14 (2 ^ pinBit pin)
     inputsMoved pin { s with flt := { s.flt with active := if level then s.flt.active ||| bit else s.flt.active &&& ~~~bit } })

/-- STUCK_INPUT (R629): an input that has been active for too long is reported and masked. -/
def execStuckInput (pin : InPin) (s : State) : Out :=
  onUnit (hasPin s pin) s
    (let k := pinBit pin
     if fieldOf (reg s offFltLimit) 15 0 ≠ 0 && bitOf s.flt.active k && !bitOf s.flt.masked k then
       let s := raise unitFlt srcStuck 0 none 0 (BitVec.ofNat 64 k) s
       inputsMoved pin { s with flt := { s.flt with masked := s.flt.masked ||| BitVec.ofNat 14 (2 ^ k) } }
     else s)

/-- INPUT_MASK_CLEAR (R629): a mask bit clears only while its input reads inactive after filtering. -/
def execInputMaskClear (agent : RegAgent) (mask : Word32) (s : State) : Out :=
  regCommand agent offFltInput true (fun s =>
    { s with flt := { s.flt with masked := s.flt.masked &&& ~~~(mask.setWidth 14 &&& ~~~s.flt.active) } }) s

/-! ## Bridge (R31) -/

/-- MORTAR_BRIDGE_MODULE_LOST (R31): its fault is partition-fatal for the Lintel. -/
def execMortarBridgeModuleLost (module : Nat) (s : State) : Out :=
  onUnit (module < s.build.bridgeModules) s (raise unitMor srcBridge module none 0 0 s)

end Sys2Proof.Machine
end

