-- ==== Sys2Proof/Machine/Kiln.lean ====
section
/-! DEFINITION. The Kiln's mailbox services, control-core images, watchdog and measurements (file 16, R698 to R701). -/
namespace Sys2Proof.Machine

/-! ## Measurements (R637) -/

def word32Bytes (w : Word32) : List Byte := leBytes 4 w.toNat

def setMeasurement (i : Nat) (d : List Byte) (s : State) : State :=
  { s with kiln := { s.kiln with measurements := tinsert s.kiln.measurements i (Config.sha384 d) } }

/-- `GLB_BUILD0` (R40). -/
def build0 (b : Build) : Word32 :=
  BitVec.ofNat 32 (b.courses * 2 ^ 28 + b.tilesPerCourse * 2 ^ 23 + b.stackCount * 2 ^ 19 + b.bondPorts * 2 ^ 14 +
    b.jegonPorts * 2 ^ 10 + b.hodPairs * 2 ^ 5 + b2n b.serdes * 2 ^ 4 + b2n b.localFaults * 2 ^ 3)

/-- `GLB_BUILD1` (R41). -/
def build1 (b : Build) : Word32 := BitVec.ofNat 32 (b.bridgeModules * 2 ^ 26 + b.tensorClkMax)

/-- `GLB_STRAPS` (R42). -/
def strapsWord (t : Straps) : Word32 :=
  BitVec.ofNat 32 (b2n t.kilnRecovery * 2 ^ 14 + t.sbAddr.toNat * 2 ^ 7 + t.feedGroup.toNat)

/-- Offsets of the registers that hold a field locked by the seal. -/
def rwlOffsets (s : State) : List Nat :=
  [offChip, offWindow, offWeight, offTick, offFltLimit, offLinTimeout, offSecCtl] ++
    (List.range 128).map offFltSev ++ (List.range s.build.stackCount).map offGrtCtl ++
    (List.range s.build.stackCount).flatMap fun n => [offPln n, offPln n + 4, offPln n + 0x10, offPln n + 0x20]

/-- Measurement 5: the sealed configuration. -/
def measureConfig (s : State) : State :=
  setMeasurement 5 (([build0 s.build, build1 s.build, strapsWord s.straps] ++ (rwlOffsets s).map (reg s)).flatMap word32Bytes) s

/-- Measurement 6: the debug state. -/
def measureDebug (s : State) : State := setMeasurement 6 (leBytes 2 s.dbg.courses.toNat ++ leBytes 1 s.dbg.cores.toNat) s

/-! ## Services (R651, R652, R658, R698 to R701) -/

/-- Codes of R651. -/
def svSlotAssign : Nat := 1
def svSlotRelease : Nat := 2
def svGranuleSet : Nat := 3
def svCertLoad : Nat := 4
def svWdogPet : Nat := 5
def svDebugUnlock : Nat := 6

def mbData (s : State) (m i : Nat) : Nat := (tget zeroOf (mailboxOf s m).data i : Word32).toNat
def setMbData (m i v : Nat) (s : State) : State :=
  modMailbox m (fun b => { b with data := tset zeroOf b.data i (BitVec.ofNat 32 v) }) s

/-- The Kiln's firmware runs: the ROM has released it (R635). -/
def kilnRuns (s : State) : Bool := s.kiln.released

/-- A Kiln service: the mailbox is busy with it, and the Kiln serves it. -/
def service (mb code : Nat) (act : State → State) (s : State) : Out :=
  onUnit (mb < 3) s (if kilnRuns s && (mailboxOf s mb).busy && (mailboxOf s mb).service.toNat = code then act s else s)

/-- A context or a granule names a slot, or a change will. -/
def slotNamed (s : State) (k : Nat) : Bool :=
  s.ctxs.any (fun p => bitOf p.2.security 10 && fieldOf p.2.security 9 0 == k) ||
    s.kiln.access.any (fun p => fieldOf p.2 15 14 == 1 && fieldOf p.2 9 0 == k) ||
    s.kiln.change.any (fun c => fieldOf c.entry 15 14 == 1 && fieldOf c.entry 9 0 == k)

/-- The lowest free keyed slot (R644; DESIGN CHOICE, log 16). -/
def freeSlot (s : State) : Option Nat := ((List.range 1022).map (· + 2)).find? fun k => (tfind s.kiln.slots k).isNone

/-- A slot is assigned with a fresh key (R644). A Kiln in recovery creates none (R635). -/
def assignSlot (pasid queue : Nat) (prot : Bool) (s : State) : Option (Nat × State) :=
  if s.kiln.recovery then none
  else match freeSlot s with
    | none => none
    | some k => some (k, { s with kiln := { s.kiln with
        slots := tinsert s.kiln.slots k ⟨pasid, queue, prot, Config.freshKey s.kiln.draws⟩, draws := s.kiln.draws + 1 } })

/-- A slot is released and its key overwritten (R644). -/
def releaseSlot (k : Nat) (s : State) : State := { s with kiln := { s.kiln with slots := terase s.kiln.slots k } }

/-- SLOT_ASSIGN (R651): driver and firmware; the slot is unprotected, and belongs to the queue of its mailbox. -/
def execSlotAssign (mb : Nat) (s : State) : Out :=
  service mb svSlotAssign (fun s =>
    let pasid := mbData s mb 0
    if 2 ≤ mb then mbDone mb stNoAccess s
    else if 2 ^ 20 ≤ pasid then mbDone mb stBadCmd s
    else match assignSlot pasid mb false s with
      | none => mbDone mb stNoAccess s
      | some (k, s) => mbDone mb 0 (setMbData mb 0 k s)) s

/-- SLOT_RELEASE (R651): the assigning queue, and an unprotected slot that nothing names. -/
def execSlotRelease (mb : Nat) (s : State) : Out :=
  service mb svSlotRelease (fun s =>
    let k := mbData s mb 0
    if 2 ≤ mb then mbDone mb stNoAccess s
    else if 1024 ≤ k then mbDone mb stBadCmd s
    else match tfind s.kiln.slots k with
      | none => mbDone mb stNoAccess s
      | some x =>
        if x.protected_ || x.queue != mb || slotNamed s k then mbDone mb stNoAccess s else mbDone mb 0 (releaseSlot k s)) s

/-- Granules that the access table has entries for (R645). -/
def tableSize (s : State) : Nat := 32768 * s.build.stackCount

/-- Arguments of `GRANULE_SET` outside R645 and R700. -/
def granuleArgsBad (s : State) (first count entry : Nat) : Bool :=
  let e : BitVec 16 := BitVec.ofNat 16 entry
  let cls := fieldOf e 15 14
  let slot := fieldOf e 9 0
  count == 0 || decide (512 < count) || decide (tableSize s < first + count) || decide (2 ^ 16 ≤ entry) || fieldOf e 11 10 != 0 ||
    (if cls = 1 then decide (slot < 2) else if cls = 3 then slot != 1 else slot != 0)

/-- An entry that the driver and firmware may set, and from which they may take a granule: open, firmware, or keyed with an assigned
slot that is not protected (R652). -/
def plainEntry (s : State) (e : BitVec 16) : Bool :=
  match fieldOf e 15 14 with
  | 0 => true
  | 2 => true
  | 1 => ((tfind s.kiln.slots (fieldOf e 9 0)).map fun x => !x.protected_).getD false
  | _ => false

/-- A range of granules meets a change that runs. -/
def rangeChanging (s : State) (first count : Nat) : Bool :=
  s.kiln.change.any fun c => decide (first < c.first + c.count) && decide (c.first < first + count)

/-- GRANULE_SET (R650, R652): steps 1 to 3 begin; GRANULE_CHANGE_DONE ends it. It waits while one of its granules is changing. -/
def execGranuleSet (mb : Nat) (s : State) : Out :=
  service mb svGranuleSet (fun s =>
    let first := mbData s mb 0
    let count := mbData s mb 1
    let entry := mbData s mb 2
    let e : BitVec 16 := BitVec.ofNat 16 entry
    if 2 ≤ mb then mbDone mb stNoAccess s
    else if granuleArgsBad s first count entry then mbDone mb stBadCmd s
    else if s.kiln.change.any (fun c => c.mb == some mb) || rangeChanging s first count then s
    else if !plainEntry s e || !(List.range count).all (fun i => plainEntry s (granuleOf s ((first + i) * 2 ^ 21))) then
      mbDone mb stNoAccess s
    else startChange (some mb) first count e s) s

/-- The reads of a mailbox's request. -/
def ofMailbox (mb : Nat) (x : LinNext) : Bool := x == .mailbox mb

/-- CERT_LOAD (R639): the chain is read, and then it is stored only where its leaf public key, `leafKey`, is the Kiln's own. -/
def execCertLoad (mb : Nat) (leafKey : Nat) (s : State) : Out :=
  service mb svCertLoad (fun s =>
    if mb ≠ 1 then mbDone mb stNoAccess s
    else match lintelReadRange (.mailbox mb) (sortAgent s (mbData s mb 0 + mbData s mb 1 * 2 ^ 32)) (mbData s mb 2) s with
      | (none, s) => s
      | (some (d, st), s) =>
        let s := dropFront (ofMailbox mb) s
        if st = .ok && leafKey = s.kiln.identity then mbDone mb 0 { s with kiln := { s.kiln with chain := d } }
        else mbDone mb stNoAccess s) s

/-- WDOG_PET (R659). -/
def execWdogPet (mb : Nat) (s : State) : Out :=
  service mb svWdogPet (fun s =>
    let p := mbData s mb 0
    if mb ≠ 1 then mbDone mb stNoAccess s
    else if p = 0 || 60 < p then mbDone mb stBadCmd s
    else mbDone mb 0 { s with kiln := { s.kiln with wdogPeriod := p } }) s

/-- DEBUG_UNLOCK (R658, R681): unlocks add up until a cold or warm reset. -/
def execDebugUnlock (mb : Nat) (s : State) : Out :=
  service mb svDebugUnlock (fun s =>
    let courses := mbData s mb 0
    let cores := mbData s mb 1
    if mb ≠ 1 then mbDone mb stNoAccess s
    else if 2 ^ 12 ≤ courses || 2 ^ 8 ≤ cores then mbDone mb stBadCmd s
    else if courses ≠ 0 && s.ctxs.any (fun p => bitOf p.2.security 10) then mbDone mb stNoAccess s
    else mbDone mb 0 (measureDebug { s with dbg := { s.dbg with
      courses := s.dbg.courses ||| BitVec.ofNat 12 courses, cores := s.dbg.cores ||| BitVec.ofNat 8 cores } })) s

/-! ## Control-core images (R636, R659, R700) -/

def controlCores : List Nat := (List.range 8).map (· + 192)

/-- The control cores start from their reset state. -/
def startCores (s : State) : State :=
  forEach controlCores (fun n s => modCore n (fun c => { c with held := false }) (resetCore n s))
    { s with kiln := { s.kiln with coresOn := true } }

/-- The image is measured, and the control cores start where it is admitted: a licensee key asks for its signature (R636). -/
def checkImage (signed : Bool) (s : State) : Bool × State :=
  let s := setMeasurement 4 (s.kiln.image ++ leBytes 1 (b2n signed)) s
  if s.kiln.fuses.licenseeKey && !signed then (false, s) else (true, startCores s)

def imgDone (m status : Nat) (s : State) : State :=
  modMailbox m (fun b => { b with imgBusy := false, imgStatus := BitVec.ofNat 8 status }) s

/-- An image has ended: it is kept, measured and checked. -/
def endImage (mb : Nat) (d : List Byte) (signed : Bool) (s : State) : State :=
  match checkImage signed { s with kiln := { s.kiln with image := d } } with
  | (true, s) => imgDone mb 0 s
  | (false, s) => imgDone mb stNoAccess { s with kiln := { s.kiln with image := [] } }

/-- The longest image. -/
def imageMax : Nat := 0x1000000

/-- IMAGE_POST (R636, R700, R701): mailbox 0 reads the image from host memory, mailbox 2 appends 256 bytes and ends it with `FINAL`.
`signed`: the image carries a valid signature by the licensee's key. -/
def execImagePost (mb : Nat) (final signed : Bool) (s : State) : Out :=
  onUnit (mb < 3) s (
    let b := mailboxOf s mb
    if !kilnRuns s || mb = 1 then s
    else if s.kiln.coresOn then imgDone mb stBusy s
    else if mb = 0 then
      let n := b.imgLen.toNat
      if imageMax < n || n % 256 ≠ 0 || b.imgAddr.toNat % 256 ≠ 0 then imgDone 0 stBadCmd s
      else match lintelReadRange (.mailbox 0) (lintelKey s false b.imgAddr.toNat) n s with
        | (none, s) => s
        | (some (d, st), s) =>
          let s := dropFront (ofMailbox 0) s
          if st = .ok then endImage 0 d signed s else imgDone 0 stNoAccess s
    else
      let d := s.kiln.image ++ (List.range 64).flatMap fun i => leBytes 4 (mbData s mb i)
      let last := if b.imgBusy then b.imgFinal else final
      if imageMax < d.length then imgDone mb stBadCmd { s with kiln := { s.kiln with image := [] } }
      else if last then endImage mb d signed s
      else imgDone mb 0 { s with kiln := { s.kiln with image := d } })

/-- WATCHDOG_EXPIRY (R659, R656): `image` is the image that the Kiln reloads where it differs from the one that it keeps. -/
def execWatchdogExpiry (image : Option (List Byte)) (signed : Bool) (s : State) : Out :=
  .next (
    if !kilnRuns s || !s.kiln.coresOn then s
    else
      let s := raise unitLin srcWdog 0 none 0 0 s
      let s := loseAll ((s.ctxs.filter fun p => p.2.queue == 1).map fun p => p.1) s
      let s := forEach controlCores resetCore { s with kiln := { s.kiln with coresOn := false, image := image.getD s.kiln.image } }
      tdiError (checkImage signed s).2)

end Sys2Proof.Machine
end

