-- ==== Sys2Proof/Machine/Spdm.lean ====
section
/-! DEFINITION. The Kiln as SPDM responder, IDE key manager and TDISP responder (file 16, R640, R641, R653 to R656). Message codes
and the states' numbers are those of the SPDM and TDISP specifications (PRESUMED, log 10). -/
namespace Sys2Proof.Machine

/-! ## Answers -/

/-- The Kiln answers on the request's transport and session. -/
def spdmSend (m : Spdm) (code : Nat) (payload : List Byte) (s : State) : State :=
  send (.spdm m.transport m.session code payload) { s with kiln := { s.kiln with answers := s.kiln.answers + 1 } }

/-- An answer whose contents file 16 does not lay down (log 10). -/
def spdmFree (m : Spdm) (code : Nat) (s : State) : State := spdmSend m code (Config.answerBytes code s.kiln.answers) s

def rspError : Nat := 0x7F
def rspVendor : Nat := 0x7E

/-- A request that the Kiln does not accept. -/
def spdmRefuse (m : Spdm) (s : State) : State := spdmSend m rspError [] s

/-- A transport that the block has. -/
def hasTransport (s : State) : Transport → Bool
  | .bond p => hasBond s p
  | _ => true

/-- A request reaches the Kiln. -/
def spdmAt (m : Spdm) (f : State → State) (s : State) : Out := onUnit (hasTransport s m.transport) s (if kilnRuns s then f s else s)

/-- The session of a request, on its own transport. -/
def sessionOf (s : State) (m : Spdm) : Option Session :=
  match tfind s.kiln.sessions m.session with
  | some x => if x.transport = m.transport then some x else none
  | none => none

/-- A request outside a session, or inside one that has been finished. -/
def sessionFits (s : State) (m : Spdm) : Bool :=
  m.session == 0 || ((sessionOf s m).map fun x => x.finished).getD false

/-- A request inside a finished session. -/
def inSession (s : State) (m : Spdm) : Bool := ((sessionOf s m).map fun x => x.finished).getD false

/-- The key of a transport in the negotiation table. -/
def transportKey : Transport → Nat
  | .doe => 0
  | .mctp => 1
  | .bond p => 2 + p

/-- Sessions that a transport may hold (R640). -/
def sessionLimit : Transport → Nat
  | .doe => 4
  | .mctp => 1
  | .bond _ => 1

/-- A request that is answered with contents that file 16 does not lay down. -/
def plainRequest (m : Spdm) (code : Nat) (s : State) : Out :=
  spdmAt m (fun s => if sessionFits s m then spdmFree m code s else spdmRefuse m s) s

/-! ## SPDM (R637 to R640) -/

/-- GET_VERSION (R640): a new connection begins: what was negotiated on the transport, and its sessions, end. -/
def execGetVersion (m : Spdm) (s : State) : Out :=
  spdmAt m (fun s =>
    if m.session ≠ 0 then spdmRefuse m s
    else spdmFree m 0x04 { s with kiln := { s.kiln with
      negotiated := terase s.kiln.negotiated (transportKey m.transport),
      sessions := s.kiln.sessions.filter fun p => p.2.transport ≠ m.transport } }) s

/-- GET_CAPABILITIES (R640). -/
def execGetCapabilities (m : Spdm) (s : State) : Out := plainRequest m 0x61 s

/-- NEGOTIATE_ALGORITHMS (R640): version 1.3, or 1.2, as 0x13 and 0x12. -/
def execNegotiateAlgorithms (m : Spdm) (version : Nat) (s : State) : Out :=
  spdmAt m (fun s =>
    if m.session = 0 && (version = 0x13 || version = 0x12) then
      spdmFree m 0x63 { s with kiln := { s.kiln with negotiated := tinsert s.kiln.negotiated (transportKey m.transport) version } }
    else spdmRefuse m s) s

/-- GET_DIGESTS (R640). -/
def execGetDigests (m : Spdm) (s : State) : Out := plainRequest m 0x01 s

/-- GET_CERTIFICATE (R639, R640): bytes of the chain of slot 0. -/
def execGetCertificate (m : Spdm) (offset len : Nat) (s : State) : Out :=
  spdmAt m (fun s =>
    if sessionFits s m then spdmSend m 0x02 ((s.kiln.chain.drop offset).take len) s else spdmRefuse m s) s

/-- CHALLENGE (R640). -/
def execChallenge (m : Spdm) (s : State) : Out := plainRequest m 0x03 s

/-- GET_MEASUREMENTS (R637): the digest of one index; a measurement that has not been taken is absent, and any other index is refused. -/
def execGetMeasurements (m : Spdm) (index : Nat) (s : State) : Out :=
  spdmAt m (fun s =>
    if !sessionFits s m || index = 0 || 6 < index then spdmRefuse m s
    else spdmSend m 0x60 (match tfind s.kiln.measurements index with
      | some d => leBytes 48 d
      | none => []) s) s

/-- The lowest free session number. -/
def freeSession (s : State) : Nat := ((List.range 64).find? fun i => (tfind s.kiln.sessions (i + 1)).isNone).getD 64 + 1

/-- KEY_EXCHANGE (R640): a session begins where its transport has room, with a fresh secret. -/
def execKeyExchange (m : Spdm) (s : State) : Out :=
  spdmAt m (fun s =>
    let open_ := (s.kiln.sessions.filter fun p => p.2.transport = m.transport).length
    if m.session ≠ 0 || (tfind s.kiln.negotiated (transportKey m.transport)).isNone || sessionLimit m.transport ≤ open_ then
      spdmRefuse m s
    else
      let x : Session := { transport := m.transport, finished := false, secret := Config.freshKey s.kiln.draws, updates := 0 }
      spdmFree m 0x64 { s with kiln := { s.kiln with
        draws := s.kiln.draws + 1, sessions := tinsert s.kiln.sessions (freeSession s) x } }) s

def setSession (k : Nat) (x : Session) (s : State) : State :=
  { s with kiln := { s.kiln with sessions := tinsert s.kiln.sessions k x } }
def dropSession (k : Nat) (s : State) : State := { s with kiln := { s.kiln with sessions := terase s.kiln.sessions k } }

/-- FINISH (R640): the handshake verifies, on a Bond port with the partner's authentication, or the session ends. -/
def execFinish (m : Spdm) (verified : Bool) (s : State) : Out :=
  spdmAt m (fun s => match sessionOf s m with
    | none => spdmRefuse m s
    | some x =>
      if x.finished then spdmRefuse m s
      else if verified then spdmFree m 0x65 (setSession m.session { x with finished := true } s)
      else spdmRefuse m (dropSession m.session s)) s

/-- HEARTBEAT (R640). -/
def execHeartbeat (m : Spdm) (s : State) : Out :=
  spdmAt m (fun s => if inSession s m then spdmFree m 0x68 s else spdmRefuse m s) s

/-- KEY_UPDATE (R570, R640, R642): the session counts one more update; the Bond port takes its next key at NEXT_KEY_INSTALL. -/
def execKeyUpdate (m : Spdm) (s : State) : Out :=
  spdmAt m (fun s => match sessionOf s m with
    | none => spdmRefuse m s
    | some x =>
      if x.finished then spdmFree m 0x69 (setSession m.session { x with updates := x.updates + 1 } s) else spdmRefuse m s) s

/-- END_SESSION (R640). -/
def execEndSession (m : Spdm) (s : State) : Out :=
  spdmAt m (fun s => if inSession s m then spdmFree m 0x6C (dropSession m.session s) else spdmRefuse m s) s

/-- CHUNK_GET (R640). -/
def execChunkGet (m : Spdm) (_handle _seq : Nat) (s : State) : Out := plainRequest m 0x06 s

/-! ## IDE (R641) -/

def ideOf (s : State) (cachemem : Bool) : Ide := if cachemem then s.kiln.ideMem else s.kiln.ideIo
def setIde (cachemem : Bool) (x : Ide) (s : State) : State :=
  { s with kiln := if cachemem then { s.kiln with ideMem := x } else { s.kiln with ideIo := x } }

/-- KEY_PROG (R641): inside a session; the key enters the set that is not in use. -/
def execKeyProg (m : Spdm) (cachemem : Bool) (key : Nat) (s : State) : Out :=
  spdmAt m (fun s =>
    if inSession s m then
      let x := ideOf s cachemem
      spdmFree m rspVendor (setIde cachemem { x with keys := tinsert x.keys (b2n !x.use) key } s)
    else spdmRefuse m s) s

/-- K_SET_GO (R641): the sets are switched; a set without a key is not. -/
def execKSetGo (m : Spdm) (cachemem : Bool) (s : State) : Out :=
  spdmAt m (fun s =>
    let x := ideOf s cachemem
    if inSession s m && (tfind x.keys (b2n !x.use)).isSome then
      spdmFree m rspVendor (setIde cachemem { x with use := !x.use, live := true } s)
    else spdmRefuse m s) s

/-! ## TDISP (R653 to R656) -/

def tdiCode : Tdi → Nat
  | .configUnlocked => 0
  | .configLocked => 1
  | .run => 2
  | .error => 3

/-- GET_TDISP_VERSION (R653). -/
def execGetTdispVersion (m : Spdm) (s : State) : Out := plainRequest m rspVendor s

/-- GET_TDISP_CAPABILITIES (R653). -/
def execGetTdispCapabilities (m : Spdm) (s : State) : Out := plainRequest m rspVendor s

/-- The conditions of R654, outside recovery (R635), once the protected slots of an earlier RUN are released (R656; DEDUCED, log 97). -/
def mayLock (s : State) (m : Spdm) : Bool :=
  s.sealed_ && s.dbg.courses == 0 && s.dbg.cores == 0 && inSession s m && s.kiln.ideIo.live && s.kiln.ideMem.live &&
    !s.kiln.recovery && s.kiln.tdi == .configUnlocked && !s.kiln.slots.any fun p => p.2.protected_

/-- LOCK_INTERFACE_REQUEST (R654): the answer carries a fresh nonce. -/
def execLockInterfaceRequest (m : Spdm) (s : State) : Out :=
  spdmAt m (fun s =>
    if mayLock s m then
      let n := Config.freshKey s.kiln.draws
      spdmSend m rspVendor (leBytes 32 n) { s with kiln := { s.kiln with tdi := .configLocked, nonce := n, draws := s.kiln.draws + 1 } }
    else spdmRefuse m s) s

/-- GET_DEVICE_INTERFACE_REPORT (R654): in the locked states. It lists no MMIO range. -/
def execGetDeviceInterfaceReport (m : Spdm) (s : State) : Out :=
  spdmAt m (fun s =>
    if inSession s m && (s.kiln.tdi = .configLocked || s.kiln.tdi = .run) then spdmFree m rspVendor s else spdmRefuse m s) s

/-- GET_DEVICE_INTERFACE_STATE (R653). -/
def execGetDeviceInterfaceState (m : Spdm) (s : State) : Out :=
  spdmAt m (fun s => if sessionFits s m then spdmSend m rspVendor (leBytes 1 (tdiCode s.kiln.tdi)) s else spdmRefuse m s) s

/-- START_INTERFACE_REQUEST (R653): with the nonce of the lock. -/
def execStartInterfaceRequest (m : Spdm) (nonce : Nat) (s : State) : Out :=
  spdmAt m (fun s =>
    if inSession s m && s.kiln.tdi = .configLocked && nonce = s.kiln.nonce then
      spdmFree m rspVendor { s with kiln := { s.kiln with tdi := .run } }
    else spdmRefuse m s) s

/-- STOP_INTERFACE_REQUEST (R656). -/
def execStopInterfaceRequest (m : Spdm) (s : State) : Out :=
  spdmAt m (fun s =>
    if inSession s m then
      let s := leaveRun s
      spdmFree m rspVendor { s with kiln := { s.kiln with tdi := .configUnlocked, nonce := 0 } }
    else spdmRefuse m s) s

/-- An answer that carries a status of R540, and what a service returns. -/
def vendorAnswer (m : Spdm) (status value : Nat) (s : State) : State := spdmSend m rspVendor (leBytes 1 status ++ leBytes 4 value) s

/-- The trusted virtual machine may set a granule to a protected slot, and give one back to open (R652). -/
def tvmEntry (s : State) (old new : BitVec 16) : Bool :=
  fieldOf old 15 14 != 3 && (protectedEntry s new || (protectedEntry s old && fieldOf new 15 14 == 0))

/-- A vendor-defined message in RUN, which is answered once what it reads has come: slots and granules of the trusted virtual machine, and protected contexts as admin queue 2 creates and
destroys them. -/
def tdispVendor (m : Spdm) (v : TdispVendor) (s : State) : State :=
  match v with
  | .slotAssign pasid =>
    if 2 ^ 20 ≤ pasid then vendorAnswer m stBadCmd 0 s
    else match assignSlot pasid 2 true s with
      | none => vendorAnswer m stNoAccess 0 s
      | some (k, s) => vendorAnswer m 0 k s
  | .slotRelease k =>
    match tfind s.kiln.slots k with
    | none => vendorAnswer m stNoAccess 0 s
    | some x => if !x.protected_ || slotNamed s k then vendorAnswer m stNoAccess 0 s else vendorAnswer m 0 0 (releaseSlot k s)
  | .granuleSet first count entry =>
    if granuleArgsBad s first count entry.toNat then vendorAnswer m stBadCmd 0 s
    else if rangeChanging s first count then vendorAnswer m stBusy 0 s
    else if !(List.range count).all (fun i => tvmEntry s (granuleOf s ((first + i) * 2 ^ 21)) entry) then vendorAnswer m stNoAccess 0 s
    else vendorAnswer m 0 0 (startChange none first count entry s)
  | .ctxCreate c record =>
    match lintelReadRange (.mailbox 3) (sortAgent s record) 64 s with
    | (none, s) => s
    | (some (d, .ok), s) =>
      let s := dropFront (· = .mailbox 3) s
      if bitOf (BitVec.ofNat 32 (entryField d 12 4)) 11 then
        let (st, s) := createCtx 2 c d s
        vendorAnswer m st c s
      else vendorAnswer m stNoAccess c s
    | (some (_, st), s) => vendorAnswer m (statusCode st) c (dropFront (· = .mailbox 3) s)
  | .ctxDestroy c =>
    match ctxOf s c with
    | none => vendorAnswer m stNoSuch c s
    | some x =>
      if !bitOf x.security 11 then vendorAnswer m stNoAccess c s
      else if x.state = .destroying then vendorAnswer m stBusy c s
      else vendorAnswer m 0 c (destroyCtx c x none s)

/-- TDISP_VENDOR_MESSAGE (R653, R655). -/
def execTdispVendorMessage (m : Spdm) (v : TdispVendor) (s : State) : Out :=
  spdmAt m (fun s => if inSession s m && s.kiln.tdi = .run then tdispVendor m v s else spdmRefuse m s) s

end Sys2Proof.Machine
end

