-- ==== Sys2Proof/Machine/HostLink.lean ====
section
/-! DEFINITION. The host link (file 12): training, host resets, the host-absent state and arming, function-level reset, configuration, and
MSI-X vectors. -/
namespace Sys2Proof.Machine

/-! ## Training (R478, R480, R505) -/

/-- LINK_TRAINED (R480): steps 1 to 3. A host that offers no CXL protocol is refused, and a Lintel that the Kiln has not released trains
no link. -/
def execLinkTrained (width rate : Nat) (cxl flit256 : Bool) (s : State) : Out :=
  .next (if !cxl || !s.kiln.released then s
    else { s with link := { s.link with up := true, retrain := false, width := width, rate := rate, flit256 := flit256 } })

/-- LINK_DOWN (R505): a retrain begins; requests wait. -/
def execLinkDown (s : State) : Out :=
  .next (if s.link.up then { s with link := { s.link with up := false, retrain := true } } else s)

/-- LINK_RESTORED (R505): the link is back within 100 ms. -/
def execLinkRestored (s : State) : Out :=
  .next (if s.link.retrain then { s with link := { s.link with up := true, retrain := false } } else s)

/-! ## Translation without its state (R477) -/

/-- Every translation buffer is empty, and every translation and page request ends without a response: their accesses fail. -/
def emptyXlat (s : State) : State :=
  let atPorts := s.xlat.buffers.flatMap fun b =>
    if 1024 ≤ b.1 && b.1 < 2048 then b.2.map fun e => (b.1 - 1024, e) else []
  let ws := (s.xlat.reqs.flatMap fun r => r.waiters) ++ (s.xlat.prgs.flatMap fun p => p.2.waiters) ++ s.xlat.faultQ
  let s := { s with xlat := { s.xlat with buffers := [], reqs := [], prgs := [], faultQ := [] } }
  let s := forEach atPorts (fun x s => send (.jegInvalidate x.1 x.2.vbase)
    (modJegon x.1 (fun j => { j with leaving := j.leaving ++ [x.2] }) s)) s
  forEach ws failAccess s

/-! ## Entry to the host-absent state (R382, R506 to R513) -/

/-- A context depends on host memory (R511). -/
def dependsOnHost (s : State) (c : Nat) : Bool :=
  (((ctxOf s c).map fun x => x.hostDep).getD false) ||
    (ringsOf s c).any fun r => match ringOf s r with
      | some x => isHost x.entries || isHost x.compl || isHost x.doorbell
      | none => false

/-- Host requests of CXL.mem that have not been performed are discarded (R513). -/
def dropHostReqs (s : State) : State :=
  let s := quarantine ((s.home.txns.filter fun p => isHdm p.2.req).map fun p => p.2.biWait) s
  let carried (p : Packet) : Bool := match p.load with
    | .req _ r => isHdm r
    | .msg _ => false
  { modMortar (fun m => { m with waiting := m.waiting.filter fun p => !carried p }) s with home := { s.home with
      txns := s.home.txns.filter fun p => !isHdm p.2.req,
      input := s.home.input.filter fun p => !isHdm p.2,
      lineQ := s.home.lineQ.filter fun p => !isHdm p.2,
      retryQ := s.home.retryQ.filter fun p => !isHdm p.req } }

/-- The HDM directory is cleared: a line that the host held in A is poisoned, and back-invalidates under way end (R382). -/
def clearHdm (s : State) : State :=
  let ls := s.home.hdm
  let s := { s with home := { s.home with hdm := [] } }
  let s := forEach ls (fun p s => if p.2 = .a then poisonLine p.1 s else s) s
  forEach s.home.txns (fun p s => match p.2.biWait, txnOf s p.1 with
    | some id, some t =>
      let held := tfind ls p.1 = some .a
      setTxn p.1 { t with
        biWait := none, supplied := if held then some ((homeData s p.1).1, true, true) else t.supplied } (releaseId id true s)
    | _, _ => s) s

/-- Transactions of host lines that await no answer of the host end with `HOSTABSENT` (R508). -/
def failHostTxns (s : State) : State :=
  forEach s.home.txns (fun p s => match txnOf s p.1 with
    | some t =>
      if isHost (lineOfKey p.1 * 64) && !t.granted && t.hostWait.isNone then
        let dirty : Bool := match t.supplied with
          | some (_, d, _) => d
          | none => false
        failHostTxn .hostabsent p.1 t (if dirty then countReg offLinDiscardCnt 1 s else s)
      else s
    | none => s) s

/-- Host lines leave the Grout, and the agents' copies are recalled as by a directory eviction; dirty ones are discarded and counted
(R509). -/
def discardHostLines (s : State) : State :=
  let gs := s.home.grout.filter fun p => isHost (p.1 * 256)
  let dirty := (gs.flatMap fun p => p.2.sectors.filter fun c => c.2.v && c.2.d).length
  let s := countReg offLinDiscardCnt dirty { s with home := { s.home with
    grout := s.home.grout.filter (fun p => !isHost (p.1 * 256)), tagErr := s.home.tagErr.filter (fun p => !isHost (p.1 * 256)),
    dataErr := s.home.dataErr.filter (fun p => !isHost (p.1 * 8)) } }
  forEach (s.home.filter.filter fun p => isHost (p.1 * 64)) (fun p s => queueReq p.1 (.evictFilter 1) s) s

/-- Host writes that have not left (R508). -/
def unsentHostWrites (s : State) : Nat := (s.ops.filter fun o => !o.sent && isHost o.pa && o.kind != .get).length

/-- The block enters the host-absent state. -/
def enterAbsent (s : State) : State :=
  if s.link.hostAbsent then s
  else
    let s := { s with link := { s.link with hostAbsent := true, rereadQ := [] }, watches := [] }
    let s := raise unitLin srcHostAbsent 0 none 0 0 s
    let s := pumpOps (countReg offLinDropCnt (unsentHostWrites s) s)
    let deps := (s.ctxs.map fun p => p.1).filter (dependsOnHost s)
    let s := clearHdm (discardHostLines (failHostTxns (dropHostReqs s)))
    let s := { s with vecs := s.vecs.foldl (fun t p =>
      tset vecDefault t p.1 { p.2 with pending := false, holdoff := false, again := false }) [] }
    let s := disableQueue 0 (emptyXlat s)
    settle (leaveRun (loseAll deps s))

/-- HOST_ABSENT_ENTRY (R506, R507): the link has been down for more than 100 ms. -/
def execHostAbsentEntry (s : State) : Out :=
  .next (enterAbsent { s with link := { s.link with up := false, retrain := false } })

/-- What a host reset does to the function's configuration: the host has to set it again (PRESUMED, log 31). -/
def resetConfig (s : State) : State :=
  { s with
    link := { s.link with cacheOn := false, memOn := false, ats := false, stu := 0, pasid := false, pri := false, viralOn := false,
                          hdmCommit := false, hdmError := false },
    vecs := [] }

/-- HOST_LINK_RESET (R506, R516). A CXL reset leaves the link up. -/
def execHostLinkReset (kind : LinkReset) (s : State) : Out :=
  .next (resetConfig (enterAbsent (if kind = .cxlReset then s else { s with link := { s.link with up := false, retrain := false } })))

/-! ## Arming (R514 to R518) -/

/-- No host operation is outstanding: none that was sent, and no identifier toward the host is in use. -/
def hostQuiet (s : State) : Bool :=
  !(s.idents.any fun p => identPath p.1 == pathHost && p.2.busy) && !s.ops.any (fun o => o.sent && isHost o.pa) && !s.home.txns.any (fun p => p.2.hostWait.isSome) && s.xlat.reqs.isEmpty

/-- The message of every unmasked vector that is pending leaves. -/
def sendPending (s : State) : State :=
  forEach s.vecs (fun p s => if (vecOf s p.1).pending && !(vecOf s p.1).masked then sendVec p.1 s else s) s

/-- REARM (R515): accepted while host-absent, with the link up and no host operation outstanding. -/
def execRearm (agent : RegAgent) (s : State) : Out :=
  regCommand agent offRearm true (fun s =>
    if s.link.hostAbsent && s.link.up && hostQuiet s then
      settle (sendPending { s with link := { s.link with hostAbsent := false, epoch := s.link.epoch + 1 } })
    else s) s

/-! ## Function-level reset (R344, R477, R673) -/

/-- FUNCTION_LEVEL_RESET (R673): buffered stores drain, the contexts of queue 0 are destroyed, and queue 0, the MSI-X table, the watch table
and the translation buffers are cleared. -/
def execFunctionLevelReset (s : State) : Out :=
  .next (
    let s := forEach s.cores (fun p s => resumeCore p.1 (flushAllNt p.1 s)) s
    let s := forEach (s.ctxs.filter fun p => p.2.queue == 0) (fun p s => match ctxOf s p.1 with
      | some c => if c.state = .destroying then s else destroyCtx p.1 c none s
      | none => s) s
    let s := disableQueue 0 s
    emptyXlat { s with vecs := [], watches := [], link := { s.link with rereadQ := [] } })

/-! ## Configuration (R452, R480, R481, R501) -/

/-- HDM_DECODER_COMMIT (R481): refused with Commit Error while the chip number is not valid or device memory is empty. -/
def execHdmDecoderCommit (base size : Nat) (s : State) : Out :=
  .next (if !chipValid s || s.mem.topMib = 0 then { s with link := { s.link with hdmCommit := false, hdmError := true } }
    else { s with link := { s.link with hdmCommit := true, hdmError := false, hdmBase := base, hdmSize := size } })

/-- CONFIG_WRITE (R452, R480, R501, R503). CXL.mem is absent in 68-byte mode (R478). -/
def execConfigWrite (field : ConfigField) (s : State) : Out :=
  .next (match field with
    | .atsEnable b => { s with link := { s.link with ats := b } }
    | .atsStu v => { s with link := { s.link with stu := v } }
    | .pasidEnable b => { s with link := { s.link with pasid := b } }
    | .priDisable => { s with link := { s.link with pri := false } }
    | .cacheEnable b => { s with link := { s.link with cacheOn := b } }
    | .memEnable b => { s with link := { s.link with memOn := b && s.link.flit256 } }
    | .viralEnable b => { s with link := { s.link with viralOn := b } }
    | .msixEntry v addr data => if v < 2048 then modVec v (fun x => { x with addr := addr, data := data }) s else s
    | .msixMask v => if v < 2048 then modVec v (fun x => { x with masked := true }) s else s)

/-- CXL_IO_UNSUPPORTED (R1, R501): a memory request outside BAR0 and BAR2 is answered with Unsupported Request. -/
def execCxlIoUnsupported (tag _addr : Nat) (s : State) : Out := .next (send (.ioUnsupported tag) s)

/-! ## Vectors (R503) -/

/-- IRQ_HOLDOFF_EXPIRY (R503): the hold-off ends; a vector raised meanwhile sends one message. -/
def execIrqHoldoffExpiry (vector : Nat) (s : State) : Out :=
  .next (
    let x := vecOf s vector
    if !x.holdoff then s
    else
      let s := modVec vector (fun x => { x with holdoff := false, again := false }) s
      if x.again then raiseVec vector s else s)

/-- MSIX_VECTOR_UNMASK (R503): a pending vector sends its message, at the end of its hold-off where that runs. -/
def execMsixVectorUnmask (vector : Nat) (s : State) : Out :=
  .next (if 2048 ≤ vector then s
    else
      let s := modVec vector (fun x => { x with masked := false }) s
      let x := vecOf s vector
      if !x.pending || s.link.hostAbsent then s
      else if x.holdoff then modVec vector (fun x => { x with pending := false, again := true }) s
      else sendVec vector s)

end Sys2Proof.Machine
end

