-- ==== Sys2Proof/Machine/Resets.lean ====
section
/-! DEFINITION. Resets, bring-up, the seal, and Course power (files 01, 05, 08, 17). -/
namespace Sys2Proof.Machine

/-! ## The seal (R637, R689) -/

/-- SEAL (R689): every field that the seal locks is read-only from here on, and the Kiln takes measurement 5. -/
def execSeal (agent : RegAgent) (s : State) : Out :=
  regCommand agent offSeal true (fun s =>
    if s.sealed_ then s
    else
      let s := { s with sealed_ := true }
      if kilnRuns s then measureConfig s else s) s

/-! ## Cold and warm reset, boot (R34, R635, R638, R644, R671) -/

/-- The state after a cold or warm reset: what lies outside the block, and the model's own fields, are as they were. -/
def freshState (s : State) : State :=
  { State.reset with
    build := s.build, pending := s.pending, ticket := s.ticket, sent := s.sent,
    mem := { State.reset.mem with host := s.mem.host, hostBad := s.mem.hostBad },
    kiln := { Kiln.reset with draws := s.kiln.draws, answers := s.kiln.answers },
    clk := { State.reset.clk with pgCourse := s.clk.pgCourse, pgPlinth := s.clk.pgPlinth, pgLintel := s.clk.pgLintel } }

/-- COLD_RESET (R671). -/
def execColdReset (s : State) : Out := .next (freshState s)

/-- The checks of the Kiln ROM (R635). -/
def bootPasses (straps : Straps) (fuses : Fuses) (image : KilnImage) : Bool :=
  image.selfTest && image.signed && decide (fuses.minVersion ≤ image.version) && (!straps.kilnRecovery || image.recovery)

/-- What the Kiln firmware measures and derives at boot (R637, R638). The bytes of the ROM are a free value (log 10). -/
def bootKiln (image : KilnImage) (s : State) : State :=
  let f := s.kiln.fuses
  let s := { s with kiln := { s.kiln with
    released := true, recovery := s.straps.kilnRecovery, identity := Config.hkdf f.deviceSecret [image.version] } }
  let s := setMeasurement 1 (Config.answerBytes 0x100 0) s
  let s := setMeasurement 2 (leBytes 48 image.digest) s
  measureDebug (setMeasurement 3 (leBytes 4 image.version ++ leBytes 4 f.minVersion) s)

/-- COLD_RESET_RELEASE (R34, R635): the straps are sampled, the fuses read, and the Kiln boots. A failed check raises the integrity
fault, and the Lintel stays unreleased. A block whose parameter set is refused at build (R35) does not come out of reset. -/
def execColdResetRelease (straps : Straps) (fuses : Fuses) (image : KilnImage) (s : State) : Out :=
  .next (
    if !s.clk.inCold || !buildOk s.build then s
    else
      let s := { s with straps := straps, clk := { s.clk with inCold := false, pgLintel := true }, kiln := { s.kiln with fuses := fuses } }
      if bootPasses straps fuses image then bootKiln image s else raise unitLin srcIntegrity 0 none 0 0 s)

/-- The identifiers of the paths that leave the block, after a reset: those in use are quarantined (R385), since their answers may still come. -/
def quarantined (s : State) : Table Ident :=
  (s.idents.filter fun p => decide (identPath p.1 = pathHost) || decide (identPath p.1 = pathBond)).map fun p =>
    (p.1, if p.2.busy then { gen := (p.2.gen + 1) % pathGens (identPath p.1), busy := false, quarantined := true } else p.2)

/-- What a warm reset leaves: strap samples and fuse values, and the identifiers toward the host and other chips; the Kiln boots the same
image again (R635). -/
def warmState (s : State) : State :=
  let k := s.kiln
  let f := freshState s
  let f := { f with straps := s.straps, idents := quarantined s, clk := { f.clk with inCold := s.clk.inCold }, kiln := { f.kiln with
    fuses := k.fuses, released := k.released, recovery := k.recovery, identity := k.identity,
    measurements := k.measurements.filter fun p => decide (p.1 ≤ 3) } }
  if k.released then measureDebug f else f

/-- WARM (R671, R683): from the Kiln or the sideband. -/
def execWarm (agent : RegAgent) (s : State) : Out :=
  regCommand agent offPartCtl true (fun s => match agent with
    | .kiln => warmState s
    | .sideband => warmState s
    | _ => s) s

/-- PWRGOOD_RISE (R682). -/
def execPwrgoodRise (part : Part) (s : State) : Out :=
  .next (match part with
    | .course => { s with clk := { s.clk with pgCourse := true } }
    | .plinth => { s with clk := { s.clk with pgPlinth := true } }
    | .lintel => { s with clk := { s.clk with pgLintel := true } })

/-! ## Release (R29, R175, R672, R682) -/

/-- `PLN_RUN` and `CRS_RUN`. -/
def plnRunBit (s : State) : Bool := bitOf (reg s offPartCtl) 30
def crsRunBit (s : State) : Bool := bitOf (reg s offPartCtl) 29

/-- The Plinth leaves reset where its power is good and it may run. -/
def releasePlinth (s : State) : State :=
  if s.clk.plinthOut || !s.clk.pgPlinth || !plnRunBit s || !s.kiln.released then s
  else zeroCounters (fun d => 24 ≤ d && decide (d < 53)) { s with clk := { s.clk with plinthOut := true } }

/-- A Course whose crossing passes is live; its tile stores are cleared. One with more than one failed signal in a group is left
unpowered and reported (R29). -/
def releaseCourse (c : Nat) (t : CrossTest) (s : State) : State :=
  let spares := min 255 t.spares
  if 1 < t.worst then
    send (.pwrEn c false) <| raise unitClk srcCrossing (16 * c) none 0 0
      (modCourse c (fun x => { x with failed := true, spares := spares, live := false, state := 0, inReset := true }) s)
  else
    let s := modCourse c (fun x => { x with
      failed := false, spares := spares, live := true, state := 2, inReset := false, freq := 0, duty := 0, freqReq := none }) s
    let s := zeroCounters (fun d => d == c || d == 12 + c) s
    setPoint c (forEach (courseTiles s c) (fun n s => modTile n (fun t => { t with store := [], bad := [], ecc := [], clearing := true }) s) s)

/-- The test of a Course among those of a release; one that is not named found nothing. -/
def testOf (tests : List (Nat × CrossTest)) (c : Nat) : CrossTest := ((tests.find? fun p => p.1 == c).map fun p => p.2).getD ⟨0, 0⟩

/-- A Course that has power. -/
def coursePowered (s : State) (c : Nat) : Bool :=
  let x := courseOf s c
  (x.on || x.state == 2) && !x.failed && x.state != 1

/-- The Course partition leaves reset where its power is good, the Plinth is out, and it may run. -/
def releaseCourses (tests : List (Nat × CrossTest)) (s : State) : State :=
  if s.clk.coursesOut || !s.clk.pgCourse || !s.clk.plinthOut || !crsRunBit s then s
  else
    let s := { s with clk := { s.clk with coursesOut := true } }
    forEach ((List.range s.build.courses).filter (coursePowered s)) (fun c s => releaseCourse c (testOf tests c) s) s

/-- RESET_RELEASE (R672, R696): what has been held for at least 1 µs is released. -/
def execResetRelease (unit : ResetUnit) (tests : List (Nat × CrossTest)) (s : State) : Out :=
  match unit with
  | .plinth => .next (releasePlinth s)
  | .courses => .next (releaseCourses tests s)
  | .course c => onUnit (hasCourse s c) s
      (if (courseOf s c).inReset && s.clk.coursesOut && s.clk.plinthOut && coursePowered s c then releaseCourse c (testOf tests c) s
       else s)
  | .jegon p => onUnit (hasJegon s p) s (modJegon p (fun j => { j with reset := false }) s)

/-- TILE_STORE_CLEAR_DONE (R175). -/
def execTileStoreClearDone (tile : Nat) (s : State) : Out :=
  onUnit (hasTile s tile) s (modTile tile (fun t => { t with clearing := false }) s)

/-! ## Partition control (R671, R672, R682, R684) -/

/-- A write of `CLK_PART_CTL` from an agent that may write all of it. -/
def partCommand (agent : RegAgent) (f : State → State) (s : State) : Out :=
  regCommand agent offPartCtl true (fun s => if agent = .sideband then s else f s) s

def setPartBit (i : Nat) (b : Bool) (s : State) : State :=
  let m : Word32 := BitVec.ofNat 32 (2 ^ i)
  setReg offPartCtl (if b then reg s offPartCtl ||| m else reg s offPartCtl &&& ~~~m) s

/-- PLN_RUN (R682, R684). -/
def execPlnRun (agent : RegAgent) (run : Bool) (s : State) : Out :=
  partCommand agent (fun s =>
    if run then (if plnRunBit s then s else releasePlinth (setPartBit 30 true s))
    else
      let s := setPartBit 30 false s
      if s.clk.plinthOut then plinthDown s else s) s

/-- CRS_RUN (R29, R682, R684). -/
def execCrsRun (agent : RegAgent) (run : Bool) (tests : List (Nat × CrossTest)) (s : State) : Out :=
  partCommand agent (fun s =>
    if run then (if crsRunBit s then s else releaseCourses tests (setPartBit 29 true s))
    else
      let s := setPartBit 29 false s
      if s.clk.coursesOut then coursesDown s else s) s

/-- PLN_RESET (R672); merged with one that runs. -/
def execPlnReset (agent : RegAgent) (s : State) : Out :=
  partCommand agent (fun s => if s.clk.plinthOut then plinthDown s else s) s

/-- CRS_RESET (R672, R674). -/
def execCrsReset (agent : RegAgent) (s : State) : Out :=
  partCommand agent (fun s => if s.clk.coursesOut then coursesDown s else s) s

def offCourseCtl (c : Nat) : Nat := 0x100100 + 4 * c

/-- COURSE_RESET (R672, R674): the gating of the Course is refused; a reset that runs already takes this one in. -/
def execCourseReset (agent : RegAgent) (course : Nat) (s : State) : Out :=
  regCommand agent (offCourseCtl course) (hasCourse s course) (fun s =>
    let x := courseOf s course
    if x.inReset || !x.live then s
    else courseDown course (if x.state == 3 then refuseGating course s else s)) s

/-! ## Course power (R346, R347, R679, R693) -/

/-- Every Tile of a Course has an empty command queue and a held Trowel. -/
def courseIdle (s : State) (c : Nat) : Bool := (courseTiles s c).all fun n => (tileOf s n).queue.isEmpty && trowelHeld s n

/-- Step 3 of gating: a Trowel's buffers drain, and its dirty lines are written back once its stores have drained (`resumeCore`). -/
def drainTrowel (n : Nat) (s : State) : State :=
  resumeCore n (flushAllNt n s)

/-- COURSE_GATE_REQUEST (R346): refused at once where a Tile is busy, otherwise the drain begins. -/
def execCourseGateRequest (agent : RegAgent) (course : Nat) (s : State) : Out :=
  regCommand agent (offCourseCtl course) (hasCourse s course) (fun s =>
    let x := courseOf s course
    let s := modCourse course (fun x => { x with on := false }) s
    if !x.live || x.state != 2 then s
    else if !courseIdle s course then refuseGating course s
    else forEach (courseTiles s course) drainTrowel (modCourse course (fun x => { x with state := 3 }) s)) s

/-- Steps 3 and 4 of gating have ended for a Trowel. -/
def trowelDrained (s : State) (n : Nat) : Bool :=
  let c := coreOf s n
  c.storeBuf.isEmpty && c.ntBufs.isEmpty && c.ntHeld.isEmpty && !c.lines.any (fun p => dirtyLine p.2) && c.wb.isEmpty && c.fills.isEmpty && tileOps s n == 0 &&
    !s.ops.any (fun o => o.src = .core n)

/-- COURSE_POWER_OFF (R346, step 5; R693): clean lines are dropped, the clocks stop, power goes, and tile-store contents are lost. -/
def execCoursePowerOff (course : Nat) (s : State) : Out :=
  onUnit (hasCourse s course) s
    (if (courseOf s course).state != 3 || !(courseTiles s course).all (trowelDrained s) then s
     else
       let ns := courseTiles s course
       let s := modCourse course (fun x => { x with
         live := false, on := false, state := 0, inReset := true, freq := 0, duty := 0, freqReq := none }) s
       let s := timeoutAll (fun o => match windowTile o.pa with
         | some n => ns.contains n
         | none => false) s
       send (.pwrEn course false) (resetTiles course s))

/-- GATING_REFUSED (R347): steps 3 and 4 have not ended in time. -/
def execGatingRefused (course : Nat) (s : State) : Out :=
  onUnit (hasCourse s course) s (if (courseOf s course).state == 3 && !(courseTiles s course).all (trowelDrained s) then refuseGating course s else s)

/-- COURSE_POWER_ON (R679): for a Course that is off. -/
def execCoursePowerOn (agent : RegAgent) (course : Nat) (s : State) : Out :=
  regCommand agent (offCourseCtl course) (hasCourse s course) (fun s =>
    let x := courseOf s course
    let s := modCourse course (fun x => { x with on := true }) s
    if x.state != 0 || (x.on && !x.failed) then s
    else send (.pwrEn course true) (modCourse course (fun x => { x with state := 1 }) s)) s

/-- COURSE_PWR_OK (R29, R672, R679): the Course starts its clocks and is reset, tested and released; it stays in reset while its
partition or the Plinth does. -/
def execCoursePwrOk (course : Nat) (test : CrossTest) (s : State) : Out :=
  onUnit (hasCourse s course) s
    (if (courseOf s course).state != 1 then s
     else if s.clk.plinthOut && s.clk.coursesOut then releaseCourse course test s
     else modCourse course (fun x => { x with state := 2, inReset := true }) s)

end Sys2Proof.Machine
end

