-- ==== Sys2Proof/Machine/Registers.lean ====
section
/-! DEFINITION. The set-up registers (file 18 and the tables that it names): which register an offset holds, what it reads, what a write
does, and accesses by register commands. -/
namespace Sys2Proof.Machine

/-- The set-up registers (R685), with their unit and index. -/
inductive RegId where
  | glbId | glbVersion | build0 | build1 | straps | cap0 | seal
  | pwrLimit | pwrStatus | tick | partCtl | corrCtl | courseCtl (c : Nat) | corrLo (d : Nat) | corrHi (d : Nat)
  /-- Word of the record that lies under a key of `Flt.latches`, with its level. -/
  | latch (key level word : Nat)
  | pend (i : Nat) | fltSummary | fltCtl | inputLimit | inputState | severity (n : Nat)
  | linState | linTimeout | rearm | epoch | dbPoll | holdoff | dropCnt | discardCnt
  | admqCtl (q : Nat) | admqLo (q : Nat) | admqHi (q : Nat)
  | hodState (e : Nat) | hodLo (e : Nat) | hodHi (e : Nat)
  | chip | window | hdmTop | courseLive | weight | stale (n : Nat) | route (n : Nat)
  | grtCtl (n : Nat)
  | plnNeg (n : Nat) | plnExcl (n : Nat) | plnLive (n : Nat) | plnThr (n : Nat) | plnThrottle (n : Nat) | plnScrub (n : Nat)
  | plnCorr (n : Nat) | plnUncorr (n : Nat) | logLo (n i : Nat) | logHi (n i : Nat) | repair (n : Nat) | cmd1500 (n : Nat)
  | data1500 (n i : Nat)
  | stackMask (c : Nat) | cross (c : Nat) | tileState (n : Nat) | tileCorr (n : Nat)
  | bndCtl (p : Nat) | bndState (p : Nat) | bndErr (p : Nat) | bndAuth (p : Nat) | secCtl | secBase
  | jegCtl (p : Nat) | jegState (p : Nat)
  | mbCmd (m : Nat) | mbData (m i : Nat) | imgCtl (m : Nat) | imgLo (m : Nat) | imgHi (m : Nat) | imgLen (m : Nat)
  | dbgState | dbgIdcode
  deriving DecidableEq, Repr

/-! ## Offsets (R630, R683, R685, R691, R694 to R698, R702) -/

/-- The word of a unit's own latch record at an offset of its register block (R628). -/
def ownRecord (s : State) (u o : Nat) : Option RegId :=
  if s.build.localFaults && decide (0xE00 ≤ o) && decide (o < 0xEC0) then
    let l := (o - 0xE00) / 0x20
    some (.latch (8 * (u + 1) + l) l (o % 0x20 / 4))
  else none

def glbReg (o : Nat) : Option RegId :=
  match o with
  | 0x00 => some .glbId | 0x04 => some .glbVersion | 0x08 => some .build0 | 0x0C => some .build1 | 0x10 => some .straps
  | 0x14 => some .cap0 | 0x18 => some .seal | _ => none

def clkReg (s : State) (o : Nat) : Option RegId :=
  match o with
  | 0x00 => some .pwrLimit | 0x04 => some .pwrStatus | 0x08 => some .tick | 0x0C => some .partCtl | 0x10 => some .corrCtl
  | _ =>
    if 0x100 ≤ o && o < 0x130 then (if hasCourse s ((o - 0x100) / 4) then some (.courseCtl ((o - 0x100) / 4)) else none)
    else if 0x1000 ≤ o && o < 0x1390 then
      let d := (o - 0x1000) / 8
      if hasDomain s d then some (if o % 8 = 0 then .corrLo d else .corrHi d) else none
    else ownRecord s unitClk o

def fltReg (s : State) (o : Nat) : Option RegId :=
  if o < 0xC0 then (if s.build.localFaults then none else some (.latch (o / 0x20) (o / 0x20) (o % 0x20 / 4)))
  else if 0x100 ≤ o && o < 0x110 then some (.pend ((o - 0x100) / 4))
  else if 0x400 ≤ o && o < 0x600 then some (.severity ((o - 0x400) / 4))
  else match o with
    | 0x110 => some .fltSummary | 0x114 => some .fltCtl | 0x200 => some .inputLimit | 0x204 => some .inputState
    | _ => ownRecord s unitFlt o

def linReg (s : State) (o : Nat) : Option RegId :=
  match o with
  | 0x00 => some .linState | 0x04 => some .linTimeout | 0x08 => some .rearm | 0x0C => some .epoch | 0x10 => some .dbPoll
  | 0x14 => some .holdoff | 0x18 => some .dropCnt | 0x1C => some .discardCnt
  | _ =>
    if 0x100 ≤ o && o < 0x130 then
      let q := (o - 0x100) / 0x10
      match o % 0x10 with
      | 0 => some (.admqCtl q) | 8 => some (.admqLo q) | 12 => some (.admqHi q) | _ => none
    else ownRecord s unitLin o

def hodReg (s : State) (r : Nat) : Option RegId :=
  let e := r / 0x1000
  if !hasHod s e then none
  else match r % 0x1000 with
    | 0 => some (.hodState e) | 8 => some (.hodLo e) | 12 => some (.hodHi e) | _ => none

def morReg (s : State) (o : Nat) : Option RegId :=
  match o with
  | 0x0 => some .chip | 0x4 => some .window | 0x8 => some .hdmTop | 0xC => some .courseLive | 0x100 => some .weight
  | _ =>
    if 0x200 ≤ o && o < 0x218 then some (.stale ((o - 0x200) / 4))
    else if 0x10000 ≤ o && o < 0x12000 then some (.route ((o - 0x10000) / 4))
    else ownRecord s unitMor o

def grtReg (s : State) (r : Nat) : Option RegId :=
  let n := r / 0x20000
  if !hasStack s n then none
  else match r % 0x20000 with
    | 0 => some (.grtCtl n)
    | o => ownRecord s (unitSlice n) o

def plnRegs (s : State) (r : Nat) : Option RegId :=
  let n := r / 0x40000
  if !hasStack s n then none
  else match r % 0x40000 with
    | 0x0 => some (.plnNeg n) | 0x4 => some (.plnExcl n) | 0x8 => some (.plnLive n) | 0x10 => some (.plnThr n)
    | 0x14 => some (.plnThrottle n) | 0x20 => some (.plnScrub n) | 0x30 => some (.plnCorr n) | 0x34 => some (.plnUncorr n)
    | 0x200 => some (.repair n) | 0x1000 => some (.cmd1500 n)
    | o =>
      if 0x100 ≤ o && o < 0x180 then some (if o % 8 = 0 then .logLo n ((o - 0x100) / 8) else .logHi n ((o - 0x100) / 8))
      else if 0x1100 ≤ o && o < 0x1200 then some (.data1500 n ((o - 0x1100) / 4))
      else ownRecord s (unitCtl n) o

def crsReg (s : State) (r : Nat) : Option RegId :=
  let c := r / 0x100000
  let n := 16 * c + r % 0x100000 / 0x10000
  let o := r % 0x10000
  if r % 0x100000 = 0 && hasCourse s c then some (.stackMask c)
  else if r % 0x100000 = 4 && hasCourse s c then some (.cross c)
  else if !hasTile s n then none
  else if o = 0x100 then some (.tileState n) else if o = 0x104 then some (.tileCorr n) else ownRecord s (unitTile n) o

def bndReg (s : State) (r : Nat) : Option RegId :=
  if r = 0x400000 then (if hasSecuring s then some .secCtl else none)
  else if r = 0x400004 then (if hasSecuring s then some .secBase else none)
  else
    let p := r / 0x20000
    if !hasBond s p then none
    else match r % 0x20000 with
      | 0 => some (.bndCtl p) | 4 => some (.bndState p) | 8 => some (.bndErr p) | 12 => some (.bndAuth p)
      | o => ownRecord s (unitBond p) o

def jegReg (s : State) (r : Nat) : Option RegId :=
  let p := r / 0x10000
  if !hasJegon s p then none
  else match r % 0x10000 with
    | 0 => some (.jegCtl p) | 4 => some (.jegState p)
    | o => ownRecord s (unitJegon p) o

/-- The image registers of mailbox 1 do not exist (R698). -/
def klnReg (r : Nat) : Option RegId :=
  let m := r / 0x1000
  let o := r % 0x1000
  if 2 < m then none
  else if o = 0 then some (.mbCmd m)
  else if 0x100 ≤ o && o < 0x200 then some (.mbData m ((o - 0x100) / 4))
  else if m = 1 then none
  else match o with
    | 0x800 => some (.imgCtl m) | 0x808 => some (.imgLo m) | 0x80C => some (.imgHi m) | 0x810 => some (.imgLen m) | _ => none

/-- The register at a set-up offset; none where no register lies (R686). -/
def regAt (s : State) (off : Nat) : Option RegId :=
  if off < 0x100000 then glbReg off
  else if off < 0x200000 then clkReg s (off - 0x100000)
  else if off < 0x300000 then fltReg s (off - 0x200000)
  else if off < 0x400000 then none
  else if off < 0x600000 then linReg s (off - 0x400000)
  else if off < 0x800000 then hodReg s (off - 0x600000)
  else if off < 0xA00000 then morReg s (off - 0x800000)
  else if off < 0x1000000 then grtReg s (off - 0xA00000)
  else if off < 0x2000000 then plnRegs s (off - 0x1000000)
  else if off < 0x3000000 then crsReg s (off - 0x2000000)
  else if off < 0x3600000 then bndReg s (off - 0x3000000)
  else if off < 0x3800000 then jegReg s (off - 0x3600000)
  else if off < 0x3C00000 then klnReg (off - 0x3800000)
  else if off = 0x3C00000 then some .dbgState
  else if off = 0x3C00004 then some .dbgIdcode
  else none

/-! ## Reads -/

def word (v : Nat) : Word32 := BitVec.ofNat 32 v

/-- `CLK_COURSE_CTL` (R684). -/
def courseWord (x : Course) : Word32 :=
  word (b2n x.on * 2 ^ 31 + x.state.toNat * 2 ^ 28 + b2n x.refused * 2 ^ 27 + x.freq % 64 * 2 ^ 12 + x.duty % 16 * 2 ^ 8 +
    x.cause.toNat * 2 ^ 4)

def partCode : Part → Nat
  | .course => 0 | .plinth => 1 | .lintel => 2

/-- A word of a latch record (R631). -/
def latchWord (x : Latch) (w : Nat) : Word32 :=
  match x.syn with
  | none => word (b2n x.valid * 2 ^ 31)
  | some y =>
    match w with
    | 0 => word (b2n x.valid * 2 ^ 31 + b2n x.ovf * 2 ^ 30 + b2n x.esc * 2 ^ 29 + b2n y.ctx.isSome * 2 ^ 28 +
        y.ctx.getD 0 % 2 ^ 12 * 2 ^ 16 + y.source % 256 * 2 ^ 8 + x.count % 256)
    | 1 => word (partCode y.part * 2 ^ 30 + y.instance_ % 2 ^ 16)
    | 2 => word y.addr
    | 3 => word (y.addr / 2 ^ 32)
    | 4 => y.stamp.setWidth 32
    | 5 => (y.stamp >>> 32).setWidth 32
    | 6 => y.detail.setWidth 32
    | _ => (y.detail >>> 32).setWidth 32

/-- A record of a level is valid, in any unit under `LOCAL` (R632). -/
def levelValid (s : State) (l : Nat) : Bool := s.flt.latches.any fun p => p.1 % 8 == l && p.2.valid

def fltSummaryWord (s : State) : Word32 :=
  word (b2n s.flt.fatal * 2 ^ 31 + (List.range 6).foldl (fun a l => a + b2n (levelValid s l) * 2 ^ (16 + l)) 0 +
    (List.range 6).foldl (fun a l => if levelValid s l then l else a) 0)

/-- `LIN_STATE` (R482). -/
def linStateWord (k : Link) : Word32 :=
  word (b2n k.hostAbsent * 2 ^ 31 + b2n k.flit256 * 2 ^ 30 + b2n k.cacheOn * 2 ^ 29 + b2n k.memOn * 2 ^ 28 + b2n k.up * 2 ^ 27 +
    k.width % 64 * 2 ^ 21 + k.rate % 128 * 2 ^ 14)

/-- `HOD_STATE` (R694). -/
def hodStateWord (s : State) (e : Nat) : Word32 :=
  let n := (hodOf s e).started.length
  word (e % 2 * 2 ^ 31 + b2n (n != 0) * 2 ^ 30 + n % 1024 * 2 ^ 20 +
    (s.ops.filter fun o => o.src = .hod e && o.sent).length % 2048)

/-- A mask of the Courses that meet a condition. -/
def courseMask (s : State) (p : Course → Bool) : Nat :=
  (List.range s.build.courses).foldl (fun a c => a + b2n (p (courseOf s c)) * 2 ^ c) 0

/-- `PLN_NEG` (R439). -/
def plnNegWord (s : State) (n : Nat) : Word32 :=
  let c := ctlOf s n
  (plnReg s n 0 &&& 0x0F000000) ||| word (c.neg.toNat * 2 ^ 28 + c.rate % 8 * 2 ^ 21 + c.height.toNat * 2 ^ 19 +
    c.density.toNat * 2 ^ 17 + channelCount c.live)

/-- `PLN_THROTTLE` (R441). -/
def throttleWord (s : State) (n : Nat) : Word32 :=
  let c := ctlOf s n
  word (c.temp % 256 * 2 ^ 16 + b2n c.slow * 2 ^ 4 + b2n (stackHot s n) * 2 ^ 3 + b2n c.shutdown * 2 ^ 2 + c.level % 4)

/-- A correction-log entry (R443). -/
def logEntry (s : State) (n i : Nat) : Nat :=
  match tfind (ctlOf s n).corrLog i with
  | some e => 2 ^ 63 + logWord e.place e.count e.symbols
  | none => 0

/-- `CRS_TILE_STATE` (R697). -/
def tileStateWord (s : State) (n : Nat) : Word32 :=
  let t := tileOf s n
  word (2 ^ 31 + b2n t.bound.isSome * 2 ^ 30 + b2n (trowelHeld s n) * 2 ^ 29 + b2n t.clearing * 2 ^ 28 + t.bound.getD 0 % 2 ^ 12)

/-- `JEG_STATE` (R695). -/
def jegStateWord (j : Jegon) : Word32 :=
  let q : Bool := j.engineAck && j.blockAck
  word (b2n (j.en && !q && !j.refusing) * 2 ^ 31 + b2n q * 2 ^ 30 + b2n j.refusing * 2 ^ 29 + j.cause.toNat * 2 ^ 26)

/-- `GLB_VERSION` (R4). -/
def versionWord : Word32 := 0x01010000

/-- `DBG_IDCODE` (R702). -/
def idcodeWord (s : State) : Word32 :=
  word (versionWord.toNat % 16 * 2 ^ 28 + 0x5831 * 2 ^ 12 + (if s.kiln.released then s.kiln.fuses.manuf.toNat else 0) * 2 + 1)

/-- The captured counter of a domain (R667, R684). -/
def capturedOf (s : State) (d : Nat) : Nat × Bool :=
  match tfind s.clk.captured (clockOf s d) with
  | some (v, r) => (v.toNat, r)
  | none => (0, false)

/-- What a register reads. The W1S bits that start something or reset something (`PLN_NEG.START`, `PLN_REPAIR_CTL.GO`, `PLN_1500_CMD.GO`,
`CLK_PART_CTL`, `CLK_COURSE_CTL.RESET`, `CLK_CORR_CTL.GO`) read 0 (DESIGN CHOICE, log 95). -/
def regValue (s : State) : RegId → Word32
  | .glbId => 0x48460001
  | .glbVersion => versionWord
  | .build0 => build0 s.build
  | .build1 => build1 s.build
  | .straps => strapsWord s.straps
  | .cap0 => 0
  | .seal => word (b2n s.sealed_ * 2 ^ 31)
  | .pwrLimit => reg s offPwrLimit
  | .pwrStatus => word (b2n s.clk.alert * 2 ^ 31 + s.clk.level % 64 * 2 ^ 16 + s.clk.est % 2 ^ 16)
  | .tick => reg s offTick
  | .partCtl => reg s offPartCtl
  | .corrCtl => 0
  | .courseCtl c => courseWord (courseOf s c)
  | .corrLo d => word (capturedOf s d).1
  | .corrHi d => word (b2n (capturedOf s d).2 * 2 ^ 31 + (capturedOf s d).1 / 2 ^ 32 % 2 ^ 24)
  | .latch k _ w => latchWord (latchOf s k) w
  | .pend i => (s.flt.pend >>> (32 * i)).setWidth 32
  | .fltSummary => fltSummaryWord s
  | .fltCtl => reg s offFltCtl
  | .inputLimit => reg s offFltLimit
  | .inputState => word (s.flt.active.toNat * 2 ^ 16 + s.flt.masked.toNat)
  | .severity n => reg s (offFltSev n)
  | .linState => linStateWord s.link
  | .linTimeout => reg s offLinTimeout
  | .rearm => 0
  | .epoch => s.link.epoch
  | .dbPoll => reg s offDbPoll
  | .holdoff => reg s offHoldoff
  | .dropCnt => reg s offLinDropCnt
  | .discardCnt => reg s offLinDiscardCnt
  | .admqCtl q => word (b2n ((admqOf s q).en || (admqOf s q).loading) * 2 ^ 31 + b2n (admqOf s q).bad * 2 ^ 30)
  | .admqLo q => (admqOf s q).ptrLo
  | .admqHi q => (admqOf s q).ptrHi
  | .hodState e => hodStateWord s e
  | .hodLo e => reg s (offHodBytes e)
  | .hodHi e => reg s (offHodBytes e + 4)
  | .chip => reg s offChip
  | .window => reg s offWindow
  | .hdmTop => word s.mem.topMib.toNat
  | .courseLive => word (courseMask s (fun x => x.failed) * 2 ^ 16 + courseMask s (fun x => x.live))
  | .weight => reg s offWeight
  | .stale n => reg s (offStale n)
  | .route n => reg s (offRoute n)
  | .grtCtl n => reg s (offGrtCtl n)
  | .plnNeg n => plnNegWord s n
  | .plnExcl n => plnReg s n 4
  | .plnLive n => (ctlOf s n).live
  | .plnThr n => plnReg s n 0x10
  | .plnThrottle n => throttleWord s n
  | .plnScrub n => plnReg s n 0x20
  | .plnCorr n => reg s (offCorrCnt n)
  | .plnUncorr n => reg s (offUncorrCnt n)
  | .logLo n i => word (logEntry s n i)
  | .logHi n i => word (logEntry s n i / 2 ^ 32)
  | .repair n =>
    plnReg s n 0x200 ||| word (b2n (ctlOf s n).repairBusy * 2 ^ 30 + (ctlOf s n).repairResult.toNat * 2 ^ 28)
  | .cmd1500 n => plnReg s n 0x1000 ||| word (b2n (ctlOf s n).ieeeBusy * 2 ^ 30)
  | .data1500 n i => plnReg s n (0x1100 + 4 * i)
  | .stackMask c => word (s.build.stackMask.getD c 0)
  | .cross c => word (b2n (courseOf s c).failed * 2 ^ 31 + min 255 (courseOf s c).spares)
  | .tileState n => tileStateWord s n
  | .tileCorr n => reg s (offTileCorr n)
  | .bndCtl p => reg s (offBnd p)
  | .bndState p => bndState s p
  | .bndErr p => reg s (offBndErr p)
  | .bndAuth p => reg s (offBndAuth p)
  | .secCtl => reg s offSecCtl
  | .secBase => reg s offSecBase
  | .jegCtl p => word (b2n (jegonOf s p).en * 2 ^ 31)
  | .jegState p => jegStateWord (jegonOf s p)
  | .mbCmd m =>
    word (b2n (mailboxOf s m).busy * 2 ^ 30 + (mailboxOf s m).status.toNat * 2 ^ 16 + (mailboxOf s m).service.toNat)
  | .mbData m i => tget zeroOf (mailboxOf s m).data i
  | .imgCtl m =>
    word (b2n (mailboxOf s m).imgFinal * 2 ^ 30 + b2n (mailboxOf s m).imgBusy * 2 ^ 29 + (mailboxOf s m).imgStatus.toNat * 2 ^ 16)
  | .imgLo m => (mailboxOf s m).imgAddr.setWidth 32
  | .imgHi m => ((mailboxOf s m).imgAddr >>> 32).setWidth 32
  | .imgLen m => (mailboxOf s m).imgLen
  | .dbgState => word (s.dbg.courses.toNat * 2 ^ 16 + s.dbg.cores.toNat)
  | .dbgIdcode => idcodeWord s

/-- The high word that belongs to a low word (R690). -/
def highOf : RegId → Option RegId
  | .corrLo d => some (.corrHi d)
  | .hodLo e => some (.hodHi e)
  | .logLo n i => some (.logHi n i)
  | .imgLo m => some (.imgHi m)
  | _ => none

/-- Writable high words (R690). -/
def stagedHigh : RegId → Bool
  | .hodHi _ => true
  | .logHi _ _ => true
  | .imgHi _ => true
  | _ => false

/-- The place of an agent's capture or staged word for an offset. -/
def agentKey (a : RegAgent) (off : Nat) : Nat :=
  (match a with
  | .host => 0
  | .core k => 1 + k
  | .kiln => 9
  | .sideband => 10) * 2 ^ 26 + off

/-- A read of an aligned word by an agent. A low word captures its high half for the agent, which holds one capture; its next read of that
high word returns it (R690). -/
def regRead (a : RegAgent) (off : Nat) (s : State) : Word32 × State :=
  if !mayRead a off then (0, s)
  else match regAt s off with
    | none => (0, s)
    | some r =>
      match highOf r with
      | some h =>
        let others := s.captures.filter fun p => p.1 / 2 ^ 26 != agentKey a 0 / 2 ^ 26
        (regValue s r, { s with captures := tinsert others (agentKey a (off + 4)) (regValue s h) })
      | none => match tfind s.captures (agentKey a off) with
        | some v => (v, { s with captures := terase s.captures (agentKey a off) })
        | none => (regValue s r, s)

/-! ## Writes -/

/-- The state that a command leaves; a stop leaves it as it was. -/
def after (o : Out) (s : State) : State :=
  match o with
  | .next t => t
  | _ => s

/-- A write of the fields of a register that the seal locks (R15). -/
def lockedWrite (off : Nat) (mask v : Word32) (s : State) : State := if s.sealed_ then s else setReg off (v &&& mask) s

/-- A write of `CLK_PART_CTL` (R683, R684). -/
def writePart (a : RegAgent) (v : Word32) (s : State) : State :=
  if bitOf v 31 && (a = .kiln || a = .sideband) then after (execWarm a s) s
  else
    let s := after (execPlnRun a (bitOf v 30) s) s
    let s := after (execCrsRun a (bitOf v 29) [] s) s
    let s := if bitOf v 28 then after (execPlnReset a s) s else s
    if bitOf v 27 then after (execCrsReset a s) s else s

/-- A write of `CLK_COURSE_CTL` (R684). -/
def writeCourse (a : RegAgent) (c : Nat) (v : Word32) (s : State) : State :=
  let s := if bitOf v 27 then modCourse c (fun x => { x with refused := false }) s else s
  let s := if bitOf v 31 then after (execCoursePowerOn a c s) s
    else if (courseOf s c).on then after (execCourseGateRequest a c s) s else s
  if bitOf v 30 then after (execCourseReset a c s) s else s

/-- A write of `FLT_SEVERITY` (R632): levels 6 and 7 leave the field, and a reserved source ignores the write. -/
def writeSeverity (n : Nat) (v : Word32) (s : State) : State :=
  if (sourceLevels s n).isNone then s
  else if fieldOf v 2 0 < 6 then lockedWrite (offFltSev n) 0x87 v s
  else lockedWrite (offFltSev n) 0x87 ((v &&& 0x80) ||| (reg s (offFltSev n) &&& 0x7)) s

/-- A write of `PLN_NEG` (R428, R439): clearing `HOLD` lets the controller go on, and `START` starts it. -/
def writeNeg (a : RegAgent) (n : Nat) (v : Word32) (s : State) : State :=
  let held := bitOf (plnReg s n 0) 27
  let s := lockedWrite (offPln n) 0x0F000000 v s
  let s := if held && !bitOf (plnReg s n 0) 27 then after (execNegHoldRelease a n s) s else s
  if bitOf v 16 then after (execPlnNegStart a n s) s else s

/-- A write of `JEG_CTL` (R695, R696). A reset that takes effect clears `EN`. -/
def writeJeg (a : RegAgent) (p : Nat) (v : Word32) (s : State) : State :=
  let j := jegonOf s p
  if bitOf v 30 && ((j.engineAck && j.blockAck) || j.refusing) then after (execJegReset a p s) s
  else after (execJegEnableWrite a p (bitOf v 31) s) s

/-- A write of `VALID` of a correction-log entry (R443): 0 frees the entry. An entry that software puts in use names no sector. -/
def writeLog (n i : Nat) (v : Word32) (s : State) : State :=
  modCtl n (fun c =>
    if !bitOf v 31 then { c with corrLog := terase c.corrLog i }
    else if (tfind c.corrLog i).isSome then c
    else { c with corrLog := tinsert c.corrLog i ⟨2 ^ 40, ⟨0, 0, 0, 0, 0⟩, 0, 0⟩ }) s

/-- Nothing is under way in a mailbox (R699). -/
def mailboxIdle (s : State) (m : Nat) : Bool := !(mailboxOf s m).busy && !(mailboxOf s m).imgBusy

/-- A write of `KLN_MB_CMD` (R698, R699, R701): `GO` hands the service to the Kiln, which refuses a reserved code. -/
def writeMbCmd (m : Nat) (v : Word32) (s : State) : State :=
  let code := fieldOf v 7 0
  modMailbox m (fun b =>
    let b := { b with service := BitVec.ofNat 8 code }
    if !bitOf v 31 then b
    else if 1 ≤ code && code ≤ 6 then { b with busy := true }
    else { b with status := BitVec.ofNat 8 stBadCmd }) s

/-- What a write of a register does; the seal, the locks of a register and its access types apply (R15, R269, R610, R689, R699). -/
def regSet (a : RegAgent) (v : Word32) (r : RegId) (s : State) : State :=
  match r with
  | .seal => if bitOf v 31 then after (execSeal a s) s else s
  | .pwrLimit => after (execClkPwrLimitWrite a v s) s
  | .tick => lockedWrite offTick 0xFF v s
  | .partCtl => writePart a v s
  | .corrCtl => if bitOf v 31 then after (execCorrCapture a s) s else s
  | .courseCtl c => writeCourse a c v s
  | .latch k l w => if w = 0 && bitOf v 31 && clearable l then clearLatch k s else s
  | .pend i => after (execFltPendClear a i v s) s
  | .fltCtl => setReg offFltCtl (v &&& 0xBF0007FF) s
  | .inputLimit => lockedWrite offFltLimit 0xFFFF v s
  | .inputState => after (execInputMaskClear a v s) s
  | .severity n => writeSeverity n v s
  | .linTimeout => lockedWrite offLinTimeout 0x3F v s
  | .rearm => if bitOf v 0 then after (execRearm a s) s else s
  | .dbPoll => setReg offDbPoll (v &&& 0xFFFF) s
  | .holdoff => setReg offHoldoff (v &&& 0xFF) s
  | .dropCnt => setReg offLinDropCnt v s
  | .discardCnt => setReg offLinDiscardCnt v s
  | .admqCtl q => if bitOf v 31 then after (execAdmqEnable a q s) s else after (execAdmqDisable a q s) s
  | .admqLo q => modAdmq q (fun x => { x with ptrLo := v &&& 0xFFFFFFC0 }) s
  | .admqHi q => modAdmq q (fun x => { x with ptrHi := v }) s
  | .hodLo e => setReg (offHodBytes e) v s
  | .hodHi e => setReg (offHodBytes e + 4) v s
  | .chip => after (execChipValidWrite a v s) s
  | .window => if chipValid s then s else lockedWrite offWindow 0x1FFFF v s
  | .weight => lockedWrite offWeight 0xFFFFFF v s
  | .stale n => setReg (offStale n) v s
  | .route n => after (execRouteWrite a n v s) s
  | .grtCtl n => lockedWrite (offGrtCtl n) 0x7 v s
  | .plnNeg n => writeNeg a n v s
  | .plnExcl n => lockedWrite (offPln n + 4) 0xFFFFFFFF v s
  | .plnThr n => after (execTempThresholdWrite a n v s) s
  | .plnScrub n => lockedWrite (offPln n + 0x20) 0x800000FF v s
  | .plnCorr n => setReg (offCorrCnt n) v s
  | .plnUncorr n => setReg (offUncorrCnt n) v s
  | .logHi n i => writeLog n i v s
  | .repair n => after (execRepairGo a n v s) s
  | .cmd1500 n => after (execIeee1500Go a n v s) s
  | .data1500 n i => setReg (offPln n + 0x1100 + 4 * i) v s
  | .tileCorr n => setReg (offTileCorr n) v s
  | .bndCtl p => after (execBondEnable a p v s) s
  | .bndErr p => setReg (offBndErr p) v s
  | .bndAuth p => setReg (offBndAuth p) v s
  | .secCtl => if bitOf v 31 then after (armWrite a v s) s else after (execSecuringStop a v s) s
  | .secBase => if bitOf (reg s offSecCtl) 31 then s else setReg offSecBase (v &&& 0x0FFFFFFF) s
  | .jegCtl p => writeJeg a p v s
  | .mbCmd m => writeMbCmd m v s
  | .mbData m i => setMbData m i v.toNat s
  | .imgCtl m => modMailbox m (fun b => { b with imgFinal := bitOf v 30, imgBusy := bitOf v 31 }) s
  | .imgLo m => modMailbox m (fun b => { b with imgAddr := (b.imgAddr &&& 0xFFFFFFFF00000000) ||| v.setWidth 64 }) s
  | .imgHi m => modMailbox m (fun b => { b with imgAddr := (b.imgAddr &&& 0xFFFFFFFF) ||| (v.setWidth 64 <<< 32) }) s
  | .imgLen m => modMailbox m (fun b => { b with imgLen := v }) s
  | _ => s

/-- A register of a mailbox that has something under way. -/
def mailboxLocked (s : State) : RegId → Bool
  | .mbCmd m => !mailboxIdle s m
  | .mbData m _ => !mailboxIdle s m
  | .imgCtl m => !mailboxIdle s m
  | .imgLo m => !mailboxIdle s m
  | .imgHi m => !mailboxIdle s m
  | .imgLen m => !mailboxIdle s m
  | _ => false

/-- A write of an aligned word by an agent. A high word waits for the same agent's next write of its low word (R690). -/
def regWrite (a : RegAgent) (off : Nat) (v : Word32) (s : State) : State :=
  if !mayWrite a off then s
  else match regAt s off with
    | none => s
    | some r =>
      if mailboxLocked s r then s
      else if stagedHigh r then { s with staged := tinsert s.staged (agentKey a off) v }
      else
        let s := regSet a v r s
        match highOf r, tfind s.staged (agentKey a (off + 4)) with
        | some h, some w => regSet a w h { s with staged := terase s.staged (agentKey a (off + 4)) }
        | _, _ => s

/-! ## Register commands (R15, R319, R686, R687) -/

/-- An access of the one size and alignment that set-up registers take. -/
def wordAccess (off size : Nat) : Bool := size == 4 && off % 4 == 0

/-- An access of another size or alignment has no effect (R319): a read of the host or the sideband returns ones, and a core that runs
takes the exception of R176 or R319 where it stands. -/
def badAccess (agent : RegAgent) (store : Bool) (off size : Nat) (s : State) : State :=
  let cause : Nat := if off % size ≠ 0 then (if store then causeStoreAlign else causeLoadAlign)
    else if store then causeStoreAccess else causeLoadAccess
  let trap (n : Nat) : State :=
    if coreReady s n then takeTrap n false cause (BitVec.ofNat 64 (chipSelf s * 2 ^ 40 + 0xF000000000 + off)) s else s
  match agent with
  | .core k => trap (192 + k)
  | .kiln => trap 200
  | _ => if store then s else send (.regValue agent off 0xFFFFFFFF) s

/-- REGISTER_WRITE (R15, R319, R687, R689). -/
def execRegisterWrite (agent : RegAgent) (off : Nat) (size : Nat) (value : Word64) (s : State) : Out :=
  onUnit (agentPresent agent) s (if wordAccess off size then regWrite agent off (value.setWidth 32) s else badAccess agent true off size s)

/-- REGISTER_READ (R319, R687, R690). -/
def execRegisterRead (agent : RegAgent) (off : Nat) (size : Nat) (s : State) : Out :=
  onUnit (agentPresent agent) s
    (if wordAccess off size then send (.regValue agent off (regRead agent off s).1) (regRead agent off s).2
     else badAccess agent false off size s)

end Sys2Proof.Machine
end

