-- ==== Sys2Proof/Machine/LoadStore.lean ====
section
/-! DEFINITION. Loads, stores and instruction fetches of cores (files 05, 07, 08, 09). -/
namespace Sys2Proof.Machine

/-- The agent as which a core reaches set-up registers (R687). -/
def regAgentOf (n : Nat) : RegAgent := if n = 200 then .kiln else .core (n - 192)

/-- Cause of a misaligned load or fetch, and of a load or fetch whose translation fails. -/
def alignCause : Dest → Nat
  | .fetch => 0
  | _ => causeLoadAlign

def pageCause : Dest → Nat
  | .fetch => causeFetchPage
  | _ => causeLoadPage

/-- The instruction cache holds every byte of a fetch. -/
def fetched (c : Core) (pa w : Nat) : Bool := (List.range w).all fun i => (tfind c.icache (pa + i)).isSome

/-- A Trowel has no floating-point registers (R176). -/
def destOk (n : Nat) (rd : Dest) (w : Width) : Bool :=
  match rd with
  | .f _ => !isTrowel n && (w == .b4 || w == .b8)
  | _ => true

/-- The fetch of an instruction needs execute permission and its own translation buffer. -/
def loadNeed : Dest → Perm
  | .fetch => permX
  | _ => permR

def loadBuffer (n : Nat) : Dest → Nat
  | .fetch => bufFetch n
  | _ => bufData n

/-- A load of a set-up register: one aligned word, read at once (R319). -/
def loadReg (a : Site) (rd : Dest) (w : Width) (sext : Bool) (pa off : Nat) (addr : Word64) (s : State) : State :=
  if w != .b4 || rd = .fetch then exception a (loadCause rd) addr s
  else
    let v := (regRead (regAgentOf a.core) off s).1
    let s := (regRead (regAgentOf a.core) off s).2
    deliver a.core rd 4 sext pa (leBytes 4 v.toNat) (startWait a (.load rd w sext pa addr) s)

/-- A load of an accepted target. -/
def loadAt (a : Site) (rd : Dest) (w : Width) (sext : Bool) (pa : Nat) (addr : Word64) (s : State) : State :=
  let n := a.core
  match placeOf s pa with
  | .setup off => loadReg a rd w sext pa off addr s
  | .grout _ => if w != .b8 || rd = .fetch then exception a (loadCause rd) addr s
    else goWait n (startWait a (.load rd w sext pa addr) s)
  | _ =>
    if isHost pa && s.link.hostAbsent then exception a (loadCause rd) addr s
    else if rd = .fetch && fetched (coreOf s n) pa (widthBytes w) then s
    else goWait n (startWait a (.load rd w sext pa addr) s)

/-- CORE_LOAD (R177, R178, R179, R281, R282, R304, R307, R319, R332): a load into an integer or floating-point register, or the fetch
of an instruction parcel. -/
def execCoreLoad (at_ : Site) (enc : Encoding) (rd : Dest) (width : Width) (sext : Bool) (addr : Word64) (s : State) : Out :=
  runAt at_ s fun s =>
    let n := at_.core
    if enc = .absent || (rd ≠ .fetch && isCustom0 at_.bits) || !destOk n rd width then illegal at_ s
    else if addr.toNat % widthBytes width ≠ 0 then exception at_ (alignCause rd) addr s
    else watchAddr at_ (decide (rd ≠ .fetch)) false addr s fun s =>
      match coreTarget n at_.mode addr (widthBytes width) (loadNeed rd) (loadBuffer n rd) s with
      | (.pa pa, s) => loadAt at_ rd width sext pa addr s
      | (.wait, s) => startWait at_ (.xlt (pageCause rd) addr) s
      | (.page, s) => exception at_ (pageCause rd) addr s
      | (.denied, s) => exception at_ (loadCause rd) addr s

/-- LR (R320, R324): a load that sets a reservation. In the tile window of a Trowel it is refused (R180); at a set-up register or a
control window it is a load of its width (R319, R324). -/
def execLr (at_ : Site) (rd : BitVec 5) (dbl : Bool) (addr : Word64) (s : State) : Out :=
  runAt at_ s fun s => watchAddr at_ true false addr s fun s =>
    let n := at_.core
    let w := atomicWidth dbl
    if addr.toNat % w ≠ 0 then exception at_ causeLoadAlign addr s
    else if inTileWindow s n addr then accessFault at_ false addr s
    else match coreTarget n at_.mode addr w permR (bufData n) s with
      | (.pa pa, s) =>
        match placeOf s pa with
        | .setup off => loadReg at_ (.x rd) (if dbl then .b8 else .b4) true pa off addr s
        | .grout _ => if dbl then goWait n (startWait at_ (.lr rd dbl pa addr) s) else accessFault at_ false addr s
        | _ =>
          if isHost pa && s.link.hostAbsent then accessFault at_ false addr s
          else goWait n (startWait at_ (.lr rd dbl pa addr) (flushHeld n pa w s))
      | (.wait, s) => startWait at_ (.xlt causeLoadPage addr) s
      | (.page, s) => exception at_ causeLoadPage addr s
      | (.denied, s) => accessFault at_ false addr s

/-- A store of an accepted target: into a set-up register at once, into a combining buffer (R325, R328), or into the store buffer
(R305). -/
def storeAt (a : Site) (w pa : Nat) (addr : Word64) (d : List Byte) (s : State) : State :=
  let n := a.core
  match placeOf s pa with
  | .setup off =>
    if w ≠ 4 then accessFault a true addr s
    else retire a (regWrite (regAgentOf n) off (BitVec.ofNat 32 (leNat d)) s)
  | .grout _ =>
    if w ≠ 8 then accessFault a true addr s
    else resumeCore n (retire a (modCore n (fun c => { c with storeBuf := c.storeBuf ++ [⟨addr, pa, d⟩] }) s))
  | p =>
    if p.cacheable && isNtAddr s n addr then retire a (ntStore n pa addr d s)
    else
      let s := flushHeld n pa w s
      resumeCore n (retire a (modCore n (fun c => { c with storeBuf := c.storeBuf ++ [⟨addr, pa, d⟩] }) s))

/-- CORE_STORE (R177, R178, R179, R281, R282, R305, R319, R325, R329). -/
def execCoreStore (at_ : Site) (enc : Encoding) (width : Width) (addr value : Word64) (s : State) : Out :=
  runAt at_ s fun s =>
    let n := at_.core
    let w := widthBytes width
    if enc = .absent || isCustom0 at_.bits then illegal at_ s
    else if addr.toNat % w ≠ 0 then exception at_ causeStoreAlign addr s
    else watchAddr at_ false true addr s fun s =>
      match coreTarget n at_.mode addr w permW (bufData n) s with
      | (.pa pa, s) => storeAt at_ w pa addr (leBytes w (value.toNat % 2 ^ (8 * w))) s
      | (.wait, s) => startWait at_ (.xlt causeStorePage addr) s
      | (.page, s) => exception at_ causeStorePage addr s
      | (.denied, s) => accessFault at_ true addr s

end Sys2Proof.Machine
end

