-- ==== Sys2Proof/Machine/Debug.lean ====
section
/-! DEFINITION. The debug port (R176, R680, R681, R702, R703): Debug Module, its transport, IDCODE. The registers of the Debug Module and
of its transport are those of the RISC-V Debug Specification 1.0 (PRESUMED, log 18). -/
namespace Sys2Proof.Machine

/-- A hart that the Debug Module shows: a Trowel by its Tile, a control core by its number, once unlocked (R680, R681). -/
def hartShown (s : State) (n : Nat) : Bool :=
  (n < 192 && hasTile s n && bitOf s.dbg.courses (n / 16)) || (192 ≤ n && n < 200 && bitOf s.dbg.cores (n - 192))

/-- A hart may halt: it stands at a boundary, or waits in an instruction that a halt may abandon as an interrupt would (R211). -/
def mayHalt (c : Core) : Bool :=
  match c.wait with
  | none => true
  | some (.xlt _ _) => true
  | some (.tcmd _ _ _) => true
  | some (.twait _ _ _) => true
  | some (.ttok _) => true
  | some (.tbar _) => true
  | _ => false

/-- A halt request that is still pending takes effect where it can. -/
def pollHalt (s : State) : State :=
  let n := s.dbg.hartsel
  let c := coreOf s n
  if s.dbg.haltreq && hartShown s n && !c.halted && mayHalt c then modCore n (fun c => haltCore 3 { c with wait := none }) s else s

/-- A halted hart resumes at `dpc` in the mode of `dcsr`. -/
def resumeHart (n : Nat) (s : State) : State :=
  modCore n (fun c => { c with halted := false, prog := false, pc := c.dpc, mode := if fieldOf c.dcsr 1 0 = 3 then .m else .u }) s

/-! ## Abstract commands (R176) -/

def setErr (e : Nat) (s : State) : State := { s with dbg := { s.dbg with cmderr := BitVec.ofNat 3 e } }

/-- A register by its abstract number: CSRs, integer registers, and the floating-point registers of a control core. -/
def abstractRead (s : State) (n r : Nat) : Option Word64 :=
  let c := coreOf s n
  if r = 0x7B0 then some (BitVec.ofNat 64 (2 ^ 30 + c.dcsr.toNat % 2 ^ 28))
  else if r = 0x7B1 then some c.dpc
  else if r < 0x1000 then csrRead s n r
  else if r < 0x1020 then some (getX c (BitVec.ofNat 5 (r - 0x1000)))
  else if 0x1020 ≤ r && r < 0x1040 && !isTrowel n then some (tget zeroOf c.f (r - 0x1020))
  else none

/-- `dcsr` as a write leaves it: what may be written are the breakpoint and step bits and the mode. -/
def dcsrWrite (old : Word32) (v : Word64) : Word32 := (old &&& 0x1C0) ||| (v.setWidth 32 &&& 0x9007)

def abstractWrite (n r : Nat) (v : Word64) (s : State) : State :=
  modCore n (fun c =>
    if r = 0x7B0 then { c with dcsr := dcsrWrite c.dcsr v }
    else if r = 0x7B1 then { c with dpc := v &&& ~~~1 }
    else if 0x7A0 ≤ r && r ≤ 0x7A4 then triggerWrite true r v c
    else if r < 0x1000 then (if r / 2 ^ 10 = 3 then c else csrWrite (coreCycles s n) r v c)
    else if r < 0x1020 then setX (BitVec.ofNat 5 (r - 0x1000)) v c
    else { c with f := tset zeroOf c.f (r - 0x1020) v }) s

def dataArg (s : State) : Nat := s.dbg.data0.toNat + s.dbg.data1.toNat * 2 ^ 32

/-- A hart executes the program buffer. -/
def progRuns (s : State) : Bool := hartShown s s.dbg.hartsel && (coreOf s s.dbg.hartsel).prog

/-- The program buffer starts after a transfer where the command asks for it (log 33). -/
def postExec (v : Word32) (n : Nat) (s : State) : State :=
  if bitOf v 18 then modCore n (fun c => { c with prog := true }) s else s

/-- The program buffer has ended once the hart waits for nothing more. -/
def endProg (s : State) : State :=
  let c := coreOf s s.dbg.hartsel
  if c.prog && c.wait.isNone then modCore s.dbg.hartsel (fun c => { c with prog := false }) s else s

/-- An access-register command on a halted hart. A command of another type, another size, or an absent register is not supported. -/
def abstractCommand (v : Word32) (s : State) : State :=
  let n := s.dbg.hartsel
  let r := fieldOf v 15 0
  let wide := fieldOf v 22 20
  if s.dbg.cmderr != 0 then s
  else if progRuns s then setErr 1 s
  else if fieldOf v 31 24 ≠ 0 || (wide ≠ 2 && wide ≠ 3) then setErr 2 s
  else if !hartShown s n || !(coreOf s n).halted then setErr 4 s
  else if !bitOf v 17 then postExec v n s
  else match abstractRead s n r with
    | none => setErr 3 s
    | some old => postExec v n (
      if bitOf v 16 then
        abstractWrite n r (if wide = 3 then BitVec.ofNat 64 (dataArg s)
          else (old &&& 0xFFFFFFFF00000000) ||| s.dbg.data0.setWidth 64) s
      else { s with dbg := { s.dbg with
        data0 := old.setWidth 32, data1 := if wide = 3 then (old >>> 32).setWidth 32 else s.dbg.data1 } })

/-! ## Debug Module registers (R680, R681) -/

/-- The Debug Module as `dmactive` 0 leaves it. The unlocks are the Kiln's and stay. -/
def dmReset (s : State) : State :=
  { s with dbg := { State.reset.dbg with courses := s.dbg.courses, cores := s.dbg.cores } }

/-- `dmstatus`: version 3, authenticated, and the state of the selected hart. -/
def dmstatus (s : State) : Nat :=
  let n := s.dbg.hartsel
  let shown := hartShown s n
  let halted := shown && (coreOf s n).halted
  3 + 2 ^ 7 + b2n halted * (3 * 2 ^ 8) + b2n (shown && !halted) * (3 * 2 ^ 10) + b2n (!shown) * (3 * 2 ^ 14) +
    b2n (shown && s.dbg.resumeack) * (3 * 2 ^ 16)

/-- `haltsum0`: the halted harts among the 32 of the selected hart's group. -/
def haltsum (s : State) : Nat :=
  let base := s.dbg.hartsel / 32 * 32
  (List.range 32).foldl (fun a i => a + b2n (hartShown s (base + i) && (coreOf s (base + i)).halted) * 2 ^ i) 0

def dmRead (s : State) (a : Nat) : Nat :=
  match a with
  | 0x04 => s.dbg.data0.toNat
  | 0x05 => s.dbg.data1.toNat
  | 0x10 => b2n s.dbg.dmactive + s.dbg.hartsel % 2 ^ 10 * 2 ^ 16
  | 0x11 => dmstatus s
  | 0x16 => 8 * 2 ^ 24 + b2n (progRuns s) * 2 ^ 12 + s.dbg.cmderr.toNat * 2 ^ 8 + 2
  | 0x40 => haltsum s
  | a => if 0x20 ≤ a && a < 0x28 then (tget zeroOf s.dbg.progbuf (a - 0x20) : Word32).toNat else 0

/-- `dmcontrol`: selects a hart, asks it to halt, or resumes it. -/
def dmControl (v : Word32) (s : State) : State :=
  if !bitOf v 0 then dmReset s
  else
    let n := fieldOf v 25 16 + fieldOf v 15 6 * 2 ^ 10
    let s := { s with dbg := { s.dbg with dmactive := true, hartsel := n, haltreq := bitOf v 31 } }
    if bitOf v 30 && !bitOf v 31 && hartShown s n then
      let s := { s with dbg := { s.dbg with resumeack := true } }
      if (coreOf s n).halted then resumeHart n s else s
    else s

def dmWrite (a : Nat) (v : Word32) (s : State) : State :=
  if !s.dbg.dmactive && a ≠ 0x10 then s
  else match a with
    | 0x04 => { s with dbg := { s.dbg with data0 := v } }
    | 0x05 => { s with dbg := { s.dbg with data1 := v } }
    | 0x10 => dmControl v s
    | 0x16 => { s with dbg := { s.dbg with cmderr := s.dbg.cmderr &&& ~~~(BitVec.ofNat 3 (fieldOf v 10 8)) } }
    | 0x17 => abstractCommand v s
    | a => if 0x20 ≤ a && a < 0x28 then { s with dbg := { s.dbg with progbuf := tset zeroOf s.dbg.progbuf (a - 0x20) v } } else s

/-- DMI_ACCESS (R680, R681): a scan of `dmi`; what is shifted out is the address, the data and no error. -/
def execDmiAccess (addr : BitVec 7) (op : DmiOp) (s : State) : Out :=
  let s := pollHalt (endProg s)
  let out (d : Nat) (s : State) : State := send (.debugOut (addr.toNat * 2 ^ 34 + d * 2 ^ 2) 41) s
  .next (match op with
    | .nop => out 0 s
    | .read => out (dmRead s addr.toNat) s
    | .write v => out v.toNat (pollHalt (dmWrite addr.toNat v s)))

/-- DTMCS_ACCESS (R680): version 1, seven address bits. Its resets find nothing to reset, since every access has ended. -/
def execDtmcsAccess (_write : Option Word32) (s : State) : Out := .next (send (.debugOut 0x71 32) s)

/-- IDCODE (R702, R703). -/
def execIdcode (s : State) : Out := .next (send (.debugOut (idcodeWord s).toNat 32) s)

end Sys2Proof.Machine
end

