-- ==== Sys2Proof/Machine/Dispatch.lean ====
section
/-! DEFINITION. The dispatch of commands to their meanings, one arm per constructor. -/
namespace Sys2Proof.Machine

/-- The effect of a command on everything but the queue. -/
def exec (i : Instr) (s : State) : Host.Outcome State Fault Refusal :=
  match i with
  | .tdld at_ td rs1 => Sys2Proof.Machine.execTdld at_ td rs1 s
  | .tcmd at_ rd rs1 rs2 => Sys2Proof.Machine.execTcmd at_ rd rs1 rs2 s
  | .twait at_ rd c rs1 => Sys2Proof.Machine.execTwait at_ rd c rs1 s
  | .tcntRd at_ rd c => Sys2Proof.Machine.execTcntRd at_ rd c s
  | .tcntWr at_ c rs1 => Sys2Proof.Machine.execTcntWr at_ c rs1 s
  | .ttok at_ rs1 => Sys2Proof.Machine.execTtok at_ rs1 s
  | .tflags at_ rd rs1 => Sys2Proof.Machine.execTflags at_ rd rs1 s
  | .tbar at_ rd => Sys2Proof.Machine.execTbar at_ rd s
  | .terr at_ rd => Sys2Proof.Machine.execTerr at_ rd s
  | .coreLoad at_ enc rd width sext addr => Sys2Proof.Machine.execCoreLoad at_ enc rd width sext addr s
  | .coreStore at_ enc width addr value => Sys2Proof.Machine.execCoreStore at_ enc width addr value s
  | .coreAmo at_ rd op dbl addr value => Sys2Proof.Machine.execCoreAmo at_ rd op dbl addr value s
  | .lr at_ rd dbl addr => Sys2Proof.Machine.execLr at_ rd dbl addr s
  | .sc at_ rd dbl addr value => Sys2Proof.Machine.execSc at_ rd dbl addr value s
  | .fence at_ pred succ => Sys2Proof.Machine.execFence at_ pred succ s
  | .fenceTso at_ => Sys2Proof.Machine.execFenceTso at_ s
  | .fenceI at_ => Sys2Proof.Machine.execFenceI at_ s
  | .customCsrAccess at_ csr rd wr => Sys2Proof.Machine.execCustomCsrAccess at_ csr rd wr s
  | .externalInterrupt at_ => Sys2Proof.Machine.execExternalInterrupt at_ s
  | .timerInterrupt at_ => Sys2Proof.Machine.execTimerInterrupt at_ s
  | .ntBufferIdleFlush core line => Sys2Proof.Machine.execNtBufferIdleFlush core line s
  | .lrDeferralExpiry core => Sys2Proof.Machine.execLrDeferralExpiry core s
  | .storeLateFault at_ addr status => Sys2Proof.Machine.execStoreLateFault at_ addr status s
  | .commandComplete tile seq => Sys2Proof.Machine.execCommandComplete tile seq s
  | .mma tile seq => Sys2Proof.Machine.execMma tile seq s
  | .gmma tile seq => Sys2Proof.Machine.execGmma tile seq s
  | .round tile seq => Sys2Proof.Machine.execRound tile seq s
  | .add tile seq => Sys2Proof.Machine.execAdd tile seq s
  | .sub tile seq => Sys2Proof.Machine.execSub tile seq s
  | .mul tile seq => Sys2Proof.Machine.execMul tile seq s
  | .fma tile seq => Sys2Proof.Machine.execFma tile seq s
  | .div tile seq => Sys2Proof.Machine.execDiv tile seq s
  | .sqrt tile seq => Sys2Proof.Machine.execSqrt tile seq s
  | .min tile seq => Sys2Proof.Machine.execMin tile seq s
  | .max tile seq => Sys2Proof.Machine.execMax tile seq s
  | .minnum tile seq => Sys2Proof.Machine.execMinnum tile seq s
  | .maxnum tile seq => Sys2Proof.Machine.execMaxnum tile seq s
  | .scaleb tile seq => Sys2Proof.Machine.execScaleb tile seq s
  | .rint tile seq => Sys2Proof.Machine.execRint tile seq s
  | .neg tile seq => Sys2Proof.Machine.execNeg tile seq s
  | .abs tile seq => Sys2Proof.Machine.execAbs tile seq s
  | .copysign tile seq => Sys2Proof.Machine.execCopysign tile seq s
  | .class tile seq => Sys2Proof.Machine.execClass tile seq s
  | .cmp tile seq => Sys2Proof.Machine.execCmp tile seq s
  | .sel tile seq => Sys2Proof.Machine.execSel tile seq s
  | .convert tile seq => Sys2Proof.Machine.execConvert tile seq s
  | .twosum tile seq => Sys2Proof.Machine.execTwosum tile seq s
  | .twoprod tile seq => Sys2Proof.Machine.execTwoprod tile seq s
  | .padd tile seq => Sys2Proof.Machine.execPadd tile seq s
  | .pmul tile seq => Sys2Proof.Machine.execPmul tile seq s
  | .pfma tile seq => Sys2Proof.Machine.execPfma tile seq s
  | .exp tile seq => Sys2Proof.Machine.execExp tile seq s
  | .exp2 tile seq => Sys2Proof.Machine.execExp2 tile seq s
  | .log tile seq => Sys2Proof.Machine.execLog tile seq s
  | .log2 tile seq => Sys2Proof.Machine.execLog2 tile seq s
  | .rcp tile seq => Sys2Proof.Machine.execRcp tile seq s
  | .rsqrt tile seq => Sys2Proof.Machine.execRsqrt tile seq s
  | .sin tile seq => Sys2Proof.Machine.execSin tile seq s
  | .cos tile seq => Sys2Proof.Machine.execCos tile seq s
  | .tanh tile seq => Sys2Proof.Machine.execTanh tile seq s
  | .sigmoid tile seq => Sys2Proof.Machine.execSigmoid tile seq s
  | .erf tile seq => Sys2Proof.Machine.execErf tile seq s
  | .rsum tile seq => Sys2Proof.Machine.execRsum tile seq s
  | .rsumsq tile seq => Sys2Proof.Machine.execRsumsq tile seq s
  | .rmax tile seq => Sys2Proof.Machine.execRmax tile seq s
  | .rmin tile seq => Sys2Proof.Machine.execRmin tile seq s
  | .softmax tile seq => Sys2Proof.Machine.execSoftmax tile seq s
  | .copy tile seq => Sys2Proof.Machine.execCopy tile seq s
  | .gather tile seq => Sys2Proof.Machine.execGather tile seq s
  | .scatter tile seq => Sys2Proof.Machine.execScatter tile seq s
  | .scatterRed tile seq => Sys2Proof.Machine.execScatterRed tile seq s
  | .red tile seq => Sys2Proof.Machine.execRed tile seq s
  | .amo tile seq => Sys2Proof.Machine.execAmo tile seq s
  | .remoteResponse rsp => Sys2Proof.Machine.execRemoteResponse rsp s
  | .remoteTimeout id => Sys2Proof.Machine.execRemoteTimeout id s
  | .lintelCompletionTimeout id => Sys2Proof.Machine.execLintelCompletionTimeout id s
  | .shareRd agent pa tag => Sys2Proof.Machine.execShareRd agent pa tag s
  | .ownRd agent pa tag => Sys2Proof.Machine.execOwnRd agent pa tag s
  | .dirtyEv agent pa line tag => Sys2Proof.Machine.execDirtyEv agent pa line tag s
  | .peekRd op len => Sys2Proof.Machine.execPeekRd op len s
  | .pushWr op => Sys2Proof.Machine.execPushWr op s
  | .gopAdd a => Sys2Proof.Machine.execGopAdd a s
  | .gopAnd a => Sys2Proof.Machine.execGopAnd a s
  | .gopOr a => Sys2Proof.Machine.execGopOr a s
  | .gopXor a => Sys2Proof.Machine.execGopXor a s
  | .smin a => Sys2Proof.Machine.execSmin a s
  | .smax a => Sys2Proof.Machine.execSmax a s
  | .umin a => Sys2Proof.Machine.execUmin a s
  | .umax a => Sys2Proof.Machine.execUmax a s
  | .swap a => Sys2Proof.Machine.execSwap a s
  | .cas a => Sys2Proof.Machine.execCas a s
  | .fadd32 a => Sys2Proof.Machine.execFadd32 a s
  | .fadd64 a => Sys2Proof.Machine.execFadd64 a s
  | .fmax a => Sys2Proof.Machine.execFmax a s
  | .xadd a => Sys2Proof.Machine.execXadd a s
  | .bxor a => Sys2Proof.Machine.execBxor a s
  | .prbShare agent pa for_ => Sys2Proof.Machine.execPrbShare agent pa for_ s
  | .prbTake agent pa for_ => Sys2Proof.Machine.execPrbTake agent pa for_ s
  | .prbKill agent pa for_ => Sys2Proof.Machine.execPrbKill agent pa for_ s
  | .prbPeek agent pa for_ => Sys2Proof.Machine.execPrbPeek agent pa for_ s
  | .probeAnswer agent pa ans dirty data poison => Sys2Proof.Machine.execProbeAnswer agent pa ans dirty data poison s
  | .forwardedData agent pa dirty line id => Sys2Proof.Machine.execForwardedData agent pa dirty line id s
  | .requestCompletion agent pa done => Sys2Proof.Machine.execRequestCompletion agent pa done s
  | .completionAck agent pa => Sys2Proof.Machine.execCompletionAck agent pa s
  | .writebackAck agent line => Sys2Proof.Machine.execWritebackAck agent line s
  | .arbiterAgeExpiry index => Sys2Proof.Machine.execArbiterAgeExpiry index s
  | .identifierQuarantineEnd path unit index => Sys2Proof.Machine.execIdentifierQuarantineEnd path unit index s
  | .hostSnpInv hpa => Sys2Proof.Machine.execHostSnpInv hpa s
  | .hostSnpData hpa => Sys2Proof.Machine.execHostSnpData hpa s
  | .hostSnpCur hpa => Sys2Proof.Machine.execHostSnpCur hpa s
  | .hostCacheResponse line state data poison => Sys2Proof.Machine.execHostCacheResponse line state data poison s
  | .memRd tag hpa snp => Sys2Proof.Machine.execMemRd tag hpa snp s
  | .memWr tag hpa line en keeps => Sys2Proof.Machine.execMemWr tag hpa line en keeps s
  | .memSpecRd hpa => Sys2Proof.Machine.execMemSpecRd hpa s
  | .birsp line ans => Sys2Proof.Machine.execBirsp line ans s
  | .biTimeout pa => Sys2Proof.Machine.execBiTimeout pa s
  | .prefetchHint line tc => Sys2Proof.Machine.execPrefetchHint line tc s
  | .streamRunEnd src write next => Sys2Proof.Machine.execStreamRunEnd src write next s
  | .stackReadDone line outcome place => Sys2Proof.Machine.execStackReadDone line outcome place s
  | .writeDrain stack => Sys2Proof.Machine.execWriteDrain stack s
  | .drainReadInterrupt stack pa => Sys2Proof.Machine.execDrainReadInterrupt stack pa s
  | .scrubRead stack outcome place => Sys2Proof.Machine.execScrubRead stack outcome place s
  | .stackTempSample stack temp held10ms => Sys2Proof.Machine.execStackTempSample stack temp held10ms s
  | .stackChannelFail stack channel => Sys2Proof.Machine.execStackChannelFail stack channel s
  | .plnNegStart agent stack => Sys2Proof.Machine.execPlnNegStart agent stack s
  | .stackTrainingDone stack info => Sys2Proof.Machine.execStackTrainingDone stack info s
  | .negHoldRelease agent stack => Sys2Proof.Machine.execNegHoldRelease agent stack s
  | .stackLive stack failed => Sys2Proof.Machine.execStackLive stack failed s
  | .hdmTopSet => Sys2Proof.Machine.execHdmTopSet s
  | .repairGo agent stack value => Sys2Proof.Machine.execRepairGo agent stack value s
  | .repairDone stack result => Sys2Proof.Machine.execRepairDone stack result s
  | .ieee1500Go agent stack value => Sys2Proof.Machine.execIeee1500Go agent stack value s
  | .ieee1500Done stack captured => Sys2Proof.Machine.execIeee1500Done stack captured s
  | .tempThresholdWrite agent stack value => Sys2Proof.Machine.execTempThresholdWrite agent stack value s
  | .cleanAll agent slice => Sys2Proof.Machine.execCleanAll agent slice s
  | .flushAll agent slice => Sys2Proof.Machine.execFlushAll agent slice s
  | .cleanRange agent slice => Sys2Proof.Machine.execCleanRange agent slice s
  | .flushRange agent slice => Sys2Proof.Machine.execFlushRange agent slice s
  | .maintenanceDone slice => Sys2Proof.Machine.execMaintenanceDone slice s
  | .translationCompletion pasid va result => Sys2Proof.Machine.execTranslationCompletion pasid va result s
  | .pageRequestResponse prg resp => Sys2Proof.Machine.execPageRequestResponse prg resp s
  | .pageRequestTimeout prg => Sys2Proof.Machine.execPageRequestTimeout prg s
  | .atsInvalidateRequest tag pasid global va len => Sys2Proof.Machine.execAtsInvalidateRequest tag pasid global va len s
  | .invalidateCompletion tag => Sys2Proof.Machine.execInvalidateCompletion tag s
  | .priEnable => Sys2Proof.Machine.execPriEnable s
  | .jegonReq port msg => Sys2Proof.Machine.execJegonReq port msg s
  | .jegonBarrier port tag => Sys2Proof.Machine.execJegonBarrier port tag s
  | .jegonSnprsp port pa ans dirty data poison => Sys2Proof.Machine.execJegonSnprsp port pa ans dirty data poison s
  | .jegonSnoopTimeout port pa => Sys2Proof.Machine.execJegonSnoopTimeout port pa s
  | .jegonXltRequest port tag ctx va perm => Sys2Proof.Machine.execJegonXltRequest port tag ctx va perm s
  | .jegonInvalidateAck port vbase => Sys2Proof.Machine.execJegonInvalidateAck port vbase s
  | .jegonXltTimeout port vbase => Sys2Proof.Machine.execJegonXltTimeout port vbase s
  | .jegonQuiesceAck port => Sys2Proof.Machine.execJegonQuiesceAck port s
  | .jegonFaultReport port source level ctx loss => Sys2Proof.Machine.execJegonFaultReport port source level ctx loss s
  | .jegEnableWrite agent port en => Sys2Proof.Machine.execJegEnableWrite agent port en s
  | .jegReset agent port => Sys2Proof.Machine.execJegReset agent port s
  | .linkTrained width rate cxl flit256 => Sys2Proof.Machine.execLinkTrained width rate cxl flit256 s
  | .linkDown => Sys2Proof.Machine.execLinkDown s
  | .linkRestored => Sys2Proof.Machine.execLinkRestored s
  | .hostLinkReset kind => Sys2Proof.Machine.execHostLinkReset kind s
  | .hostAbsentEntry => Sys2Proof.Machine.execHostAbsentEntry s
  | .rearm agent => Sys2Proof.Machine.execRearm agent s
  | .functionLevelReset => Sys2Proof.Machine.execFunctionLevelReset s
  | .hdmDecoderCommit base size => Sys2Proof.Machine.execHdmDecoderCommit base size s
  | .configWrite field => Sys2Proof.Machine.execConfigWrite field s
  | .cxlIoUnsupported tag addr => Sys2Proof.Machine.execCxlIoUnsupported tag addr s
  | .doorbellRereadDone line data poison => Sys2Proof.Machine.execDoorbellRereadDone line data poison s
  | .doorbellPoll => Sys2Proof.Machine.execDoorbellPoll s
  | .deviceDoorbellRing pa => Sys2Proof.Machine.execDeviceDoorbellRing pa s
  | .hodCopy engine ring => Sys2Proof.Machine.execHodCopy engine ring s
  | .hodFill engine ring => Sys2Proof.Machine.execHodFill engine ring s
  | .hodReduce engine ring => Sys2Proof.Machine.execHodReduce engine ring s
  | .hodComplete engine ring seq => Sys2Proof.Machine.execHodComplete engine ring seq s
  | .irqHoldoffExpiry vector => Sys2Proof.Machine.execIrqHoldoffExpiry vector s
  | .admqEnable agent q => Sys2Proof.Machine.execAdmqEnable agent q s
  | .admqDisable agent q => Sys2Proof.Machine.execAdmqDisable agent q s
  | .ctxCreate q => Sys2Proof.Machine.execCtxCreate q s
  | .ctxDestroy q => Sys2Proof.Machine.execCtxDestroy q s
  | .ctxDestroyDone ctx => Sys2Proof.Machine.execCtxDestroyDone ctx s
  | .contextLossDone ctx => Sys2Proof.Machine.execContextLossDone ctx s
  | .ringCreate q => Sys2Proof.Machine.execRingCreate q s
  | .ringDestroy q => Sys2Proof.Machine.execRingDestroy q s
  | .ringDestroyDone ring => Sys2Proof.Machine.execRingDestroyDone ring s
  | .ringResume q => Sys2Proof.Machine.execRingResume q s
  | .query q => Sys2Proof.Machine.execQuery q s
  | .pages q => Sys2Proof.Machine.execPages q s
  | .fenceBind q => Sys2Proof.Machine.execFenceBind q s
  | .tileBind q => Sys2Proof.Machine.execTileBind q s
  | .schedDone q => Sys2Proof.Machine.execSchedDone q s
  | .fenceWait ring => Sys2Proof.Machine.execFenceWait ring s
  | .fenceWaitEvaluate ring => Sys2Proof.Machine.execFenceWaitEvaluate ring s
  | .fenceWaitTimeout ring => Sys2Proof.Machine.execFenceWaitTimeout ring s
  | .fenceWaitPoll ring => Sys2Proof.Machine.execFenceWaitPoll ring s
  | .schedEntry ring => Sys2Proof.Machine.execSchedEntry ring s
  | .bondEnable agent port value => Sys2Proof.Machine.execBondEnable agent port value s
  | .bondLanesTrained port laneMask rateMask => Sys2Proof.Machine.execBondLanesTrained port laneMask rateMask s
  | .capabilitySend port => Sys2Proof.Machine.execCapabilitySend port s
  | .capabilityFrame port cap => Sys2Proof.Machine.execCapabilityFrame port cap s
  | .negotiationTimeout port => Sys2Proof.Machine.execNegotiationTimeout port s
  | .bondRestart port => Sys2Proof.Machine.execBondRestart port s
  | .bondKeysInstalled port keying => Sys2Proof.Machine.execBondKeysInstalled port keying s
  | .dataFrame port frame => Sys2Proof.Machine.execDataFrame port frame s
  | .heartbeatFrame port frame => Sys2Proof.Machine.execHeartbeatFrame port frame s
  | .fatalFrame port frame => Sys2Proof.Machine.execFatalFrame port frame s
  | .replayTimeout port => Sys2Proof.Machine.execReplayTimeout port s
  | .bondRetrainDone port inWindow => Sys2Proof.Machine.execBondRetrainDone port inWindow s
  | .portSilentTimeout port => Sys2Proof.Machine.execPortSilentTimeout port s
  | .heartbeatTimer port => Sys2Proof.Machine.execHeartbeatTimer port s
  | .keyNotReady port => Sys2Proof.Machine.execKeyNotReady port s
  | .routeWrite agent chip value => Sys2Proof.Machine.execRouteWrite agent chip value s
  | .chipValidWrite agent value => Sys2Proof.Machine.execChipValidWrite agent value s
  | .arm agent feedOvr lag limits => Sys2Proof.Machine.execArm agent feedOvr lag limits s
  | .securingStop agent value => Sys2Proof.Machine.execSecuringStop agent value s
  | .secureStep => Sys2Proof.Machine.execSecureStep s
  | .restore => Sys2Proof.Machine.execRestore s
  | .refill => Sys2Proof.Machine.execRefill s
  | .resend => Sys2Proof.Machine.execResend s
  | .resync step => Sys2Proof.Machine.execResync step s
  | .faultCollect unit => Sys2Proof.Machine.execFaultCollect unit s
  | .wiringFault unit => Sys2Proof.Machine.execWiringFault unit s
  | .wiringPoll unit => Sys2Proof.Machine.execWiringPoll unit s
  | .fltLatchClear agent level => Sys2Proof.Machine.execFltLatchClear agent level s
  | .fltPendClear agent word mask => Sys2Proof.Machine.execFltPendClear agent word mask s
  | .inputLevelChange pin level => Sys2Proof.Machine.execInputLevelChange pin level s
  | .stuckInput pin => Sys2Proof.Machine.execStuckInput pin s
  | .inputMaskClear agent mask => Sys2Proof.Machine.execInputMaskClear agent mask s
  | .mortarBridgeModuleLost module => Sys2Proof.Machine.execMortarBridgeModuleLost module s
  | .slotAssign mb => Sys2Proof.Machine.execSlotAssign mb s
  | .slotRelease mb => Sys2Proof.Machine.execSlotRelease mb s
  | .granuleSet mb => Sys2Proof.Machine.execGranuleSet mb s
  | .granuleChangeDone => Sys2Proof.Machine.execGranuleChangeDone s
  | .certLoad mb leafKey => Sys2Proof.Machine.execCertLoad mb leafKey s
  | .wdogPet mb => Sys2Proof.Machine.execWdogPet mb s
  | .debugUnlock mb => Sys2Proof.Machine.execDebugUnlock mb s
  | .watchdogExpiry image signed => Sys2Proof.Machine.execWatchdogExpiry image signed s
  | .imagePost mb final signed => Sys2Proof.Machine.execImagePost mb final signed s
  | .getVersion m => Sys2Proof.Machine.execGetVersion m s
  | .getCapabilities m => Sys2Proof.Machine.execGetCapabilities m s
  | .negotiateAlgorithms m version => Sys2Proof.Machine.execNegotiateAlgorithms m version s
  | .getDigests m => Sys2Proof.Machine.execGetDigests m s
  | .getCertificate m offset len => Sys2Proof.Machine.execGetCertificate m offset len s
  | .challenge m => Sys2Proof.Machine.execChallenge m s
  | .getMeasurements m index => Sys2Proof.Machine.execGetMeasurements m index s
  | .keyExchange m => Sys2Proof.Machine.execKeyExchange m s
  | .finish m verified => Sys2Proof.Machine.execFinish m verified s
  | .heartbeat m => Sys2Proof.Machine.execHeartbeat m s
  | .keyUpdate m => Sys2Proof.Machine.execKeyUpdate m s
  | .endSession m => Sys2Proof.Machine.execEndSession m s
  | .chunkGet m handle seq => Sys2Proof.Machine.execChunkGet m handle seq s
  | .keyProg m cachemem key => Sys2Proof.Machine.execKeyProg m cachemem key s
  | .kSetGo m cachemem => Sys2Proof.Machine.execKSetGo m cachemem s
  | .getTdispVersion m => Sys2Proof.Machine.execGetTdispVersion m s
  | .getTdispCapabilities m => Sys2Proof.Machine.execGetTdispCapabilities m s
  | .lockInterfaceRequest m => Sys2Proof.Machine.execLockInterfaceRequest m s
  | .getDeviceInterfaceReport m => Sys2Proof.Machine.execGetDeviceInterfaceReport m s
  | .getDeviceInterfaceState m => Sys2Proof.Machine.execGetDeviceInterfaceState m s
  | .startInterfaceRequest m nonce => Sys2Proof.Machine.execStartInterfaceRequest m nonce s
  | .stopInterfaceRequest m => Sys2Proof.Machine.execStopInterfaceRequest m s
  | .tdispVendorMessage m v => Sys2Proof.Machine.execTdispVendorMessage m v s
  | .seal agent => Sys2Proof.Machine.execSeal agent s
  | .coldReset => Sys2Proof.Machine.execColdReset s
  | .coldResetRelease straps fuses image => Sys2Proof.Machine.execColdResetRelease straps fuses image s
  | .pwrgoodRise part => Sys2Proof.Machine.execPwrgoodRise part s
  | .warm agent => Sys2Proof.Machine.execWarm agent s
  | .plnRun agent run => Sys2Proof.Machine.execPlnRun agent run s
  | .crsRun agent run tests => Sys2Proof.Machine.execCrsRun agent run tests s
  | .plnReset agent => Sys2Proof.Machine.execPlnReset agent s
  | .crsReset agent => Sys2Proof.Machine.execCrsReset agent s
  | .courseReset agent course => Sys2Proof.Machine.execCourseReset agent course s
  | .resetRelease unit tests => Sys2Proof.Machine.execResetRelease unit tests s
  | .tileStoreClearDone tile => Sys2Proof.Machine.execTileStoreClearDone tile s
  | .courseGateRequest agent course => Sys2Proof.Machine.execCourseGateRequest agent course s
  | .coursePowerOff course => Sys2Proof.Machine.execCoursePowerOff course s
  | .gatingRefused course => Sys2Proof.Machine.execGatingRefused course s
  | .coursePowerOn agent course => Sys2Proof.Machine.execCoursePowerOn agent course s
  | .coursePwrOk course test => Sys2Proof.Machine.execCoursePwrOk course test s
  | .clkPwrLimitWrite agent value => Sys2Proof.Machine.execClkPwrLimitWrite agent value s
  | .powerEstimate watts stepW low100us steady1ms => Sys2Proof.Machine.execPowerEstimate watts stepW low100us steady1ms s
  | .freqAck course => Sys2Proof.Machine.execFreqAck course s
  | .freqAckTimeout course => Sys2Proof.Machine.execFreqAckTimeout course s
  | .corrCapture agent => Sys2Proof.Machine.execCorrCapture agent s
  | .dmiAccess addr op => Sys2Proof.Machine.execDmiAccess addr op s
  | .dtmcsAccess write => Sys2Proof.Machine.execDtmcsAccess write s
  | .idcode => Sys2Proof.Machine.execIdcode s
  | .registerWrite agent off size value => Sys2Proof.Machine.execRegisterWrite agent off size value s
  | .registerRead agent off size => Sys2Proof.Machine.execRegisterRead agent off size s
  | .msixVectorUnmask vector => Sys2Proof.Machine.execMsixVectorUnmask vector s
  | .jegonContextEndTimeout port ctx => Sys2Proof.Machine.execJegonContextEndTimeout port ctx s
  | .nextKeyInstall port => Sys2Proof.Machine.execNextKeyInstall port s

end Sys2Proof.Machine
end

