-- ==== Sys2Proof/Machine/Tick.lean ====
section
/-! DEFINITION. What happens as time passes with no command: clocks count (R661, R665), draining controllers write (R420), the
TC0 buckets of Mortar fill (R356), and check bits may go wrong (R173, R393). -/
namespace Sys2Proof.Machine

/-- The bandwidth of an arbiter output in units of 64 bytes at a tick (log 92). -/
def outRate (s : State) (o : Nat) : Nat := if o = outBridge || o = outBridgeDown then 2 * s.build.bridgeModules else 16

/-- The TC0 buckets fill with 5% of the bandwidth of their outputs, up to 16 units (R356), and messages that waited for that go on. -/
def fillBuckets (s : State) : State :=
  runMortar (forEach s.mortar.arbs (fun p s => setArb p.1 { p.2 with bucket := min 320 (p.2.bucket + outRate s p.1) } s) s)

/-- Check bits of an array may go wrong where the array has the word or entry (DESIGN CHOICE, log 89). -/
def wrongBits (e : Nat × BitVec 2) (present : Nat → Bool) (errs : Table (BitVec 2)) : Table (BitVec 2) :=
  if e.2 = 0 || !present e.1 then errs else tinsert errs e.1 e.2

/-- Words of a tile store of 2 MiB. -/
def tileWords : Nat := 2 ^ 18

/-- Check bits of a tile store, of Grout data, of Grout tags and of snoop-filter entries may go wrong as time passes (R173, R393). -/
def softErrors (s : State) : State :=
  let e := Config.softError 0 s.ticket
  let n := e.1 / tileWords % 192
  let here : Bool := hasTile s n && courseRuns s (n / 16)
  let s := modTile n (fun t => { t with ecc := wrongBits (e.1 % tileWords, e.2) (fun _ => here) t.ecc }) s
  { s with home := { s.home with
      dataErr := wrongBits (Config.softError 1 s.ticket) (fun w => (sectorOf s (w * 8)).isSome) s.home.dataErr
      tagErr := wrongBits (Config.softError 2 s.ticket) (fun g => (tfind s.home.grout g).isSome) s.home.tagErr
      filterErr := wrongBits (Config.softError 3 s.ticket) (fun l => (tfind s.home.filter l).isSome) s.home.filterErr } }

/-- A tick of the block (DESIGN CHOICE, log 3). -/
def tick (s : State) : State := fillBuckets (forEach (List.range s.build.stackCount) drainTick (clockTick (softErrors s)))

end Sys2Proof.Machine
end

