-- ==== Sys2Proof/Safety.lean ====
section
/-! DEFINITION. What counts as a safe state, and the terms in which the claims say what a command does: the conditions under which it
acts, and what it leaves alone. -/
namespace Sys2Proof.Machine

/-! ## Invariants -/

/-- The memories that hold bytes are canonical: own device memory, host memory and every tile store. -/
def State.memWf (s : State) : Bool :=
  Memory.wf s.mem.dev && Memory.wf s.mem.host && s.tiles.all fun p => Memory.wf p.2.store

/-- The keys of a table are strictly rising: no key is listed twice. -/
def rising {α : Type} (t : Table α) : Prop := t.Pairwise fun x y => x.1 < y.1

/-! ## Cores -/

/-- A core may execute the instruction at a site: the core exists, it is neither held nor halted, it waits for nothing, its Course or
the Lintel runs, no fault of an earlier store is left to take, and no execute trigger fires. -/
def canRun (a : Site) (s : State) : Prop :=
  hasCore s a.core = true ∧ coreReady s a.core = true ∧ (coreOf s a.core).prog = false ∧ (coreOf s a.core).late = [] ∧
  triggerHit (coreOf s a.core) a.mode 2 a.pc = none

/-- The same for a Trowel, the core of a Tile. -/
def trowelRuns (a : Site) (s : State) : Prop := isTrowel a.core = true ∧ canRun a s

/-- The bits of the instruction at a site are the encoding of an instruction of the tile extension (R208). -/
def encodes (a : Site) (f : TileForm) : Prop := tileForm a.bits = some f

/-- A word of the major opcode custom-0 with its fields (R208). -/
def custom0 (f7 r2 r1 f3 rd : Nat) : Word32 :=
  BitVec.ofNat 32 (f7 * 2 ^ 25 + r2 * 2 ^ 20 + r1 * 2 ^ 15 + f3 * 2 ^ 12 + rd * 2 ^ 7 + 0x0B)

/-- No trigger of the core fires on a load or a store at an address. -/
def untriggered (a : Site) (addr : Word64) (s : State) : Prop :=
  triggerHit (coreOf s a.core) a.mode 0 addr = none ∧ triggerHit (coreOf s a.core) a.mode 1 addr = none

/-- Every core but one is as it was. -/
def otherCores (n : Nat) (s t : State) : Prop := ∀ m, m ≠ n → coreOf t m = coreOf s m

/-- Every Tile but one is as it was. -/
def otherTiles (n : Nat) (s t : State) : Prop := ∀ m, m ≠ n → tileOf t m = tileOf s m

/-- The integer register `rd` of a core takes a value, where x0 stays zero; every other integer register keeps its value. -/
def writesX (n : Nat) (rd : BitVec 5) (v : Word64) (s t : State) : Prop :=
  ∀ r, getX (coreOf t n) r = if r = 0 then 0 else if r = rd then v else getX (coreOf s n) r

/-- Every integer register of a core keeps its value. -/
def keepsX (n : Nat) (s t : State) : Prop := ∀ r, getX (coreOf t n) r = getX (coreOf s n) r

/-- The instruction at a site has retired: the pc stands behind it, the core waits for nothing, the count of retired instructions has
moved, and of the core only integer registers and, under single stepping, its debug state may have changed besides, with its reservation gone (R321). -/
def retired (a : Site) (s t : State) : Prop :=
  let c := coreOf s a.core
  let d := coreOf t a.core
  d.pc = a.pc + insnLen a.bits ∧ d.mode = a.mode ∧ d.wait = none ∧
  d.csr = { c.csr with instret := c.csr.instret + 1 } ∧
  (bitOf c.dcsr 2 = false → d.halted = c.halted ∧ d.dcsr = c.dcsr ∧ d.dpc = c.dpc ∧ d.resv = c.resv) ∧
  (bitOf c.dcsr 2 = true → d.halted = true ∧ d.resv = none) ∧
  d = { c with
    x := d.x, pc := d.pc, mode := d.mode, npc := d.npc, wait := d.wait, csr := d.csr,
    halted := d.halted, dcsr := d.dcsr, dpc := d.dpc, resv := d.resv }

/-- The instruction at a site waits: the core stands at it, and its registers are as they were. -/
def waitsIn (a : Site) (w : CoreWait) (s t : State) : Prop :=
  coreOf t a.core = { coreOf s a.core with
    pc := a.pc, mode := a.mode, npc := a.pc + insnLen a.bits, wait := some w }

/-- A core has taken a trap to M mode from a site: the pc, the cause, the trap value and the old status are saved, interrupts are off,
the reservation and the combining buffers are gone, and every register keeps its value. -/
def trapped (a : Site) (interrupt : Bool) (cause : Nat) (tval : Word64) (s t : State) : Prop :=
  let c := coreOf s a.core
  let d := coreOf t a.core
  d.csr = { c.csr with
    mepc := a.pc, mcause := BitVec.ofNat 64 ((if interrupt then 2 ^ 63 else 0) + cause), mtval := tval,
    mpie := c.csr.mie, mie := false, mpp := a.mode } ∧
  d.pc = (if interrupt && fieldOf c.csr.mtvec 1 0 = 1 then (c.csr.mtvec &&& ~~~3) + BitVec.ofNat 64 (4 * cause)
          else c.csr.mtvec &&& ~~~3) ∧
  d.mode = .m ∧ d.wait = none ∧ d.resv = none ∧ d.ntBufs = [] ∧ d.x = c.x ∧ d.f = c.f ∧ d.storeBuf = c.storeBuf

/-- The instruction at a site has retired, whatever became of its stores: the pc stands behind it, the core waits for nothing, the
count of retired instructions has moved, and every register keeps its value. -/
def passed (a : Site) (s t : State) : Prop :=
  let c := coreOf s a.core
  let d := coreOf t a.core
  d.pc = a.pc + insnLen a.bits ∧ d.mode = a.mode ∧ d.wait = none ∧
  d.csr = { c.csr with instret := c.csr.instret + 1 } ∧ d.x = c.x ∧ d.f = c.f

/-- The value that an integer load of `w` bytes delivers. -/
def loadedValue (w : Nat) (sext : Bool) (d : List Byte) : Word64 :=
  if sext then (BitVec.ofNat (8 * w) (leNat d)).signExtend 64 else BitVec.ofNat 64 (leNat d)

/-! ## Commands of a Tile -/

/-- A command of a Tile may start on a unit: the Tile exists and runs, the command is the oldest ready one of the unit, the unit is
free, the Trowel's stores to its own tile store have been performed (R192), and the entry is as `tcmd` left it. -/
def mayStart (n : Nat) (c : Cmd) (s : State) : Prop :=
  hasTile s n = true ∧ courseRuns s (n / 16) = true ∧ (tileOf s n).clearing = false ∧ cmdOf (tileOf s n) c.seq = some c ∧
  cmdReady (tileOf s n) c = true ∧ oldestReady (tileOf s n) (hUnit c.hdr) c.seq = true ∧
  unitFree (tileOf s n) (hUnit c.hdr) = true ∧ olderStoresDone s n c = true ∧ cmdOps s n c.seq = [] ∧
  c.stage = .shapes ∧ c.todo = [] ∧ c.fetched = [] ∧ c.writes = [] ∧ c.reason = none

/-- The commands that start the tensor unit (unit 0) and the vector unit (unit 1), with the operation codes of R244 and R137. -/
def computeRows (n q : Nat) : List (Instr × Nat × Nat) :=
  [(.mma n q, 0, 0x01), (.gmma n q, 0, 0x02), (.round n q, 0, 0x03), (.add n q, 1, 0x01), (.sub n q, 1, 0x02),
   (.mul n q, 1, 0x03), (.fma n q, 1, 0x04), (.div n q, 1, 0x05), (.sqrt n q, 1, 0x06), (.min n q, 1, 0x07),
   (.max n q, 1, 0x08), (.minnum n q, 1, 0x09), (.maxnum n q, 1, 0x0A), (.scaleb n q, 1, 0x0B), (.rint n q, 1, 0x0C),
   (.neg n q, 1, 0x0D), (.abs n q, 1, 0x0E), (.copysign n q, 1, 0x0F), (.class n q, 1, 0x10), (.cmp n q, 1, 0x11),
   (.sel n q, 1, 0x12), (.convert n q, 1, 0x13), (.twosum n q, 1, 0x20), (.twoprod n q, 1, 0x21), (.padd n q, 1, 0x22),
   (.pmul n q, 1, 0x23), (.pfma n q, 1, 0x24), (.exp n q, 1, 0x30), (.exp2 n q, 1, 0x31), (.log n q, 1, 0x32),
   (.log2 n q, 1, 0x33), (.rcp n q, 1, 0x34), (.rsqrt n q, 1, 0x35), (.sin n q, 1, 0x36), (.cos n q, 1, 0x37),
   (.tanh n q, 1, 0x38), (.sigmoid n q, 1, 0x39), (.erf n q, 1, 0x3A), (.rsum n q, 1, 0x40), (.rsumsq n q, 1, 0x41),
   (.rmax n q, 1, 0x42), (.rmin n q, 1, 0x43), (.softmax n q, 1, 0x48)]

/-- The commands that start the tile mover (unit 2), with the operation codes of R293. -/
def moverRows (n q : Nat) : List (Instr × Nat × Nat) :=
  [(.copy n q, 2, 0x01), (.gather n q, 2, 0x02), (.scatter n q, 2, 0x03), (.scatterRed n q, 2, 0x04), (.red n q, 2, 0x05),
   (.amo n q, 2, 0x06)]

/-- The sum of a list of terms (R104, R105). -/
def sumOf (l : List (FVal × FVal)) : Acc := l.foldl (fun t p => t.term p.1 p.2) Acc.zero

/-! ## Mortar -/

/-- A message of a source passes Mortar at once: nothing waits there, the arbiters on its path are at rest, and the end of its path has a
credit for it. -/
def freePath (s : State) (cls : MClass) (tc : BitVec 2) (source : Nat) (outs : List Nat) : Prop :=
  s.mortar.waiting = [] ∧ (∀ o ∈ outs, arbOf s o = { arbDefault o with bucket := (arbOf s o).bucket }) ∧
  ∀ o, outs.getLast? = some o → tget zeroOf s.mortar.used (creditKey o cls tc source) < creditLimit cls

/-- A request of a core reaches the home of a line at once: its path is free, and it takes an identifier. -/
def asksFreely (s : State) (n line : Nat) (id : OpId) : Prop :=
  freePath s .ask (agentTc n) n [upOut n, outSlice (sliceOf s (line * 64))] ∧
  ∃ v, takeId (homePath (.core n)).1 (homePath (.core n)).2 s = some (id, v)

/-- The combining buffers and held flushes of a core are in order: each holds bytes of its own line, and each held flush waits for stores
that are buffered. -/
def flushesInOrder (c : Core) : Prop :=
  (∀ b ∈ c.ntBufs, ∀ x ∈ b.bytes, x.1 / 256 = b.line) ∧ (∀ b ∈ c.ntHeld, b.after ≤ c.storeBuf.length)

/-- The Course of a Trowel is not to be gated. -/
def notGating (s : State) (n : Nat) : Prop := isTrowel n = true → (courseOf s (n / 16)).state ≠ 3

/-! ## Homes and remote operations -/

/-- No operation waits to leave. -/
def allSent (s : State) : Prop := ∀ o ∈ s.ops, o.sent = true

/-- Nothing that has started waits: every operation has left, every line request and write-back of a core has its identifier, no Jegon
engine has a request under way, and no re-read waits. -/
def nothingWaits (s : State) : Prop :=
  allSent s ∧
  (∀ p ∈ s.cores, (∀ f ∈ p.2.fills, f.2.id.isSome = true) ∧ ∀ w ∈ p.2.wb, w.2.id.isSome = true) ∧
  (∀ p, p < s.build.jegonPorts → (jegonOf s p).fills = [] ∧ (jegonOf s p).heldMsgs = []) ∧ s.link.rereadQ = []

/-- No request is under way at the homes. -/
def homesIdle (s : State) : Prop := s.home.txns = [] ∧ s.home.input = [] ∧ s.home.lineQ = [] ∧ s.home.retryQ = []

/-- Nothing is under way at the homes or in Mortar, the Plinth partition runs, and the securing engine is off. -/
def quietHomes (s : State) : Prop :=
  homesIdle s ∧ s.mortar.waiting = [] ∧ s.clk.plinthOut = true ∧ s.sec.on = false ∧ s.sec.held = []

/-- A request of the host reaches the home of a line at once. -/
def hostPathFree (s : State) (line : Nat) : Prop :=
  freePath s .ask 1 (sourceNo .host) [outBridge, outSlice (sliceOf s (line * 64))]

/-- The check bits of a line's sector, of its Grout tag and of its filter entry are right. -/
def checkedLine (s : State) (line : Nat) : Prop :=
  (s.home.dataErr.filter fun e => e.1 / 8 == line) = [] ∧ tfind s.home.tagErr (line / 4) = none ∧ tfind s.home.filterErr line = none

/-- A line of own device memory stands in the Grout: its sector is valid, its check bits are right, its granule is not changing, and
neither an agent nor the host holds a copy. -/
def standsInGrout (s : State) (line : Nat) : Prop :=
  placeOf s (line * 64) = .dev (line * 64) ∧ filterOf s line = none ∧ tfind s.home.hdm line = none ∧ checkedLine s line ∧
  changing s (line * 64) = false ∧ ∃ c, sectorOf s (line * 64) = some c ∧ c.data.length = 64

/-- A line that stands in the Grout is not poisoned either. -/
def restsInGrout (s : State) (line : Nat) : Prop :=
  standsInGrout s line ∧ ∃ c, sectorOf s (line * 64) = some c ∧ c.p = false

/-- The bytes that the Grout holds from an address on; zero where it holds none. -/
def heldBytes (s : State) (pa n : Nat) : List Byte :=
  (List.range n).map fun i => (((sectorOf s ((pa + i) / 64 * 64)).map fun c => c.data).getD []).getD ((pa + i) % 64) 0

/-- A sector of the Grout is poisoned. -/
def heldPoison (s : State) (pa : Nat) : Bool := ((sectorOf s pa).map fun c => c.p).getD false

/-- The fifteen atomics of a home with their codes (R406). -/
def atomicRows : List ((Atomic → Instr) × Nat) :=
  [(.gopAdd, 0x01), (.gopAnd, 0x02), (.gopOr, 0x03), (.gopXor, 0x04), (.smin, 0x05), (.smax, 0x06), (.umin, 0x07),
   (.umax, 0x08), (.swap, 0x09), (.cas, 0x0A), (.fadd32, 0x10), (.fadd64, 0x11), (.fmax, 0x20), (.xadd, 0x30), (.bxor, 0x31)]

/-- A reporting unit holds a fault of a source that it did not hold, or counts one more. -/
def reports (u src : Nat) (s t : State) : Prop :=
  (∃ y, y.source = src ∧ t.flt.units = s.flt.units ++ [⟨u, y, 0⟩]) ∨
  (t.flt.units = replaceFirst (fun e => e.unit = u && e.first.source = src) (fun e => { e with more := e.more + 1 }) s.flt.units ∧
    ∃ e ∈ s.flt.units, e.unit = u ∧ e.first.source = src)

/-! ## Courses and set-up registers -/

/-- A Course that is live and waits for no clock has been moved to the operating point of its level: the duty at once, another clock
by a request to the generator, at 2/16 meanwhile. -/
def movedToPoint (s t : State) (c : Nat) : Prop :=
  let p := pointOf t (courseLevel t c)
  courseOf t c =
    if (courseOf s c).freq = p.1 then { courseOf s c with duty := p.2, cause := courseCause t c }
    else { courseOf s c with freqReq := some p.1, duty := 2, cause := courseCause t c }

/-- A set-up register reads as a value, and every other one as before. -/
def writesReg (off : Nat) (v : Word32) (s t : State) : Prop := ∀ k, reg t k = if k = off then v else reg s k

/-- An agent that exists and may write a set-up register. -/
def writer (a : RegAgent) (off : Nat) : Prop := agentPresent a = true ∧ mayWrite a off = true

/-! ## Contexts, rings and the front end -/

/-- A context is lost. -/
def lostCtx (s : State) (c : Nat) : Prop := ∃ x, ctxOf s c = some x ∧ x.state = .lost

/-- A reporting unit holds a fault of a source. -/
def hasFault (s : State) (u src : Nat) : Prop := ∃ e ∈ s.flt.units, e.unit = u ∧ e.first.source = src

/-- What a doorbell word does to a ring: the word that it passed last does nothing, a tail that the ring has room for is accepted, and one
that lies farther ahead is an overrun, which loses the context. -/
def passesTail (n : Nat) (r : Ring) (w : Word64) (s t : State) : Prop :=
  let d := tailStep r.tail w
  (w = r.passed → ringOf t n = some r ∧ t.ctxs = s.ctxs) ∧
  (w ≠ r.passed → d ≠ 0 → r.state ≠ .stop → d ≤ 2 ^ r.log2n - (r.tail - r.oldest) →
    ringOf t n = some { r with passed := w, tail := r.tail + d } ∧ t.ctxs = s.ctxs) ∧
  (∀ c, w ≠ r.passed → r.state ≠ .stop → 2 ^ r.log2n - (r.tail - r.oldest) < d → ctxOf s r.ctx = some c → c.state = .active →
    hasFault t unitLin 0x39 ∧ lostCtx t r.ctx)

/-- A place of own device memory whose home can perform a write alone, while the securing engine is off: what is written there is what
is read there. -/
def plainPlace (s : State) (pa : Nat) : Prop := placeOf s pa = .dev pa ∧ canWriteLine s (pa / 64) = true ∧ s.sec.on = false

/-- Neither the record nor the fence of an entry is on its way, and nothing that was read for the front end is still to be used. -/
def entryQuiet (s : State) (n seq : Nat) : Prop :=
  unitWaits s (.record n seq) = false ∧ unitWaits s (.fence n seq) = false ∧ s.front = []

/-- The engine may start an entry of a ring: the entry, which is of a kind and breaks no rule, is the next of the ring, it is the ring's
turn, nothing is under way, and physical addresses are permitted. -/
def hodTurn (e n kind : Nat) (r : Ring) (b : List Byte) (s : State) : Prop :=
  hasHod s e = true ∧ ringOf s n = some r ∧ r.kind = 1 ∧ r.engine = e ∧ enginesRun s = true ∧ runnable s n r = true ∧
  turnRing s e = some n ∧ s.front = [] ∧ (∀ k ∈ [1, 2, 3], readEntry (.entry n k) r r.next s = (some (b, .ok), s)) ∧ entryField b 1 1 = kind ∧
  hodBad b = false ∧ fFence (hFlags b) = false ∧ fPhys (hFlags b) = true ∧ bitOf r.flags 1 = true ∧ (hodOf s e).started = [] ∧
  s.ops = [] ∧ runWaits s e n r.next = false

/-- The fields that an operation of a descriptor carries to a home of this chip (R285). -/
def hodEnv (s : State) (b : List Byte) : Envelope :=
  ⟨fOrd (hFlags b), BitVec.ofNat 2 (fTc (hFlags b)), chipSelf s, chipSelf s, 0⟩

/-- An operation of an engine reaches the home of an address at once: its path is free, and it takes an identifier. -/
def hodSends (e : Nat) (b : List Byte) (pa : Nat) (s : State) (id : OpId) : Prop :=
  freePath s .ask (BitVec.ofNat 2 (fTc (hFlags b))) (512 + e) [outBridge, outSlice (sliceOf s pa)] ∧
  ∃ v, takeId pathBridge 1 s = some (id, v)

/-- An agent address of a descriptor lies in own device memory that firmware may reach. -/
def firmPlace (s : State) (a pa : Nat) : Prop :=
  sortAgent s a = some pa ∧ placeOf s pa = .dev pa ∧ changing s pa = false ∧ admits s .firmware pa = true

/-- An admin queue has an entry of the version in front, and its completion record goes to plain memory. -/
def adminTurn (q : Nat) (b : List Byte) (s : State) : Prop :=
  let a := admqOf s q
  q < 3 ∧ a.en = true ∧ a.busy = none ∧ a.next < a.tail ∧ lintelRuns s = true ∧ s.front = [] ∧
  (∀ k < 11, lintelRead (.admin q k) (some (a.entries + a.next % 2 ^ a.log2n * 64)) 64 s = (some (b, .ok), s) ∧
    unitWaits s (.admin q k) = false) ∧
  (a.compl + a.next % 2 ^ a.log2n * 32) % 32 = 0 ∧ plainPlace s (a.compl + a.next % 2 ^ a.log2n * 32)

/-- An admin queue with an entry of an operation in front. -/
def adminOp (q op : Nat) (b : List Byte) (s : State) : Prop :=
  adminTurn q b s ∧ entryField b 0 1 = 1 ∧ entryField b 1 1 = op

/-- The entry in front of an admin queue has completed: its record is written, and the queue goes on behind it. -/
def adminAnswered (q st ctx : Nat) (b : List Byte) (s t : State) : Prop :=
  let a := admqOf s q
  admqOf t q = { a with next := a.next + 1 } ∧ (∀ p, p ≠ q → admqOf t p = admqOf s p) ∧
  (readMem t (a.compl + a.next % 2 ^ a.log2n * 32) 32).1 =
    recordBytes st a.next (BitVec.ofNat 64 (entryField b 48 8)) (0xFFF0 + q) ctx

/-- The commands of the admin queues with their operation codes (R523). -/
def adminRows (q : Nat) : List (Instr × Nat) :=
  [(.ctxCreate q, 0x01), (.ctxDestroy q, 0x02), (.ringCreate q, 0x03), (.ringDestroy q, 0x04), (.ringResume q, 0x05), (.query q, 0x06),
   (.pages q, 0x07), (.fenceBind q, 0x08), (.tileBind q, 0x09), (.schedDone q, 0x0A)]

/-- The rest of the state after a write of the front end to memory. -/
def onlyMemory (s t : State) : Prop :=
  t = { s with
    home := t.home, ctls := t.ctls, mem := t.mem, cores := t.cores, sent := t.sent, vecs := t.vecs, admqs := t.admqs,
    ctxs := t.ctxs, rings := t.rings, waits := t.waits, watches := t.watches, devWatch := t.devWatch, inbox := t.inbox,
    xlat := t.xlat, tiles := t.tiles, front := t.front }

/-- A context of an admin queue is one on which the queue may act (R524). -/
def mayName (s : State) (q c : Nat) (x : Ctx) : Prop := ctxOf s c = some x ∧ (q = 2 ∨ x.queue = q)

/-- An entry of a ring that has started completes: its record is written to plain memory, and the ring forgets it. The entry, the only
one of the ring, signals no fence and raises no vector. -/
def entryEnds (n seq : Nat) (r : Ring) (b : List Byte) (s : State) : Prop :=
  ringOf s n = some r ∧ r.kind = 2 ∧ r.started = [(seq, b)] ∧ r.recorded = [] ∧ r.oldest = seq ∧ r.done = [] ∧ r.next = seq + 1 ∧
  bitOf r.flags 0 = false ∧ fIntr (hFlags b) = false ∧ (entryField b 1 1 = 0x20 ∨ entryField b 32 8 = 0) ∧ entryQuiet s n seq ∧
  (r.compl + seq % 2 ^ r.log2n * 32) % 32 = 0 ∧ plainPlace s (r.compl + seq % 2 ^ r.log2n * 32)

/-- It has completed with a status. -/
def entryEnded (n seq st : Nat) (r : Ring) (b : List Byte) (t : State) : Prop :=
  ringOf t n = some { r with started := [], oldest := seq + 1 } ∧
  (readMem t (r.compl + seq % 2 ^ r.log2n * 32) 32).1 = recordBytes st seq (BitVec.ofNat 64 (entryField b 48 8)) n r.ctx

/-- An address of a fence translates to a word of own device memory that its home can read alone, that holds a value and is not poisoned. -/
def fenceReads (s : State) (r : Ring) (addr pa v : Nat) : Prop :=
  r.kind = 2 ∧ s.xlat.failed = [] ∧ placeOf s pa = .dev pa ∧ pa % 8 = 0 ∧
  (∃ e, entriesOf s bufShared = [e] ∧ covers e (pasidOf s r.ctx) addr = true ∧ grants e.perm permR = true ∧
    sortHost s (entryPhys e addr) = pa) ∧ s.front = [] ∧ canReadLine s (pa / 64) = true ∧
  ∃ d, readMem s pa 8 = (d, false) ∧ leNat d = v

/-! ## Bond ports and the securing engine -/

/-- A port that has gone down with a cause: it keeps what it had settled on, and nothing else. -/
def portDown (p : Nat) (cause : BitVec 3) (s t : State) : Prop :=
  let b := bondOf s p
  bondOf t p = { bondDefault p with
    state := if cause = 7 then 0 else 5, cause := cause, lanes := b.lanes, rate := b.rate, level := b.level,
    partnerChip := b.partnerChip, partnerPort := b.partnerPort } ∧
  (∀ k, k ≠ p → bondOf t k = bondOf s k) ∧ (b.state ≠ 0 → b.state ≠ 5 → reports (unitBond p) 0x41 s t) ∧
  t = { s with bonds := t.bonds, flt := t.flt }

/-- A port is there, and nothing of this chip waits in it or is under way. -/
def portIdle (p : Nat) (s : State) : Prop := hasBond s p = true ∧ (bondOf s p).txQ = [] ∧ s.ops = [] ∧ nothingWaits s

/-- A frame that the receiver of a port accepts: it is the next one, under the key in use. -/
def goodFrame (p : Nat) (f : Frame) (s : State) : Prop :=
  hasBond s p = true ∧ (bondOf s p).state = 4 ∧ f.crcOk = true ∧ f.tagOk = true ∧ f.version = 1 ∧ f.key = (bondOf s p).rxKey ∧
  f.seq = BitVec.ofNat 16 (bondOf s p).rxNum

/-- What an accepted frame leaves in the port: its number, its acknowledgement and its credits are taken. -/
def afterFrame (f : Frame) (b : Bond) : Bond :=
  { b with
    rxNum := b.rxNum + 1, kept := acked f.ack.toNat b.kept,
    credits := tset creditDefault b.credits f.crdVc.toNat (min 256 (tget creditDefault b.credits f.crdVc.toNat + f.crdN)) }

/-- A byte of own device memory as the block's own units see it. -/
def byteAt (s : State) (a : Nat) : Byte := (readMem s a 1).1.headD 0

/-- Two ranges share no byte. -/
def apart (a n b m : Nat) : Prop := a + n ≤ b ∨ b + m ≤ a

/-- Lines of own device memory that their homes can read and write alone. -/
def openLines (s : State) (ls : List Nat) : Prop :=
  ∀ l ∈ ls, placeOf s (l * 64) = .dev (l * 64) ∧ canReadLine s l = true ∧ canWriteLine s l = true

/-- No line of a list is poisoned. -/
def cleanLines (s : State) (ls : List Nat) : Prop := ∀ l ∈ ls, (homeData s l).2 = false

/-- The securing table with its reports. -/
def secTable (s : State) : List Nat := rangeLines (secBase s) 0x9000

/-- The securing engine may act: it is on without work, the Lintel runs, its table lies in own device memory that its homes can read and
write alone, and nothing is under way. -/
def secReady (s : State) : Prop :=
  s.sec.on = true ∧ s.sec.work = none ∧ s.sec.got = [] ∧ lintelRuns s = true ∧ openLines s (secTable s) ∧ cleanLines s (secTable s) ∧
  s.ops = [] ∧ homesIdle s

/-- The securing table lies where the engine can read and write it, and nothing is under way. -/
def secOpen (s : State) : Prop :=
  hasSecuring s = true ∧ openLines s (secTable s) ∧ secBase s + 0x9000 ≤ hdmTop s ∧ s.ops = [] ∧ homesIdle s

/-! ## Faults -/

/-- The level at which a fault is collected (R612, R613, R621): the largest of the configured level, the floor and a reported level, and
one more, up to 5, for a repeat that escalates. -/
def levelOf (s : State) (y : Syndrome) (floor : Nat) : Nat :=
  let l := max (max (fieldOf (reg s (offFltSev y.source)) 2 0) floor) (min 5 (y.level.getD 0))
  if bitOf s.flt.pend y.source = true ∧ bitOf (reg s (offFltSev y.source)) 7 = true then min 5 (l + 1) else l

/-! ## The Kiln -/

/-- The Kiln runs, and a mailbox is busy with a service. -/
def kilnTurn (mb code : Nat) (s : State) : Prop :=
  mb < 3 ∧ s.kiln.released = true ∧ (mailboxOf s mb).busy = true ∧ (mailboxOf s mb).service.toNat = code

/-- A mailbox request has ended with a status: `BUSY` is clear, and every other mailbox is as it was. -/
def kilnEnded (mb st : Nat) (s t : State) : Prop :=
  (mailboxOf t mb).busy = false ∧ (mailboxOf t mb).status = BitVec.ofNat 8 st ∧ ∀ k, k ≠ mb → mailboxOf t k = mailboxOf s k

/-- A service completes with a status and has no other effect. -/
def kilnRefuses (mb st : Nat) (c : Instr) (s : State) : Prop :=
  ∃ t, exec c s = .next t ∧ kilnEnded mb st s t ∧ mailboxOf t mb = { mailboxOf s mb with busy := false, status := BitVec.ofNat 8 st } ∧
    t = { s with kiln := { s.kiln with mailboxes := t.kiln.mailboxes } }

/-- Nothing of the block reaches own device memory but the units of the Kiln: no core, engine or host holds a line, nothing is under way. -/
def stillMemory (s : State) : Prop :=
  quietHomes s ∧ s.home.filter = [] ∧ s.home.hdm = [] ∧ s.home.grout = [] ∧ s.cores = [] ∧ s.ops = [] ∧ s.hods = [] ∧ s.ctls = [] ∧
  s.jegons = [] ∧ s.xlat.invals = [] ∧ s.xlat.buffers = [] ∧ s.tiles = [] ∧ s.link.rereadQ = []

/-- A request over a transport reaches the Kiln, which runs. -/
def spdmReaches (m : Spdm) (s : State) : Prop := hasTransport s m.transport = true ∧ s.kiln.released = true

/-- A request stands in a session of its transport, finished or not. -/
def spdmSession (m : Spdm) (x : Session) (s : State) : Prop := tfind s.kiln.sessions m.session = some x ∧ x.transport = m.transport

/-- The Kiln has answered a request; but for what a statement names, nothing outside the Kiln has changed. -/
def spdmAnswered (m : Spdm) (code : Nat) (payload : List Byte) (s t : State) : Prop :=
  t.sent = s.sent ++ [.spdm m.transport m.session code payload] ∧ t = { s with sent := t.sent, kiln := t.kiln }

/-- The Kiln answers a request with an error, and keeps everything but the count of its answers. -/
def spdmRefused (m : Spdm) (c : Instr) (s : State) : Prop :=
  ∃ t, exec c s = .next t ∧ spdmAnswered m 0x7F [] s t ∧ t.kiln = { s.kiln with answers := s.kiln.answers + 1 }

end Sys2Proof.Machine
end

