-- ==== Sys2Proof/Certificates/Slice0/Obligations.lean ====
section
/-! DEFINITION. The statements for the provers, family by family of the opcode table. -/
open Sys2Proof Sys2Proof.Machine

/-- The queue of commands. That time passes on an empty queue is a choice of the model (log 3). -/
def Obligations.StepRunsFront : Prop :=
  (∀ (s : State) (c : Instr) (rest : List Instr), s.pending = c :: rest → step s = exec c { s with pending := rest }) ∧
  (∀ s : State, s.pending = [] → step s = .next (tick s))

/-- Cold reset (R671) and the reset columns of the register tables. Memory that reads zero is a choice of the model (log 14). -/
def Obligations.ResetState : Prop :=
  let s := State.reset
  s.pending = [] ∧ s.memWf = true ∧ (∀ a, readByte s.mem.dev a = 0 ∧ readByte s.mem.host a = 0) ∧
  (∀ n a, readByte (tileOf s n).store a = 0 ∧ (tileOf s n).flags = 0 ∧ (tileOf s n).bound = none) ∧
  (∀ n r, getX (coreOf s n) r = 0 ∧ (coreOf s n).mode = .m) ∧
  s.ctxs = [] ∧ s.rings = [] ∧ s.kiln.slots = [] ∧ s.kiln.access = [] ∧ s.ops = [] ∧ s.home.filter = [] ∧
  s.home.grout = [] ∧ s.home.txns = [] ∧ s.home.lineQ = [] ∧ s.home.hdm = [] ∧ s.home.pins = [] ∧ s.home.inService = false ∧ s.idents = [] ∧
  s.xlat.buffers = [] ∧ s.flt.units = [] ∧ s.flt.pend = 0 ∧ s.flt.fatal = false ∧ s.sealed_ = false ∧
  s.clk.inCold = true ∧ s.clk.plinthOut = false ∧ s.clk.coursesOut = false ∧ s.link.hostAbsent = true ∧ s.link.up = false ∧
  regValue s .glbId = 0x48460001 ∧ regValue s .glbVersion = 0x01010000 ∧ regValue s .seal = 0 ∧ regValue s .pwrLimit = 0 ∧
  regValue s .pwrStatus = 0 ∧ regValue s .tick = 0x64 ∧ regValue s .partCtl = 0 ∧ regValue s .corrCtl = 0 ∧ regValue s .fltSummary = 0 ∧
  regValue s .fltCtl = 0x3F0007F8 ∧ regValue s .inputLimit = 0x64 ∧ regValue s .inputState = 0 ∧ regValue s .hdmTop = 0 ∧
  regValue s .courseLive = 0 ∧ regValue s .secCtl = 0x0220001C ∧ regValue s .dbgState = 0 ∧ regValue s .dbgIdcode = 0x05831001 ∧
  regValue s .chip = 0x00010000 ∧ regValue s .linTimeout = 0x31 ∧ regValue s .weight = 0x00080401 ∧ (∀ c, regValue s (.courseCtl c) = 0x80000000) ∧
  (∀ p, regValue s (.jegCtl p) = 0 ∧ regValue s (.jegState p) = 0x40000000) ∧
  ∀ m i, regValue s (.mbCmd m) = 0 ∧ regValue s (.mbData m i) = 0

/-- The queue is the model's; the build is fixed, and the seal lasts until a cold or warm reset (R15, R684). -/
def Obligations.QueueBuildAndSealKept : Prop :=
  ∀ s t : State, step s = .next t →
    t.pending = s.pending.tail ∧ t.build = s.build ∧
    (s.sealed_ = true → t.sealed_ = true ∨ (t.kiln.slots = [] ∧ t.kiln.access = [] ∧ t.ctxs = []))

/-- The canonical form of the memories, which makes equal memories equal data. -/
def Obligations.MemoryStaysCanonical : Prop :=
  ∀ s t : State, s.memWf = true → step s = .next t → t.memWf = true

/-- TCNT_RD, TCNT_WR, TFLAGS and TERR of a Trowel that can run (R208, R212, R214): result, completion and frame; TWAIT, TTOK and TBAR (R208, R213): they end or wait. -/
def Obligations.TileCountersFlagsStalls : Prop :=
  ∀ (a : Site) (s : State), trowelRuns a s →
    (∀ rd c : BitVec 5, encodes a (.tcntRd rd.toNat c.toNat) → ∃ t, exec (.tcntRd a rd c) s = .next t ∧ retired a s t ∧ otherCores a.core s t ∧
      writesX a.core rd (tget zeroOf (tileOf s a.core).counters c.toNat) s t ∧ t = { s with cores := t.cores }) ∧
    (∀ (c : BitVec 5) (v : Word64), encodes a (.tcntWr c.toNat) → ∃ t, exec (.tcntWr a c v) s = .next t ∧ retired a s t ∧
      otherCores a.core s t ∧ keepsX a.core s t ∧ otherTiles a.core s t ∧
      (∀ k, tget zeroOf (tileOf t a.core).counters k = if k = c.toNat then v else tget zeroOf (tileOf s a.core).counters k) ∧
      tileOf t a.core = { tileOf s a.core with counters := (tileOf t a.core).counters } ∧
      t = { s with cores := t.cores, tiles := t.tiles }) ∧
    (∀ (rd : BitVec 5) (m : Word64), encodes a (.tflags rd.toNat) → ∃ t, exec (.tflags a rd m) s = .next t ∧ retired a s t ∧ otherCores a.core s t ∧
      writesX a.core rd ((tileOf s a.core).flags.setWidth 64) s t ∧ otherTiles a.core s t ∧
      tileOf t a.core = { tileOf s a.core with flags := (tileOf s a.core).flags &&& ~~~(m.setWidth 8) } ∧
      t = { s with cores := t.cores, tiles := t.tiles }) ∧
    (∀ rd : BitVec 5, encodes a (.terr rd.toNat) → (tileOf s a.core).errLog = [] → ∃ t, exec (.terr a rd) s = .next t ∧ retired a s t ∧
      otherCores a.core s t ∧ writesX a.core rd 0 s t ∧ t = { s with cores := t.cores }) ∧
    (∀ (rd : BitVec 5) (e : ErrEntry) (es : List ErrEntry), encodes a (.terr rd.toNat) → (tileOf s a.core).errLog = e :: es →
      ∃ t v, exec (.terr a rd) s = .next t ∧ retired a s t ∧ otherCores a.core s t ∧ writesX a.core rd v s t ∧
      otherTiles a.core s t ∧ tileOf t a.core = { tileOf s a.core with errLog := es, errOvf := false } ∧
      fieldOf v 63 63 = 1 ∧ fieldOf v 62 62 = b2n (tileOf s a.core).errOvf ∧ fieldOf v 61 56 = 0 ∧
      fieldOf v 55 48 = e.reason % 2 ^ 8 ∧ fieldOf v 47 42 = 0 ∧ fieldOf v 41 40 = e.unit % 4 ∧ fieldOf v 39 16 = 0 ∧
      fieldOf v 15 0 = e.seq % 2 ^ 16 ∧ t = { s with cores := t.cores, tiles := t.tiles }) ∧
    (∀ (rd c : BitVec 5) (target : Word64), encodes a (.twait rd.toNat c.toNat) →
      let v : Word64 := tget zeroOf (tileOf s a.core).counters c.toNat
      let met : Prop := v.getLsbD 63 = true ∨ target.toNat % 2 ^ 63 ≤ v.toNat % 2 ^ 63
      (met → ∃ t, exec (.twait a rd c target) s = .next t ∧ retired a s t ∧ otherCores a.core s t ∧
        writesX a.core rd v s t ∧ t = { s with cores := t.cores }) ∧
      (¬ met → ∃ t, exec (.twait a rd c target) s = .next t ∧ waitsIn a (.twait rd c.toNat target) s t ∧
        otherCores a.core s t ∧ t = { s with cores := t.cores })) ∧
    (∀ mask : Word64, encodes a .ttok →
      let sig : List Cmd := (tileOf s a.core).queue.filter fun c => hSigEn c.hdr && mask.getLsbD (hSig c.hdr)
      (sig = [] → ∃ t, exec (.ttok a mask) s = .next t ∧ retired a s t ∧ otherCores a.core s t ∧ keepsX a.core s t ∧
        t = { s with cores := t.cores }) ∧
      (sig ≠ [] → ∃ t, exec (.ttok a mask) s = .next t ∧ waitsIn a (.ttok (sig.map fun c => c.seq)) s t ∧
        otherCores a.core s t ∧ t = { s with cores := t.cores })) ∧
    (∀ rd : BitVec 5, encodes a (.tbar rd.toNat) →
      let quiet : Prop := (∀ c ∈ (tileOf s a.core).queue, hUnit c.hdr ≠ uMover) ∧ ∀ o ∈ s.ops, o.src ≠ .mover a.core
      (quiet → ∃ t, exec (.tbar a rd) s = .next t ∧ retired a s t ∧ otherCores a.core s t ∧
        writesX a.core rd ((tileOf s a.core).barStatus.setWidth 64) s t ∧
        ((∀ c ∈ (tileOf s a.core).queue, c.started = false) → otherTiles a.core s t ∧
          tileOf t a.core = { tileOf s a.core with barStatus := 0 } ∧ t = { s with cores := t.cores, tiles := t.tiles })) ∧
      (¬ quiet → ∃ t, exec (.tbar a rd) s = .next t ∧ waitsIn a (.tbar rd) s t ∧ otherCores a.core s t ∧
        t = { s with cores := t.cores }))

/-- TCMD (R185, R187, R189, R206, R210). That a full queue stalls it before its checks is the choice of log 90. -/
def Obligations.TileCommandIssue : Prop :=
  ∀ (a : Site) (rd : BitVec 5) (h o : Word64) (s : State), trowelRuns a s → encodes a (.tcmd rd.toNat) →
    let n := a.core
    ((tileOf s n).queue.length < 64 → ∀ ds, checkCommand (tileOf s n) h o = .ok ds → ∃ t c,
      exec (.tcmd a rd h o) s = .next t ∧ retired a s t ∧ otherCores n s t ∧ otherTiles n s t ∧
      writesX n rd (BitVec.ofNat 64 ((tileOf s n).nextSeq % 2 ^ 16)) s t ∧
      tileOf t n = { tileOf s n with queue := (tileOf s n).queue ++ [c], nextSeq := (tileOf s n).nextSeq + 1 } ∧
      c.seq = (tileOf s n).nextSeq ∧ c.hdr = h ∧ c.opw = o ∧ c.descs = ds ∧ c.started = false ∧
      (∀ d, d ∈ c.deps ↔ ∃ e ∈ (tileOf s n).queue, hSigEn e.hdr = true ∧ (hWait h).getLsbD (hSig e.hdr) = true ∧ e.seq = d) ∧
      t = { s with cores := t.cores, tiles := t.tiles }) ∧
    ((tileOf s n).queue.length < 64 → ∀ r, checkCommand (tileOf s n) h o = .error r → ∃ t,
      exec (.tcmd a rd h o) s = .next t ∧ trapped a false 25 (BitVec.ofNat 64 r) s t ∧
      (tileOf t n).queue = (tileOf s n).queue ∧ (tileOf t n).nextSeq = (tileOf s n).nextSeq) ∧
    (64 ≤ (tileOf s n).queue.length → ∃ t, exec (.tcmd a rd h o) s = .next t ∧ waitsIn a (.tcmd rd h o) s t ∧
      otherCores n s t ∧ t = { s with cores := t.cores })

/-- The reason codes of TCMD (R206, R207). The order among several failed checks is the choice of log 20. -/
def Obligations.TileCommandChecks : Prop :=
  ∀ (t : Tile) (h o : Word64),
    (hVersion h ≠ 1 → checkCommand t h o = .error 0x01) ∧
    (hVersion h = 1 → hUnit h = 3 → checkCommand t h o = .error 0x02) ∧
    (hVersion h = 1 → hUnit h ≠ 3 → slotUse h o = none → checkCommand t h o = .error 0x03) ∧
    (∀ slots, hVersion h = 1 → hUnit h ≠ 3 → slotUse h o = some slots →
      (fieldOf h 42 40 ≠ 0 ∨ fieldOf h 12 0 ≠ 0 ∨ (∃ k, k < 6 ∧ k ∉ slots ∧ slotReg o k ≠ 0) ∨
        (hTc h ≠ 0 ∧ hUnit h ≠ uMover)) → checkCommand t h o = .error 0x04) ∧
    (∀ slots k, hVersion h = 1 → hUnit h ≠ 3 → slotUse h o = some slots → k ∈ slots →
      (tget (fun _ => (⟨[], false⟩ : DescReg)) t.td (slotReg o k)).valid = false →
      checkCommand t h o = .error 0x04 ∨ checkCommand t h o = .error 0x05) ∧
    (∀ ds, checkCommand t h o = .ok ds → hVersion h = 1 ∧ hUnit h ≠ 3 ∧ hRm h ≤ 4 ∧
      ∃ slots, slotUse h o = some slots ∧ copyDescs t o slots = some ds)

/-- TDLD (R215, R216). -/
def Obligations.DescriptorLoad : Prop :=
  ∀ (a : Site) (td : BitVec 5) (rs1 : Word64) (s : State), trowelRuns a s → encodes a (.tdld td.toNat) → untriggered a rs1 s →
    let n := a.core
    let reg (t : State) : DescReg := tget (fun _ => ⟨[], false⟩) (tileOf t n).td td.toNat
    (rs1.toNat % 64 ≠ 0 → ∃ t, exec (.tdld a td rs1) s = .next t ∧ trapped a false 4 rs1 s t) ∧
    (rs1.toNat % 64 = 0 → ∀ pa u d p, coreTarget n a.mode rs1 64 permR (bufData n) (atSite a s) = (.pa pa, u) →
      loadBytes u n pa 64 = .ok (d, p) →
      (p = true → ∃ t, exec (.tdld a td rs1) s = .next t ∧ trapped a false 5 rs1 s t) ∧
      (p = false → descFault d = none → ∃ t, exec (.tdld a td rs1) s = .next t ∧ retired a s t ∧ keepsX n s t ∧
        otherCores n s t ∧ otherTiles n s t ∧ reg t = ⟨d, true⟩ ∧
        (∀ k, k ≠ td.toNat → tfind (tileOf t n).td k = tfind (tileOf s n).td k) ∧
        tileOf t n = { tileOf s n with td := (tileOf t n).td } ∧ t = { u with cores := t.cores, tiles := t.tiles }) ∧
      (∀ r, p = false → descFault d = some r → ∃ t, exec (.tdld a td rs1) s = .next t ∧
        trapped a false 24 (BitVec.ofNat 64 (r + td.toNat * 256)) s t ∧ (reg t).valid = false))

/-- Illegal instructions of the tile extension (R209, R216). -/
def Obligations.TileExtensionIllegal : Prop :=
  ∀ (a : Site) (s : State), canRun a s →
    let bad (i : Instr) : Prop := ∃ t, exec i s = .next t ∧ trapped a false 2 (a.bits.setWidth 64) s t ∧
      ∀ n, (tileOf t n).queue = (tileOf s n).queue ∧ (tileOf t n).counters = (tileOf s n).counters ∧
        (tileOf t n).flags = (tileOf s n).flags ∧ (tileOf t n).errLog = (tileOf s n).errLog ∧
        (tileOf t n).td = (tileOf s n).td
    (isTrowel a.core = false → ∀ (r c : BitVec 5) (v w : Word64),
      bad (.tdld a r v) ∧ bad (.tcmd a r v w) ∧ bad (.twait a r c v) ∧ bad (.tcntRd a r c) ∧ bad (.tcntWr a c v) ∧
      bad (.ttok a v) ∧ bad (.tflags a r v) ∧ bad (.tbar a r) ∧ bad (.terr a r)) ∧
    (isTrowel a.core = true → ∀ (r c : BitVec 5) (v w : Word64),
      (¬ encodes a (.tdld r.toNat) → bad (.tdld a r v)) ∧ (¬ encodes a (.tcmd r.toNat) → bad (.tcmd a r v w)) ∧
      (¬ encodes a (.twait r.toNat c.toNat) → bad (.twait a r c v)) ∧ (¬ encodes a (.tcntRd r.toNat c.toNat) → bad (.tcntRd a r c)) ∧
      (¬ encodes a (.tcntWr c.toNat) → bad (.tcntWr a c v)) ∧ (¬ encodes a .ttok → bad (.ttok a v)) ∧
      (¬ encodes a (.tflags r.toNat) → bad (.tflags a r v)) ∧ (¬ encodes a (.tbar r.toNat) → bad (.tbar a r)) ∧
      (¬ encodes a (.terr r.toNat) → bad (.terr a r))) ∧
    (∀ rd < 32, ∀ c < 8, ∀ r1 < 32, ∀ r2 < 32,
      (rd < 16 → tileForm (custom0 0 0 r1 0 rd) = some (.tdld rd)) ∧ tileForm (custom0 0 r2 r1 1 rd) = some (.tcmd rd) ∧
      tileForm (custom0 0 c r1 2 rd) = some (.twait rd c) ∧ tileForm (custom0 0 c 0 3 rd) = some (.tcntRd rd c) ∧
      tileForm (custom0 1 c r1 3 0) = some (.tcntWr c) ∧ tileForm (custom0 0 0 r1 4 0) = some .ttok ∧
      tileForm (custom0 0 0 r1 5 rd) = some (.tflags rd) ∧ tileForm (custom0 0 0 0 6 rd) = some (.tbar rd) ∧
      tileForm (custom0 0 0 0 7 rd) = some (.terr rd)) ∧
    (∀ f7 < 128, ∀ r2 < 32, ∀ r1 < 32, ∀ f3 < 8, ∀ rd < 32,
      (f7 ≠ 0 ∧ (f7 ≠ 1 ∨ f3 ≠ 3)) ∨ (8 ≤ r2 ∧ (f3 = 2 ∨ f3 = 3)) ∨ (f7 = 0 ∧ f3 = 0 ∧ 16 ≤ rd) →
        tileForm (custom0 f7 r2 r1 f3 rd) = none)

/-- CORE_LOAD from memory, a tile store or a control window (R177, R179, R307): result, completion, frame, and the request for a missing line. Readings and choices of the model in it: log 40. -/
def Obligations.CoreLoads : Prop :=
  ∀ (a : Site) (rd : Dest) (wd : Width) (sext : Bool) (addr : Word64) (s u : State) (pa : Nat), canRun a s →
    untriggered a addr s → destOk a.core rd wd = true → (rd ≠ .fetch → isCustom0 a.bits = false) → addr.toNat % widthBytes wd = 0 →
    let n := a.core
    let w := widthBytes wd
    coreTarget n a.mode addr w (loadNeed rd) (loadBuffer n rd) (atSite a s) = (.pa pa, u) →
    (∀ off, placeOf u pa ≠ .setup off) → (∀ off, placeOf u pa = .grout off → wd = .b8 ∧ rd ≠ .fetch) →
    (isHost pa = true → u.link.hostAbsent = false) →
    (∀ r d, rd = .x r → loadBytes u n pa w = .ok (d, false) → ∃ t, exec (.coreLoad a .listed rd wd sext addr) s = .next t ∧
      retired a s t ∧ otherCores n s t ∧ writesX n r (loadedValue w sext d) s t ∧ t = { u with cores := t.cores }) ∧
    (∀ r d, rd = .f r → loadBytes u n pa w = .ok (d, false) → ∃ t, exec (.coreLoad a .listed rd wd sext addr) s = .next t ∧
      (coreOf t n).pc = a.pc + insnLen a.bits ∧ (coreOf t n).wait = none ∧ otherCores n s t ∧
      (coreOf t n).x = (coreOf s n).x ∧
      (∀ k, (tget zeroOf (coreOf t n).f k : Word64) = if k = r.toNat then
        BitVec.ofNat 64 (leNat d + if w = 4 then 2 ^ 64 - 2 ^ 32 else 0) else tget zeroOf (coreOf s n).f k) ∧
      t = { u with cores := t.cores }) ∧
    (∀ d, rd = .fetch → fetched (coreOf s n) pa w = false → loadBytes u n pa w = .ok (d, false) →
      ∃ t, exec (.coreLoad a .listed rd wd sext addr) s = .next t ∧ (coreOf t n).wait = none ∧ otherCores n s t ∧
      keepsX n s t ∧
      ((placeOf u pa).cacheable = true → ∀ i, i < w → tfind (coreOf t n).icache (pa + i) = some (d.getD i 0)) ∧
      ((placeOf u pa).cacheable = false → (coreOf t n).icache = (coreOf s n).icache) ∧
      (∀ b, (b < pa ∨ pa + w ≤ b) → tfind (coreOf t n).icache b = tfind (coreOf s n).icache b) ∧
      t = { u with cores := t.cores }) ∧
    (∀ d, (rd = .fetch → fetched (coreOf s n) pa w = false) → loadBytes u n pa w = .ok (d, true) →
      ∃ t, exec (.coreLoad a .listed rd wd sext addr) s = .next t ∧
      trapped a false (match rd with | .fetch => 1 | _ => 5) addr s t) ∧
    (∀ l, (rd = .fetch → fetched (coreOf s n) pa w = false) → loadBytes u n pa w = .error l →
      tfind (coreOf s n).fills l = none → tfind (coreOf s n).wb l = none → flushing u n (l / 4) = false →
      ∃ t, exec (.coreLoad a .listed rd wd sext addr) s = .next t ∧ (coreOf t n).wait = some (.load rd wd sext pa addr) ∧
      keepsX n s t ∧ otherCores n s t ∧
      (∃ f, tfind (coreOf t n).fills l = some f ∧ f.own = false ∧ f.tc = agentTc n ∧ f.grant = none ∧ f.data = none) ∧
      ∀ id, asksFreely u n l id →
        t = { u with cores := t.cores, idents := t.idents, mortar := t.mortar, sent := u.sent ++ [.ask n (l * 64) false (agentTc n) id] })

/-- CORE_STORE (R305, R307, R319, R325, R328, R332). Readings and choices of the model in it: log 24, 40. -/
def Obligations.CoreStores : Prop :=
  ∀ (a : Site) (wd : Width) (addr v : Word64) (s u : State) (pa : Nat), canRun a s → untriggered a addr s →
    isCustom0 a.bits = false → addr.toNat % widthBytes wd = 0 → pa % widthBytes wd = 0 → flushesInOrder (coreOf s a.core) → notGating s a.core →
    let n := a.core
    let w := widthBytes wd
    let d := leBytes w (v.toNat % 2 ^ (8 * w))
    coreTarget n a.mode addr w permW (bufData n) (atSite a s) = (.pa pa, u) →
    ((placeOf u pa).cacheable = true → isNtAddr u n addr = false → ∃ t,
      exec (.coreStore a .listed wd addr v) s = .next t ∧ passed a s t ∧ otherCores n s t ∧
      ∀ i, i < w → ∃ p, loadByte t n (pa + i) = .ok (d.getD i 0, p)) ∧
    (∀ k off, placeOf u pa = .tile k off → (isTrowel n = true → (tileOf s n).queue = []) → ∃ t,
      exec (.coreStore a .listed wd addr v) s = .next t ∧ passed a s t ∧ otherCores n s t ∧
      ∀ i, i < w → off + w ≤ 2 ^ 21 → ∃ p, loadByte t n (pa + i) = .ok (d.getD i 0, p)) ∧
    ((placeOf u pa).cacheable = true → isNtAddr u n addr = true →
      (∀ b ∈ (coreOf s n).ntBufs, b.line ≠ pa / 256) → (coreOf s n).ntBufs.length < 8 → ∃ t b,
      exec (.coreStore a .listed wd addr v) s = .next t ∧ passed a s t ∧ otherCores n s t ∧
      (coreOf t n).ntBufs = (coreOf s n).ntBufs ++ [b] ∧ b.line = pa / 256 ∧
      (∀ k, tfind b.bytes k = if pa ≤ k ∧ k < pa + w then some (d.getD (k - pa) 0) else none) ∧
      (coreOf t n).storeBuf = (coreOf s n).storeBuf ∧ (coreOf t n).lines = (coreOf s n).lines ∧ t = { u with cores := t.cores }) ∧
    (∀ off, placeOf u pa = .setup off →
      (w = 4 → exec (.coreStore a .listed wd addr v) s =
        .next (retire a (regWrite (regAgentOf n) off (BitVec.ofNat 32 v.toNat) u))) ∧
      (w ≠ 4 → ∃ t, exec (.coreStore a .listed wd addr v) s = .next t ∧ trapped a false 7 addr s t))

/-- Accesses that trap (R176, R177, R180). Readings and choices of the model in it: log 41. -/
def Obligations.CoreAccessTraps : Prop :=
  ∀ (a : Site) (s : State), canRun a s →
    let n := a.core
    let traps (i : Instr) (cause : Nat) (tval : Word64) : Prop :=
      ∃ t, exec i s = .next t ∧ trapped a false cause tval s t ∧ otherCores n s t
    (∀ rd wd sext addr v, traps (.coreLoad a .absent rd wd sext addr) 2 (a.bits.setWidth 64) ∧
      traps (.coreStore a .absent wd addr v) 2 (a.bits.setWidth 64)) ∧
    (isCustom0 a.bits = true → ∀ rd wd sext addr v, rd ≠ .fetch → traps (.coreLoad a .listed rd wd sext addr) 2 (a.bits.setWidth 64) ∧
      traps (.coreStore a .listed wd addr v) 2 (a.bits.setWidth 64)) ∧
    (∀ rd wd sext addr, isCustom0 a.bits = false → destOk n rd wd = true → rd ≠ .fetch → addr.toNat % widthBytes wd ≠ 0 →
      traps (.coreLoad a .listed rd wd sext addr) 4 addr) ∧
    (∀ wd addr v, isCustom0 a.bits = false → addr.toNat % widthBytes wd ≠ 0 → traps (.coreStore a .listed wd addr v) 6 addr) ∧
    (∀ rd op dbl addr v, untriggered a addr s → addr.toNat % (if dbl then 8 else 4) ≠ 0 →
      traps (.coreAmo a rd op dbl addr v) 6 addr ∧ traps (.sc a rd dbl addr v) 6 addr ∧ traps (.lr a rd dbl addr) 4 addr) ∧
    (∀ rd op dbl addr v, untriggered a addr s → addr.toNat % (if dbl then 8 else 4) = 0 → inTileWindow s n addr = true →
      traps (.coreAmo a rd op dbl addr v) 7 addr ∧ traps (.sc a rd dbl addr v) 7 addr ∧ traps (.lr a rd dbl addr) 5 addr)

/-- LR, SC and CORE_AMO (R310, R320 to R322, R324, R413). Readings and choices of the model in it: log 47, 78. -/
def Obligations.ReservationsAndAtomics : Prop :=
  ∀ (a : Site) (rd : BitVec 5) (dbl : Bool) (addr v : Word64) (s u : State) (pa : Nat), canRun a s → untriggered a addr s →
    addr.toNat % (if dbl then 8 else 4) = 0 → inTileWindow s a.core addr = false →
    let n := a.core
    let w := if dbl then 8 else 4
    ntHolds (coreOf s n) pa w = false →
    (coreTarget n a.mode addr w permR (bufData n) (atSite a s) = (.pa pa, u) → (isHost pa = true → u.link.hostAbsent = false) →
      (∀ off, placeOf u pa ≠ .setup off) → (∀ off, placeOf u pa = .grout off → dbl = true) →
      ∀ d, loadBytes u n pa w = .ok (d, false) →
      ((placeOf u pa).cacheable = true → tfind (coreOf s n).lines (pa / 64) = none → ∃ t, exec (.lr a rd dbl addr) s = .next t ∧
        (coreOf t n).wait = some (.lr rd dbl pa addr) ∧ (coreOf t n).resv = (coreOf s n).resv ∧ keepsX n s t ∧ otherCores n s t ∧
        (tfind (coreOf s n).wb (pa / 64) = none → flushing u n (pa / 256) = false → (tfind (coreOf t n).fills (pa / 64)).isSome = true)) ∧
      (((placeOf u pa).cacheable = true → (tfind (coreOf s n).lines (pa / 64)).isSome = true) → ∃ t, exec (.lr a rd dbl addr) s = .next t ∧
      writesX n rd (loadedValue w true d) s t ∧ (coreOf t n).pc = a.pc + insnLen a.bits ∧ (coreOf t n).wait = none ∧
      otherCores n s t ∧ (coreOf t n).lines = (coreOf s n).lines ∧
      (coreOf t n).resv = (if bitOf (coreOf s n).dcsr 2 then none else if (placeOf u pa).cacheable then some (pa / 64)
        else (coreOf s n).resv) ∧
      (coreOf t n).deferral = ((placeOf u pa).cacheable || (coreOf s n).deferral) ∧ t = { u with cores := t.cores })) ∧
    (coreTarget n a.mode addr w permRW (bufData n) (atSite a s) = (.pa pa, u) → (coreOf s n).storeBuf = [] →
      (coreOf s n).ntHeld = [] → (coreOf s n).deferred = [] → (isTrowel n = true → (tileOf s n).queue = []) → notGating s n →
      ((coreOf s n).resv ≠ some (pa / 64) → ∃ t, exec (.sc a rd dbl addr v) s = .next t ∧ writesX n rd 1 s t ∧
        (coreOf t n).pc = a.pc + insnLen a.bits ∧ (coreOf t n).resv = none ∧ (coreOf t n).lines = (coreOf s n).lines ∧
        otherCores n s t ∧ t = { u with cores := t.cores }) ∧
      (∀ l, (coreOf s n).resv = some (pa / 64) → tfind (coreOf s n).lines (pa / 64) = some l → (l.state = .m ∨ l.state = .e) →
        ∃ t, exec (.sc a rd dbl addr v) s = .next t ∧ writesX n rd 0 s t ∧ (coreOf t n).pc = a.pc + insnLen a.bits ∧
        (coreOf t n).resv = none ∧ otherCores n s t ∧ t = { u with cores := t.cores } ∧
        (∀ k, k ≠ pa / 64 → tfind (coreOf t n).lines k = tfind (coreOf s n).lines k) ∧
        ∃ l', tfind (coreOf t n).lines (pa / 64) = some l' ∧ l'.state = .m ∧ l'.poison = l.poison ∧
          ∀ i, i < 64 → l'.data.getD i 0 = if pa % 64 ≤ i ∧ i < pa % 64 + w then BitVec.ofNat 8 (v.toNat / 2 ^ (8 * (i - pa % 64)))
            else l.data.getD i 0)) ∧
    (∀ op (k : Option Nat), ((isTrowel n = true ∧ (tileOf s n).bound = k ∧ ∃ c, k = some c ∧
        translate (waiterOf (.core n) .coreAmo c addr.toNat permRW (bufData n)) (atSite a s) = (.hit pa, u)) ∨
      (isTrowel n = false ∧ k = none ∧ coreTarget n a.mode addr w permRW (bufData n) (atSite a s) = (.pa pa, u))) →
      (coreOf s n).storeBuf = [] → flushing u n (pa / 256) = false →
      (coreOf s n).ntHeld = [] →
      let o := newOp (.core n) .coreAmo k .fetching (gopOfAmo op) false (agentTc n) pa w
        (leBytes w (v.toNat % 2 ^ (8 * w))) [] 0
      (∃ r, opRoute u o = .ok r) → ∃ t, exec (.coreAmo a rd op dbl addr v) s = .next t ∧ keepsX n s t ∧ otherCores n s t ∧
      (∃ i, (coreOf t n).wait = some (.amo rd op dbl pa addr v (some i))) ∧
      ∃ e, e.src = .core n ∧ e.owner = .coreAmo ∧ e.kind = .fetching ∧ e.gop = gopOfAmo op ∧ e.pa = pa ∧ e.len = w ∧
        e.data = o.data ∧ e.ctx = k ∧ t.ops = u.ops ++ [e])

/-- FENCE, FENCE.TSO, FENCE.I (R177, R180, R314, R315). Readings and choices of the model in it: log 47. -/
def Obligations.FencesOfCores : Prop :=
  ∀ (a : Site) (s : State), canRun a s →
    let n := a.core
    (∀ p q : BitVec 4, (p = 0 ∨ q = 0 ∨ p.getLsbD 0 = false) → ∃ t, exec (.fence a p q) s = .next t ∧ retired a s t ∧
      keepsX n s t ∧ otherCores n s t ∧ t = { s with cores := t.cores }) ∧
    (∀ p q : BitVec 4, q ≠ 0 → p.getLsbD 0 = true → (coreOf s n).ntBufs = [] → storesDone s n = true →
      (isTrowel n = true → (tileOf s n).queue = []) → notGating s n → ∃ t, exec (.fence a p q) s = .next t ∧ retired a s t ∧ keepsX n s t ∧
      otherCores n s t ∧ t = { s with cores := t.cores }) ∧
    (∀ (p q : BitVec 4) e es, q ≠ 0 → p.getLsbD 0 = true → (coreOf s n).storeBuf = e :: es → storeReady s n e = false →
      storeLost s e = false → (coreOf s n).ntBufs = [] → (coreOf s n).ntHeld = [] → ∃ t, exec (.fence a p q) s = .next t ∧ (coreOf t n).wait = some (.fence p q) ∧
      (coreOf t n).pc = a.pc ∧ keepsX n s t ∧ (coreOf t n).storeBuf = e :: es) ∧
    (∃ t, exec (.fenceTso a) s = .next t ∧ passed a s t ∧ otherCores n s t ∧ (coreOf t n).ntBufs = [] ∧
      (coreOf t n).storeBuf = (coreOf s n).storeBuf) ∧
    (∃ t, exec (.fenceI a) s = .next t ∧ passed a s t ∧ otherCores n s t ∧
      coreOf t n = { coreOf t n with icache := [], lines := (coreOf s n).lines, storeBuf := (coreOf s n).storeBuf } ∧
      t = { s with cores := t.cores })

/-- CUSTOM_CSR_ACCESS (R181, R182, R326, R327). -/
def Obligations.CustomCsrs : Prop :=
  ∀ (a : Site) (rd : BitVec 5) (v : Word64) (s : State), canRun a s →
    let n := a.core
    let reads (csr : BitVec 12) (r : Word64) : Prop := ∃ t, exec (.customCsrAccess a csr rd none) s = .next t ∧ retired a s t ∧
      otherCores n s t ∧ writesX n rd r s t ∧ t = { s with cores := t.cores }
    let illegal (csr : BitVec 12) (w : Option CsrWrite) : Prop := ∃ t, exec (.customCsrAccess a csr rd w) s = .next t ∧
      trapped a false 2 (a.bits.setWidth 64) s t ∧ otherCores n s t
    (isTrowel n = true →
      reads 0xCC0 (BitVec.ofNat 64 (n / 16 * 2 ^ 8 + n % 16)) ∧ reads 0xCC1 ((coreOf s n).csr.tctx.setWidth 64) ∧
      reads 0xCC2 (coreOf s n).csr.ttsbase ∧
      (∀ w, illegal 0xCC0 (some w) ∧ illegal 0xCC1 (some w) ∧ illegal 0xCC2 (some w)) ∧
      (a.mode = .u → ∀ w, illegal 0x7C0 w) ∧
      (a.mode = .m → ∃ t, exec (.customCsrAccess a 0x7C0 rd (some (.rw v))) s = .next t ∧ otherCores n s t ∧
        writesX n rd (if (coreOf s n).csr.tctl then 1 else 0) s t ∧ (coreOf t n).pc = a.pc + insnLen a.bits ∧
        (coreOf t n).csr = { (coreOf s n).csr with
          tctl := v.getLsbD 0, instret := (coreOf s n).csr.instret + 1 } ∧ t = { s with cores := t.cores })) ∧
    (isControlCore n = true → ∀ k, k < 4 →
      (a.mode = .u → ∀ w, illegal (BitVec.ofNat 12 (0x7C4 + k)) w) ∧
      (a.mode = .m → ∃ t, exec (.customCsrAccess a (BitVec.ofNat 12 (0x7C4 + k)) rd (some (.rw v))) s = .next t ∧
        otherCores n s t ∧ writesX n rd (tget zeroOf (coreOf s n).csr.ntwin k) s t ∧
        (coreOf t n).pc = a.pc + insnLen a.bits ∧
        (∀ j, (tget zeroOf (coreOf t n).csr.ntwin j : Word64) = if j = k then v &&& 0xFFFFFFFFFFFFF03F
          else tget zeroOf (coreOf s n).csr.ntwin j) ∧ t = { s with cores := t.cores }))

/-- EXTERNAL_INTERRUPT and TIMER_INTERRUPT (R176, R180, R211). That the pending bit is clear once taken is the choice of log 26. Readings and choices of the model in it: log 39. -/
def Obligations.InterruptsOfCores : Prop :=
  ∀ (a : Site) (s : State), hasCore s a.core = true → interruptible s a.core = true → (coreOf s a.core).prog = false →
    let n := a.core
    let c := coreOf s n
    let pc0 := if c.wait.isSome then c.pc else a.pc
    let mode0 := if c.wait.isSome then c.mode else a.mode
    let took (cause : Nat) (k : Csrs) (t : State) : Prop :=
      (coreOf t n).csr = { k with
        mepc := pc0, mcause := BitVec.ofNat 64 (2 ^ 63 + cause), mtval := 0, mpie := c.csr.mie, mie := false, mpp := mode0 } ∧
      (coreOf t n).pc = (c.csr.mtvec &&& ~~~3) + (if fieldOf c.csr.mtvec 1 0 = 1 then BitVec.ofNat 64 (4 * cause) else 0) ∧
      (coreOf t n).mode = .m ∧ (coreOf t n).wait = none ∧ (coreOf t n).resv = none ∧ (coreOf t n).ntBufs = [] ∧
      keepsX n s t ∧ otherCores n s t ∧ (coreOf t n).storeBuf = c.storeBuf
    (mode0 = .u ∨ c.csr.mie = true →
      (c.csr.meip = true → c.csr.meie = true → ∃ t, exec (.externalInterrupt a) s = .next t ∧ took 11 { c.csr with meip := false } t) ∧
      (isTrowel n = false → ¬ (c.csr.meip = true ∧ c.csr.meie = true) → c.csr.msip = true → c.csr.msie = true →
        ∃ t, exec (.externalInterrupt a) s = .next t ∧ took 3 { c.csr with msip := false } t) ∧
      (isTrowel n = false → c.csr.mtie = true → ∃ t, exec (.timerInterrupt a) s = .next t ∧ took 7 { c.csr with mtip := false } t)) ∧
    (isTrowel n = false → (c.csr.mtie = false ∨ (mode0 = .m ∧ c.csr.mie = false)) →
      exec (.timerInterrupt a) s = .next (modCore n (fun c => { c with csr := { c.csr with mtip := true } }) s)) ∧
    (isTrowel n = true → exec (.timerInterrupt a) s = .next s)

/-- NT_BUFFER_IDLE_FLUSH (R329, R330), LR_DEFERRAL_EXPIRY (R323), STORE_LATE_FAULT (R343). Readings and choices of the model in it: log 24, 69. -/
def Obligations.BuffersDeferralsLateStores : Prop :=
  (∀ (n line : Nat) (b : NtBuf) (s : State), hasCore s n = true → (coreOf s n).ntBufs.find? (fun b => b.line = line) = some b →
    ∃ t, exec (.ntBufferIdleFlush n line) s = .next t ∧ otherCores n s t ∧ keepsX n s t ∧
      (coreOf t n).ntBufs = (coreOf s n).ntBufs.filter (fun b => b.line ≠ line) ∧
      ((coreOf s n).ntHeld = [] → ntAfter (coreOf s n) b = 0 → flushing s n line = false → (coreOf t n).ntHeld = [] ∧
        (∀ i, i < 4 → tfind (coreOf t n).lines (b.line * 4 + i) = none) ∧
        ∃ o, t.ops = s.ops ++ [o] ∧ o.src = .core n ∧ o.owner = .fence ∧ o.kind = .put ∧ o.pa = b.line * 256 ∧
          o.into = b.bytes.map Prod.fst ∧ o.data = b.bytes.map Prod.snd) ∧
      ((coreOf s n).ntHeld = [] → ntAfter (coreOf s n) b ≠ 0 → (coreOf t n).ntHeld = [{ b with after := (coreOf s n).storeBuf.length }] ∧
        t.ops = s.ops)) ∧
  (∀ (n line : Nat) (kind : Probe) (for_ : ProbeFor) (s : State), hasCore s n = true →
    (coreOf s n).deferred = [(kind, line, for_)] → ∃ t, exec (.lrDeferralExpiry n) s = .next t ∧
      (coreOf t n).deferral = false ∧ (coreOf t n).deferred = [] ∧ otherCores n s t ∧
      t = answerProbe n line kind for_ (modCore n (fun c => { c with deferral := false, deferred := [] }) s)) ∧
  (∀ (a : Site) (e : StoreEntry) (st : RStatus) (s : State), hasCore s a.core = true → (coreOf s a.core).wait = none →
    (coreOf s a.core).prog = false → (coreOf s a.core).held = false → (coreOf s a.core).halted = false → (coreOf s a.core).storeBuf = [e] → isHost e.pa = true → (st = .timeout ∨ st = .hostabsent) →
    (isTrowel a.core = true → (tileOf s a.core).queue = []) → ∃ t,
      exec (.storeLateFault a e.addr st) s = .next t ∧ (coreOf t a.core).storeBuf = [] ∧ otherCores a.core s t ∧
      (coreOf t a.core).csr.mepc = a.pc ∧ (coreOf t a.core).csr.mcause = 7 ∧ (coreOf t a.core).csr.mtval = e.addr ∧
      (coreOf t a.core).mode = .m ∧ (coreOf t a.core).x = (coreOf s a.core).x ∧
      (reg t offLinDropCnt).toNat = min 0xFFFFFFFF ((reg s offLinDropCnt).toNat + 1))

/-- Start of the commands of the tensor unit and the vector unit (R137, R184, R188, R244). Readings and choices of the model in it: log 5, 39, 86, 87, 88. -/
def Obligations.ComputeCommandsStart : Prop :=
  ∀ (n : Nat) (c : Cmd) (s : State), mayStart n c s → ∀ x ∈ computeRows n c.seq,
    (hUnit c.hdr = x.2.1 → hOp c.hdr = x.2.2 → (tileOf s n).ecc = [] → shapeWords c = [] → startReason c = none → ∃ t e,
      exec x.1 s = .next t ∧
      cmdOf (tileOf t n) c.seq = some e ∧ e.started = true ∧ e.startNo = s.ticket ∧ e.hdr = c.hdr ∧ e.opw = c.opw ∧
      e.writes = (computeUnit c.hdr c.opw (cmdTensors c) (tileOf s n)).view.out ∧
      e.flags = (computeUnit c.hdr c.opw (cmdTensors c) (tileOf s n)).view.flags ∧
      (tileOf t n).counters = (tileOf s n).counters ∧ (tileOf t n).flags = (tileOf s n).flags ∧
      t.cores = s.cores ∧ t.mem = s.mem ∧
      ((computeUnit c.hdr c.opw (cmdTensors c) (tileOf s n)).runs = [] → (tileOf t n).store = (tileOf s n).store ∧ e.stage = .ready)) ∧
    (hUnit c.hdr ≠ x.2.1 ∨ hOp c.hdr ≠ x.2.2 → exec x.1 s = .next s)

/-- Start of the commands of the tile mover (R188, R293). Readings and choices of the model in it: log 22, 39, 80, 81. -/
def Obligations.MoverCommandsStart : Prop :=
  ∀ (n : Nat) (c : Cmd) (s : State), mayStart n c s → ∀ x ∈ moverRows n c.seq,
    (hUnit c.hdr = x.2.1 → hOp c.hdr = x.2.2 → shapeWords c = [] → startReason c = none → ∃ t e, exec x.1 s = .next t ∧
      cmdOf (tileOf t n) c.seq = some e ∧ e.started = true ∧ e.startNo = s.ticket ∧ e.hdr = c.hdr ∧ e.opw = c.opw ∧
      e.stage ≠ .shapes ∧ (tileOf t n).counters = (tileOf s n).counters ∧ (tileOf t n).flags = (tileOf s n).flags ∧
      (tileOf t n).errLog = (tileOf s n).errLog ∧ t.cores = s.cores ∧
      (x.2.2 = 0x01 → (tileOf s n).ecc = [] → (slotD (cmdTensors c) sD0).space = 1 → (slotD (cmdTensors c) sS0).space = 1 →
        let r := moverWrites (tileOf s n) c (cmdTensors c) (movesOf (tileOf s n) c (cmdTensors c)).1
        r.2.2 = false → e.writes = r.1.out ∧ e.flags = r.1.flags ∧ e.stage = .ready ∧ e.reason = none ∧ (tileOf t n).store = (tileOf s n).store)) ∧
    (hUnit c.hdr ≠ x.2.1 ∨ hOp c.hdr ≠ x.2.2 → exec x.1 s = .next s)

/-- COMMAND_COMPLETE (R73, R191, R195, R197, R198). -/
def Obligations.CommandCompletion : Prop :=
  ∀ (n : Nat) (c : Cmd) (s : State), hasTile s n = true → courseRuns s (n / 16) = true → (coreOf s n).wait = none →
    cmdOf (tileOf s n) c.seq = some c → c.started = true → c.stage = .ready → cmdOps s n c.seq = [] →
    ∃ t, exec (.commandComplete n c.seq) s = .next t ∧
      (tileOf t n).queue.map (fun e => e.seq) = ((tileOf s n).queue.map fun e => e.seq).filter (fun q => q ≠ c.seq) ∧
      (∀ k, (tget zeroOf (tileOf t n).counters k : Word64) =
        let v : Word64 := tget zeroOf (tileOf s n).counters k
        if hCntEn c.hdr = true ∧ k = hCnt c.hdr then
          BitVec.ofNat 64 ((v.toNat + 1) % 2 ^ 63 + if v.getLsbD 63 || c.reason.isSome then 2 ^ 63 else 0)
        else v) ∧
      (tileOf t n).flags = (tileOf s n).flags ||| (c.flags &&& 0x7F) ∧ keepsX n s t ∧
      (∀ r, c.reason = some r → (tileOf s n).errLog.length < 8 →
        (tileOf t n).errLog = (tileOf s n).errLog ++ [⟨r, hUnit c.hdr, c.seq % 2 ^ 16⟩]) ∧
      (c.reason = none → (tileOf t n).errLog = (tileOf s n).errLog) ∧
      ((tileOf s n).queue = [c] → (c.reason = none ∨ farBytes c = []) → otherTiles n s t ∧ otherCores n s t ∧
        (c.reason = none → ∀ a, readByte (tileOf t n).store a = (tfind c.writes.reverse a).getD (readByte (tileOf s n).store a)) ∧
        (c.reason ≠ none → ∀ a, (∀ p ∈ destBytes c, p.1 ≠ a) → readByte (tileOf t n).store a = readByte (tileOf s n).store a))

/-- NEG, ABS, COPYSIGN (R95), SEL (R143), CMP (R141) and CLASS (R142) on every code of their formats. -/
def Obligations.ElementOperations : Prop :=
  ∀ f ∈ [fmtFB16, fmtB16, fmtB32, fmtB64], ∀ a b m rm u pred : Nat, a < 2 ^ fmtWidth f → b < 2 ^ fmtWidth f → m < 2 ^ fmtWidth f →
    let sb := 2 ^ (fmtWidth f - 1)
    vecCode fnNEG f rm u pred [f] [a] = (if a < sb then a + sb else a - sb, 0) ∧
    vecCode fnABS f rm u pred [f] [a] = (if a < sb then a else a - sb, 0) ∧
    vecCode fnCOPYSIGN f rm u pred [f, f] [a, b] = ((if a < sb then a else a - sb) + (if b < sb then 0 else sb), 0) ∧
    vecCode fnSEL f rm u pred [f, f, f] [a, b, m] =
      (if (decodeFloat f m).isZero || (decodeFloat f m).isNan then b else a, 0) ∧
    (vecCode fnCMP f rm u pred [f, f] [a, b]).1 =
      (if (cmpPred pred (decodeFloat f a) (decodeFloat f b)).1 then (encodeFloat f rmRNE 0 one).1 else 0) ∧
    ∃ k ≤ 9, vecCode fnCLASS f rm u pred [f] [a] = ((encodeFloat f rmRNE 0 (.fin false k 0)).1, 0) ∧
      (match decodeFloat f a with
       | .nan _ sig _ => k = if sig then 0 else 1
       | .inf neg => k = if neg then 2 else 9
       | .fin neg mant _ => k = if mant = 0 then (if neg then 5 else 6)
           else if a % sb < 2 ^ fmtM f then (if neg then 4 else 7) else (if neg then 3 else 8))

/-- Decoding and encoding of the float formats agree (R55, R77). -/
def Obligations.FloatCodesRoundTrip : Prop :=
  ∀ f a rm u : Nat, rm ≤ 4 → a < 2 ^ fmtWidth f → (decodeFloat f a).isNan = false →
    (f ∈ [fmtFB8r, fmtFB16, fmtB16, fmtB32, fmtB64] ∨
      (f ∈ [fmtFB4, fmtFB6, fmtFB8e] ∧ a ≠ 2 ^ (fmtWidth f - 1))) →
    encodeFloat f rm u (decodeFloat f a) = (a, 0)

/-- The exact sum is free of order and of cuts (R112). -/
def Obligations.ExactSumOrderFree : Prop :=
  (∀ l l' : List (FVal × FVal), l.Perm l' → sumOf l = sumOf l' ∧
    ∀ f rm u, (sumOf l).round f rm u = (sumOf l').round f rm u) ∧
  (∀ l l' : List (FVal × FVal), (sumOf l).join (sumOf l') = (sumOf (l ++ l')).lim)

/-- Exact-state records (R113 to R115, R124). -/
def Obligations.ExactRecordRoundTrip : Prop :=
  (∀ t : Acc, -(2 ^ 639) ≤ t.a → t.a < 2 ^ 639 → t.count < 2 ^ 41 →
    t.bytes.length = 96 ∧ t.bytes.getD 0 0 = 1 ∧ t.bytes.getD 1 0 = 1 ∧ readRecord t.bytes = some t.lim) ∧
  (∀ b : List Byte, b.length = 96 → (b.getD 0 0 ≠ 1 ∨ b.getD 1 0 ≠ 1) → readRecord b = none)

/-- Status bits of a term (R105). -/
def Obligations.TermStatusBits : Prop :=
  ∀ (t : Acc) (x y : FVal),
    (t.term x y).count = min (2 ^ 41 - 1) (t.count + 1) ∧
    ((x.isSig || y.isSig) = true → (t.term x y).status = t.status ||| 0b11 ∧ (t.term x y).a = t.a) ∧
    ((x.isSig || y.isSig) = false → (x.isNan || y.isNan) = true → (t.term x y).status = t.status ||| 0b1 ∧ (t.term x y).a = t.a) ∧
    ((x.isNan || y.isNan) = false → ((x.isInf && y.isZero) || (x.isZero && y.isInf)) = true →
      (t.term x y).status = t.status ||| 0b10000 ∧ (t.term x y).a = t.a) ∧
    ((x.isNan || y.isNan) = false → (x.isInf || y.isInf) = true → (x.isZero || y.isZero) = false →
      (t.term x y).status = t.status ||| (if x.sign = y.sign then 0b100 else 0b1000) ∧ (t.term x y).a = t.a) ∧
    (x.isFin = true → y.isFin = true → (t.term x y).status = t.status)

/-- The requests of R365 at a quiet home. Readings and choices of the model in it: log 6. -/
def Obligations.RequestsAtHomes : Prop :=
  ∀ (s : State), quietHomes s →
    (∀ (n pa : Nat) (tc : BitVec 2) (id : OpId), hasAgent s n = true → restsInGrout s (pa / 64) → filterRoom s (pa / 64) = .ready →
      ∀ i ∈ [Instr.shareRd n pa ⟨tc, id⟩, Instr.ownRd n pa ⟨tc, id⟩], ∃ t, exec i s = .next t ∧
      t.sent = s.sent ++ [.data n (pa / 64 * 64) false (heldBytes s (pa / 64 * 64) 64) false tc id, .completion n (pa / 64 * 64) .e false tc id] ∧
      ownerOf t (pa / 64) = some n ∧ (∀ l, l ≠ pa / 64 → filterOf t l = filterOf s l) ∧
      (∀ p, sectorOf t p = sectorOf s p) ∧ t = { s with home := t.home, sent := t.sent, mortar := t.mortar }) ∧
    (∀ (n b pa way age : Nat) (tc : BitVec 2) (id : OpId), hasAgent s n = true → cacheable s pa = true → isHost pa = false → b ≠ n →
      filterOf s (pa / 64) = some ⟨way, .excl, b, 0, age⟩ → tfind s.home.hdm (pa / 64) = none →
      (groutOf s pa).isSome = true → checkedLine s (pa / 64) →
      freePath s .probe tc (1024 + sliceOf s (pa / 64 * 64)) [if b < 192 then outDown (b / 16) else outBridgeDown, outAgent b] →
      ∀ x ∈ [(Instr.shareRd n pa ⟨tc, id⟩, Probe.share), (Instr.ownRd n pa ⟨tc, id⟩, Probe.take)], ∃ t u, exec x.1 s = .next t ∧
      t.sent = s.sent ++ [.probe b (pa / 64 * 64) x.2 (.agent n id tc)] ∧ txnOf t (pa / 64) = some u ∧ u.probing = [b] ∧
      t = { s with home := t.home, sent := t.sent, mortar := t.mortar }) ∧
    (∀ (op : HomeOp) (len : Nat), restsInGrout s (op.pa / 64) → 0 < len → op.pa % 64 + len ≤ 64 →
      ∃ t, exec (.peekRd op len) s = .next t ∧
      t.sent = s.sent ++ [.response op.src op.env.tc ⟨op.id, .ok, heldBytes s op.pa len, 0⟩] ∧
      (∀ p, sectorOf t p = sectorOf s p) ∧ t = { s with home := t.home, sent := t.sent, mortar := t.mortar }) ∧
    (∀ op : HomeOp, restsInGrout s (op.pa / 64) → op.data ≠ [] → op.pa % 64 + op.data.length ≤ 64 → op.poison = 0 →
      ∃ t c, exec (.pushWr op) s = .next t ∧ t.sent = s.sent ++ [.response op.src op.env.tc ⟨op.id, .ok, [], 0⟩] ∧
      sectorOf t (op.pa / 64 * 64) = some c ∧ c.d = true ∧ c.p = false ∧
      (∀ i, i < 64 → c.data.getD i 0 =
        if op.pa % 64 ≤ i ∧ i < op.pa % 64 + op.data.length ∧ op.en.getD (i - op.pa % 64) false = true
        then op.data.getD (i - op.pa % 64) 0 else (heldBytes s (op.pa / 64 * 64) 64).getD i 0) ∧
      (∀ p, p / 64 ≠ op.pa / 64 → sectorOf t p = sectorOf s p) ∧ t = { s with home := t.home, sent := t.sent, mortar := t.mortar }) ∧
    (∀ (n pa : Nat) (d : List Byte) (p : Bool) (tc : BitVec 2) (id : OpId), hasAgent s n = true → cacheable s pa = true →
      isHost pa = false → checkedLine s (pa / 64) →
      (ownerOf s (pa / 64) = some n → (groutOf s pa).isSome = true → ∃ t, exec (.dirtyEv n pa ⟨d, p⟩ ⟨tc, id⟩) s = .next t ∧
        t.sent = s.sent ++ [.wbAck n (pa / 64 * 64) tc id] ∧ sectorOf t (pa / 64 * 64) = some ⟨true, true, p, .i, d⟩ ∧
        ownerOf t (pa / 64) = none ∧ t = { s with home := t.home, sent := t.sent, mortar := t.mortar }) ∧
      (ownerOf s (pa / 64) ≠ some n → ∃ t, exec (.dirtyEv n pa ⟨d, p⟩ ⟨tc, id⟩) s = .next t ∧
        t.sent = s.sent ++ [.wbAck n (pa / 64 * 64) tc id] ∧ (∀ q, sectorOf t q = sectorOf s q) ∧
        reports (unitSlice (sliceOf s pa)) 0x10 s t ∧ t = { s with home := t.home, sent := t.sent, mortar := t.mortar, flt := t.flt }))

/-- The atomics of R406 at their home (R406, R409 to R411). Readings and choices of the model in it: log 81. -/
def Obligations.AtomicsAtHomes : Prop :=
  ∀ (s : State) (a : Atomic), quietHomes s → placeOf s a.pa = .dev a.pa → ∀ x ∈ atomicRows,
    (atomicRefused x.2 a = true → ∃ t, exec (x.1 a) s = .next t ∧ t = { s with sent := t.sent, mortar := t.mortar } ∧
      t.sent = s.sent ++ [.response a.src a.env.tc ⟨a.id, .refused, [], 0⟩]) ∧
    (atomicRefused x.2 a = false → (∀ l ∈ atomicLines a, restsInGrout s l) →
      let old := heldBytes s a.pa a.size
      let inside (p : Nat) : Prop := a.pa / 64 ≤ p / 64 ∧ p / 64 ≤ (a.pa + a.size - 1) / 64
      (∀ new, a.poison = 0 → gopBytes x.2 old a.operand a.comparand = some new → ∃ t, exec (x.1 a) s = .next t ∧
        t.sent = s.sent ++ [.response a.src a.env.tc ⟨a.id, .ok, if a.fetching then old else [], 0⟩] ∧
        heldBytes t a.pa a.size = new ∧ (∀ p, a.pa ≤ p → p < a.pa + a.size → heldPoison t p = false) ∧
        (∀ p, p + 1 ≤ a.pa ∨ a.pa + a.size ≤ p → heldBytes t p 1 = heldBytes s p 1) ∧
        (∀ p, ¬ inside p → sectorOf t p = sectorOf s p) ∧ t = { s with home := t.home, sent := t.sent, mortar := t.mortar }) ∧
      (a.poison ≠ 0 → ∃ t, exec (x.1 a) s = .next t ∧
        t.sent = s.sent ++ [.response a.src a.env.tc ⟨a.id, .poison, [], allMarks a.pa a.size true⟩] ∧
        (∀ p, heldBytes t p 1 = heldBytes s p 1) ∧ (∀ p, inside p → heldPoison t p = true) ∧
        (∀ p, ¬ inside p → sectorOf t p = sectorOf s p) ∧ t = { s with home := t.home, sent := t.sent, mortar := t.mortar })) ∧
    (atomicRefused x.2 a = false → (∀ l ∈ atomicLines a, standsInGrout s l) → (∃ l ∈ atomicLines a, heldPoison s (l * 64) = true) →
      ∃ t, exec (x.1 a) s = .next t ∧ t.sent = s.sent ++ [.response a.src a.env.tc ⟨a.id, .poison, [], allMarks a.pa a.size true⟩] ∧
      (∀ p, heldBytes t p 1 = heldBytes s p 1) ∧ (x.2 ≠ 0x30 → ∀ p, sectorOf t p = sectorOf s p) ∧
      (x.2 = 0x30 → ∀ l ∈ atomicLines a, heldPoison t (l * 64) = true) ∧ t = { s with home := t.home, sent := t.sent, mortar := t.mortar })

/-- Values of the atomics (R406 to R408). -/
def Obligations.AtomicValues : Prop :=
  ∀ n ∈ [4, 8, 16], ∀ o a m : Nat, o < 2 ^ (8 * n) → a < 2 ^ (8 * n) → m < 2 ^ (8 * n) →
    gopValue 0x01 n o a m = (o + a) % 2 ^ (8 * n) ∧ gopValue 0x02 n o a m = o &&& a ∧ gopValue 0x03 n o a m = o ||| a ∧
    gopValue 0x04 n o a m = o ^^^ a ∧ gopValue 0x07 n o a m = min o a ∧ gopValue 0x08 n o a m = max o a ∧
    gopValue 0x09 n o a m = a ∧ gopValue 0x0A n o a m = (if o = m then a else o) ∧
    (gopValue 0x05 n o a m = if (BitVec.ofNat (8 * n) a).slt (BitVec.ofNat (8 * n) o) then a else o) ∧
    (gopValue 0x06 n o a m = if (BitVec.ofNat (8 * n) o).slt (BitVec.ofNat (8 * n) a) then a else o) ∧
    gopValue 0x10 4 o a m = (finish fmtB32 rmRNE 0 (addVal rmRNE (decodeFloat fmtB32 o) (decodeFloat fmtB32 a))).1 ∧
    gopValue 0x11 8 o a m = (finish fmtB64 rmRNE 0 (addVal rmRNE (decodeFloat fmtB64 o) (decodeFloat fmtB64 a))).1 ∧
    (n = 8 → gopValue 0x20 8 o a m % 2 ^ 63 = max (o % 2 ^ 63) (a % 2 ^ 63) ∧
      (2 ^ 63 ≤ gopValue 0x20 8 o a m ↔ 2 ^ 63 ≤ o ∨ 2 ^ 63 ≤ a))

/-- Remote operations and their identifiers (R286, R339, R360, R384, R385). Readings and choices of the model in it: log 7, 16, 39. -/
def Obligations.RemoteOperationsEnd : Prop :=
  (∀ (s : State) (n : Nat) (o : RemoteOp) (rd : BitVec 5) (op : AmoOp) (dbl : Bool) (addr v : Word64) (i : OpId),
    nothingWaits s → s.ops = [o] → o.src = .core n → o.owner = .coreAmo → o.kind = .fetching →
    (coreOf s n).wait = some (.amo rd op dbl o.pa addr v (some i)) → (coreOf s n).storeBuf = [] → (coreOf s n).ntBufs = [] →
    (coreOf s n).ntHeld = [] → (coreOf s n).prog = false → notGating s n → (coreOf s n).deferred = [] → (isTrowel n = true → (tileOf s n).queue = []) →
    let freed (q : Bool) (t : State) : Prop := identOf t o.id.path o.id.unit o.id.index =
      { gen := ((identOf s o.id.path o.id.unit o.id.index).gen + 1) % pathGens o.id.path, busy := false, quarantined := q }
    let faulted (t : State) : Prop := (coreOf t n).csr.mepc = (coreOf s n).pc ∧ (coreOf t n).csr.mcause = 7 ∧
      (coreOf t n).csr.mtval = addr ∧ (coreOf t n).mode = .m ∧ (coreOf t n).wait = none ∧ keepsX n s t ∧ t.ops = []
    (∀ d, idCurrent s o.id = true → d.length = (if dbl then 8 else 4) → ∃ t,
      exec (.remoteResponse ⟨o.id, .ok, d, 0⟩) s = .next t ∧ writesX n rd (loadedValue (if dbl then 8 else 4) true d) s t ∧
      (coreOf t n).pc = (coreOf s n).npc ∧ (coreOf t n).wait = none ∧ otherCores n s t ∧ t.ops = [] ∧ freed false t ∧
      t = { s with cores := t.cores, ops := [], idents := t.idents }) ∧
    (o.id.path = pathBond → ∃ t, exec (.remoteTimeout o.id) s = .next t ∧ faulted t ∧ otherCores n s t ∧ freed true t) ∧
    (o.id.path = pathHost → o.id.unit = 0 → idCurrent s o.id = true → isHost o.pa = true → ∃ t, exec (.lintelCompletionTimeout o.id) s = .next t ∧
      faulted t ∧ otherCores n s t ∧ freed true t ∧
      (reg t offLinDropCnt).toNat = min 0xFFFFFFFF ((reg s offLinDropCnt).toNat + 1)) ∧
    (∀ r : Response, idCurrent s r.id = false → ∃ t, exec (.remoteResponse r) s = .next t ∧
      (reg t (0x800200 + 4 * r.id.path)).toNat = min 0xFFFFFFFF ((reg s (0x800200 + 4 * r.id.path)).toNat + 1) ∧
      identOf t r.id.path r.id.unit r.id.index = { identOf s r.id.path r.id.unit r.id.index with quarantined := false } ∧
      t = { s with regs := t.regs, idents := t.idents })) ∧
  (∀ (s : State) (k : Nat) (p : Packet), s.mortar.waiting[k]? = some p →
    (p.tc = 0 → exec (.arbiterAgeExpiry k) s = .next s) ∧
    (p.tc ≠ 0 → (∀ q ∈ s.mortar.waiting, hasCredit s q = false) → hasCredit s { p with aged := true } = false →
      exec (.arbiterAgeExpiry k) s =
        .next { s with mortar := { s.mortar with waiting := s.mortar.waiting.set k { p with aged := true } } })) ∧
  (∀ (s : State) (o : Nat),
    let ready := s.mortar.waiting.filter fun p => p.outs.head? == some o && hasCredit s p
    ((∃ p ∈ ready, arbClass (arbOf s o) p = 0) → ∀ q a, pickAt s o = some (q, a) → q ∈ ready ∧ arbClass (arbOf s o) q = 0) ∧
    ((∀ p ∈ ready, arbClass (arbOf s o) p ≠ 0) → ∀ p, (ready.find? fun p => p.aged) = some p →
      pickAt s o = some (p, arbOf s o))) ∧
  (∀ (s : State) (p u i : Nat), nothingWaits s → (identOf s p u i).quarantined = true →
    ∃ t, exec (.identifierQuarantineEnd p u i) s = .next t ∧
      identOf t p u i = { identOf s p u i with quarantined := false } ∧
      (∀ k, k ≠ identKey p u i → tget identDefault t.idents k = tget identDefault s.idents k) ∧
      t = { s with idents := t.idents })

/-- PRB_SHARE, PRB_TAKE, PRB_KILL, PRB_PEEK at a core (R323, R366). -/
def Obligations.AnswersToProbes : Prop :=
  ∀ (s : State) (n pa : Nat) (f : ProbeFor), hasCore s n = true → s.mortar.waiting = [] →
    let line := pa / 64
    let at_ := line * 64
    let supply (dirty : Bool) (l : CLine) : List Msg := match f with
      | .agent m id tc => [.data m at_ dirty l.data l.poison tc id, .answer n at_ .forwarded dirty [] l.poison tc]
      | .home tc => [.answer n at_ .toHome dirty l.data l.poison tc]
    let plain (a : Answer) : List Msg := [.answer n at_ a false [] false (probeTc f)]
    let gives (i : Instr) (msgs : List Msg) (after : Option CLine) : Prop := ∃ t, exec i s = .next t ∧ t.sent = s.sent ++ msgs ∧
      tfind (coreOf t n).lines line = after ∧ (∀ k, k ≠ line → tfind (coreOf t n).lines k = tfind (coreOf s n).lines k) ∧
      keepsX n s t ∧ otherCores n s t ∧ t = { s with cores := t.cores, sent := t.sent, mortar := t.mortar }
    ((coreOf s n).deferral = false → tfind (coreOf s n).wb line = none →
      (∀ l, tfind (coreOf s n).lines line = some l → l.state ≠ .i →
        let dirty : Bool := l.state = .m || l.state = .o
        gives (.prbShare n pa f) (if dirty then supply true l else if l.state = .e then supply false l else plain .clean)
          (some { l with state := if dirty then .o else .s }) ∧
        gives (.prbTake n pa f) (if dirty then supply true l else if l.state = .e then supply false l else plain .clean) none ∧
        gives (.prbKill n pa f) (plain .clean) none ∧
        gives (.prbPeek n pa f) (if dirty then [.answer n at_ .toHome true l.data l.poison (probeTc f)] else plain .clean) (some l)) ∧
      (tfind (coreOf s n).lines line = none → ∀ i ∈ [Instr.prbShare n pa f, .prbTake n pa f, .prbKill n pa f, .prbPeek n pa f],
        gives i (plain .miss) none)) ∧
    ((coreOf s n).deferral = false → (tfind (coreOf s n).wb line).isSome = true →
      ∀ i ∈ [Instr.prbShare n pa f, .prbTake n pa f, .prbKill n pa f, .prbPeek n pa f],
      gives i (plain .evicting) (tfind (coreOf s n).lines line)) ∧
    ((coreOf s n).deferral = true → (coreOf s n).resv = some line →
      ∀ x ∈ [(Instr.prbTake n pa f, Probe.take), (Instr.prbKill n pa f, Probe.kill)], ∃ t, exec x.1 s = .next t ∧
      t.sent = s.sent ∧ (coreOf t n).lines = (coreOf s n).lines ∧
      (coreOf t n).deferred = (coreOf s n).deferred ++ [(x.2, line, f)] ∧ otherCores n s t)

/-- PROBE_ANSWER, FORWARDED_DATA, REQUEST_COMPLETION, COMPLETION_ACK, WRITEBACK_ACK (R364, R369, R371, R372). Readings and choices of the model in it: log 25. -/
def Obligations.AnswersFillsAndAcknowledgements : Prop :=
  (∀ (s : State) (a b pa : Nat) (t0 : Txn) (dirty p : Bool) (d : List Byte), hasAgent s a = true → a ≠ b →
    s.home.txns = [(pa / 64, t0)] → s.home.input = [] → s.home.lineQ = [] → s.home.retryQ = [] → t0.probing = [a, b] → t0.evicting = [] → t0.came = [] →
    (∀ ans, ans ≠ .evicting → ∃ t, exec (.probeAnswer a pa ans dirty d p) s = .next t ∧
      txnOf t (pa / 64) = some { t0 with probing := [b], supplied := match ans with
        | .forwarded => some ([], dirty, p)
        | .toHome => some (d, dirty, p)
        | _ => t0.supplied } ∧ t = { s with home := t.home }) ∧
    (∃ t, exec (.probeAnswer a pa .evicting dirty d p) s = .next t ∧
      txnOf t (pa / 64) = some { t0 with probing := [b], evicting := [a] } ∧ t = { s with home := t.home })) ∧
  (∀ (s : State) (n pa : Nat) (g : LState) (own fo dirty p : Bool) (tc : BitVec 2) (id : OpId) (d : List Byte), hasCore s n = true →
    nothingWaits s → idCurrent s id = true → (coreOf s n).ntHeld = [] → notGating s n → (coreOf s n).wait = none → (coreOf s n).storeBuf = [] → (isTrowel n = true → (tileOf s n).queue = []) →
    tfind (coreOf s n).lines (pa / 64) = none → (coreOf s n).lines.length < l1Lines n →
    let done (t : State) : Prop := tfind (coreOf t n).lines (pa / 64) = some ⟨g, d, p⟩ ∧
      (∀ k, k ≠ pa / 64 → tfind (coreOf t n).lines k = tfind (coreOf s n).lines k) ∧
      tfind (coreOf t n).fills (pa / 64) = none ∧ t.sent = s.sent ++ [.ack n (pa / 64 * 64) tc] ∧ keepsX n s t ∧
      idCurrent t id = false ∧ otherCores n s t ∧ t = { s with cores := t.cores, sent := t.sent, idents := t.idents }
    (g ≠ .i → tfind (coreOf s n).fills (pa / 64) = some ⟨own, tc, some id, some g, none⟩ → ∃ t,
      exec (.forwardedData n pa dirty ⟨d, p⟩ id) s = .next t ∧ done t) ∧
    (g ≠ .i → tfind (coreOf s n).fills (pa / 64) = some ⟨own, tc, some id, none, some (d, dirty, p)⟩ → ∃ t,
      exec (.requestCompletion n pa ⟨g, fo, id⟩) s = .next t ∧ done t) ∧
    (∀ x, tfind (coreOf s n).fills (pa / 64) = some ⟨own, tc, some id, none, x⟩ → ∃ t,
      exec (.requestCompletion n pa ⟨.i, fo, id⟩) s = .next t ∧ t.sent = s.sent ∧ (coreOf t n).lines = (coreOf s n).lines ∧
      tfind (coreOf t n).fills (pa / 64) = none ∧ keepsX n s t) ∧
    (g ≠ .i → tfind (coreOf s n).fills (pa / 64) = some ⟨own, tc, some id, none, none⟩ →
      (∃ t, exec (.forwardedData n pa dirty ⟨d, p⟩ id) s = .next t ∧ t.sent = s.sent ∧ (coreOf t n).lines = (coreOf s n).lines ∧
        tfind (coreOf t n).fills (pa / 64) = some ⟨own, tc, some id, none, some (d, dirty, p)⟩) ∧
      (∃ t, exec (.requestCompletion n pa ⟨g, fo, id⟩) s = .next t ∧ t.sent = s.sent ∧ (coreOf t n).lines = (coreOf s n).lines ∧
        tfind (coreOf t n).fills (pa / 64) = some ⟨own, tc, some id, some g, none⟩))) ∧
  (∀ (s : State) (n pa : Nat) (t0 : Txn), hasAgent s n = true → s.home.txns = [(pa / 64, t0)] → s.home.input = [] → s.home.lineQ = [] →
    s.home.retryQ = [] → t0.granted = true → requesterOf t0.req = some n →
    exec (.completionAck n pa) s = .next { s with home := { s.home with txns := [] } }) ∧
  (∀ (s : State) (n pa : Nat) (id : OpId) (w : WriteBack), hasCore s n = true → nothingWaits s → idCurrent s id = true →
    tfind (coreOf s n).wb (pa / 64) = some w → w.id = some id → (coreOf s n).wait = none → (coreOf s n).storeBuf = [] →
    (coreOf s n).ntHeld = [] → notGating s n → (isTrowel n = true → (tileOf s n).queue = []) → ∃ t,
    exec (.writebackAck n ⟨id, pa⟩) s = .next t ∧ idCurrent t id = false ∧
    tfind (coreOf t n).wb (pa / 64) = none ∧ (∀ k, k ≠ pa / 64 → tfind (coreOf t n).wb k = tfind (coreOf s n).wb k) ∧
    (coreOf t n).lines = (coreOf s n).lines ∧ keepsX n s t ∧ otherCores n s t ∧ t = { s with cores := t.cores, idents := t.idents })

/-- Host snoops and host data (R379, R486, R487, R490). Readings and choices of the model in it: log 39. -/
def Obligations.HostSnoops : Prop :=
  ∀ (s : State) (hpa : Nat), hpa < 2 ^ 56 →
    let line := hostKey hpa / 64
    let pa := line * 64
    let at_ := hpa / 64 * 64
    let snoops := [(Instr.hostSnpInv hpa, Probe.take), (Instr.hostSnpData hpa, Probe.share), (Instr.hostSnpCur hpa, Probe.peek)]
    (homeHolds s line = false → watchOf s (hpa / 64) = none → ∀ x ∈ snoops,
      exec x.1 s = .next { s with sent := s.sent ++ [.snoopRsp at_ .i none false] }) ∧
    (∀ w, homeHolds s line = false → watchOf s (hpa / 64) = some w →
      (∀ i ∈ [Instr.hostSnpData hpa, Instr.hostSnpCur hpa],
        exec i s = .next { s with sent := s.sent ++ [.snoopRsp at_ .s none false] }) ∧
      (∀ id v, w.rereading = none → s.link.rereadQ = [] → rereads s < 64 → s.link.hostAbsent = false → takeId pathHost 0 s = some (id, v) →
        ∃ t, exec (.hostSnpInv hpa) s = .next t ∧ t.sent = s.sent ++ [.reread at_ 0 id, .snoopRsp at_ .i none false] ∧
        watchOf t (hpa / 64) = some { w with inS := false, rereading := some id } ∧ idCurrent t id = true ∧
        (∀ l, l ≠ hpa / 64 → watchOf t l = watchOf s l) ∧ t = { s with watches := t.watches, sent := t.sent, idents := t.idents }) ∧
      (w.rereading.isSome = true → ∃ t, exec (.hostSnpInv hpa) s = .next t ∧ t.sent = s.sent ++ [.snoopRsp at_ .i none false] ∧
        watchOf t (hpa / 64) = some { w with inS := false, again := true } ∧
        (∀ l, l ≠ hpa / 64 → watchOf t l = watchOf s l) ∧ t = { s with watches := t.watches, sent := t.sent })) ∧
    (∀ c, quietHomes s → checkedLine s line → s.link.hostAbsent = false → watchOf s (hpa / 64) = none → filterOf s line = none →
      sectorOf s pa = some c → c.d = true → c.data.length = 64 → ∀ x ∈ snoops, ∃ t, exec x.1 s = .next t ∧
      t.sent = s.sent ++ [.snoopRsp at_ (match x.2 with | .take => .i | .share => .s | _ => c.h) (some c.data) c.p] ∧
      sectorOf t pa = (match x.2 with | .take => none | .share => some { c with d := false, h := .s } | _ => some c) ∧
      (∀ p, p / 64 ≠ line → sectorOf t p = sectorOf s p) ∧
      (∀ a, readByte t.mem.host a = if at_ ≤ a ∧ a < at_ + 64 then c.data.getD (a - at_) 0 else readByte s.mem.host a) ∧
      tget noB t.mem.hostBad (hpa / 64) = c.p ∧
      t = { s with home := t.home, sent := t.sent, mem := { s.mem with host := t.mem.host, hostBad := t.mem.hostBad } }) ∧
    (∀ id st d p, nothingWaits s →
      (idCurrent s id = false → exec (.hostCacheResponse ⟨id, hpa⟩ st d p) s = .next (dropStale id s)) ∧
      (idCurrent s id = true → (s.link.hostAbsent = true ∨ txnOf s line = none ∨ ∃ t0, txnOf s line = some t0 ∧ t0.hostWait ≠ some id) →
        exec (.hostCacheResponse ⟨id, hpa⟩ st d p) s = .next s)) ∧
    (∀ (a : Nat) (tc : BitVec 2) (ask id : OpId) (d : List Byte) (p : Bool), ∀ st ∈ [HState.s, HState.e], d.length = 64 →
      nothingWaits s → idCurrent s id = true → s.sec.held = [] →
      s.home.txns = [(line, { newTxn (.share a tc ask) with hostWait := some id })] → s.home.input = [] → s.home.lineQ = [] → s.home.retryQ = [] →
      s.clk.plinthOut = true → s.link.hostAbsent = false → filterOf s line = none → (groutOf s pa).isSome = true →
      sectorOf s pa = none → ∃ t u, exec (.hostCacheResponse ⟨id, hpa⟩ st d p) s = .next t ∧ idCurrent t id = false ∧
      t.sent = s.sent ++ [.data a pa false d p tc ask, .completion a pa (if st = .e then .e else .s) false tc ask] ∧
      sectorOf t pa = some ⟨true, false, p, st, d⟩ ∧ (∀ q, q / 64 ≠ line → sectorOf t q = sectorOf s q) ∧
      txnOf t line = some u ∧ u.granted = true ∧ (st = .e → ownerOf t line = some a))

/-- Requests of the host to own device memory, and back-invalidates (R271, R380, R381). Readings and choices of the model in it: log 39, 73, 79. -/
def Obligations.HostMemoryRequests : Prop :=
  (∀ (s : State) (tag hpa : Nat) (x : MemSnp) (k : MemState) (p : Bool) (d : List Byte) (en : List Bool), hostMayReach s hpa = false →
    exec (.memRd tag hpa x) s = .next { s with sent := s.sent ++ [.memData tag (zeroBytes 64) true] } ∧
    ∃ t, exec (.memWr tag hpa ⟨d, p⟩ en k) s = .next t ∧ t.sent = s.sent ++ [.memDone tag] ∧
      writesReg offLinDropCnt (BitVec.ofNat 32 (min 0xFFFFFFFF ((reg s offLinDropCnt).toNat + 1))) s t ∧
      t = { s with regs := t.regs, sent := t.sent }) ∧
  (∀ (s : State) (tag hpa : Nat) (x : MemSnp) (k : MemState) (p : Bool) (d : List Byte) (en : List Bool), hostMayReach s hpa = true → quietHomes s →
    let off := hostOffset s hpa
    let line := off / 64
    hostPathFree s line → restsInGrout s line → admits s .host (line * 64) = false →
    (∃ t, exec (.memRd tag hpa x) s = .next t ∧ t.sent = s.sent ++ [.memData tag (zeroBytes 64) true] ∧
      (∀ q, sectorOf t q = sectorOf s q) ∧ t = { s with home := t.home, sent := t.sent, mortar := t.mortar }) ∧
    ∃ t, exec (.memWr tag hpa ⟨d, p⟩ en k) s = .next t ∧ t.sent = s.sent ++ [.memDone tag] ∧
      (∀ q, sectorOf t q = sectorOf s q) ∧ t = { s with regs := t.regs, home := t.home, sent := t.sent, mortar := t.mortar }) ∧
  (∀ (s : State) (tag hpa : Nat) (k : MemState) (p : Bool) (d : List Byte) (en : List Bool), hostMayReach s hpa = true → quietHomes s →
    let off := hostOffset s hpa
    let line := off / 64
    hostPathFree s line → restsInGrout s line → admits s .host (line * 64) = true →
    (∀ x, (x ≠ .cur → hdmRoom s line = .ready) → ∃ t, exec (.memRd tag hpa x) s = .next t ∧
      t.sent = s.sent ++ [.memData tag (heldBytes s (line * 64) 64) false] ∧
      tfind t.home.hdm line = (match x with | .cur => none | .data => some .s | .inv => some .a) ∧ (∀ l, l ≠ line → tfind t.home.hdm l = tfind s.home.hdm l) ∧
      (∀ q, sectorOf t q = sectorOf s q) ∧ t = { s with home := t.home, sent := t.sent, ticket := t.ticket, mortar := t.mortar }) ∧
    (d.length = 64 → en.length = 64 → (k ≠ .i → hdmRoom s line = .ready) → ∃ t c, exec (.memWr tag hpa ⟨d, p⟩ en k) s = .next t ∧ t.sent = s.sent ++ [.memDone tag] ∧
      sectorOf t (line * 64) = some c ∧ c.d = true ∧ c.p = p ∧
      tfind t.home.hdm line = (match k with | .i => none | .s => some .s | .a => some .a) ∧
      (∀ i, i < 64 → c.data.getD i 0 = if en.getD i false then d.getD i 0 else (heldBytes s (line * 64) 64).getD i 0) ∧
      (∀ q, q / 64 ≠ line → sectorOf t q = sectorOf s q) ∧
      t = { s with home := t.home, sent := t.sent, ticket := t.ticket, mortar := t.mortar })) ∧
  (∀ (s : State) (hpa : Nat), exec (.memSpecRd hpa) s = .next s) ∧
  (∀ (s : State) (tag hpa b : Nat) (k : MemState) (p : Bool) (d : List Byte) (t0 : Txn), hostMayReach s hpa = true → s.sec.on = false →
    d.length = 64 → txnOf s (hostOffset s hpa / 64) = some t0 → t0.biWait.isSome = true →
    ∃ t u, exec (.memWr tag hpa ⟨d, p⟩ (List.replicate 64 true) k) s = .next t ∧ t.sent = s.sent ++ [.memDone tag] ∧
      txnOf t (hostOffset s hpa / 64) = some u ∧ u.supplied = some (d, true, p) ∧ u.biWait = t0.biWait ∧ u.req = t0.req ∧
      (b ≠ hostOffset s hpa / 64 → txnOf t b = txnOf s b) ∧ t = { s with home := t.home, sent := t.sent }) ∧
  (∀ (s : State) (pa b : Nat) (id : OpId) (t0 : Txn), nothingWaits s → idCurrent s id = true →
    s.home.txns = [(pa / 64, t0)] → s.home.input = [] → s.home.lineQ = [] → s.home.retryQ = [] →
    t0.biWait = some id → t0.probing = [b] →
    (∀ ans, ∃ t, exec (.birsp ⟨id, pa⟩ ans) s = .next t ∧ txnOf t (pa / 64) = some { t0 with biWait := none } ∧ idCurrent t id = false ∧
      tfind t.home.hdm (pa / 64) = (match ans with | .i => none | .s => some .s) ∧
      (∀ l, l ≠ pa / 64 → tfind t.home.hdm l = tfind s.home.hdm l) ∧ t = { s with home := t.home, idents := t.idents }) ∧
    (∃ t, exec (.biTimeout pa) s = .next t ∧ txnOf t (pa / 64) = some { t0 with biWait := none, bad := true } ∧
      (identOf t id.path id.unit id.index).quarantined = true ∧ tfind t.home.hdm (pa / 64) = none ∧
      (∀ l, l ≠ pa / 64 → tfind t.home.hdm l = tfind s.home.hdm l) ∧ reports (unitSlice (sliceOf s pa)) 0x11 s t ∧
      t = { s with home := t.home, flt := t.flt, idents := t.idents })) ∧
  (∀ (s : State) (pa len : Nat) (op : HomeOp) (id : OpId), nothingWaits s → op.pa / 64 = pa / 64 → 0 < len → op.pa % 64 + len ≤ 64 →
    s.home.txns = [(pa / 64, { newTxn (.peek op len false [] 0) with biWait := some id })] → s.home.input = [] → s.home.lineQ = [] →
    s.home.retryQ = [] → s.clk.plinthOut = true → isHost pa = false →
    (∃ c, sectorOf s (pa / 64 * 64) = some c ∧ c.data.length = 64) →
    ∃ t, exec (.biTimeout pa) s = .next t ∧ heldPoison t (pa / 64 * 64) = true ∧
      t.sent = s.sent ++ [.response op.src op.env.tc ⟨op.id, .poison, heldBytes s op.pa len, BitVec.ofNat 4 (2 ^ (pa / 64 % 4))⟩] ∧ t.home.txns = [])

/-- Prefetch, streaming detection and maintenance blocks (R398, R399, R404, R405). Readings and choices of the model in it: log 39, 48, 93, 98. -/
def Obligations.GroutUpkeep : Prop :=
  (∀ (s : State) (g : Nat) (tc : BitVec 2), placeOf s (g * 256) = .dev (g * 256) →
    let n := sliceOf s (g * 256)
    let hs := tget noHints s.home.hints n
    ((8 ≤ hs.length ∨ g ∈ hs ∨ (groutOf s (g * 256)).isSome = true) → exec (.prefetchHint g tc) s = .next s) ∧
    (quietHomes s → hs.length < 8 → g ∉ hs → s.home.grout = [] → (ctlOf s n).readQ = [] → (ctlOf s n).writeQ = [] →
      (∀ l ∈ linesOfGrout g, checkedLine s l) →
      (∀ i, (identOf s pathCtl n i).busy = false ∧ (identOf s pathCtl n i).quarantined = false) →
      ∃ (t : State) (ids : List OpId), ids.length = 4 ∧ exec (.prefetchHint g tc) s = .next t ∧ tget noHints t.home.hints n = hs ++ [g] ∧
      (groutOf t (g * 256)).isSome = true ∧
      t.sent = s.sent ++ ((linesOfGrout g).zip ids).map (fun x => Msg.stackRead n (x.1 * 64) tc x.2) ∧
      (ctlOf t n).readQ = ((linesOfGrout g).zip ids).map (fun x => (x.1 * 64, tc, x.2)) ∧
      t = { s with home := t.home, ctls := t.ctls, sent := t.sent, idents := t.idents })) ∧
  (∀ (s : State) (x : Stream) (pre post : List Stream) (src : Src) (w : Bool) (next : Nat), s.home.streams = pre ++ x :: post →
    x.src = src → x.write = w → x.last + 1 = next → (∀ y ∈ pre, ¬ (y.src = src ∧ y.write = w ∧ y.last + 1 = next)) →
    exec (.streamRunEnd src w next) s = .next { s with home := { s.home with streams := pre ++ post } }) ∧
  (∀ (s : State) (a : RegAgent) (n : Nat), hasStack s n = true →
    ∀ x ∈ [(Instr.cleanAll a n, 1), (.flushAll a n, 2), (.cleanRange a n, 3), (.flushRange a n, 4)],
    (windowAgent a = false ∨ (maintOf s n).status = 1 → exec x.1 s = .next s) ∧
    (windowAgent a = true → (maintOf s n).status ≠ 1 → ∃ t, exec x.1 s = .next t ∧
      maintOf t n = { maintOf s n with
        cmd := BitVec.ofNat 64 (2 ^ 56 + x.2 * 2 ^ 48), count := 0, walked := false,
        status := if 3 ≤ x.2 ∧ (maintOf s n).stop.toNat ≤ (maintOf s n).start.toNat then 3 else 1 } ∧
      (∀ m, m ≠ n → maintOf t m = maintOf s m) ∧ t = { s with home := { s.home with maint := t.home.maint } })) ∧
  (∀ (s : State) (n g op : Nat) (l : GroutLine), hasStack s n = true → quietHomes s → s.home.grout = [(g, l)] →
    (op = 1 ∨ op = 2) → (maintOf s n).status = 1 → (maintOf s n).walked = false → (maintOf s n).cmd = BitVec.ofNat 64 (2 ^ 56 + op * 2 ^ 48) → l.slice = n →
    isHost (g * 256) = false → groutBusy s g = false → (∀ q ∈ l.sectors, q.1 < 4) → twf (fun _ => (⟨false, false, false, .i, []⟩ : Sector)) l.sectors = true →
    (ctlOf s (sliceOf s (g * 256))).writeQ.length ≤ 124 →
    ∃ t, exec (.maintenanceDone n) s = .next t ∧ (maintOf t n).status = 2 ∧
      (maintOf t n).count = (if l.sectors.any fun q => q.2.v && q.2.d then 1 else 0) ∧
      (∀ pa c, pa % 64 = 0 → pa / 256 = g → sectorOf s pa = some c →
        (c.d = true → stackSector t pa = (c.data, c.p)) ∧ (c.d = false → stackSector t pa = stackSector s pa) ∧
        sectorOf t pa = if op = 1 then some { c with d := false } else none) ∧
      (op = 2 → t.home.grout = []) ∧ t = { s with home := t.home, ctls := t.ctls })

/-- Reads, drains and scrubbing of a controller (R420, R423, R427). Readings and choices of the model in it: log 39, 42, 91. -/
def Obligations.StackReadsAndWrites : Prop :=
  (∀ (s : State) (pa : Nat) (tc : BitVec 2) (id : OpId) (pl : DramPlace), nothingWaits s → idCurrent s id = true → s.clk.plinthOut = true →
    let n := sliceOf s pa
    (pa, tc, id) ∈ (ctlOf s n).readQ → (ctlOf s n).shutdown = false →
    let left (t : State) : Prop := (ctlOf t n).readQ = (ctlOf s n).readQ.filter (fun r => r.1 ≠ pa) ∧ idCurrent t id = false
    (∀ (o : ReadOutcome) (w : StackWrite), homesIdle s → (groutOf s pa).isSome = true → sectorOf s pa = none → queuedOf s pa = some w →
      ∃ t, exec (.stackReadDone ⟨id, pa⟩ o pl) s = .next t ∧ left t ∧ sectorOf t pa = some ⟨true, false, w.poison, .i, w.data⟩ ∧
      (∀ q, q / 64 ≠ pa / 64 → sectorOf t q = sectorOf s q) ∧ t = { s with home := t.home, ctls := t.ctls, idents := t.idents }) ∧
    (∀ (o : ReadOutcome), homesIdle s → (groutOf s pa).isSome = true → queuedOf s pa = none → (ctlOf s n).writeQ.length < 128 →
      sectorOf s pa = none → ∃ t, exec (.stackReadDone ⟨id, pa⟩ o pl) s = .next t ∧ left t ∧
      sectorOf t pa = some ⟨true, false, tget noB s.mem.devBad (pa / 64) || o == .uncorrectable, .i, stackBytes s pa⟩ ∧
      (∀ q, q / 64 ≠ pa / 64 → sectorOf t q = sectorOf s q) ∧
      (∀ k, o = .corrected k → tget noB s.mem.devBad (pa / 64) = false → reports (unitCtl n) 0x20 s t ∧
        writesReg (offCorrCnt n) (BitVec.ofNat 32 (min 0xFFFFFFFF ((reg s (offCorrCnt n)).toNat + 1))) s t ∧
        ((ctlOf s n).corrLog = [] → (ctlOf t n).corrLog = [(0, ⟨pa, pl, 1, k⟩)]) ∧
        queuedOf t pa = some ⟨pa, stackBytes s pa, false⟩ ∧ t.mem = s.mem) ∧
      (o = .uncorrectable → reports (unitCtl n) 0x21 s t ∧
        writesReg (offUncorrCnt n) (BitVec.ofNat 32 (min 0xFFFFFFFF ((reg s (offUncorrCnt n)).toNat + 1))) s t ∧
        queuedOf t pa = some ⟨pa, stackBytes s pa, true⟩ ∧ t.mem = s.mem) ∧
      ((o = .clean ∨ (tget noB s.mem.devBad (pa / 64) = true ∧ o ≠ .uncorrectable)) →
        t = { s with home := t.home, ctls := t.ctls, idents := t.idents })) ∧
    (∀ (t0 : Txn) (b : Nat), queuedOf s pa = none → sectorOf s pa = none → s.home.txns = [(pa / 64, t0)] → s.home.input = [] → s.home.lineQ = [] → s.home.retryQ = [] → t0.probing = [b] →
      t0.supplied = none → ∃ t, exec (.stackReadDone ⟨id, pa⟩ .clean pl) s = .next t ∧ left t ∧
      txnOf t (pa / 64) = some { t0 with
        fillWait := false, supplied := some (stackBytes s pa, false, tget noB s.mem.devBad (pa / 64)) })) ∧
  (∀ (s : State) (n : Nat) (w : StackWrite) (ws : List StackWrite), hasStack s n = true → (ctlOf s n).writeQ = w :: ws →
    (ctlOf s n).shutdown = false → s.clk.plinthOut = true → ∃ t, exec (.writeDrain n) s = .next t ∧
    t.sent = s.sent ++ [.stackWrite n w.pa (cipherOf (sectorKey s w.pa) w.pa w.data) w.poison] ∧ writtenKey t.mem w.pa = sectorKey s w.pa ∧
    ctlOf t n = { ctlOf s n with writeQ := ws, draining := decide (32 < ws.length) } ∧ (∀ m, m ≠ n → ctlOf t m = ctlOf s m) ∧
    (∀ a, readByte t.mem.dev a = if w.pa ≤ a ∧ a < w.pa + w.data.length then w.data.getD (a - w.pa) 0 else readByte s.mem.dev a) ∧
    (∀ k, tget noB t.mem.devBad k = if k = w.pa / 64 then w.poison else tget noB s.mem.devBad k) ∧
    t = { s with sent := t.sent, ctls := t.ctls, mem := { s.mem with dev := t.mem.dev, devBad := t.mem.devBad, devKey := t.mem.devKey } }) ∧
  (∀ (s : State) (n pa : Nat) (tc : BitVec 2) (id : OpId), hasStack s n = true → (ctlOf s n).draining = true →
    (pa, tc, id) ∈ (ctlOf s n).readQ →
    ((∀ r ∈ (ctlOf s n).readQ, r.1 = pa → 2 ≤ r.2.1.toNat) → exec (.drainReadInterrupt n pa) s = .next s) ∧
    (tc.toNat < 2 → (ctlOf s n).writeQ.length < 120 → ∃ t, exec (.drainReadInterrupt n pa) s = .next t ∧
      ctlOf t n = { ctlOf s n with draining := false } ∧ (∀ m, m ≠ n → ctlOf t m = ctlOf s m) ∧ t = { s with ctls := t.ctls }) ∧
    (120 ≤ (ctlOf s n).writeQ.length → exec (.drainReadInterrupt n pa) s = .next s)) ∧
  (∀ (s : State) (n : Nat) (o : ReadOutcome) (pl : DramPlace), hasStack s n = true →
    let total := capMib s n * 16384
    (bitOf (reg s (offPln n + 0x20)) 31 = false ∨ (ctlOf s n).level ≠ 0 → exec (.scrubRead n o pl) s = .next s) ∧
    (bitOf (reg s (offPln n + 0x20)) 31 = true → (ctlOf s n).level = 0 → (ctlOf s n).neg = 5 → (ctlOf s n).shutdown = false →
      s.clk.plinthOut = true → 0 < total → s.home.grout = [] → ∀ id v, takeId pathCtl n s = some (id, v) →
      let pa := stackSectorKey s n ((ctlOf s n).scrubNext % total)
      ∃ t, exec (.scrubRead n o pl) s = .next t ∧
      (ctlOf t n).scrubNext = ((ctlOf s n).scrubNext % total + 1) % total ∧
      (∀ m, m ≠ n → m ≠ sliceOf s pa → ctlOf t m = ctlOf s m) ∧
      (o = .clean → t.sent = s.sent ++ [.stackRead n pa 3 id] ∧ ctlOf t n = { ctlOf s n with scrubNext := (ctlOf t n).scrubNext } ∧
        (∀ m, m ≠ n → ctlOf t m = ctlOf s m) ∧ t = { s with ctls := t.ctls, sent := t.sent, idents := t.idents })))

/-- Temperatures of a stack (R419, R429 to R435, R440). The note on stepping down into level 2 is the model's choice (log 38). Readings and choices of the model in it: log 39. -/
def Obligations.StackTemperature : Prop :=
  (∀ (s : State) (n temp : Nat) (h : Bool), hasStack s n = true → (ctlOf s n).shutdown = false → stackHot s n = false →
    let th (i : Nat) : Nat := fieldOf (reg s (offPln n + 0x10)) (8 * i - 1) (8 * (i - 1))
    let called : Nat := if th 3 ≤ temp then 3 else if th 2 ≤ temp then 2 else if th 1 ≤ temp then 1 else 0
    let l := (ctlOf s n).level
    let enters (k : Nat) : Prop := ∃ t, exec (.stackTempSample n temp h) s = .next t ∧
      ctlOf t n = { ctlOf s n with temp := temp, level := k, slow := decide (2 ≤ k) } ∧ (∀ m, m ≠ n → ctlOf t m = ctlOf s m) ∧
      (2 ≤ k → reports (unitCtl n) 0x25 s t) ∧ (k < 2 → t.flt = s.flt) ∧
      (∀ c, hasCourse s c = true → (courseOf s c).live = true → (courseOf s c).freqReq = none → movedToPoint s t c) ∧
      t = { s with ctls := t.ctls, flt := t.flt, courses := t.courses, sent := t.sent }
    (th 4 ≤ temp → ∃ t, exec (.stackTempSample n temp h) s = .next t ∧ reports (unitCtl n) 0x24 s t ∧
      ctlOf t n = { ctlOf s n with temp := temp, neg := 7, shutdown := true } ∧ (∀ m, m ≠ n → ctlOf t m = ctlOf s m) ∧
      t = { s with ctls := t.ctls, flt := t.flt }) ∧
    (temp < th 4 → l < called → enters called) ∧
    (temp < th 4 → h = true → called < l → l ≤ 3 → temp + 3 ≤ th l → enters (l - 1)) ∧
    (temp < th 4 → called ≤ l → (h = false ∨ called = l ∨ th l < temp + 3) → ∃ t, exec (.stackTempSample n temp h) s = .next t ∧
      ctlOf t n = { ctlOf s n with temp := temp } ∧ (∀ m, m ≠ n → ctlOf t m = ctlOf s m) ∧ t = { s with ctls := t.ctls })) ∧
  (∀ (s : State) (n ch : Nat), hasStack s n = true →
    ((ctlOf s n).neg = 5 → bitOf (ctlOf s n).live ch = true → ∃ t, exec (.stackChannelFail n ch) s = .next t ∧
      ctlOf t n = { ctlOf s n with neg := 8 } ∧ (∀ m, m ≠ n → ctlOf t m = ctlOf s m) ∧ reports (unitCtl n) 0x22 s t ∧
      t = { s with ctls := t.ctls, flt := t.flt }) ∧
    ((ctlOf s n).neg ≠ 5 ∨ bitOf (ctlOf s n).live ch = false → exec (.stackChannelFail n ch) s = .next s)) ∧
  (∀ (s : State) (n : Nat) (a : RegAgent) (v : Word32), hasStack s n = true → writer a (offPln n + 0x10) →
    let asc : Prop := fieldOf v 7 0 < fieldOf v 15 8 ∧ fieldOf v 15 8 < fieldOf v 23 16 ∧ fieldOf v 23 16 < fieldOf v 31 24
    (s.sealed_ = false → asc → ∃ t, exec (.tempThresholdWrite a n v) s = .next t ∧
      writesReg (offPln n + 0x10) v s t ∧ t = { s with regs := t.regs }) ∧
    (s.sealed_ = true ∨ ¬ asc → exec (.tempThresholdWrite a n v) s = .next s))

/-- Negotiation, repair and IEEE 1500 access (R415 to R418, R428, R444, R445). Readings and choices of the model in it: log 39. -/
def Obligations.StackNegotiation : Prop :=
  ∀ (s : State) (n : Nat), hasStack s n = true →
    let c := ctlOf s n
    let only (t : State) (c' : Ctl) : Prop := ctlOf t n = c' ∧ (∀ m, m ≠ n → ctlOf t m = ctlOf s m) ∧ t = { s with ctls := t.ctls }
    let excl := reg s (offPln n + 4)
    (∀ a, writer a (offPln n) →
      (c.neg = 0 → s.clk.plinthOut = true → ∃ t, exec (.plnNegStart a n) s = .next t ∧ only t { c with neg := 1 }) ∧
      (c.neg ≠ 0 → exec (.plnNegStart a n) s = .next s) ∧
      (s.sealed_ = false → c.neg = 2 → ∃ t, exec (.negHoldRelease a n) s = .next t ∧
        writesReg (offPln n) (reg s (offPln n) &&& 0xF7FFFFFF) s t ∧
        ctlOf t n = (if 28 ≤ channelCount (c.live &&& ~~~excl) then { c with neg := 3, live := c.live &&& ~~~excl }
                     else { c with neg := 6, live := 0 }) ∧ t = { s with regs := t.regs, ctls := t.ctls })) ∧
    (∀ info, c.neg = 1 → (info.metadata = false ∨ info.height = 3 ∨ info.density = 3) →
      ∃ t, exec (.stackTrainingDone n info) s = .next t ∧ only t { c with neg := 6, live := 0 }) ∧
    (∀ info (r : Nat), c.neg = 1 → info.metadata = true → info.height ≠ 3 → info.density ≠ 3 →
      let fine (k : Nat) : Prop := k ≤ fieldOf (reg s (offPln n)) 26 24 ∧ k ≤ info.maxRate ∧ channelCount (failingAt info excl k) ≤ 4
      let live := ~~~excl &&& ~~~(failingAt info excl r)
      r ≤ 4 → fine r → (∀ k, r < k → k ≤ 4 → ¬ fine k) → 28 ≤ channelCount live →
      ∃ t, exec (.stackTrainingDone n info) s = .next t ∧
        only t { c with
          height := info.height, density := info.density, rate := r, live := live,
          neg := if bitOf (reg s (offPln n)) 27 then 2 else 3 }) ∧
    (∀ failed, c.neg = 3 → ∃ t, exec (.stackLive n failed) s = .next t ∧
      only t (if 28 ≤ channelCount (c.live &&& ~~~failed) then { c with neg := 5, live := c.live &&& ~~~failed, wasLive := true }
              else { c with neg := 6, live := 0 })) ∧
    (s.home.inService = false → (∀ m, hasStack s m = true → (ctlOf s m).neg = 5 ∨ (ctlOf s m).neg = 6) →
      let top := (liveStacks s).foldl (fun a m => a + capMib s m) 0
      (0 < top → homesIdle s → exec .hdmTopSet s = .next { s with
        mem := { s.mem with
          topMib := BitVec.ofNat 20 top, dev := [], devBad := [], devKey := [], zeroKey := slotKey s 0, zeroKeys := granuleKeys s }, home := { s.home with inService := true } }) ∧
      (top = 0 → ∃ t, exec .hdmTopSet s = .next t ∧ t.home = { s.home with inService := true } ∧ reports unitMor 0x23 s t ∧
        t = { s with home := t.home, flt := t.flt })) ∧
    (∀ a v, c.neg = 2 →
      (writer a (offPln n + 0x200) → ∃ t, exec (.repairGo a n v) s = .next t ∧
        writesReg (offPln n + 0x200) (v &&& 0x0FFFFFFF) s t ∧
        ctlOf t n = (if bitOf v 31 && !c.repairBusy then { c with repairBusy := true, repairResult := 0 } else c) ∧
        t = { s with regs := t.regs, ctls := t.ctls }) ∧
      (writer a (offPln n + 0x1000) → ∃ t, exec (.ieee1500Go a n v) s = .next t ∧
        writesReg (offPln n + 0x1000) (v &&& 0x00FF07FF) s t ∧
        ctlOf t n = (if bitOf v 31 && !c.ieeeBusy then { c with ieeeBusy := true, ieeeLen := fieldOf v 10 0 } else c) ∧ t = { s with regs := t.regs, ctls := t.ctls })) ∧
    (∀ r, c.repairBusy = true → ∃ t, exec (.repairDone n r) s = .next t ∧ only t { c with repairBusy := false, repairResult := r }) ∧
    (∀ cap : List Word32, c.ieeeBusy = true → ∃ t, exec (.ieee1500Done n cap) s = .next t ∧
      ctlOf t n = { c with ieeeBusy := false } ∧
      (∀ i, i < 64 →
        let old := reg s (offPln n + 0x1100 + 4 * i)
        let m : Word32 := BitVec.ofNat 32 (2 ^ min 32 (c.ieeeLen + 1 - 32 * i) - 1)
        reg t (offPln n + 0x1100 + 4 * i) = (old &&& ~~~m) ||| (cap.getD i 0 &&& m)) ∧
      t = { s with regs := t.regs, ctls := t.ctls })

/-- Answers of the host to translation and page requests (R455, R459, R460, R464 to R467, R472). Readings and choices of the model in it: log 39, 44, 52. -/
def Obligations.TranslationAnswers : Prop :=
  (∀ (s : State) (pasid va : Nat) (res : XltResult),
    (∀ r ∈ s.xlat.reqs, ¬ (r.sent = true ∧ r.pasid = pasid ∧ r.page = va / 4096)) →
    exec (.translationCompletion pasid va res) s = .next s) ∧
  (∀ (s : State) (r : XltReq) (res : XltResult), s.xlat.reqs = [r] → r.sent = true → r.discard = true →
    exec (.translationCompletion r.pasid (r.page * 4096) res) s = .next { s with
      sent := s.sent ++ [.xltRequest r.pasid (r.page * 4096) r.noWrite r.exec],
      xlat := { s.xlat with reqs := [{ r with discard := false }] } }) ∧
  (∀ (s : State) (r : XltReq) (w : Waiter) (n cause : Nat) (addr : Word64), s.xlat.reqs = [r] → r.sent = true →
    r.discard = false → r.waiters = [w] → w.src = .core n → (coreOf s n).wait = some (.xlt cause addr) →
    coreAwaits s w n = some (cause, addr) → (coreOf s n).prog = false → (coreOf s n).ntBufs = [] → (coreOf s n).deferred = [] →
    (∃ t, exec (.translationCompletion r.pasid (r.page * 4096) .failure) s = .next t ∧
      trapped ⟨n, (coreOf s n).pc, (coreOf s n).mode, 0⟩ false cause addr s t ∧ otherCores n s t ∧ reports unitLin 0x38 s t ∧
      t.xlat = { s.xlat with reqs := [] } ∧ t = { s with cores := t.cores, xlat := t.xlat, flt := t.flt }) ∧
    (∀ (phys range : Nat) (perm : Perm),
      let e := entryFor r.pasid (r.page * 4096) phys range perm
      (∀ g ∈ entryGranules s e, changing s g = false) →
      (grants perm w.perm = true → entryAdmitted s w.ctx e = true → entriesOf s bufShared = [] → entriesOf s w.buffer = [] →
        w.buffer < 1024 → ∃ t, exec (.translationCompletion r.pasid (r.page * 4096) (.success phys range perm false)) s = .next t ∧
        entriesOf t bufShared = [e] ∧ entriesOf t w.buffer = [e] ∧
        (∀ b, b ≠ bufShared → b ≠ w.buffer → entriesOf t b = entriesOf s b) ∧ t.xlat.reqs = [] ∧
        coreOf t n = { coreOf s n with wait := none } ∧ otherCores n s t ∧
        t = { s with cores := t.cores, ticket := t.ticket, xlat := { s.xlat with reqs := [], buffers := t.xlat.buffers } }) ∧
      (grants perm w.perm = false → s.xlat.blocked = false → s.link.pri = true → ctxActive s w.ctx = true → w.tries < 3 →
        s.xlat.prgs = [] → exec (.translationCompletion r.pasid (r.page * 4096) (.success phys range perm false)) s = .next { s with
          sent := s.sent ++ [.pageRequest 0 (pasidOf s w.ctx) (w.addr / 4096) w.perm],
          xlat := { s.xlat with
            reqs := [], prgs := [(0, ⟨pasidOf s w.ctx, w.addr / 4096, w.perm, [{ w with tries := w.tries + 1 }]⟩)] } }))) ∧
  (∀ (pasid va phys k a : Nat) (perm : Perm), 12 ≤ k → k ≤ 34 → phys % 2 ^ k = va % 2 ^ k → a / 4096 = va / 4096 →
    let e := entryFor pasid va phys (2 ^ k) perm
    covers e pasid a = true ∧ entryPhys e a = phys / 4096 * 4096 + a % 4096 ∧ e.perm = perm ∧ e.vbase % e.span = 0 ∧
    e.span ≤ 2 ^ k) ∧
  (∀ (s : State) (i : Nat) (p : PageReq) (w : Waiter), s.xlat.prgs = [(i, p)] → p.waiters = [w] → s.xlat.faultQ = [] →
    (s.xlat.reqs = [] → xltEnabled s = true → entriesOf s w.buffer = [] → entriesOf s bufShared = [] →
      exec (.pageRequestResponse i .success) s = .next { s with
        sent := s.sent ++ [.xltRequest (pasidOf s w.ctx) (w.addr / 4096 * 4096) (!w.perm.w) w.perm.x],
        xlat := { s.xlat with
          prgs := [], reqs := [⟨pasidOf s w.ctx, w.addr / 4096, !w.perm.w, w.perm.x, false, true, [w]⟩] } }) ∧
    (∀ c, ctxOf s w.ctx = some c → c.state = .active →
      ∀ x ∈ [(Instr.pageRequestResponse i .invalidRequest, s.xlat.blocked), (.pageRequestResponse i .responseFailure, true),
             (.pageRequestTimeout i, s.xlat.blocked)], ∃ t c', exec x.1 s = .next t ∧ tfind t.xlat.prgs i = none ∧
        t.xlat.blocked = x.2 ∧ ctxOf t w.ctx = some c' ∧ c'.state = .lost ∧
        ∃ e ∈ t.flt.units, e.unit = unitLin ∧ e.first.source = 0x38)) ∧
  (∀ s : State, exec .priEnable s = .next (if s.link.pri then s else
    { s with link := { s.link with pri := true }, xlat := { s.xlat with blocked := false } }))

/-- ATS invalidations (R468 to R472). Readings and choices of the model in it: log 39, 52. -/
def Obligations.Invalidations : Prop :=
  (∀ (s : State) (tag pasid va len : Nat) (gl : Bool),
    let own := s.xlat.invals.filter fun i => decide (i.tag < ownTag)
    ((32 ≤ own.length ∨ ∃ i ∈ s.xlat.invals, i.tag = tag) → exec (.atsInvalidateRequest tag pasid gl va len) s = .next s) ∧
    (tag < ownTag → own.length < 32 → (∀ i ∈ s.xlat.invals, i.tag ≠ tag) → rising s.xlat.buffers →
      (∀ p ∈ s.cores, p.2.ntBufs = []) → ∃ t i, exec (.atsInvalidateRequest tag pasid gl va len) s = .next t ∧
      (∀ b, entriesOf t b = (entriesOf s b).filter fun e => !overlapsRange pasid gl va len e) ∧
      t.xlat.invals = s.xlat.invals ++ [i] ∧ i.tag = tag ∧
      t.xlat.reqs = s.xlat.reqs.map (fun r =>
        if r.sent = true ∧ (gl = true ∨ r.pasid = pasid) ∧ r.page * 4096 < va + len ∧ va < r.page * 4096 + 4096
        then { r with discard := true } else r) ∧
      t.ops.length = s.ops.length ∧
      (∀ (k : Nat) (o : RemoteOp) (c b : Nat) (e : TlbEntry), s.ops[k]? = some o → o.ctx = some c → e ∈ entriesOf s b → overlapsRange pasid gl va len e = true →
        e.pasid = pasidOf s c → entryReaches s e o.pa = true → t.ops[k]? = some { o with invals := o.invals ++ [tag] }) ∧
      t.cores = s.cores ∧ t.mem = s.mem ∧ t.home = s.home)) ∧
  (∀ (s : State) (tag : Nat),
    ((∀ i ∈ s.xlat.invals, i.tag ≠ tag) → exec (.invalidateCompletion tag) s = .next s) ∧
    (∀ i, s.xlat.invals = [i] → i.tag = tag → tag < ownTag →
      let ended : Prop := i.ports = [] ∧ (∀ o ∈ s.ops, tag ∉ o.invals) ∧ (∀ x ∈ i.stores, x.2 ∉ coreLines (coreOf s x.1))
      (ended → exec (.invalidateCompletion tag) s = .next { s with
        sent := s.sent ++ [.invalidateDone tag], xlat := { s.xlat with invals := [] } }) ∧
      (¬ ended → exec (.invalidateCompletion tag) s = .next s)))

/-- Requests of a Jegon engine (R24, R25, R338, R475, R613, R695). Readings and choices of the model in it: log 27, 39, 94. -/
def Obligations.JegonRequests : Prop :=
  (∀ (s : State) (a : RegAgent) (p n : Nat) (ans : Answer) (dirty po en : Bool) (d : List Byte),
    ∀ c ∈ [Instr.jegonSnprsp p n ans dirty d po, .jegonSnoopTimeout p n, .jegonInvalidateAck p n, .jegonXltTimeout p n,
           .jegonQuiesceAck p, .jegonContextEndTimeout p n, .jegEnableWrite a p en, .jegReset a p], ∃ t, exec c s = .next t) ∧
  (∀ (s : State) (p : Nat) (m : JegonMsg), hasJegon s p = true → enginesRun s = true →
    let j := jegonOf s p
    let others (t : State) : Prop := ∀ q, q ≠ p → jegonOf t q = jegonOf s q
    j.reset = false →
    (j.en = false → j.quiesce = false → exec (.jegonReq p m) s = .next s) ∧
    (j.en = true → j.quiesce = false → m.tag ∉ j.owed → (j.refusing = true ∨ m.kind ≠ .barrier ∧ ctxActive s m.ctx = false) →
      ∃ t, exec (.jegonReq p m) s = .next t ∧ t.sent = s.sent ++ [.jegRsp p m.tag .denied [] 0 0] ∧
        jegonOf t p = { j with barStatus := if isOperation m.kind = true then j.barStatus ||| 0b0001 else j.barStatus } ∧ others t ∧
        t = { s with sent := t.sent, jegons := t.jegons }) ∧
    (j.en = true → m.tag ∉ j.owed → j.refusing = false → ctxActive s m.ctx = true → j.barrier.isSome = true → m ∉ j.heldMsgs →
      ∃ t, exec (.jegonReq p m) s = .next t ∧
        jegonOf t p = { j with owed := j.owed ++ [m.tag], heldMsgs := j.heldMsgs ++ [m] } ∧ others t ∧
        t = { s with jegons := t.jegons }) ∧
    (j.en = true → m.tag ∉ j.owed → j.refusing = false → ctxActive s m.ctx = true → j.barrier = none → m ∉ j.heldMsgs →
      let pa := sortHost s m.addr
      let at_ := pa / 64 * 64
      (m.translated = true → placeOf s pa = .dev pa →
        (∃ e ∈ entriesOf s (bufJegon p), e.pasid = pasidOf s m.ctx ∧ e.pbase ≤ m.addr ∧ m.addr < e.pbase + e.span ∧
          grants e.perm (jegPerm m.kind) = true) →
        ∀ (id : OpId) (v : State), takeId pathBridge 1 s = some (id, v) →
        let free (cls : MClass) : Prop := freePath s cls m.tc (201 + p) [upOut (201 + p), outSlice (sliceOf s at_)]
        (∀ x ∈ [(JegonKind.shareRd, false), (.ownRd, true)], m.kind = x.1 → free .ask → ∃ t, exec (.jegonReq p m) s = .next t ∧
          t.sent = s.sent ++ [.ask (201 + p) at_ x.2 m.tc id] ∧
          jegonOf t p = { j with
            owed := j.owed ++ [m.tag], fills := j.fills ++ [(m.tag, pa / 64, ⟨x.2, m.tc, some id, none, none⟩)] } ∧ others t ∧
          t = { s with sent := t.sent, jegons := t.jegons, mortar := t.mortar, idents := t.idents }) ∧
        (∀ d, m.kind = .writeBack d → free .evict → ∃ t, exec (.jegonReq p m) s = .next t ∧
          t.sent = s.sent ++ [.evict (201 + p) at_ d false m.tc id] ∧
          jegonOf t p = { j with owed := j.owed ++ [m.tag], wbs := j.wbs ++ [(m.tag, pa / 64, some id)] } ∧ others t ∧
          t = { s with sent := t.sent, jegons := t.jegons, mortar := t.mortar, idents := t.idents }) ∧
        (∀ n, m.kind = .get n → s.ops = [] → free .ask → ∃ t, exec (.jegonReq p m) s = .next t ∧
          t.sent = s.sent ++
            [.operation (.jegon p) .get 0 ⟨m.ord, m.tc, chipSelf s, chipSelf s, 0⟩ pa n [] [] 0 id] ∧
          jegonOf t p = { j with owed := j.owed ++ [m.tag] } ∧ t.ops.length = 1 ∧ others t ∧
          t = { s with sent := t.sent, jegons := t.jegons, ops := t.ops, idents := t.idents, mortar := t.mortar })) ∧
      (m.kind ≠ .barrier → m.translated = false → entriesOf s (bufJegon p) = [] → entriesOf s bufShared = [] → xltEnabled s = true →
        s.xlat.reqs = [] → s.xlat.prgs = [] → s.xlat.faultQ = [] → ∃ t, exec (.jegonReq p m) s = .next t ∧
        t.sent = s.sent ++ [.xltRequest (pasidOf s m.ctx) (m.addr / 4096 * 4096) (!(jegPerm m.kind).w) (jegPerm m.kind).x] ∧
        jegonOf t p = { j with owed := j.owed ++ [m.tag], heldMsgs := j.heldMsgs ++ [m] } ∧ others t ∧ t.xlat.reqs.length = 1 ∧
        t = { s with sent := t.sent, jegons := t.jegons, xlat := t.xlat }))) ∧
  (∀ (s : State) (p tag : Nat), hasJegon s p = true → enginesRun s = true →
    let j := jegonOf s p
    j.reset = false → j.en = true → j.quiesce = false → j.refusing = false → j.barrier = none → tag ∉ j.owed → j.heldMsgs = [] →
    ((∀ o ∈ s.ops, o.src ≠ .jegon p) → ∃ t, exec (.jegonBarrier p tag) s = .next t ∧
      t.sent = s.sent ++ [.jegRsp p tag .ok [] 0 j.barStatus] ∧ jegonOf t p = { j with barStatus := 0 } ∧
      t = { s with sent := t.sent, jegons := t.jegons }) ∧
    ((∃ o ∈ s.ops, o.src = .jegon p) → ∃ t, exec (.jegonBarrier p tag) s = .next t ∧
      jegonOf t p = { j with owed := j.owed ++ [tag], barrier := some tag } ∧ t = { s with jegons := t.jegons })) ∧
  (∀ (s : State) (p tag ctx va : Nat) (perm : Perm) (e : TlbEntry), hasJegon s p = true → lintelRuns s = true →
    let j := jegonOf s p
    j.reset = false → j.en = true → j.quiesce = false → tag ∉ j.xlts →
    (j.refusing = true ∨ ctxActive s ctx = false → ∃ t, exec (.jegonXltRequest p tag ctx va perm) s = .next t ∧
      t.sent = s.sent ++ [.jegXlt p tag false 0 0 0 perm] ∧ (∀ q, jegonOf t q = jegonOf s q) ∧
      t = { s with sent := t.sent, jegons := t.jegons }) ∧
    (j.refusing = false → ctxActive s ctx = true → entriesOf s (bufJegon p) = [e] → covers e (pasidOf s ctx) va = true →
      grants e.perm perm = true → ∃ t, exec (.jegonXltRequest p tag ctx va perm) s = .next t ∧
      t.sent = s.sent ++ [.jegXlt p tag true e.vbase e.pbase e.span e.perm] ∧
      entriesOf t (bufJegon p) = [{ e with used := true }] ∧ (∀ q, jegonOf t q = jegonOf s q) ∧
      t = { s with sent := t.sent, xlat := t.xlat, ctxs := t.ctxs, jegons := t.jegons })) ∧
  (∀ (s : State) (p : Nat) (src : BitVec 4) (lv : BitVec 3) (k : Option Nat) (loss : Bool), hasJegon s p = true →
    ((jegonOf s p).reset = true → exec (.jegonFaultReport p src lv k loss) s = .next s) ∧
    ((jegonOf s p).reset = false → (loss = false ∨ k = none) → ∃ t, exec (.jegonFaultReport p src lv k loss) s = .next t ∧
      reports (unitJegon p) (0x60 + p) s t ∧
      (s.flt.units = [] → ∃ y, t.flt.units = [⟨unitJegon p, y, 0⟩] ∧ y.level = some lv.toNat ∧ y.ctx = k) ∧
      t = { s with flt := t.flt }) ∧
    (∀ c x, (jegonOf s p).reset = false → k = some c → loss = true → ctxOf s c = some x → x.state = .active →
      ∃ t x', exec (.jegonFaultReport p src lv k loss) s = .next t ∧ ctxOf t c = some x' ∧ x'.state = .lost))

/-- Control of a Jegon port (R25, R26, R475, R552, R695, R696). Readings and choices of the model in it: log 39, 59. -/
def Obligations.JegonControl : Prop :=
  ∀ (s : State) (p : Nat), hasJegon s p = true →
    let j := jegonOf s p
    let only (t : State) (k : Jegon) : Prop := jegonOf t p = k ∧ ∀ q, q ≠ p → jegonOf t q = jegonOf s q
    (∀ (pa : Nat) (ans : Answer) (dirty po : Bool) (d : List Byte),
      ((∀ x ∈ j.snoops, x.1 ≠ pa / 64) → exec (.jegonSnprsp p pa ans dirty d po) s = .next s ∧
        exec (.jegonSnoopTimeout p pa) s = .next s) ∧
      (∀ kind f rest, j.snoops = (pa / 64, kind, f) :: rest → ∃ t, exec (.jegonSnprsp p pa ans dirty d po) s = .next t ∧
        t.sent = s.sent ++ (if ans = .forwarded ∨ ans = .toHome then (match f with
            | .agent m id tc => [.data m (pa / 64 * 64) dirty d po tc id, .answer (201 + p) (pa / 64 * 64) .forwarded dirty [] po tc]
            | .home tc => [.answer (201 + p) (pa / 64 * 64) .toHome dirty d po tc])
          else [.answer (201 + p) (pa / 64 * 64) ans false [] false (probeTc f)]) ∧
        only t { j with snoops := rest } ∧ t = { s with jegons := t.jegons, sent := t.sent })) ∧
    (∀ (pa m : Nat) (kind : Probe) (id : OpId) (tc : BitVec 2) (e : FilterEntry), j.snoops = [(pa / 64, kind, .agent m id tc)] →
      kind ≠ .kill → j.engineAck = false → s.home.filter = [(pa / 64, e)] → e.state = .excl → e.owner = 201 + p → e.groups = 0 →
      (txnOf s (pa / 64)).isSome = true → ∃ t, exec (.jegonSnoopTimeout p pa) s = .next t ∧ reports (unitJegon p) 0x05 s t ∧
      only t { j with refusing := true, cause := 1, snoops := [], ctxEnds := [] } ∧
      t.sent = s.sent ++ [.data m (pa / 64 * 64) true (zeroBytes 64) true tc id,
        .answer (201 + p) (pa / 64 * 64) .forwarded true [] true tc] ∧
      t = { s with jegons := t.jegons, sent := t.sent, flt := t.flt }) ∧
    (∀ (v : Nat), (∀ e ∈ j.leaving, e.vbase ≠ v) → exec (.jegonXltTimeout p v) s = .next s) ∧
    (∀ (c : Nat), c ∉ j.ctxEnds → exec (.jegonContextEndTimeout p c) s = .next s) ∧
    (∀ (l : Nat) (e : FilterEntry) (c : Sector), j.snoops = [] → s.home.filter = [(l, e)] →
      (e.state = .excl ∧ e.owner = 201 + p ∧ e.groups = 0 ∨ e.state = .shared ∧ e.groups = BitVec.ofNat 22 (2 ^ (14 + p)) ∧ p < 8) →
      s.home.txns = [] → sectorOf s (l * 64) = some c →
      ∀ x ∈ [(Instr.jegonXltTimeout p 0, (2 : BitVec 3), 0x06), (.jegonContextEndTimeout p 0, 1, 0x05)],
        (x.1 = .jegonXltTimeout p 0 → ∃ y ∈ j.leaving, y.vbase = 0) → (x.1 = .jegonContextEndTimeout p 0 → 0 ∈ j.ctxEnds) →
        ∃ t, exec x.1 s = .next t ∧ reports (unitJegon p) x.2.2 s t ∧ (jegonOf t p).refusing = true ∧
        (jegonOf t p).cause = x.2.1 ∧ (jegonOf t p).ctxEnds = [] ∧ (∀ q, q ≠ p → jegonOf t q = jegonOf s q) ∧
        sectorOf t (l * 64) = some { c with d := true, p := true } ∧ t.home.filter = []) ∧
    (∀ v, ∃ t, exec (.jegonInvalidateAck p v) s = .next t ∧ only t { j with leaving := j.leaving.filter (fun e => e.vbase ≠ v) } ∧
      t.xlat.invals = s.xlat.invals.map (fun i => { i with ports := i.ports.filter (· ≠ (p, v)) }) ∧
      t = { s with jegons := t.jegons, xlat := { s.xlat with invals := t.xlat.invals } }) ∧
    ((j.quiesce = true → j.engineAck = false → ∃ t, exec (.jegonQuiesceAck p) s = .next t ∧
      only t { j with ctxEnds := [], engineAck := true, blockAck := j.blockAck || (j.owed.isEmpty && j.xlts.isEmpty) } ∧
      t.sent = s.sent ++ (if j.blockAck = false ∧ j.owed = [] ∧ j.xlts = [] then [.jegCtl p .quiesceAck] else []) ∧
      t = { s with jegons := t.jegons, sent := t.sent }) ∧
     (j.quiesce = false → ∃ t, exec (.jegonQuiesceAck p) s = .next t ∧ only t { j with ctxEnds := [] } ∧
      t = { s with jegons := t.jegons })) ∧
    (∀ a, writer a (offJegCtl p) →
      (exec (.jegEnableWrite a p j.en) s = .next s) ∧
      (j.en = false → ∃ t, exec (.jegEnableWrite a p true) s = .next t ∧
        only t { j with en := true, quiesce := false, engineAck := false, blockAck := false } ∧
        t.sent = s.sent ++ (if j.quiesce then [.jegCtl p .withdraw] else []) ∧ t = { s with jegons := t.jegons, sent := t.sent }) ∧
      (j.en = true → ∃ t, exec (.jegEnableWrite a p false) s = .next t ∧ only t { j with en := false, quiesce := true } ∧
        t.sent = s.sent ++ [.jegCtl p .quiesce] ∧ t = { s with jegons := t.jegons, sent := t.sent }) ∧
      (j.refusing = false → (j.engineAck = false ∨ j.blockAck = false) → exec (.jegReset a p) s = .next s) ∧
      (j.refusing = false → j.engineAck = true → j.blockAck = true → ∃ t, exec (.jegReset a p) s = .next t ∧
        only t { jegonDefault p with
          cause := j.cause, reset := true, fills := j.fills.map (fun x => (deadTag, x.2)), wbs := j.wbs.map (fun x => (deadTag, x.2)),
          engineAck := true, blockAck := true } ∧
        t.ops = s.ops.map (fun o => if o.src = .jegon p then { o with owner := .tag deadTag } else o) ∧ entriesOf t (bufJegon p) = [] ∧
        (∀ b, b ≠ bufJegon p → entriesOf t b = entriesOf s b) ∧ t.sent = s.sent ++ [.jegCtl p .reset] ∧
        t = { s with jegons := t.jegons, sent := t.sent, xlat := t.xlat, ops := t.ops }))

/-- Events of the host link (R480, R481, R501, R505, R515). Readings and choices of the model in it: log 39, 73. -/
def Obligations.HostLinkEvents : Prop :=
  ∀ s : State,
    (∀ (w r : Nat) (cxl f : Bool), exec (.linkTrained w r cxl f) s = .next (if cxl = true ∧ s.kiln.released = true then
      { s with link := { s.link with up := true, retrain := false, width := w, rate := r, flit256 := f } } else s)) ∧
    exec .linkDown s = .next (if s.link.up then { s with link := { s.link with up := false, retrain := true } } else s) ∧
    exec .linkRestored s = .next (if s.link.retrain then { s with link := { s.link with up := true, retrain := false } } else s) ∧
    (∀ a, writer a offRearm →
      let may : Prop := s.link.hostAbsent = true ∧ s.link.up = true ∧ hostQuiet s = true
      (¬ may → exec (.rearm a) s = .next s) ∧
      (may → quietHomes s → s.vecs = [] →
        exec (.rearm a) s = .next { s with link := { s.link with hostAbsent := false, epoch := s.link.epoch + 1 } }) ∧
      (∀ v x, may → quietHomes s → s.vecs = [(v, x)] → x.pending = true → x.masked = false → ∃ t, exec (.rearm a) s = .next t ∧
        t.sent = s.sent ++ [.msix v x.addr x.data] ∧ (vecOf t v).pending = false ∧
        t = { s with
          sent := t.sent, vecs := t.vecs, link := { s.link with hostAbsent := false, epoch := s.link.epoch + 1 } })) ∧
    (∀ base size, exec (.hdmDecoderCommit base size) s = .next (if chipValid s = true ∧ s.mem.topMib ≠ 0 then
        { s with link := { s.link with hdmCommit := true, hdmError := false, hdmBase := base, hdmSize := size } }
      else { s with link := { s.link with hdmCommit := false, hdmError := true } })) ∧
    (∀ b, exec (.configWrite (.atsEnable b)) s = .next { s with link := { s.link with ats := b } } ∧
      exec (.configWrite (.pasidEnable b)) s = .next { s with link := { s.link with pasid := b } } ∧
      exec (.configWrite (.cacheEnable b)) s = .next { s with link := { s.link with cacheOn := b } } ∧
      exec (.configWrite (.memEnable b)) s = .next { s with link := { s.link with memOn := b && s.link.flit256 } } ∧
      exec (.configWrite (.viralEnable b)) s = .next { s with link := { s.link with viralOn := b } }) ∧
    (∀ v, exec (.configWrite (.atsStu v)) s = .next { s with link := { s.link with stu := v } }) ∧
    exec (.configWrite .priDisable) s = .next { s with link := { s.link with pri := false } } ∧
    (∀ v addr data, 2048 ≤ v → exec (.configWrite (.msixEntry v addr data)) s = .next s ∧
      exec (.configWrite (.msixMask v)) s = .next s ∧ exec (.msixVectorUnmask v) s = .next s) ∧
    (∀ v addr data, v < 2048 →
      (∃ t, exec (.configWrite (.msixEntry v addr data)) s = .next t ∧ vecOf t v = { vecOf s v with addr := addr, data := data } ∧
        (∀ u, u ≠ v → vecOf t u = vecOf s u) ∧ t = { s with vecs := t.vecs }) ∧
      (∃ t, exec (.configWrite (.msixMask v)) s = .next t ∧ vecOf t v = { vecOf s v with masked := true } ∧
        (∀ u, u ≠ v → vecOf t u = vecOf s u) ∧ t = { s with vecs := t.vecs })) ∧
    (∀ tag addr, exec (.cxlIoUnsupported tag addr) s = .next { s with sent := s.sent ++ [.ioUnsupported tag] })

/-- Loss of the host (R382, R506 to R516, R673). What a host reset clears of the configuration is the model's choice (log 31). Readings and choices of the model in it: log 36, 57, 58. -/
def Obligations.HostAbsence : Prop :=
  (∀ s : State, ∀ x ∈ [(Instr.hostAbsentEntry, false), (.hostLinkReset .dlDown, false), (.hostLinkReset .hotReset, false),
      (.hostLinkReset .cxlReset, s.link.up), (.hostLinkReset .secondaryBusReset, false)], ∃ t, exec x.1 s = .next t ∧
    t.link.hostAbsent = true ∧ t.link.up = x.2 ∧
    (x.1 ≠ .hostAbsentEntry → t.vecs = [] ∧ t.link.cacheOn = false ∧ t.link.memOn = false ∧ t.link.ats = false ∧
      t.link.pasid = false ∧ t.link.pri = false ∧ t.link.hdmCommit = false) ∧
    (s.link.hostAbsent = false → ∀ c y, ctxOf s c = some y → y.hostDep = true → y.state = .active →
      ∃ y', ctxOf t c = some y' ∧ y'.state ≠ .active) ∧
    (s.link.hostAbsent = false → quietHomes s → s.ops = [] → nothingWaits s → s.xlat.reqs = [] → s.xlat.prgs = [] → s.xlat.faultQ = [] →
      (∀ p ∈ s.ctxs, dependsOnHost s p.1 = false) → s.kiln.tdi ≠ .run →
      hasFault t unitLin 0x3D ∧ t.watches = [] ∧ t.link.rereadQ = [] ∧ t.xlat.buffers = [] ∧ t.home.hdm = [] ∧
      (admqOf t 0).en = false ∧ (∀ v, (vecOf t v).pending = false) ∧
      (∀ p ∈ t.home.grout, isHost (p.1 * 256) = false) ∧
      (∀ l c, s.home.hdm = [(l, .a)] → isHost (l * 64) = false → sectorOf s (l * 64) = some c →
        sectorOf t (l * 64) = some { c with d := true, p := true }) ∧
      (∀ p c, isHost p = false → tfind s.home.hdm (p / 64) = none → sectorOf s p = some c → sectorOf t p = some c))) ∧
  (∀ s : State, s.link.hostAbsent = true →
    exec .hostAbsentEntry s = .next { s with link := { s.link with up := false, retrain := false } }) ∧
  (∀ s : State, rising s.ctxs → s.xlat.reqs = [] → s.xlat.prgs = [] → s.xlat.faultQ = [] → (∀ p ∈ s.cores, p.2.wait = none ∧ p.2.ntBufs = []) →
    ∃ t, exec .functionLevelReset s = .next t ∧ t.vecs = [] ∧ t.watches = [] ∧ t.xlat.buffers = [] ∧ (admqOf t 0).en = false ∧
    (∀ c x, ctxOf s c = some x → x.queue = 0 → ∃ x', ctxOf t c = some x' ∧ x'.state = .destroying) ∧
    (∀ c x, ctxOf s c = some x → x.queue ≠ 0 → ∃ x', ctxOf t c = some x' ∧ x'.queue = x.queue ∧
      (x'.state = .destroying → x.state = .destroying)))

/-- Doorbells and vectors (R486 to R492, R503, R531, R535). Readings and choices of the model in it: log 36, 39, 82. -/
def Obligations.DoorbellsAndVectors : Prop :=
  (∀ (s : State) (id : OpId) (hpa : Nat) (d : List Byte) (p : Bool), idCurrent s id = true → nothingWaits s →
    let used : Prop := (∃ o ∈ s.ops, o.id = id) ∨ (∃ x ∈ s.home.txns, x.2.hostWait = some id ∨ x.2.biWait = some id) ∨
      ∃ x ∈ s.watches, x.2.rereading = some id
    ((∀ w, watchOf s (hpa / 64) = some w → w.rereading ≠ some id) →
      (used → exec (.doorbellRereadDone ⟨id, hpa⟩ d p) s = .next s) ∧
      (¬ used → exec (.doorbellRereadDone ⟨id, hpa⟩ d p) s = .next (releaseId id false s))) ∧
    (∀ w n r, watchOf s (hpa / 64) = some w → w.rereading = some id → w.again = false → d.length = 64 →
      s.rings = [(n, r)] → r.doorbell / 64 = hostKey (hpa / 64 * 64) / 64 → s.admqs = [] →
      ∃ t, exec (.doorbellRereadDone ⟨id, hpa⟩ d p) s = .next t ∧
      watchOf t (hpa / 64) = some ⟨true, none, false, d, p⟩ ∧
      (p = false → tailStep r.tail (lineWord d (r.doorbell / 8 % 8)) ≤ 2 ^ r.log2n - (r.tail - r.oldest) → ∀ a, readByte t.mem.host a =
        if hpa / 64 * 64 ≤ a ∧ a < hpa / 64 * 64 + 64 then d.getD (a - hpa / 64 * 64) 0 else readByte s.mem.host a) ∧
      (p = false → passesTail n r (lineWord d (r.doorbell / 8 % 8)) s t) ∧
      (∀ c, p = true → ctxOf s r.ctx = some c → c.state = .active → hasFault t unitLin 0x3A ∧ lostCtx t r.ctx))) ∧
  (∀ (s : State) (pa : Nat),
    (tget noB s.devWatch (pa / 64) = false → exec (.deviceDoorbellRing pa) s = .next s) ∧
    (∀ n r d, tget noB s.devWatch (pa / 64) = true → lintelRead (.bell (pa / 64)) (some (pa / 64 * 64)) 64 s = (some (d, .ok), s) → s.rings = [(n, r)] →
      r.doorbell / 64 = pa / 64 → s.admqs = [] → ∃ t, exec (.deviceDoorbellRing pa) s = .next t ∧
      passesTail n r (lineWord d (r.doorbell / 8 % 8)) s t)) ∧
  (∀ s : State,
    (fieldOf (reg s offDbPoll) 15 0 = 0 → exec .doorbellPoll s = .next s) ∧
    (∀ l w id v, fieldOf (reg s offDbPoll) 15 0 ≠ 0 → s.watches = [(l, w)] → w.rereading = none → s.link.rereadQ = [] →
      s.link.hostAbsent = false → takeId pathHost 0 s = some (id, v) → exec .doorbellPoll s = .next { s with
        watches := [(l, { w with inS := false, rereading := some id })], idents := v.idents,
        sent := s.sent ++ [.reread (l * 64) 0 id] })) ∧
  (∀ (s : State) (v : Nat),
    let x := vecOf s v
    let only (t : State) (y : Vec) : Prop := vecOf t v = y ∧ (∀ u, u ≠ v → vecOf t u = vecOf s u) ∧
      t = { s with vecs := t.vecs, sent := t.sent }
    let held : Bool := decide (fieldOf (reg s offHoldoff) 7 0 ≠ 0)
    (x.holdoff = false → exec (.irqHoldoffExpiry v) s = .next s) ∧
    (x.holdoff = true → ∃ t, exec (.irqHoldoffExpiry v) s = .next t ∧
      (x.again = false → t.sent = s.sent ∧ only t { x with holdoff := false }) ∧
      (x.again = true → x.masked = false → s.link.hostAbsent = false →
        t.sent = s.sent ++ [.msix v x.addr x.data] ∧ only t { x with pending := false, again := false, holdoff := held })) ∧
    (v < 2048 → ∃ t, exec (.msixVectorUnmask v) s = .next t ∧
      (x.pending = false ∨ s.link.hostAbsent = true → t.sent = s.sent ∧ only t { x with masked := false }) ∧
      (x.pending = true → s.link.hostAbsent = false → x.holdoff = true →
        t.sent = s.sent ∧ only t { x with masked := false, pending := false, again := true }) ∧
      (x.pending = true → s.link.hostAbsent = false → x.holdoff = false →
        t.sent = s.sent ++ [.msix v x.addr x.data] ∧ only t { x with masked := false, pending := false, holdoff := held })))

/-- Hod descriptors (R493 to R498, R529, R539). Readings and choices of the model in it: log 39, 60. -/
def Obligations.HodDescriptors : Prop :=
  (∀ (s : State) (e n kind : Nat) (r : Ring) (b : List Byte), hodTurn e n kind r b s →
    let src := entryField b 16 8
    let dst := entryField b 24 8
    let len := entryField b 8 5
    let begun (t : State) : Prop :=
      ringOf t n = some { r with started := r.started ++ [(r.next, b)], next := r.next + 1 } ∧
      (∀ k, k ≠ n → ringOf t k = ringOf s k) ∧ (hodOf t e).turn = n + 1 ∧ (hodOf t e).started.length = 1 ∧
      t = { s with sent := t.sent, rings := t.rings, hods := t.hods, ops := t.ops, idents := t.idents, mortar := t.mortar }
    (∀ x ∈ [(Instr.hodCopy e n, 1), (.hodFill e n, 2), (.hodReduce e n, 3)], x.2 ≠ kind → exec x.1 s = .next s) ∧
    (∀ pd id, kind = 2 → firmPlace s dst pd → hodSends e b pd s id → touchesHost s dst len = false → dst % 256 + len ≤ 256 →
      ∃ t, exec (.hodFill e n) s = .next t ∧ begun t ∧
      t.sent = s.sent ++ [.operation (.hod e) .put 0 (hodEnv s b) pd len ((List.range len).map fun i =>
        BitVec.ofNat 8 (src / 2 ^ (8 * ((dst + i) % 8)))) [] 0 id]) ∧
    (∀ ps pd k id, (kind = 1 ∧ k = len ∧ dst % 256 + len ≤ 256) ∨ (kind = 3 ∧ hodOpSize (entryField b 3 1) (entryField b 56 1) = some k ∧ len = k) →
      firmPlace s src ps → firmPlace s dst pd → hodSends e b ps s id → touchesHost s src len = false → touchesHost s dst len = false →
      src % 256 + k ≤ 256 → ∃ t, exec (if kind = 1 then .hodCopy e n else .hodReduce e n) s = .next t ∧ begun t ∧
      t.sent = s.sent ++ [.operation (.hod e) .get 0 (hodEnv s b) ps k [] [] 0 id])) ∧
  (∀ (s : State) (e n : Nat) (r : Ring), hasHod s e = true → ringOf s n = some r → r.engine ≠ e →
    exec (.hodCopy e n) s = .next s ∧ exec (.hodFill e n) s = .next s ∧ exec (.hodReduce e n) s = .next s) ∧
  (∀ (s : State) (e n : Nat) (x : HodRun) (r : Ring) (b : List Byte), hasHod s e = true → (hodOf s e).started = [x] →
    x.ring = n → x.ctx = r.ctx → ringOf s n = some r → r.engine = e → r.kind = 1 → ctxActive s r.ctx = true →
    (runOps s e n x.seq = true → exec (.hodComplete e n x.seq) s = .next s) ∧
    (runEnded s e x = true → x.status = 0 → x.kind = 2 → r.started = [(x.seq, b)] → r.recorded = [] → r.oldest = x.seq →
      r.done = [] → r.next = x.seq + 1 → b.length = 64 → entryField b 32 8 = 0 → fIntr (hFlags b) = false → entryQuiet s n x.seq →
      let at_ := r.compl + x.seq % 2 ^ r.log2n * 32
      at_ % 32 = 0 → plainPlace s at_ → ∃ t, exec (.hodComplete e n x.seq) s = .next t ∧
      (readMem t at_ 32).1 = [1, 8, 0, 0] ++ leBytes 4 (x.seq % 2 ^ 32) ++ (b.drop 48).take 8 ++ leBytes 2 n ++ leBytes 2 r.ctx ++
        zeroBytes 12 ∧
      ringOf t n = some { r with started := [], oldest := x.seq + 1 } ∧ (hodOf t e).started = [] ∧ t.ops = s.ops ∧
      t.ctxs = s.ctxs))

/-- The admin queues (R519 to R524, R710). Readings and choices of the model in it: log 39, 54. -/
def Obligations.AdminQueues : Prop :=
  (∀ (s : State) (g : RegAgent) (q : Nat), q < 3 → writer g (0x400100 + 0x10 * q) →
    let a := admqOf s q
    let ag : Bool := q != 0
    let others (t : State) : Prop := ∀ p, p ≠ q → admqOf t p = admqOf s p
    (a.en = true → exec (.admqEnable g q) s = .next s) ∧
    (a.en = false → ∃ t, exec (.admqDisable g q) s = .next t ∧ admqOf t q = { a with loading := false } ∧ others t ∧
      t = { s with admqs := t.admqs }) ∧
    (∀ d, a.en = false → s.front = [] →
      lintelRead (.enable q) (lintelKey s ag (a.ptrHi.toNat * 2 ^ 32 + a.ptrLo.toNat)) 64 s = (some (d, .ok), s) →
      (queueBad q d = true → ∃ t, exec (.admqEnable g q) s = .next t ∧ admqOf t q = { a with bad := true, loading := false } ∧ others t ∧
        t = { s with admqs := t.admqs }) ∧
      (∀ bell m, queueBad q d = false → lintelKey s ag (entryField d 24 8) = some bell → placeOf s bell = .dev bell →
        s.devWatch.length < 1024 → lintelRead (.enable q) (some bell) 8 s = (some (m, .ok), s) → ∃ t, exec (.admqEnable g q) s = .next t ∧ others t ∧
        tget noB t.devWatch (bell / 64) = true ∧
        (let w : Word64 := BitVec.ofNat 64 (leNat m)
         admqOf t q = { a with
          en := true, loading := false, bad := false, log2n := entryField d 2 1, inboxLog2 := entryField d 3 1,
          vector := BitVec.ofNat 16 (entryField d 4 2), entries := keyOr s ag (entryField d 8 8),
          compl := keyOr s ag (entryField d 16 8), doorbell := bell, inbox := keyOr s ag (entryField d 32 8),
          tail := w.toNat % 2 ^ 32, next := w.toNat % 2 ^ 32, passed := w }) ∧
        t = { s with admqs := t.admqs, devWatch := t.devWatch, inbox := if q = 1 then (0, []) else s.inbox })) ∧
    (a.en = true → ∃ t, exec (.admqDisable g q) s = .next t ∧ admqOf t q = { a with en := false } ∧ others t ∧
      t = { s with admqs := t.admqs, watches := t.watches, devWatch := t.devWatch })) ∧
  (∀ (s : State) (q : Nat), q < 3 → ∀ x ∈ adminRows q,
    ((admqOf s q).en = false ∨ (admqOf s q).tail ≤ (admqOf s q).next → exec x.1 s = .next s) ∧
    (∀ b, adminTurn q b s →
      let o := entryField b 1 1
      let bad : Prop := entryField b 0 1 ≠ 1 ∨ o = 0 ∨ 0x0A < o ∨ (q ≠ 1 ∧ 9 ≤ o)
      (bad → ∃ t, exec x.1 s = .next t ∧ adminAnswered q 0x20 0xFFFF b s t ∧ onlyMemory s t ∧ t.ctxs = s.ctxs ∧ t.rings = s.rings) ∧
      (¬ bad → o ≠ x.2 → exec x.1 s = .next s)))

/-- Contexts (R525 to R527, R549 to R552, R649). Readings and choices of the model in it: log 39, 54, 59. -/
def Obligations.ContextLifecycle : Prop :=
  (∀ (s : State) (q : Nat) (b : List Byte), adminOp q 0x01 b s → ∀ d,
    let c := entryField b 2 2
    lintelRead (.admin q 0x01) (lintelKey s (q != 0) (entryField b 8 8)) 64 s = (some (d, .ok), s) →
    let sec := BitVec.ofNat 12 (entryField d 12 4)
    let st : Nat := if ctxBad c d then 0x20 else if (ctxOf s c).isSome then 0x21 else if entryField d 4 4 ≠ s.link.epoch.toNat then 0x23
      else if securityRefused s q (entryField d 8 4) sec then 0x24 else 0
    ∃ t, exec (.ctxCreate q) s = .next t ∧ adminAnswered q st c b s t ∧ onlyMemory s t ∧ t.rings = s.rings ∧
      (∀ k, k ≠ c → ctxOf t k = ctxOf s k) ∧ (st ≠ 0 → ctxOf t c = ctxOf s c) ∧
      (st = 0 → ∃ x, ctxOf t c = some x ∧ x.state = .active ∧ x.queue = q ∧ x.pasid = entryField d 8 4 ∧ x.security = sec ∧
        x.ttsbase = BitVec.ofNat 64 (entryField d 16 8) ∧ x.ntwin.getD 0 0 = BitVec.ofNat 64 (entryField d 24 8) ∧
        x.lossVec = BitVec.ofNat 16 (entryField d 56 2) ∧ x.fences = [] ∧ x.pages = 0 ∧ x.hostDep = false)) ∧
  (∀ (s : State) (q : Nat) (b : List Byte), adminOp q 0x02 b s →
    let c := entryField b 2 2
    ((∀ x, ¬ mayName s q c x) → ∃ t, exec (.ctxDestroy q) s = .next t ∧ adminAnswered q 0x22 c b s t ∧ t.ctxs = s.ctxs) ∧
    (∀ x, mayName s q c x → x.state = .destroying → ∃ t, exec (.ctxDestroy q) s = .next t ∧ adminAnswered q 0x21 c b s t ∧
      t.ctxs = s.ctxs) ∧
    (∀ x, mayName s q c x → x.state = .lost → ∃ t, exec (.ctxDestroy q) s = .next t ∧
      ctxOf t c = some { x with state := .destroying, destroyer := some q } ∧ (∀ k, k ≠ c → ctxOf t k = ctxOf s k) ∧
      (admqOf t q).busy = some ((admqOf s q).next, BitVec.ofNat 64 (entryField b 48 8)) ∧
      (∀ n r, rising s.rings → ringOf s n = some r → ringOf t n = some (if r.ctx = c then { r with state := .stop } else r)) ∧
      t = { s with ctxs := t.ctxs, rings := t.rings, admqs := t.admqs }) ∧
    (∀ x, mayName s q c x → x.state = .active → ∃ t x', exec (.ctxDestroy q) s = .next t ∧ ctxOf t c = some x' ∧
      x'.state = .destroying ∧ x'.destroyer = some q ∧ ∀ n r, ringOf t n = some r → r.ctx = c → r.state = .stop)) ∧
  (∀ (s : State) (c : Nat) (x : Ctx), ctxOf s c = some x → unitWaits s (.loss c) = false →
    (x.state ≠ .destroying ∨ workEnded s c = false → exec (.ctxDestroyDone c) s = .next s) ∧
    (x.state ≠ .lost ∨ workEnded s c = false → exec (.contextLossDone c) s = .next s) ∧
    (∀ q seq tag, x.state = .destroying → workEnded s c = true → x.fences = [] → x.destroyer = some q → ringsOf s c = [] →
      tilesOf s c = [] → (admqOf s q).busy = some (seq, tag) →
      let a := admqOf s q
      let at_ := a.compl + seq % 2 ^ a.log2n * 32
      at_ % 32 = 0 → plainPlace s at_ → ∃ t, exec (.ctxDestroyDone c) s = .next t ∧ ctxOf t c = none ∧
      (∀ k, k ≠ c → ctxOf t k = ctxOf s k) ∧ admqOf t q = { a with busy := none, next := seq + 1 } ∧
      (readMem t at_ 32).1 = recordBytes 0 seq tag (0xFFF0 + q) c ∧ t.rings = s.rings) ∧
    (∀ f, x.state = .lost → workEnded s c = true → x.lossDone = false → x.flagged = false → x.fences = [f] → f % 8 = 0 → ringsOf s c = [] →
      plainPlace s f → (readMem s f 8).2 = false →
      ∃ t, exec (.contextLossDone c) s = .next t ∧ ctxOf t c = some { x with lossDone := true, flagged := true } ∧
      (∀ k, k ≠ c → ctxOf t k = ctxOf s k) ∧
      leNat (readMem t f 8).1 = leNat (readMem s f 8).1 % 2 ^ 63 + 2 ^ 63 ∧ onlyMemory s t ∧ t.rings = s.rings))

/-- Services of the admin queues to contexts (R528, R551, R559, R561). Readings and choices of the model in it: log 32, 55. -/
def Obligations.ContextServices : Prop :=
  ∀ (s : State) (q op : Nat) (b : List Byte), adminOp q op b s →
    let c := entryField b 2 2
    let a := admqOf s q
    let rec_ := a.compl + a.next % 2 ^ a.log2n * 32
    ((∀ x, ¬ mayName s q c x) → ∀ y ∈ [(Instr.query q, 0x06), (.pages q, 0x07), (.fenceBind q, 0x08)], op = y.2 →
      ∃ t, exec y.1 s = .next t ∧ adminAnswered q 0x22 c b s t ∧ t.ctxs = s.ctxs ∧ onlyMemory s t) ∧
    (∀ x, mayName s q c x →
      (op = 0x06 → entryField b 8 8 % 128 ≠ 0 → ∃ t, exec (.query q) s = .next t ∧ adminAnswered q 0x20 c b s t ∧ t.ctxs = s.ctxs) ∧
      (∀ pa, op = 0x06 → entryField b 8 8 % 128 = 0 → lintelKey s (q != 0) (entryField b 8 8) = some pa → pa % 128 = 0 →
        plainPlace s pa → plainPlace s (pa + 64) → (rec_ + 32 ≤ pa ∨ pa + 128 ≤ rec_) → ∃ t, exec (.query q) s = .next t ∧
        adminAnswered q 0 c b s t ∧ t.ctxs = s.ctxs ∧ onlyMemory s t ∧ (readMem t pa 128).1 = queryBytes s c x) ∧
      (op = 0x07 → (x.pages : Int) + signedOf 8 (entryField b 8 8) < 0 → ∃ t, exec (.pages q) s = .next t ∧
        adminAnswered q 0x20 c b s t ∧ t.ctxs = s.ctxs) ∧
      (∀ n : Nat, op = 0x07 → (x.pages : Int) + signedOf 8 (entryField b 8 8) = n → n < 2 ^ 64 → ∃ t, exec (.pages q) s = .next t ∧
        adminAnswered q 0 c b s t ∧ ctxOf t c = some { x with pages := n } ∧ (∀ k, k ≠ c → ctxOf t k = ctxOf s k) ∧
        onlyMemory s t) ∧
      (∀ pa, op = 0x08 → x.state = .active → entryField b 8 8 % 8 = 0 → lintelKey s (x.queue != 0) (entryField b 8 8) = some pa →
        let bound (st : Nat) (fs : List Nat) : Prop := ∃ t, exec (.fenceBind q) s = .next t ∧ adminAnswered q st c b s t ∧
          ctxOf t c = some { x with fences := fs } ∧ (∀ k, k ≠ c → ctxOf t k = ctxOf s k) ∧ onlyMemory s t
        let bind : Prop := entryField b 16 1 % 2 = 1
        (bind → pa ∈ x.fences → bound 0 x.fences) ∧
        (bind → pa ∉ x.fences → fencePlace s pa = true → bound (if 16 ≤ x.fences.length then 0x25 else 0)
          (if 16 ≤ x.fences.length then x.fences else x.fences ++ [pa])) ∧
        (¬ bind → bound (if pa ∈ x.fences then 0 else 0x22) (x.fences.filter (· ≠ pa))))) ∧
    (∀ x, q = 1 → op = 0x09 → ctxOf s c = some x →
      let n := entryField b 4 2
      let tl := tileOf s n
      let others (t : State) : Prop := otherTiles n s t ∧ t.ctxs = s.ctxs ∧ onlyMemory s t
      hasTile s n = true →
      (entryField b 6 1 % 2 = 1 → x.state = .active → (tl.bound.isSome = true ∨ trowelHeld s n = false) →
        ∃ t, exec (.tileBind q) s = .next t ∧ adminAnswered q 0x21 c b s t ∧ t.tiles = s.tiles ∧ others t) ∧
      (entryField b 6 1 % 2 = 1 → x.state = .active → tl.bound = none → trowelHeld s n = true → (courseOf s (n / 16)).live = true →
        x.security = tl.prot → ∃ t, exec (.tileBind q) s = .next t ∧ adminAnswered q 0 c b s t ∧
        tileOf t n = { tl with bound := some c } ∧ (coreOf t n).csr.tctx = BitVec.ofNat 12 c ∧
        (coreOf t n).csr.ttsbase = x.ttsbase ∧ tget zeroOf (coreOf t n).csr.ntwin 0 = x.ntwin.getD 0 0 ∧ others t) ∧
      (entryField b 6 1 % 2 = 0 → tl.bound = some c → tl.queue = [] → trowelHeld s n = true → bitOf x.security 10 = false →
        ∃ t, exec (.tileBind q) s = .next t ∧ adminAnswered q 0 c b s t ∧ tileOf t n = { tl with bound := none } ∧ others t))

/-- Rings and scheduler entries (R531 to R537, R546 to R548). Readings and choices of the model in it: log 39, 53, 54, 57. -/
def Obligations.RingLifecycle : Prop :=
  (∀ (s : State) (q : Nat) (b : List Byte), adminOp q 0x03 b s → ∀ bell d,
    let c := entryField b 2 2
    let n := entryField b 4 2
    let ag : Bool := q != 0 || bitOf (b.getD 7 0) 1
    lintelKey s ag (entryField b 32 8) = some bell → ringBad s q b = false → wordServed s bell = false → placeOf s bell = .dev bell →
    lintelRead (.admin q 0x03) (some bell) 8 s = (some (d, .ok), s) →
    let entries := keyOr s ag (entryField b 8 8)
    let compl := keyOr s ag (entryField b 24 8)
    let l := entryField b 16 1
    ((ringOf s n).isSome = true → ∃ t, exec (.ringCreate q) s = .next t ∧ adminAnswered q 0x21 c b s t ∧ t.rings = s.rings) ∧
    (ringOf s n = none → (∀ x, ¬ mayName s q c x) → ∃ t, exec (.ringCreate q) s = .next t ∧ adminAnswered q 0x22 c b s t ∧
      t.rings = s.rings) ∧
    (∀ x, ringOf s n = none → mayName s q c x → x.state = .active →
      (∀ g ∈ rangeGranules s entries (2 ^ l * 64) ++ rangeGranules s compl (2 ^ l * 32) ++ rangeGranules s bell 8,
        changing s g = false ∧ admits s (.context x.security) g = true) →
      n < 16384 → s.rings.length < 16384 → (ringsOf s c).length < 256 → s.devWatch.length < 1024 →
      let w : Word64 := BitVec.ofNat 64 (leNat d)
      let m := w.toNat % 2 ^ 32
      ∃ t, exec (.ringCreate q) s = .next t ∧ adminAnswered q 0 c b s t ∧ tget noB t.devWatch (bell / 64) = true ∧
      ringOf t n = some ⟨c, entryField b 6 1, b.getD 7 0, entries, l, entryField b 17 1, entryField b 18 2 % 2 ^ 11, compl, bell, .run,
        m, m, w, m, [], [], [], none⟩ ∧
      (∀ k, k ≠ n → ringOf t k = ringOf s k) ∧ t.ctxs = s.ctxs ∧ onlyMemory s t)) ∧
  (∀ (s : State) (q op : Nat) (b : List Byte), adminOp q op b s →
    let n := entryField b 4 2
    (op = 0x04 ∨ op = 0x05 → ringOf s n = none →
      ∃ t, exec (if op = 0x04 then .ringDestroy q else .ringResume q) s = .next t ∧ adminAnswered q 0x22 0xFFFF b s t ∧
      t.rings = s.rings) ∧
    (∀ r x, ringOf s n = some r → mayName s q r.ctx x →
      (op = 0x05 → ∃ t, exec (.ringResume q) s = .next t ∧ adminAnswered q (if r.state = .halt then 0 else 0x20) 0xFFFF b s t ∧
        ringOf t n = some (if r.state = .halt then { r with state := .run } else r) ∧ (∀ k, k ≠ n → ringOf t k = ringOf s k) ∧
        t.ctxs = s.ctxs ∧ onlyMemory s t) ∧
      (op = 0x04 → r.destroyer.isSome = true → ∃ t, exec (.ringDestroy q) s = .next t ∧ adminAnswered q 0x21 0xFFFF b s t ∧
        t.rings = s.rings) ∧
      (op = 0x04 → r.destroyer = none → r.tail ≤ r.oldest → ∃ t, exec (.ringDestroy q) s = .next t ∧
        ringOf t n = some { r with state := .stop, destroyer := some q } ∧ (∀ k, k ≠ n → ringOf t k = ringOf s k) ∧
        (admqOf t q).busy = some ((admqOf s q).next, BitVec.ofNat 64 (entryField b 48 8)) ∧
        t = { s with rings := t.rings, admqs := t.admqs }))) ∧
  (∀ (s : State) (n q seq : Nat) (tag : Word64) (r : Ring), ringOf s n = some r →
    (r.destroyer = none → exec (.ringDestroyDone n) s = .next s) ∧
    (∀ b, r.destroyer = some q → r.started = [(r.oldest, b)] → r.done = [] → r.tail = r.oldest + 1 → s.waits = [] →
      exec (.ringDestroyDone n) s = .next s) ∧
    (r.destroyer = some q → r.started = [] → r.tail ≤ r.oldest → (admqOf s q).busy = some (seq, tag) →
      let a := admqOf s q
      let at_ := a.compl + seq % 2 ^ a.log2n * 32
      at_ % 32 = 0 → plainPlace s at_ → ∃ t, exec (.ringDestroyDone n) s = .next t ∧ ringOf t n = none ∧
      (∀ k, k ≠ n → ringOf t k = ringOf s k) ∧ admqOf t q = { a with busy := none, next := seq + 1 } ∧
      (readMem t at_ 32).1 = recordBytes 0 seq tag (0xFFF0 + q) 0xFFFF ∧ t.ctxs = s.ctxs ∧ onlyMemory s t)) ∧
  (∀ (s : State) (n : Nat) (r : Ring) (b : List Byte), ringOf s n = some r → r.kind = 2 → runnable s n r = true →
    readEntry (.entry n 0x21) r r.next s = (some (b, .ok), s) → b.length = 64 → entryField b 0 1 = 1 → fFence (hFlags b) = false →
    entryField b 1 1 = 0x21 → schedBad b = false →
    let a := admqOf s 1
    let at_ := a.inbox + s.inbox.1 % 2 ^ a.inboxLog2 * 128
    (a.en = false ∨ 2 ^ a.inboxLog2 ≤ s.inbox.2.length → exec (.schedEntry n) s = .next s) ∧
    (a.en = true → s.inbox.2.length < 2 ^ a.inboxLog2 → at_ % 128 = 0 → plainPlace s at_ → plainPlace s (at_ + 64) →
      ∃ t, exec (.schedEntry n) s = .next t ∧
      (readMem t at_ 128).1 = b ++ leBytes 4 (r.next % 2 ^ 32) ++ leBytes 2 n ++ leBytes 2 r.ctx ++ zeroBytes 56 ∧
      t.inbox = (s.inbox.1 + 1, s.inbox.2 ++ [(n, r.next)]) ∧ (coreOf t 192).csr.meip = true ∧
      ringOf t n = some { r with started := r.started ++ [(r.next, b)], next := r.next + 1 } ∧
      (∀ k, k ≠ n → ringOf t k = ringOf s k) ∧ t.ctxs = s.ctxs ∧ onlyMemory s t)) ∧
  (∀ (s : State) (b e : List Byte) (seq : Nat) (r : Ring), adminOp 1 0x0A b s →
    let n := entryField b 4 2
    let k := entryField b 8 4
    (ringOf s n = none → ∃ t, exec (.schedDone 1) s = .next t ∧ adminAnswered 1 0x22 0xFFFF b s t ∧ t.rings = s.rings) ∧
    (entryEnds n seq r e s → seq % 2 ^ 32 = k → entryField e 1 1 = 0x21 → ctxActive s r.ctx = true →
      s.inbox.2 = [(n, seq)] →
      let a := admqOf s 1
      let mine := a.compl + a.next % 2 ^ a.log2n * 32
      let its := r.compl + seq % 2 ^ r.log2n * 32
      mine ≠ its → ∃ t, exec (.schedDone 1) s = .next t ∧ adminAnswered 1 0 0xFFFF b s t ∧
      entryEnded n seq (if entryField b 12 1 % 2 = 1 then 0x16 else 0) r e t ∧ t.inbox = (s.inbox.1, []) ∧
      t.ctxs = s.ctxs ∧ onlyMemory s t))

/-- Fence waits (R542 to R545). Readings and choices of the model in it: log 39, 56. -/
def Obligations.FenceWaits : Prop :=
  (∀ (s : State) (n : Nat), waitOf s n = none → exec (.fenceWaitEvaluate n) s = .next s ∧ exec (.fenceWaitTimeout n) s = .next s ∧
    exec (.fenceWaitPoll n) s = .next s) ∧
  (∀ (s : State) (n pa v : Nat) (r : Ring) (b : List Byte), ringOf s n = some r → runnable s n r = true →
    readEntry (.entry n 0x20) r r.next s = (some (b, .ok), s) → entryField b 0 1 = 1 → fFence (hFlags b) = false → entryField b 1 1 = 0x20 → s.waits = [] → r.started = [] → r.recorded = [] → r.oldest = r.next →
    r.done = [] →
    (waitBad b = false → fenceReads s r (entryField b 8 8) pa v → v < entryField b 16 8 % 2 ^ 63 →
      ∃ t, exec (.fenceWait n) s = .next t ∧
      t.waits = [⟨n, r.next, entryField b 8 8, pa, entryField b 16 8 % 2 ^ 63, entryField b 24 4, true⟩] ∧
      ringOf t n = some { r with started := [(r.next, b)], next := r.next + 1 } ∧ (∀ k, k ≠ n → ringOf t k = ringOf s k) ∧
      t.mem = s.mem ∧ onlyMemory s t) ∧
    (let at_ := r.compl + r.next % 2 ^ r.log2n * 32
     waitBad b = true → r.kind = 2 → bitOf r.flags 0 = false → fIntr (hFlags b) = false → entryQuiet s n r.next → at_ % 32 = 0 → plainPlace s at_ →
      ∃ t, exec (.fenceWait n) s = .next t ∧ t.waits = [] ∧
      ringOf t n = some { r with oldest := r.next + 1, next := r.next + 1 } ∧
      (readMem t at_ 32).1 = recordBytes 0x10 r.next (BitVec.ofNat 64 (entryField b 48 8)) n r.ctx ∧ onlyMemory s t)) ∧
  (∀ (s : State) (n v : Nat) (r : Ring) (b : List Byte) (w : FenceW), s.waits = [w] → w.ring = n → entryEnds n w.seq r b s →
    entryField b 1 1 = 0x20 → fenceReads s r w.addr w.pa v →
    let ends (i : Instr) (st : Nat) : Prop := ∃ t, exec i s = .next t ∧ t.waits = [] ∧ entryEnded n w.seq st r b t ∧
      (∀ k, k ≠ n → ringOf t k = ringOf s k) ∧ onlyMemory s t
    let stays (i : Instr) (w' : FenceW) : Prop := ∃ t, exec i s = .next t ∧ t.waits = [w'] ∧ t.rings = s.rings ∧ t.mem = s.mem ∧
      onlyMemory s t
    (2 ^ 63 ≤ v → ends (.fenceWaitEvaluate n) 0x14 ∧ (w.timeout ≠ 0 → ends (.fenceWaitTimeout n) 0x14) ∧
      (w.watched = false → ends (.fenceWaitPoll n) 0x14)) ∧
    (v < 2 ^ 63 → w.target ≤ v → ends (.fenceWaitEvaluate n) 0 ∧ (w.timeout ≠ 0 → ends (.fenceWaitTimeout n) 0) ∧
      (w.watched = false → ends (.fenceWaitPoll n) 0)) ∧
    (v < 2 ^ 63 → v < w.target → stays (.fenceWaitEvaluate n) w ∧ (w.timeout ≠ 0 → ends (.fenceWaitTimeout n) 0x15) ∧
      (w.watched = false → stays (.fenceWaitPoll n) { w with watched := true })) ∧
    (w.timeout = 0 → exec (.fenceWaitTimeout n) s = .next s) ∧ (w.watched = true → exec (.fenceWaitPoll n) s = .next s))

/-- Bond ports outside data transfer (R563 to R565, R570, R576), routes and the chip number (R268, R272). Readings and choices of the model in it: log 37, 39, 63. -/
def Obligations.BondNegotiation : Prop :=
  (∀ (s : State) (p : Nat), portIdle p s →
    let b := bondOf s p
    let only (t : State) (c : Bond) : Prop := bondOf t p = c ∧ (∀ k, k ≠ p → bondOf t k = bondOf s k)
    (∀ a v, writer a (offBnd p) → ∃ t, exec (.bondEnable a p v) s = .next t ∧ writesReg (offBnd p) (v &&& 0xFC000000) s t ∧
      (bitOf v 31 = bndEn s p → only t b ∧ t = { s with regs := t.regs }) ∧
      (bitOf v 31 = true → bndEn s p = false → only t { b with state := 1, laneMask := 0, rateMask := 0 } ∧
        t = { s with regs := t.regs, bonds := t.bonds }) ∧
      (bitOf v 31 = false → bndEn s p = true → portDown p 7 { s with regs := t.regs } t)) ∧
    (∀ lm rm, b.state = 1 → b.retraining = false → ∃ t m n, exec (.bondLanesTrained p lm rm) s = .next t ∧
      only t { b with laneMask := m, rateMask := n, state := if chipValid s then 2 else 1 } ∧ t = { s with bonds := t.bonds } ∧
      ∀ k, k < 3 → bitOf m k = (bitOf lm k && decide (laneCap s p ≤ k)) ∧ bitOf n k = (bitOf rm k && decide (rateCap s p ≤ k))) ∧
    (exec (.capabilitySend p) s = .next (if b.state = 2 ∨ b.state = 3 ∨ b.retraining = true then { s with sent := s.sent ++
      [.capability p ⟨1, b.laneMask, b.rateMask, chipSelf s, chipValid s, p⟩] } else s)) ∧
    (∀ cap : Capability, b.state = 2 → b.retraining = false →
      (cap.level = 0 ∨ cap.valid = false ∨ b.laneMask &&& cap.laneMask = 0 ∨ b.rateMask &&& cap.rateMask = 0 →
        exec (.capabilityFrame p cap) s = .next s) ∧
      (∀ l r, cap.level ≠ 0 → cap.valid = true → l < 3 → r < 3 → bitOf (b.laneMask &&& cap.laneMask) l = true →
        (∀ k, k < l → bitOf (b.laneMask &&& cap.laneMask) k = false) → bitOf (b.rateMask &&& cap.rateMask) r = true →
        (∀ k, k < r → bitOf (b.rateMask &&& cap.rateMask) k = false) → ∃ t, exec (.capabilityFrame p cap) s = .next t ∧
        only t { b with
          lanes := BitVec.ofNat 2 l, rate := BitVec.ofNat 2 r, level := 1, partnerChip := BitVec.ofNat 11 cap.self,
          partnerPort := BitVec.ofNat 5 cap.port, state := 3 } ∧ t = { s with bonds := t.bonds })) ∧
    ((b.state ≠ 2 → b.state ≠ 3 → exec (.negotiationTimeout p) s = .next s) ∧
     (b.state = 2 ∨ b.state = 3 → ∃ t, exec (.negotiationTimeout p) s = .next t ∧ portDown p 6 s t)) ∧
    (b.state = 5 → bndEn s p = true → ∃ t, exec (.bondRestart p) s = .next t ∧ only t { b with state := 1 } ∧
      t = { s with bonds := t.bonds }) ∧
    (b.state ≠ 5 ∨ bndEn s p = false → exec (.bondRestart p) s = .next s) ∧
    (∀ k : Keying,
      let fine : Prop := b.state = 3 ∧ k.chainOk = true ∧ s.kiln.fuses.minVersion ≤ k.version ∧ k.self = b.partnerChip.toNat
      (¬ fine → exec (.bondKeysInstalled p k) s = .next s) ∧
      (fine → b.owed = [] → ∃ t, exec (.bondKeysInstalled p k) s = .next t ∧ (bondOf t p).state = 4 ∧ (bondOf t p).key = false ∧
        (bondOf t p).txNum = 1 ∧ (bondOf t p).rxNum = 0 ∧ t.sent = s.sent ++ [.bondData p 0 false 0 0 0 []] ∧
        tfind (bondOf t p).keys 0 = some (Config.hkdf k.secret [0, chipSelf s, b.partnerChip.toNat, 0]) ∧
        tfind (bondOf t p).keys 2 = some (Config.hkdf k.secret [0, b.partnerChip.toNat, chipSelf s, 0]) ∧
        (∀ k, k ≠ p → bondOf t k = bondOf s k) ∧ t = { s with bonds := t.bonds, sent := t.sent })) ∧
    (b.state = 4 → (b.key ≠ latestKey b ∨ b.rxKey ≠ b.key) → exec (.nextKeyInstall p) s = .next s) ∧
    (b.state = 4 → b.key = latestKey b → b.rxKey = b.key → ∃ t, exec (.nextKeyInstall p) s = .next t ∧
      (bondOf t p).updates = b.updates + 1 ∧ (b.kept = [] → (bondOf t p).key = !b.key ∧ (bondOf t p).txNum = 0) ∧
      (b.kept ≠ [] → (bondOf t p).key = b.key ∧ (bondOf t p).txNum = b.txNum ∧ keyDue (bondOf t p) = true) ∧
      tfind (bondOf t p).keys (if b.key then 0 else 1) =
        some (Config.hkdf b.secret [0, chipSelf s, b.partnerChip.toNat, b.updates + 1]) ∧
      tfind (bondOf t p).keys (if b.key then 1 else 0) = tfind b.keys (if b.key then 1 else 0) ∧ t = { s with bonds := t.bonds }) ∧
    (b.state ≠ 4 → ∀ i ∈ [Instr.nextKeyInstall p, .keyNotReady p, .portSilentTimeout p], exec i s = .next s) ∧
    (b.state = 4 → (∃ t, exec (.keyNotReady p) s = .next t ∧ portDown p 5 s t) ∧
      ∃ t, exec (.portSilentTimeout p) s = .next t ∧ portDown p (if b.retraining then 2 else 1) s t) ∧
    ((b.retraining = false → ∀ w, exec (.bondRetrainDone p w) s = .next s) ∧
     (b.retraining = true → (∃ t, exec (.bondRetrainDone p false) s = .next t ∧ portDown p 2 s t) ∧
      ∃ t, exec (.bondRetrainDone p true) s = .next t ∧ t = { s with bonds := t.bonds } ∧ only t (turned { b with
        retraining := false, kept := b.kept.map fun (f : SentFrame) => { f with replays := 0 } })))) ∧
  (∀ (s : State) (p : Nat) (o : RemoteOp), hasBond s p = true → nothingWaits s → (bondOf s p).state = 4 → (bondOf s p).txQ = [] → s.ops = [o] →
    o.sent = true → o.port = some p → o.owner = .fence → o.src = .lintel → ∃ t, exec (.keyNotReady p) s = .next t ∧ t.ops = [] ∧
    (identOf t o.id.path o.id.unit o.id.index).quarantined = true ∧ (bondOf t p).state = 5) ∧
  (∀ (s : State) (a : RegAgent) (c : Nat) (v : Word32), c < 2048 → writer a (offRoute c) → s.ops = [] → nothingWaits s →
    ∃ t, exec (.routeWrite a c v) s = .next t ∧ writesReg (offRoute c) (v &&& 0xC07FFFFF) s t ∧ t = { s with regs := t.regs }) ∧
  (∀ (s : State) (a : RegAgent) (v : Word32), writer a offChip →
    let n := fieldOf v 27 16
    let fits : Prop := n ≠ 0 ∧ n ≤ 2048 ∧ fieldOf v 10 0 < n ∧ fieldOf (reg s offWindow) 16 0 + n ≤ 2 ^ 17
    (s.sealed_ = true ∨ chipValid s = true ∨ (bitOf v 31 = true ∧ ¬ fits) → exec (.chipValidWrite a v) s = .next s) ∧
    (s.sealed_ = false → chipValid s = false → (bitOf v 31 = true → fits) → ∃ t, exec (.chipValidWrite a v) s = .next t ∧
      writesReg offChip (v &&& 0x8FFF07FF) s t ∧ t = { s with regs := t.regs, bonds := t.bonds } ∧
      ∀ p, bondOf t p = if bitOf v 31 = true ∧ hasBond s p = true ∧ (bondOf s p).state = 1 ∧ (bondOf s p).laneMask ≠ 0 then
        { bondOf s p with state := 2 } else bondOf s p))

/-- Frames of a Bond port (R566 to R573). That heartbeats are numbered and kept is the model's choice (log 30). Readings and choices of the model in it: log 39, 63. -/
def Obligations.BondFrames : Prop :=
  (∀ (s : State) (p : Nat) (f : Frame), hasBond s p = true →
    let b := bondOf s p
    ∀ i ∈ [Instr.dataFrame p f, .heartbeatFrame p f, .fatalFrame p f],
    (b.state ≠ 4 → exec i s = .next s) ∧
    (b.state = 4 → f.crcOk = false → ∃ t, exec i s = .next t ∧ t.sent = s.sent ++ [.bondReplayRequest p] ∧
      writesReg (offBnd p + 8) (if fieldOf (reg s (offBnd p + 8)) 15 0 = 0xFFFF then reg s (offBnd p + 8)
        else reg s (offBnd p + 8) + 1) s t ∧ t = { s with sent := t.sent, regs := t.regs }) ∧
    (b.state = 4 → f.crcOk = true → f.tagOk = false → portIdle p s → ∃ t, exec i s = .next t ∧
      t.sent = s.sent ++ [.bondReplayRequest p] ∧ hasFault t (unitBond p) 0x40 ∧
      writesReg (offBnd p + 0xC) (BitVec.ofNat 32 (min 0xFFFFFFFF ((reg s (offBnd p + 0xC)).toNat + 1))) s t ∧
      (f.fourth = false → t.bonds = s.bonds) ∧ (f.fourth = true → (bondOf t p).state = 5 ∧ (bondOf t p).cause = 3))) ∧
  (∀ (s : State) (p : Nat) (f : Frame), hasBond s p = true → (bondOf s p).state = 4 → f.crcOk = true → f.tagOk = true → f.version = 1 →
    let b := bondOf s p
    f.key ≠ b.rxKey → (f.key ≠ latestKey b → ∀ i ∈ [Instr.dataFrame p f, .heartbeatFrame p f, .fatalFrame p f], exec i s = .next s) ∧
    (f.key = latestKey b → f.seq = 0 → b.txQ = [] → ∃ t, exec (.heartbeatFrame p f) s = .next t ∧
      bondOf t p = turned (afterFrame f { b with rxKey := f.key, rxNum := 0 }) ∧ (∀ k, k ≠ p → bondOf t k = bondOf s k) ∧
      t = { s with bonds := t.bonds })) ∧
  (∀ (s : State) (p : Nat) (f : Frame), goodFrame p f s → (bondOf s p).txQ = [] →
    (∃ t, exec (.heartbeatFrame p f) s = .next t ∧ bondOf t p = turned (afterFrame f (bondOf s p)) ∧ (∀ k, k ≠ p → bondOf t k = bondOf s k) ∧
      t = { s with bonds := t.bonds }) ∧
    (s.ops = [] → nothingWaits s → ∃ t, exec (.fatalFrame p f) s = .next t ∧ portDown p 4 s t) ∧
    (∀ (m : BondMsg), f.msgs = [m] →
      let owes (b : Bond) : Bond := { b with
        owed := tset zeroOf b.owed (msgChannel m) (tget zeroOf b.owed (msgChannel m) + msgSlots m) }
      let took (t : State) : Prop := bondOf t p = turned (owes (afterFrame f (bondOf s p)))
      (∀ (id : OpId) (sp : Nat) (st : RStatus) (d : List Byte) (po : Marks) (vc : Bool) (o : RemoteOp), m = .rsp (chipSelf s) id sp st d po vc →
        idCurrent s id = true → opOfId s id = some o → o.ctx = none → ∃ t, exec (.dataFrame p f) s = .next t ∧ took t ∧
        t.sent = s.sent ++ [.response o.src o.tc ⟨id, st, d, po⟩] ∧ t = { s with bonds := t.bonds, sent := t.sent }) ∧
      (∀ gop ord tc src off len cmp po id sp vc id' v, m = .op .get gop ord tc src (chipSelf s) 0 off len [] cmp po id sp vc →
        bitOf (reg s (offRoute src)) 30 = true → placeOf s off = .dev off → admits s .bond off = true → changing s off = false →
        s.ops = [] → nothingWaits s → takeId pathBridge 1 s = some (id', v) →
        freePath s .ask tc (640 + p) [outBridge, outSlice (sliceOf s off)] → ∃ t, exec (.dataFrame p f) s = .next t ∧ took t ∧
        t.sent = s.sent ++ [.operation (.bond p) .get gop ⟨ord, tc, src, chipSelf s, 0⟩ off len [] cmp po id'] ∧
        (∃ o, t.ops = [o] ∧ o.owner = .incoming src id sp 0 ∧ o.sent = true) ∧
        t = { s with bonds := t.bonds, sent := t.sent, ops := t.ops, idents := t.idents, mortar := t.mortar }) ∧
      (∀ k gop ord tc src dst hop off len d cmp po id sp vc out,
        m = .op k gop ord tc src dst hop off len d cmp po id sp vc → dst ≠ chipSelf s → hop < 15 →
        (∀ q, holdsPair s src dst q = false) → routePort s dst off ord = some out → out ≠ p → (bondOf s out).retraining = false → keyDue (bondOf s out) = false → (bondOf s out).txQ = [] →
        (bondOf s out).kept.length < 1024 → (bondOf s out).owed = [] → msgSlots m ≤ 30 →
        let m' : BondMsg := .op k gop ord tc src dst (hop + 1) off len d cmp po id sp (vc || bndDateline s out)
        msgSlots m ≤ tget creditDefault (bondOf s out).credits (msgChannel m') → ∃ t, exec (.dataFrame p f) s = .next t ∧ took t ∧
        t.sent = s.sent ++ [.bondData out (bondOf s out).txNum (bondOf s out).key (BitVec.ofNat 16 (bondOf s out).rxNum) 0 0 [m']] ∧
        (bondOf t out).txNum = (bondOf s out).txNum + 1 ∧ t = { s with bonds := t.bonds, sent := t.sent }))) ∧
  (∀ (s : State) (p : Nat), hasBond s p = true →
    let b := bondOf s p
    let only (t : State) (c : Bond) : Prop := bondOf t p = c ∧ (∀ k, k ≠ p → bondOf t k = bondOf s k)
    (b.kept = [] ∨ b.state ≠ 4 ∨ b.retraining = true → exec (.replayTimeout p) s = .next s) ∧
    (∀ f fs, b.kept = f :: fs → b.state = 4 → b.retraining = false → ∃ t, exec (.replayTimeout p) s = .next t ∧
      (f.replays < 8 → t.sent = s.sent ++ [.bondReplay p f.seq] ∧ only t { b with kept := { f with replays := f.replays + 1 } :: fs } ∧
        t = { s with sent := t.sent, bonds := t.bonds, regs := t.regs }) ∧
      (8 ≤ f.replays → only t { b with retraining := true } ∧ t = { s with bonds := t.bonds })) ∧
    (b.state ≠ 4 ∨ b.retraining = true ∨ keyDue b = true → exec (.heartbeatTimer p) s = .next s) ∧
    (b.state = 4 → b.retraining = false → keyDue b = false → b.owed = [] → ∃ t, exec (.heartbeatTimer p) s = .next t ∧
      t.sent = s.sent ++ [.bondHeartbeat p b.txNum b.key (BitVec.ofNat 16 b.rxNum) 0 0] ∧
      only t { b with txNum := b.txNum + 1, kept := b.kept ++ [⟨b.txNum, b.key, [], 0⟩] } ∧
      t = { s with sent := t.sent, bonds := t.bonds }))

/-- The securing engine (R23, R591, R597 to R603, R609). Readings and choices of the model in it: log 39, 64, 65, 96. -/
def Obligations.SecuringEngine : Prop :=
  (∀ (s : State) (a : RegAgent) (v : Word32), writer a offSecCtl →
    let r := setReg offSecCtl (secCtlWrite s v) s
    let was := bitOf (reg s offSecCtl) 31
    (hasSecuring s = false → exec (.securingStop a v) s = .next s) ∧
    (hasSecuring s = true → bitOf v 31 = true ∨ was = false → exec (.securingStop a v) s = .next r) ∧
    (secOpen s → bitOf v 31 = false → was = true → ∃ t, exec (.securingStop a v) s = .next t ∧ secState t = 0 ∧
      t.sec = { s.sec with on := false, tensors := [], work := none, held := [], got := [] } ∧
      writesReg offSecCtl (secCtlWrite s v) s t)) ∧
  (∀ (s : State) (a : RegAgent) (o : Bool) (l : BitVec 2) (x : SecLimits), writer a offSecCtl →
    let r := setReg offSecCtl (secCtlWrite s (armWord o l x)) s
    let u := secPut 2 (leBytes 1 s.straps.feedGroup.toNat) r
    let badTable : Prop := headerBad u = true ∨ ∃ i, i < secWord u 90 1 ∧ recordBad u i = true
    (hasSecuring s = false → exec (.arm a o l x) s = .next s) ∧
    (hasSecuring s = true → bitOf (reg s offSecCtl) 31 = true → exec (.arm a o l x) s = .next r) ∧
    (secOpen s → bitOf (reg s offSecCtl) 31 = false → s.sec.on = false → s.sec.got = [] →
      (badTable → ∃ t, exec (.arm a o l x) s = .next t ∧ secState t = 5 ∧ t.sec = { s.sec with work := none, held := [] } ∧
        t.flt = s.flt) ∧
      (¬ badTable → feedLines u = [] → peerLines u = [] → ∃ t, exec (.arm a o l x) s = .next t ∧
        t.sec.on = true ∧ t.sec.work = none ∧ t.sec.held = [] ∧ t.sec.tensors.length = secWord u 90 1))) ∧
  (∀ s : State, secOpen s → lintelRuns s = true → s.sec.on = false → s.sec.work = some (.arm true) → headerBad s = false →
    (∀ i, i < secWord s 90 1 → recordBad s i = false) → (∀ l ∈ feedLines s ++ peerLines s, (secLine s l).isSome = true) →
    let same : Prop := ∃ l ∈ feedLines s, ∃ x, secLine s l = some x ∧ (x.1.getD 2 0).toNat = s.straps.feedGroup.toNat
    (same → bitOf (reg s offSecCtl) 30 = false → ∃ t, exec .secureStep s = .next t ∧ secState t = 5 ∧
      t.sec = { s.sec with work := none, held := [], got := [] } ∧ hasFault t unitLin 0x48) ∧
    (¬ same → ∃ t, exec .secureStep s = .next t ∧
      t.sec.on = true ∧ t.sec.work = none ∧ t.sec.held = [] ∧ t.sec.tensors.length = secWord s 90 1)) ∧
  (∀ s : State, (s.sec.on = false → ∀ n, ∀ i ∈ [Instr.restore, .refill, .resend, .resync n], exec i s = .next s) ∧
    (s.sec.on = false → s.sec.work = none → exec .secureStep s = .next s) ∧
    (s.sec.on = true → s.sec.work = none → s.sec.got = [] → openLines s (secTable s) → secFence s hdrGlobal = s.sec.seen →
      secState s ≠ 1 ∨ secFence s hdrDone ≤ secFence s hdrSecured → exec .secureStep s = .next s)) ∧
  (∀ s : State, secReady s → s.sec.tensors = [] →
    let n := secFence s hdrSecured
    let me := chipSelf s
    let own := secBase s + 0x1000 + 8 * me
    (secState s = 1 → secFence s hdrGlobal = s.sec.seen → n < secFence s hdrDone → n ≤ secFence s hdrGlobal → n + 1 < 2 ^ 63 →
      secWord s hdrRole 8 = me + me * 2 ^ 11 → ∃ t, exec .secureStep s = .next t ∧ secFence t hdrSecured = n + 1 ∧ secState t = 1 ∧
      t.sec.work = none ∧ n + 1 ≤ leNat (readMem t own 8).1 % 2 ^ 63) ∧
    (∀ op g : Nat, 1 ≤ secState s → secState s ≠ 2 → secState s ≠ 3 → secState s ≠ 5 → secState s ≤ 6 →
      secWord s hdrCmd 8 = op * 2 ^ 56 + g → g < 2 ^ 48 → op < 256 → op ≠ 0 →
      ∀ x ∈ [(Instr.restore, 1), (.refill, 2), (.resend, 3)],
      (op ≠ x.2 → op ≤ 4 → exec x.1 s = .next s) ∧
      (4 < op ∨ (op = x.2 ∧ op ≠ 2 ∧ n < g) → ∃ t, exec x.1 s = .next t ∧ secState t = 1 ∧ t.sec = s.sec ∧
        secWord t hdrCmd 8 = op * 2 ^ 56 + 2 * 2 ^ 48 + g) ∧
      (op = x.2 → (op = 2 ∨ g ≤ n) → ∃ t, exec x.1 s = .next t ∧ secState t = 1 ∧ t.sec = s.sec ∧
        secWord t hdrCmd 8 = op * 2 ^ 56 + 2 ^ 48 + g ∧ secFence t hdrSecured = if op = 2 then max n g else n)) ∧
    (∀ g : Nat, secState s = 1 → secWord s hdrCmd 8 = 4 * 2 ^ 56 + g → g ≤ n → g < 2 ^ 48 → secWord s 90 1 = 0 → secK s = 0 →
      secWord s hdrRole 8 = me + me * 2 ^ 11 → secWord s hdrArg 8 < 2 ^ 63 → ∃ t, exec (.resync g) s = .next t ∧ secState t = 1 ∧
      secWord t hdrCmd 8 = 4 * 2 ^ 56 + 2 ^ 48 + g ∧ secFence t hdrSecured = max n (secWord s hdrArg 8) ∧ t.sec.work = none)) ∧
  (∀ (s : State) (x : SecTensor), s.sec.on = true → lintelRuns s = true → s.sec.got = [] → s.ops = [] → homesIdle s →
    openLines s (secTable s) → s.sec.tensors = [x] → x.assigned = 1 → x.base % 65536 = 0 → x.size % 65536 = 0 → 0 < x.size →
    x.areaOff % 65536 = 0 → secLocal s % 65536 = 0 → (∀ k, k < 2 → openLines s (rangeLines (imageOff s x k) x.size)) →
    (∀ k, k < 2 → apart x.base x.size (imageOff s x k) x.size ∧ apart (secBase s) 0x9000 (imageOff s x k) x.size ∧
      apart x.bitmap (2 * bitmapBytes x) (imageOff s x k) x.size) → apart (secBase s) 0x9000 x.base x.size →
    apart x.bitmap (2 * bitmapBytes x) x.base x.size → apart x.bitmap (2 * bitmapBytes x) (secBase s) 0x9000 → s.sec.current < 2 →
    (∀ (n page : Nat) (rest : List Nat), s.sec.work = some (.step n (page :: rest)) → rest ≠ [] → page ∉ rest →
      x.base / 65536 ≤ page → page < x.base / 65536 + x.size / 65536 → secFence s hdrGlobal = s.sec.seen → secMirror s = 0 →
      (∀ l ∈ rangeLines (page * 65536) 65536, placeOf s (l * 64) = .dev (l * 64) ∧ canReadLine s l = true) →
      (readMem s (page * 65536) 65536).2 = false → ∃ t, exec .secureStep s = .next t ∧
      t.sec = { s.sec with work := some (.step n rest), held := s.sec.held.filter (· ≠ page) } ∧
      ∀ i, i < 65536 → byteAt t (imageOff s x (n % 2) + (page * 65536 - x.base) + i) = byteAt s (page * 65536 + i)) ∧
    (∀ g : Nat, s.sec.work = none → cleanLines s (secTable s) → openLines s (rangeLines x.base x.size) → secState s = 1 →
      secWord s hdrCmd 8 = 2 ^ 56 + g → g < 2 ^ 48 → g ≤ secFence s hdrSecured → ∃ t, exec .restore s = .next t ∧ secState t = 1 ∧
      t.sec = s.sec ∧ ∀ i, i < x.size → byteAt t (x.base + i) = byteAt s (imageOff s x (g % 2) + i)))

/-- Fault collection (R612 to R632) and the inputs (R629). Readings and choices of the model in it: log 39, 62, 68. -/
def Obligations.FaultCollection : Prop :=
  (∀ (s : State) (u : Nat) (y : Syndrome) (d fl : Nat), hasUnit s u = true → s.build.localFaults = false → s.flt.units = [⟨u, y, 0⟩] →
    y.source < 128 → sourceLevels s y.source = some (d, fl) →
    let l := levelOf s y fl
    let x := latchOf s l
    let esc := bitOf s.flt.pend y.source && bitOf (reg s (offFltSev y.source)) 7
    ∃ t, exec (.faultCollect u) s = .next t ∧ bitOf t.flt.pend y.source = true ∧
    (l < 3 → t.flt.units = [] ∧ (∀ k, bitOf t.flt.pend k = (bitOf s.flt.pend k || decide (k = y.source))) ∧
      (∀ k, k ≠ l → latchOf t k = latchOf s k) ∧
      (x.valid = true → latchOf t l = { x with ovf := true, count := min 255 (x.count + 1) } ∧ t = { s with flt := t.flt }) ∧
      (x.valid = false → latchOf t l = ⟨true, false, esc, 0, some y⟩ ∧ (coreOf t 192).csr.meip = true ∧ otherCores 192 s t ∧
        (bitOf (reg s offFltCtl) 31 = false ∨ bitOf (reg s offFltCtl) (24 + l) = false →
          t.sent = s.sent ++ [.coreIrq 192] ∧ t = { s with flt := t.flt, cores := t.cores, sent := t.sent }))) ∧
    (∀ c z, l = 3 → y.ctx = some c → ctxOf s c = some z → z.state = .active → lostCtx t c) ∧
    (l = 5 → s.flt.fatal = false → t.flt.fatal = true ∧ Msg.fatal ∈ t.sent ∧
      ∀ c z, ctxOf s c = some z → ∃ z', ctxOf t c = some z' ∧ z'.state ≠ .active)) ∧
  (∀ (s : State) (u : Nat), hasUnit s u = true →
    (s.build.localFaults = true → exec (.wiringFault u) s = .next s) ∧
    (s.build.localFaults = false → ∃ t, exec (.wiringFault u) s = .next t ∧ reports unitFlt 0x50 s t ∧
      tget noB t.flt.wired u = true ∧ (∀ k, k ≠ u → tget noB t.flt.wired k = tget noB s.flt.wired k) ∧ t = { s with flt := t.flt }) ∧
    (tget noB s.flt.wired u = false → exec (.wiringPoll u) s = .next s) ∧
    (tget noB s.flt.wired u = true → ∃ t, exec (.wiringPoll u) s = .next t ∧ exec (.faultCollect u) s = .next t)) ∧
  (∀ (s : State) (a : RegAgent) (l : Nat), writer a (offFltLatch l) → s.build.localFaults = false →
    (5 ≤ l ∨ (latchOf s l).valid = false → exec (.fltLatchClear a l) s = .next s) ∧
    (l < 5 → (latchOf s l).valid = true → ∃ t, exec (.fltLatchClear a l) s = .next t ∧
      latchOf t l = { latchOf s l with valid := false, ovf := false, count := 0 } ∧ (∀ k, k ≠ l → latchOf t k = latchOf s k) ∧
      t = { s with flt := { s.flt with latches := t.flt.latches } })) ∧
  (∀ (s : State) (a : RegAgent) (w : Nat) (m : Word32), w < 4 → writer a (offFltPend w) →
    ∃ t, exec (.fltPendClear a w m) s = .next t ∧ t = { s with flt := { s.flt with pend := t.flt.pend } } ∧
    ∀ i, i < 128 → bitOf t.flt.pend i = (bitOf s.flt.pend i && !(decide (i / 32 = w) && bitOf m (i % 32)))) ∧
  (∀ (s : State) (pin : InPin) (on : Bool), hasPin s pin = true →
    let k := pinBit pin
    ∃ t, exec (.inputLevelChange pin on) s = .next t ∧
    (∀ i, i < 14 → bitOf t.flt.active i = if i = k then on else bitOf s.flt.active i) ∧ t.flt.masked = s.flt.masked ∧
    (pin = .throttleReq → (∀ c, hasCourse s c = true → (courseOf s c).live = true → (courseOf s c).freqReq = none → movedToPoint s t c) ∧
      t = { s with flt := { s.flt with active := t.flt.active }, courses := t.courses, sent := t.sent }) ∧
    (∀ n, pin = .stackHot n → on = true → bitOf s.flt.masked k = false → (ctlOf s n).level < 3 →
      ctlOf t n = { ctlOf s n with level := 3, slow := true } ∧ hasFault t (unitCtl n) 0x25)) ∧
  (∀ (s : State) (pin : InPin), hasPin s pin = true →
    let k := pinBit pin
    let stuck : Prop := fieldOf (reg s offFltLimit) 15 0 ≠ 0 ∧ bitOf s.flt.active k = true ∧ bitOf s.flt.masked k = false
    (¬ stuck → exec (.stuckInput pin) s = .next s) ∧
    (stuck → ∃ t, exec (.stuckInput pin) s = .next t ∧ hasFault t unitFlt 0x51 ∧
      (∀ i, i < 14 → bitOf t.flt.masked i = (bitOf s.flt.masked i || decide (i = k))) ∧ t.flt.active = s.flt.active)) ∧
  (∀ (s : State) (a : RegAgent) (m : Word32), writer a offFltInput → ∃ t, exec (.inputMaskClear a m) s = .next t ∧
    t = { s with flt := { s.flt with masked := t.flt.masked } } ∧
    ∀ i, i < 14 → bitOf t.flt.masked i = (bitOf s.flt.masked i && !(bitOf m i && !bitOf s.flt.active i))) ∧
  (∀ (s : State) (m : Nat), m < s.build.bridgeModules → ∃ t, exec (.mortarBridgeModuleLost m) s = .next t ∧
    reports unitMor 0x29 s t ∧ t = { s with flt := t.flt })

/-- The Kiln's services (R635 to R652, R659, R681, R698 to R701). The lowest free slot is a choice of the model (log 16). Readings and choices of the model in it: log 39, 70, 71. -/
def Obligations.KilnServices : Prop :=
  (∀ (s : State) (mb key : Nat), mb < 3 →
    ∀ x ∈ [(Instr.slotAssign mb, 1), (.slotRelease mb, 2), (.granuleSet mb, 3), (.certLoad mb key, 4), (.wdogPet mb, 5), (.debugUnlock mb, 6)],
    (s.kiln.released = false ∨ (mailboxOf s mb).busy = false ∨ (mailboxOf s mb).service.toNat ≠ x.2 → exec x.1 s = .next s) ∧
    (kilnTurn mb x.2 s → mb = 2 ∨ (mb = 0 ∧ 4 ≤ x.2) → kilnRefuses mb 0x24 x.1 s)) ∧
  (∀ (s : State) (mb : Nat), kilnTurn mb 1 s → mb < 2 →
    let pasid := mbData s mb 0
    (2 ^ 20 ≤ pasid → kilnRefuses mb 0x20 (.slotAssign mb) s) ∧
    (pasid < 2 ^ 20 → s.kiln.recovery = true ∨ (∀ k, 2 ≤ k → k < 1024 → (tfind s.kiln.slots k).isSome = true) →
      kilnRefuses mb 0x24 (.slotAssign mb) s) ∧
    (∀ k, pasid < 2 ^ 20 → s.kiln.recovery = false → 2 ≤ k → k < 1024 → tfind s.kiln.slots k = none →
      (∀ i, 2 ≤ i → i < k → (tfind s.kiln.slots i).isSome = true) → ∃ t, exec (.slotAssign mb) s = .next t ∧ kilnEnded mb 0 s t ∧
      mbData t mb 0 = k ∧ tfind t.kiln.slots k = some ⟨pasid, mb, false, Config.freshKey s.kiln.draws⟩ ∧
      t.kiln.draws = s.kiln.draws + 1 ∧ (∀ i, i ≠ k → tfind t.kiln.slots i = tfind s.kiln.slots i) ∧
      t = { s with kiln := { s.kiln with slots := t.kiln.slots, draws := t.kiln.draws, mailboxes := t.kiln.mailboxes } })) ∧
  (∀ (s : State) (mb : Nat), kilnTurn mb 2 s → mb < 2 →
    let k := mbData s mb 0
    (1024 ≤ k → kilnRefuses mb 0x20 (.slotRelease mb) s) ∧
    (k < 1024 → tfind s.kiln.slots k = none → kilnRefuses mb 0x24 (.slotRelease mb) s) ∧
    (∀ x, k < 1024 → tfind s.kiln.slots k = some x →
      (x.protected_ = true ∨ x.queue ≠ mb ∨ slotNamed s k = true → kilnRefuses mb 0x24 (.slotRelease mb) s) ∧
      (x.protected_ = false → x.queue = mb → slotNamed s k = false → ∃ t, exec (.slotRelease mb) s = .next t ∧ kilnEnded mb 0 s t ∧
        tfind t.kiln.slots k = none ∧ (∀ i, i ≠ k → tfind t.kiln.slots i = tfind s.kiln.slots i) ∧
        t = { s with kiln := { s.kiln with slots := t.kiln.slots, mailboxes := t.kiln.mailboxes } }))) ∧
  (∀ (s : State) (mb : Nat), kilnTurn mb 3 s → mb < 2 →
    let first := mbData s mb 0
    let count := mbData s mb 1
    let entry := mbData s mb 2
    let e : BitVec 16 := BitVec.ofNat 16 entry
    (count = 0 ∨ 512 < count ∨ tableSize s < first + count ∨ 2 ^ 16 ≤ entry → kilnRefuses mb 0x20 (.granuleSet mb) s) ∧
    (granuleArgsBad s first count entry = false → s.kiln.change = [] →
      ((∃ i, i < count ∧ plainEntry s (granuleOf s ((first + i) * 2 ^ 21)) = false) ∨ plainEntry s e = false →
        kilnRefuses mb 0x24 (.granuleSet mb) s) ∧
      ((∀ i, i < count → plainEntry s (granuleOf s ((first + i) * 2 ^ 21)) = true) → plainEntry s e = true → stillMemory s →
        ∃ t, exec (.granuleSet mb) s = .next t ∧ t.kiln = { s.kiln with change := [⟨some mb, first, count, e⟩] } ∧
        (∀ i, i < count → changing t ((first + i) * 2 ^ 21) = true) ∧ t.mem = s.mem))) ∧
  (∀ (s : State) (c : GranuleChange), s.kiln.change = [c] → stillMemory s → (∀ x ∈ s.kiln.slots, x.2.protected_ = false) →
    ∃ t, exec .granuleChangeDone s = .next t ∧ t.kiln.change = [] ∧
    (∀ g, granuleOf t (g * 2 ^ 21) =
      if c.first ≤ g ∧ g < c.first + c.count then c.entry else granuleOf s (g * 2 ^ 21)) ∧ t.kiln.slots = s.kiln.slots ∧
    (∀ m, c.mb = some m → kilnEnded m 0 s t) ∧
    (∀ g pa, c.first ≤ g → g < c.first + c.count → g * 2 ^ 21 ≤ pa → pa < (g + 1) * 2 ^ 21 →
      fieldOf (granuleOf s (g * 2 ^ 21)) 15 14 ≠ fieldOf c.entry 15 14 ∨ fieldOf (granuleOf s (g * 2 ^ 21)) 9 0 ≠ fieldOf c.entry 9 0 →
      pa % 64 = 0 → stackSector t pa = (List.replicate 64 0, false)) ∧
    (∀ pa, pa % 64 = 0 → pa < c.first * 2 ^ 21 ∨ (c.first + c.count) * 2 ^ 21 ≤ pa → stackSector t pa = stackSector s pa)) ∧
  (∀ (s : State) (c : GranuleChange) (o : RemoteOp), s.kiln.change = [c] → s.home.filter = [] → s.home.hdm = [] → quietHomes s →
    s.kiln.tdi = .run → o ∈ s.ops → o.sent = true → c.first * 2 ^ 21 ≤ o.pa → o.pa < (c.first + c.count) * 2 ^ 21 →
    exec .granuleChangeDone s = .next s) ∧
  (∀ (s : State) (key : Nat), kilnTurn 1 4 s →
    s.front = [] → ∀ d st, lintelReadRange (.mailbox 1) (sortAgent s (mbData s 1 0 + mbData s 1 1 * 2 ^ 32)) (mbData s 1 2) s =
      (some (d, st), s) →
    (st ≠ .ok ∨ key ≠ s.kiln.identity → kilnRefuses 1 0x24 (.certLoad 1 key) s) ∧
    (st = .ok → key = s.kiln.identity → ∃ t, exec (.certLoad 1 key) s = .next t ∧ kilnEnded 1 0 s t ∧ t.kiln.chain = d ∧
      t = { s with kiln := { s.kiln with chain := d, mailboxes := t.kiln.mailboxes } })) ∧
  (∀ s : State, kilnTurn 1 5 s →
    let p := mbData s 1 0
    (p = 0 ∨ 60 < p → kilnRefuses 1 0x20 (.wdogPet 1) s) ∧
    (0 < p → p ≤ 60 → ∃ t, exec (.wdogPet 1) s = .next t ∧ kilnEnded 1 0 s t ∧
      t = { s with kiln := { s.kiln with wdogPeriod := p, mailboxes := t.kiln.mailboxes } })) ∧
  (∀ s : State, kilnTurn 1 6 s →
    let a := mbData s 1 0
    let b := mbData s 1 1
    let keyed : Prop := ∃ x ∈ s.ctxs, bitOf x.2.security 10 = true
    (2 ^ 12 ≤ a ∨ 2 ^ 8 ≤ b → kilnRefuses 1 0x20 (.debugUnlock 1) s) ∧
    (a < 2 ^ 12 → b < 2 ^ 8 → a ≠ 0 → keyed → kilnRefuses 1 0x24 (.debugUnlock 1) s) ∧
    (a < 2 ^ 12 → b < 2 ^ 8 → a = 0 ∨ ¬ keyed → ∃ t, exec (.debugUnlock 1) s = .next t ∧ kilnEnded 1 0 s t ∧
      t.dbg.courses = (s.dbg.courses ||| BitVec.ofNat 12 a) ∧ t.dbg.cores = (s.dbg.cores ||| BitVec.ofNat 8 b) ∧
      tfind t.kiln.measurements 6 = some (Config.sha384 (leBytes 2 t.dbg.courses.toNat ++ leBytes 1 t.dbg.cores.toNat)) ∧
      (∀ i, i ≠ 6 → tfind t.kiln.measurements i = tfind s.kiln.measurements i) ∧
      t = { s with
        kiln := { s.kiln with measurements := t.kiln.measurements, mailboxes := t.kiln.mailboxes },
        dbg := { s.dbg with courses := t.dbg.courses, cores := t.dbg.cores } })) ∧
  (∀ (s : State) (mb : Nat) (final signed : Bool), mb < 3 →
    let b := mailboxOf s mb
    let done (st : Nat) (t : State) : Prop :=
      mailboxOf t mb = { b with imgBusy := false, imgStatus := BitVec.ofNat 8 st } ∧ ∀ k, k ≠ mb → mailboxOf t k = mailboxOf s k
    let started (d : List Byte) (t : State) : Prop :=
      t.kiln.coresOn = true ∧ t.kiln.image = d ∧ (∀ n, 192 ≤ n → n < 200 → (coreOf t n).held = false) ∧
      tfind t.kiln.measurements 4 = some (Config.sha384 (d ++ leBytes 1 (b2n signed)))
    let posted := s.kiln.image ++ (List.range 64).flatMap fun i => leBytes 4 (mbData s 2 i)
    (mb = 1 ∨ s.kiln.released = false → exec (.imagePost mb final signed) s = .next s) ∧
    (mb ≠ 1 → s.kiln.released = true → s.kiln.coresOn = true → ∃ t, exec (.imagePost mb final signed) s = .next t ∧ done 0x21 t ∧
      t = { s with kiln := { s.kiln with mailboxes := t.kiln.mailboxes } }) ∧
    (mb = 2 → s.kiln.released = true → s.kiln.coresOn = false → b.imgBusy = true → posted.length ≤ 0x1000000 →
      ∃ t, exec (.imagePost mb final signed) s = .next t ∧
      (b.imgFinal = false → done 0 t ∧ t = { s with kiln := { s.kiln with image := posted, mailboxes := t.kiln.mailboxes } }) ∧
      (b.imgFinal = true → s.kiln.fuses.licenseeKey = true → signed = false → done 0x24 t ∧ t.kiln.coresOn = false ∧ t.cores = s.cores) ∧
      (b.imgFinal = true → s.kiln.fuses.licenseeKey = false ∨ signed = true → s.ops = [] → done 0 t ∧ started posted t)) ∧
    (mb = 0 → s.kiln.released = true → s.kiln.coresOn = false → b.imgLen.toNat ≤ 0x1000000 → b.imgLen.toNat % 256 = 0 →
      b.imgAddr.toNat % 256 = 0 → s.kiln.fuses.licenseeKey = false ∨ signed = true → s.ops = [] →
      s.front = [] → ∀ d, lintelReadRange (.mailbox 0) (lintelKey s false b.imgAddr.toNat) b.imgLen.toNat s = (some (d, .ok), s) →
      ∃ t, exec (.imagePost mb final signed) s = .next t ∧ done 0 t ∧ started d t)) ∧
  (∀ (s : State) (image : Option (List Byte)) (signed : Bool),
    (s.kiln.released = false ∨ s.kiln.coresOn = false → exec (.watchdogExpiry image signed) s = .next s) ∧
    (s.kiln.released = true → s.kiln.coresOn = true → s.kiln.tdi ≠ .run → s.rings = [] → s.tiles = [] → s.xlat.prgs = [] →
      s.xlat.faultQ = [] → s.jegons = [] → s.hods = [] → s.ops = [] → ∃ t, exec (.watchdogExpiry image signed) s = .next t ∧
      hasFault t unitLin 0x58 ∧ t.kiln.tdi = .error ∧ t.kiln.image = image.getD s.kiln.image ∧
      t.kiln.coresOn = (signed || !s.kiln.fuses.licenseeKey) ∧ t.kiln.slots = s.kiln.slots ∧ t.kiln.access = s.kiln.access ∧
      (∀ c x, ctxOf s c = some x → x.queue = 1 → x.state = .active → lostCtx t c) ∧
      (∀ c x, ctxOf s c = some x → x.queue ≠ 1 → rising s.ctxs → ctxOf t c = some x)))

/-- SPDM, IDE and TDISP (R637 to R641, R652 to R656). Message codes are presumed (log 10), and so is the lowest free slot (log 16). Readings and choices of the model in it: log 39, 97. -/
def Obligations.SpdmAndTdisp : Prop :=
  (∀ (s : State) (m : Spdm) (x n : Nat) (b : Bool) (v : TdispVendor), hasTransport s m.transport = true → s.kiln.released = false →
    ∀ i ∈ [Instr.getVersion m, .getCapabilities m, .negotiateAlgorithms m n, .getDigests m, .getCertificate m n x, .challenge m,
      .getMeasurements m n, .keyExchange m, .finish m b, .heartbeat m, .keyUpdate m, .endSession m, .chunkGet m n x, .keyProg m b n,
      .kSetGo m b, .getTdispVersion m, .getTdispCapabilities m, .lockInterfaceRequest m, .getDeviceInterfaceReport m,
      .getDeviceInterfaceState m, .startInterfaceRequest m n, .stopInterfaceRequest m, .tdispVendorMessage m v], exec i s = .next s) ∧
  (∀ (s : State) (m : Spdm) (x n : Nat), spdmReaches m s →
    let fits : Prop := m.session = 0 ∨ ∃ y, spdmSession m y s ∧ y.finished = true
    let more : Kiln := { s.kiln with answers := s.kiln.answers + 1 }
    (∀ i ∈ [(Instr.getCapabilities m, 0x61), (.getDigests m, 0x01), (.challenge m, 0x03), (.chunkGet m n x, 0x06),
        (.getTdispVersion m, 0x7E), (.getTdispCapabilities m, 0x7E)],
      (¬ fits → spdmRefused m i.1 s) ∧
      (fits → ∃ t, exec i.1 s = .next t ∧ spdmAnswered m i.2 (Config.answerBytes i.2 s.kiln.answers) s t ∧ t.kiln = more)) ∧
    (fits → ∃ t, exec (.getCertificate m n x) s = .next t ∧ spdmAnswered m 0x02 ((s.kiln.chain.drop n).take x) s t ∧ t.kiln = more) ∧
    (fits → ∃ t, exec (.getDeviceInterfaceState m) s = .next t ∧
      spdmAnswered m 0x7E (leBytes 1 (tdiCode s.kiln.tdi)) s t ∧ t.kiln = more) ∧
    (∀ d, fits → 0 < n → n ≤ 6 → tfind s.kiln.measurements n = some d → ∃ t, exec (.getMeasurements m n) s = .next t ∧
      spdmAnswered m 0x60 (leBytes 48 d) s t ∧ t.kiln = more) ∧
    (fits → 0 < n → n ≤ 6 → tfind s.kiln.measurements n = none → ∃ t, exec (.getMeasurements m n) s = .next t ∧
      spdmAnswered m 0x60 [] s t ∧ t.kiln = more) ∧
    (¬ fits → ∀ i ∈ [Instr.getCertificate m n x, .getDeviceInterfaceState m, .getMeasurements m n], spdmRefused m i s)) ∧
  (∀ (s : State) (m : Spdm) (v : Nat), spdmReaches m s →
    let key := transportKey m.transport
    let mine := s.kiln.sessions.filter fun p => p.2.transport = m.transport
    (m.session ≠ 0 → spdmRefused m (.getVersion m) s ∧ spdmRefused m (.negotiateAlgorithms m v) s ∧ spdmRefused m (.keyExchange m) s) ∧
    (v ≠ 0x12 → v ≠ 0x13 → spdmRefused m (.negotiateAlgorithms m v) s) ∧
    (m.session = 0 → ∃ t, exec (.getVersion m) s = .next t ∧ spdmAnswered m 0x04 (Config.answerBytes 0x04 s.kiln.answers) s t ∧
      tfind t.kiln.negotiated key = none ∧ ∀ p, p ∈ t.kiln.sessions ↔ p ∈ s.kiln.sessions ∧ p.2.transport ≠ m.transport) ∧
    (m.session = 0 → v = 0x12 ∨ v = 0x13 → ∃ t, exec (.negotiateAlgorithms m v) s = .next t ∧
      spdmAnswered m 0x63 (Config.answerBytes 0x63 s.kiln.answers) s t ∧ tfind t.kiln.negotiated key = some v ∧
      (∀ k, k ≠ key → tfind t.kiln.negotiated k = tfind s.kiln.negotiated k) ∧
      t.kiln = { s.kiln with negotiated := t.kiln.negotiated, answers := s.kiln.answers + 1 }) ∧
    (tfind s.kiln.negotiated key = none ∨ (m.transport = .doe ∧ 4 ≤ mine.length) ∨ (m.transport ≠ .doe ∧ 1 ≤ mine.length) →
      spdmRefused m (.keyExchange m) s) ∧
    (m.session = 0 → (tfind s.kiln.negotiated key).isSome = true → mine.length < (if m.transport = .doe then 4 else 1) →
      s.kiln.sessions.length < 64 → ∃ t k, exec (.keyExchange m) s = .next t ∧
      spdmAnswered m 0x64 (Config.answerBytes 0x64 s.kiln.answers) s t ∧ k ≠ 0 ∧ tfind s.kiln.sessions k = none ∧
      tfind t.kiln.sessions k = some { transport := m.transport, finished := false, secret := Config.freshKey s.kiln.draws, updates := 0 } ∧
      (∀ j, j ≠ k → tfind t.kiln.sessions j = tfind s.kiln.sessions j) ∧
      t.kiln = { s.kiln with sessions := t.kiln.sessions, draws := s.kiln.draws + 1, answers := s.kiln.answers + 1 })) ∧
  (∀ (s : State) (m : Spdm) (x : Session), spdmReaches m s → spdmSession m x s →
    let only (y : Option Session) (t : State) : Prop :=
      tfind t.kiln.sessions m.session = y ∧ (∀ j, j ≠ m.session → tfind t.kiln.sessions j = tfind s.kiln.sessions j) ∧
      t.kiln = { s.kiln with sessions := t.kiln.sessions, answers := s.kiln.answers + 1 }
    let gives (i : Instr) (code : Nat) (y : Option Session) : Prop :=
      ∃ t, exec i s = .next t ∧ spdmAnswered m code (Config.answerBytes code s.kiln.answers) s t ∧ only y t
    (x.finished = true → gives (.heartbeat m) 0x68 (some x) ∧ gives (.keyUpdate m) 0x69 (some { x with updates := x.updates + 1 }) ∧
      gives (.endSession m) 0x6C none ∧ ∀ v, spdmRefused m (.finish m v) s) ∧
    (x.finished = false → gives (.finish m true) 0x65 (some { x with finished := true }) ∧
      (∃ t, exec (.finish m false) s = .next t ∧ spdmAnswered m 0x7F [] s t ∧ only none t) ∧
      ∀ i ∈ [Instr.heartbeat m, .keyUpdate m, .endSession m], spdmRefused m i s)) ∧
  (∀ (s : State) (m : Spdm) (x : Session) (mem : Bool) (key : Nat), spdmReaches m s → spdmSession m x s →
    let o := ideOf s mem
    let other := if o.use then 0 else 1
    (x.finished = false → spdmRefused m (.keyProg m mem key) s ∧ spdmRefused m (.kSetGo m mem) s) ∧
    (tfind o.keys other = none → spdmRefused m (.kSetGo m mem) s) ∧
    (x.finished = true →
      (∃ t, exec (.keyProg m mem key) s = .next t ∧ spdmAnswered m 0x7E (Config.answerBytes 0x7E s.kiln.answers) s t ∧
        tfind (ideOf t mem).keys other = some key ∧ (∀ k, k ≠ other → tfind (ideOf t mem).keys k = tfind o.keys k) ∧
        (ideOf t mem).use = o.use ∧ ideOf t (!mem) = ideOf s (!mem)) ∧
      ((tfind o.keys other).isSome = true → ∃ t, exec (.kSetGo m mem) s = .next t ∧
        spdmAnswered m 0x7E (Config.answerBytes 0x7E s.kiln.answers) s t ∧
        ideOf t mem = { o with use := !o.use, live := true } ∧ ideOf t (!mem) = ideOf s (!mem)))) ∧
  (∀ (s : State) (m : Spdm) (x : Session) (nonce : Nat), spdmReaches m s → spdmSession m x s → x.finished = true →
    let more : Kiln := { s.kiln with answers := s.kiln.answers + 1 }
    let lockable : Prop := s.sealed_ = true ∧ s.dbg.courses = 0 ∧ s.dbg.cores = 0 ∧ s.kiln.ideIo.live = true ∧ s.kiln.ideMem.live = true ∧
      s.kiln.recovery = false ∧ s.kiln.tdi = .configUnlocked ∧ ∀ p ∈ s.kiln.slots, p.2.protected_ = false
    let free := Config.answerBytes 0x7E s.kiln.answers
    (¬ lockable → spdmRefused m (.lockInterfaceRequest m) s) ∧
    (lockable → ∃ t, exec (.lockInterfaceRequest m) s = .next t ∧ spdmAnswered m 0x7E (leBytes 32 t.kiln.nonce) s t ∧
      t.kiln = { more with tdi := .configLocked, nonce := Config.freshKey s.kiln.draws, draws := s.kiln.draws + 1 }) ∧
    (s.kiln.tdi = .configLocked ∨ s.kiln.tdi = .run → ∃ t, exec (.getDeviceInterfaceReport m) s = .next t ∧
      spdmAnswered m 0x7E free s t ∧ t.kiln = more) ∧
    (s.kiln.tdi = .configUnlocked ∨ s.kiln.tdi = .error → spdmRefused m (.getDeviceInterfaceReport m) s) ∧
    (s.kiln.tdi ≠ .configLocked ∨ nonce ≠ s.kiln.nonce → spdmRefused m (.startInterfaceRequest m nonce) s) ∧
    (s.kiln.tdi = .configLocked → nonce = s.kiln.nonce → ∃ t, exec (.startInterfaceRequest m nonce) s = .next t ∧
      spdmAnswered m 0x7E free s t ∧ t.kiln = { more with tdi := .run }) ∧
    (s.kiln.tdi ≠ .run → ∃ t, exec (.stopInterfaceRequest m) s = .next t ∧ spdmAnswered m 0x7E free s t ∧
      t.kiln = { more with tdi := .configUnlocked, nonce := 0 }) ∧
    (s.kiln.tdi = .run → s.ctxs = [] → (∀ p ∈ s.kiln.access, protectedEntry s p.2 = false) →
      (∀ p ∈ s.kiln.access, fieldOf p.2 15 14 ≠ 1) → s.kiln.change = [] → ∃ t, exec (.stopInterfaceRequest m) s = .next t ∧
      t.kiln.tdi = .configUnlocked ∧ ∀ p ∈ t.kiln.slots, p.2.protected_ = false)) ∧
  (∀ (s : State) (m : Spdm) (x : Session) (v : TdispVendor), spdmReaches m s → spdmSession m x s → x.finished = true →
    let gives (st val : Nat) (t : State) : Prop := exec (.tdispVendorMessage m v) s = .next t ∧
      spdmAnswered m 0x7E (leBytes 1 st ++ leBytes 4 val) s t
    let more : Kiln := { s.kiln with answers := s.kiln.answers + 1 }
    (s.kiln.tdi ≠ .run → spdmRefused m (.tdispVendorMessage m v) s) ∧
    (s.kiln.tdi = .run →
      (∀ pasid k, v = .slotAssign pasid → pasid < 2 ^ 20 → s.kiln.recovery = false → 2 ≤ k → k < 1024 → tfind s.kiln.slots k = none →
        (∀ i, 2 ≤ i → i < k → (tfind s.kiln.slots i).isSome = true) → ∃ t, gives 0 k t ∧
        tfind t.kiln.slots k = some ⟨pasid, 2, true, Config.freshKey s.kiln.draws⟩ ∧
        t.kiln = { more with slots := t.kiln.slots, draws := s.kiln.draws + 1 }) ∧
      (∀ k y, v = .slotRelease k → tfind s.kiln.slots k = some y →
        (y.protected_ = false ∨ slotNamed s k = true → ∃ t, gives 0x24 0 t ∧ t.kiln = more) ∧
        (y.protected_ = true → slotNamed s k = false → ∃ t, gives 0 0 t ∧ tfind t.kiln.slots k = none ∧
          t.kiln = { more with slots := t.kiln.slots })) ∧
      (∀ first count e, v = .granuleSet first count e → granuleArgsBad s first count e.toNat = true → ∃ t, gives 0x20 0 t ∧ t.kiln = more) ∧
      (∀ first count e, v = .granuleSet first count e → granuleArgsBad s first count e.toNat = false → s.kiln.change = [] →
        (∀ i, i < count → tvmEntry s (granuleOf s ((first + i) * 2 ^ 21)) e = true) → stillMemory s → ∃ t,
        exec (.tdispVendorMessage m v) s = .next t ∧ t.sent = s.sent ++ [.spdm m.transport m.session 0x7E [0, 0, 0, 0, 0]] ∧ t.mem = s.mem ∧
        t.kiln = { more with change := [⟨none, first, count, e⟩] }) ∧
      (∀ c, v = .ctxDestroy c → ctxOf s c = none → ∃ t, gives 0x22 c t ∧ t.kiln = more) ∧
      (∀ c y, v = .ctxDestroy c → ctxOf s c = some y → bitOf y.security 11 = false → ∃ t, gives 0x24 c t ∧ t.kiln = more)))

/-- Resets and bring-up (R34, R635, R671, R672, R682 to R684, R689). Readings and choices of the model in it: log 39, 72, 75, 76. -/
def Obligations.ResetsAndRelease : Prop :=
  (∀ (s : State) (a : RegAgent), writer a offSeal →
    (s.sealed_ = true → exec (.seal a) s = .next s) ∧
    (s.sealed_ = false → ∃ t, exec (.seal a) s = .next t ∧ t.sealed_ = true ∧
      (s.kiln.released = true → tfind t.kiln.measurements 5 = some (Config.sha384
        (([build0 s.build, build1 s.build, strapsWord s.straps] ++ (rwlOffsets s).map (reg s)).flatMap fun w => leBytes 4 w.toNat))) ∧
      (∀ i, i ≠ 5 ∨ s.kiln.released = false → tfind t.kiln.measurements i = tfind s.kiln.measurements i) ∧
      t = { s with sealed_ := true, kiln := { s.kiln with measurements := t.kiln.measurements } })) ∧
  (∀ s : State, ∃ t, exec .coldReset s = .next t ∧ t = { State.reset with
    build := s.build, pending := s.pending, ticket := s.ticket, sent := s.sent,
    mem := { State.reset.mem with host := s.mem.host, hostBad := s.mem.hostBad },
    kiln := { State.reset.kiln with draws := s.kiln.draws, answers := s.kiln.answers },
    clk := { State.reset.clk with pgCourse := s.clk.pgCourse, pgPlinth := s.clk.pgPlinth, pgLintel := s.clk.pgLintel } }) ∧
  (∀ (s : State) (straps : Straps) (fuses : Fuses) (image : KilnImage),
    let passes : Prop := image.selfTest = true ∧ image.signed = true ∧ fuses.minVersion ≤ image.version ∧
      (straps.kilnRecovery = true → image.recovery = true)
    let boot := exec (.coldResetRelease straps fuses image) s
    (s.clk.inCold = false ∨ buildOk s.build = false → boot = .next s) ∧
    (s.clk.inCold = true → buildOk s.build = true → ∃ t, boot = .next t ∧ t.straps = straps ∧ t.kiln.fuses = fuses ∧ t.clk.inCold = false ∧ t.mem = s.mem ∧
      (passes → t.kiln.released = true ∧ t.kiln.recovery = straps.kilnRecovery ∧
        t.kiln.identity = Config.hkdf fuses.deviceSecret [image.version] ∧ t.flt = s.flt ∧
        tfind t.kiln.measurements 2 = some (Config.sha384 (leBytes 48 image.digest)) ∧
        tfind t.kiln.measurements 3 = some (Config.sha384 (leBytes 4 image.version ++ leBytes 4 fuses.minVersion)) ∧
        tfind t.kiln.measurements 6 = some (Config.sha384 (leBytes 2 s.dbg.courses.toNat ++ leBytes 1 s.dbg.cores.toNat))) ∧
      (¬ passes → t.kiln.released = s.kiln.released ∧ hasFault t unitLin 0x59 ∧ t.kiln.measurements = s.kiln.measurements))) ∧
  (∀ s : State,
    exec (.pwrgoodRise .course) s = .next { s with clk := { s.clk with pgCourse := true } } ∧
    exec (.pwrgoodRise .plinth) s = .next { s with clk := { s.clk with pgPlinth := true } } ∧
    exec (.pwrgoodRise .lintel) s = .next { s with clk := { s.clk with pgLintel := true } }) ∧
  (∀ s : State, (∀ k, k < 8 → exec (.warm (.core k)) s = .next s) ∧ exec (.warm .host) s = .next s ∧
    (∀ a, a = .kiln ∨ a = .sideband → ∃ t, exec (.warm a) s = .next t ∧ t.straps = s.straps ∧ t.kiln.fuses = s.kiln.fuses ∧
      t.kiln.released = s.kiln.released ∧ t.kiln.slots = [] ∧ t.kiln.access = [] ∧ t.kiln.sessions = [] ∧ t.kiln.mailboxes = [] ∧
      t.kiln.coresOn = false ∧ t.sealed_ = false ∧ t.ctxs = [] ∧ t.rings = [] ∧ t.regs = [] ∧ t.cores = [] ∧ t.tiles = [] ∧
      t.mem.dev = [] ∧ t.mem.host = s.mem.host ∧ t.home = State.reset.home ∧ t.dbg = State.reset.dbg ∧
      t.clk.plinthOut = false ∧ t.clk.coursesOut = false ∧ (∀ i ∈ t.idents, i.2.busy = false) ∧ t.pending = s.pending)) ∧
  (∀ (s : State) (a : RegAgent) (tests : List (Nat × CrossTest)), writer a offPartCtl → a ≠ .sideband →
    let bit (i : Nat) (v : Bool) (t : State) : Prop := ∀ k, k < 32 →
      bitOf (reg t offPartCtl) k = if k = i then v else bitOf (reg s offPartCtl) k
    let plinthGone (t : State) : Prop := t.clk.plinthOut = false ∧ t.home = State.reset.home ∧ t.mem.dev = [] ∧
      (∀ n, ctlOf t n = { ctlDefault n with corrLog := (ctlOf s n).corrLog }) ∧ t.mortar = State.reset.mortar ∧ t.sec.on = false ∧
      t.mem.devBad = [] ∧ t.mem.topMib = 0 ∧ t.mem.host = s.mem.host ∧ t.kiln.slots = s.kiln.slots ∧
      t.kiln.access = s.kiln.access ∧ ∀ c x, ctxOf s c = some x → x.state = .active → lostCtx t c
    let coursesGone (t : State) : Prop := t.clk.coursesOut = false ∧
      (∀ c, hasCourse s c = true → (courseOf t c).live = false ∧ (courseOf t c).inReset = true) ∧
      ∀ n, hasTile s n = true → (tileOf t n).bound = none
    (bitOf (reg s offPartCtl) 30 = true → exec (.plnRun a true) s = .next s) ∧
    (bitOf (reg s offPartCtl) 30 = false → ∃ t, exec (.plnRun a true) s = .next t ∧ bit 30 true t ∧
      t.clk.plinthOut = (s.clk.plinthOut || (s.clk.pgPlinth && s.kiln.released)) ∧
      t = { s with regs := t.regs, clk := { s.clk with plinthOut := t.clk.plinthOut, counters := t.clk.counters } }) ∧
    (s.clk.plinthOut = true → s.jegons = [] → s.ops = [] → s.cores = [] → s.tiles = [] → s.hods = [] → s.link.rereadQ = [] → rising s.ctls →
      s.xlat.prgs = [] → s.xlat.faultQ = [] →
      (∃ t, exec (.plnRun a false) s = .next t ∧ bit 30 false t ∧ plinthGone t) ∧
      (∃ t, exec (.plnReset a) s = .next t ∧ t.regs = s.regs ∧ plinthGone t)) ∧
    (s.clk.plinthOut = false → exec (.plnReset a) s = .next s ∧
      ∃ t, exec (.plnRun a false) s = .next t ∧ bit 30 false t ∧ t = { s with regs := t.regs }) ∧
    (bitOf (reg s offPartCtl) 29 = true → exec (.crsRun a true tests) s = .next s) ∧
    (bitOf (reg s offPartCtl) 29 = false → s.clk.coursesOut = false → ∃ t, exec (.crsRun a true tests) s = .next t ∧ bit 29 true t ∧
      t.clk.coursesOut = (s.clk.pgCourse && s.clk.plinthOut)) ∧
    (s.clk.coursesOut = true → s.ops = [] → nothingWaits s → s.ctxs = [] →
      (∃ t, exec (.crsRun a false tests) s = .next t ∧ bit 29 false t ∧ coursesGone t ∧ t.mem = s.mem) ∧
      (∃ t, exec (.crsReset a) s = .next t ∧ t.regs = s.regs ∧ coursesGone t ∧ t.mem = s.mem)) ∧
    (s.clk.coursesOut = false → exec (.crsReset a) s = .next s)) ∧
  (∀ (s : State) (a : RegAgent) (c : Nat), writer a (0x100100 + 4 * c) → hasCourse s c = true →
    ((courseOf s c).live = false ∨ (courseOf s c).inReset = true → exec (.courseReset a c) s = .next s) ∧
    ((courseOf s c).live = true → (courseOf s c).inReset = false → s.ops = [] → nothingWaits s → s.rings = [] → s.jegons = [] → s.hods = [] →
      s.xlat.prgs = [] → s.xlat.faultQ = [] → ∃ t, exec (.courseReset a c) s = .next t ∧
      (courseOf t c).live = false ∧ (courseOf t c).inReset = true ∧ (∀ k, k ≠ c → courseOf t k = courseOf s k) ∧
      ((courseOf s c).state = 3 → (courseOf t c).refused = true ∧ (courseOf t c).state = 2) ∧
      (∀ n, hasTile s n = true → n / 16 = c → (tileOf t n).bound = none ∧ (tileOf t n).queue = [] ∧
        ∀ x y, (tileOf s n).bound = some x → ctxOf s x = some y → y.state = .active → lostCtx t x))) ∧
  (∀ (s : State) (tests : List (Nat × CrossTest)),
    (∃ t, exec (.resetRelease .plinth tests) s = .next t ∧
      t.clk.plinthOut = (s.clk.plinthOut || (s.clk.pgPlinth && bitOf (reg s offPartCtl) 30 && s.kiln.released)) ∧
      t = { s with clk := { s.clk with plinthOut := t.clk.plinthOut, counters := t.clk.counters } }) ∧
    (s.clk.coursesOut = true ∨ s.clk.pgCourse = false ∨ s.clk.plinthOut = false ∨ bitOf (reg s offPartCtl) 29 = false →
      exec (.resetRelease .courses tests) s = .next s) ∧
    (s.clk.coursesOut = false → s.clk.pgCourse = true → s.clk.plinthOut = true → bitOf (reg s offPartCtl) 29 = true →
      ∃ t, exec (.resetRelease .courses tests) s = .next t ∧ t.clk.coursesOut = true ∧ ∀ c, hasCourse s c = true →
      (coursePowered s c = false → courseOf t c = courseOf s c) ∧
      (coursePowered s c = true → 1 < (testOf tests c).worst → (courseOf t c).live = false ∧ (courseOf t c).failed = true ∧
        (courseOf t c).state = 0 ∧ Msg.pwrEn c false ∈ t.sent ∧ hasFault t unitClk srcCrossing) ∧
      (coursePowered s c = true → (testOf tests c).worst ≤ 1 → (courseOf t c).live = true ∧ (courseOf t c).state = 2 ∧
        (courseOf t c).spares = min 255 (testOf tests c).spares ∧ ∀ n, hasTile s n = true → n / 16 = c →
        (tileOf t n).clearing = true ∧ ∀ x, readByte (tileOf t n).store x = 0)) ∧
    (∀ c, hasCourse s c = true →
      ((courseOf s c).inReset = false ∨ s.clk.coursesOut = false ∨ s.clk.plinthOut = false ∨ coursePowered s c = false →
        exec (.resetRelease (.course c) tests) s = .next s) ∧
      ((courseOf s c).inReset = true → s.clk.coursesOut = true → s.clk.plinthOut = true → coursePowered s c = true →
        (testOf tests c).worst ≤ 1 → ∃ t, exec (.resetRelease (.course c) tests) s = .next t ∧ (courseOf t c).live = true ∧
        (courseOf t c).inReset = false ∧ ∀ k, k ≠ c → courseOf t k = courseOf s k)) ∧
    (∀ p, hasJegon s p = true → ∃ t, exec (.resetRelease (.jegon p) tests) s = .next t ∧
      jegonOf t p = { jegonOf s p with reset := false } ∧ (∀ k, k ≠ p → jegonOf t k = jegonOf s k) ∧ t = { s with jegons := t.jegons }) ∧
    (∀ n, hasTile s n = true → ∃ t, exec (.tileStoreClearDone n) s = .next t ∧
      tileOf t n = { tileOf s n with clearing := false } ∧ otherTiles n s t ∧ t = { s with tiles := t.tiles }))

/-- Course power (R346, R347, R679), the power limit (R675 to R677), clock changes (R664) and captures (R667). Readings and choices of the model in it: log 3, 39, 66, 74. -/
def Obligations.CoursePowerAndClocks : Prop :=
  (∀ (s : State) (a : RegAgent) (c : Nat), writer a (0x100100 + 4 * c) → hasCourse s c = true →
    let x := courseOf s c
    let only (y : Course) (t : State) : Prop := courseOf t c = y ∧ ∀ k, k ≠ c → courseOf t k = courseOf s k
    (x.live = false ∨ x.state ≠ 2 → ∃ t, exec (.courseGateRequest a c) s = .next t ∧ only { x with on := false } t ∧
      t = { s with courses := t.courses }) ∧
    (x.live = true → x.state = 2 → courseIdle s c = false → ∃ t, exec (.courseGateRequest a c) s = .next t ∧
      only { x with on := false, refused := true } t ∧ reports unitClk srcGateRefused s t ∧
      t = { s with courses := t.courses, flt := t.flt }) ∧
    (x.live = true → x.state = 2 → courseIdle s c = true → s.cores = [] → ∃ t, exec (.courseGateRequest a c) s = .next t ∧
      only { x with on := false, state := 3 } t) ∧
    (x.state ≠ 0 ∨ (x.on = true ∧ x.failed = false) → ∃ t, exec (.coursePowerOn a c) s = .next t ∧ only { x with on := true } t ∧
      t = { s with courses := t.courses }) ∧
    (x.state = 0 → x.on = false ∨ x.failed = true → ∃ t, exec (.coursePowerOn a c) s = .next t ∧ only { x with on := true, state := 1 } t ∧
      t.sent = s.sent ++ [.pwrEn c true] ∧ t = { s with courses := t.courses, sent := t.sent })) ∧
  (∀ (s : State) (c : Nat) (test : CrossTest), hasCourse s c = true →
    let x := courseOf s c
    let only (y : Course) (t : State) : Prop := courseOf t c = y ∧ ∀ k, k ≠ c → courseOf t k = courseOf s k
    let undrained : Prop := ∃ n ∈ courseTiles s c, trowelDrained s n = false
    (x.state ≠ 3 → exec (.gatingRefused c) s = .next s ∧ exec (.coursePowerOff c) s = .next s) ∧
    (¬ undrained → exec (.gatingRefused c) s = .next s) ∧
    (x.state = 3 → undrained → ∃ t, exec (.gatingRefused c) s = .next t ∧ only { x with state := 2, refused := true } t ∧
      reports unitClk srcGateRefused s t ∧ t = { s with courses := t.courses, flt := t.flt }) ∧
    (∀ n, n ∈ courseTiles s c → trowelDrained s n = false → exec (.coursePowerOff c) s = .next s) ∧
    (x.state = 3 → s.ops = [] → nothingWaits s → (∀ n ∈ courseTiles s c, trowelDrained s n = true) → ∃ t, exec (.coursePowerOff c) s = .next t ∧
      only { x with live := false, on := false, state := 0, inReset := true, freq := 0, duty := 0, freqReq := none } t ∧
      t.sent = s.sent ++ [.pwrEn c false] ∧ t.mem = s.mem ∧
      ∀ n ∈ courseTiles s c, (tileOf t n).store = [] ∧ (coreOf t n).lines = []) ∧
    (x.state ≠ 1 → exec (.coursePwrOk c test) s = .next s) ∧
    (x.state = 1 → s.clk.plinthOut = false ∨ s.clk.coursesOut = false → ∃ t, exec (.coursePwrOk c test) s = .next t ∧
      only { x with state := 2, inReset := true } t ∧ t = { s with courses := t.courses }) ∧
    (x.state = 1 → s.clk.plinthOut = true → s.clk.coursesOut = true → ∃ t, exec (.coursePwrOk c test) s = .next t ∧
      (∀ k, k ≠ c → courseOf t k = courseOf s k) ∧
      (1 < test.worst → Msg.pwrEn c false ∈ t.sent ∧ (courseOf t c).live = false ∧ (courseOf t c).state = 0 ∧ (courseOf t c).failed = true ∧
        reports unitClk srcCrossing s t) ∧
      (test.worst ≤ 1 → (courseOf t c).live = true ∧ (courseOf t c).state = 2 ∧ (courseOf t c).failed = false ∧
        (courseOf t c).inReset = false ∧ ∀ n ∈ courseTiles s c, (tileOf t n).clearing = true ∧ (tileOf t n).store = [])) ∧
    (x.freqReq = none → exec (.freqAck c) s = .next s ∧ exec (.freqAckTimeout c) s = .next s) ∧
    (∀ f, x.freqReq = some f →
      (∃ t, exec (.freqAck c) s = .next t ∧ (courseOf t c).freq = f ∧ (∀ k, k ≠ c → courseOf t k = courseOf s k) ∧
        (x.live = true → f = (pointOf s (courseLevel s c)).1 → (courseOf t c).freqReq = none ∧
          (courseOf t c).duty = (pointOf s (courseLevel s c)).2) ∧
        (x.live = true → f ≠ (pointOf s (courseLevel s c)).1 → (courseOf t c).duty = 2 ∧
          (courseOf t c).freqReq = some (pointOf s (courseLevel s c)).1)) ∧
      ∃ t, exec (.freqAckTimeout c) s = .next t ∧ reports unitClk srcPwrUnmet s t ∧ t = { s with flt := t.flt })) ∧
  (∀ (s : State) (v : Word32),
    ∃ t, exec (.clkPwrLimitWrite .sideband v) s = .next t ∧ writesReg offPwrLimit (v &&& 0x8000FFFF) s t ∧
    (bitOf v 31 = true → t = { s with regs := t.regs }) ∧
    (bitOf v 31 = false → t.clk = { s.clk with level := 0 } ∧
      t = { s with regs := t.regs, clk := t.clk, courses := t.courses, sent := t.sent })) ∧
  (∀ (s : State) (v : Word32) (a : RegAgent), agentPresent a = true → a ≠ .sideband →
    exec (.clkPwrLimitWrite a v) s = .next s) ∧
  (∀ (s : State) (watts stepW : Nat) (low steady : Bool),
    let limit := fieldOf (reg s offPwrLimit) 15 0
    let l := s.clk.level
    let lowest := s.build.tensorClkMax / 125 - 2 + 14
    ∃ t, exec (.powerEstimate watts stepW low steady) s = .next t ∧ t.clk.est = watts ∧
    t = { s with clk := t.clk, courses := t.courses, sent := t.sent, flt := t.flt } ∧
    (bitOf (reg s offPwrLimit) 31 = false → t.clk.alert = (s.clk.alert && !(steady && decide (watts ≤ limit))) ∧
      t = { s with clk := { s.clk with est := watts, alert := t.clk.alert }, sent := t.sent }) ∧
    (bitOf (reg s offPwrLimit) 31 = true →
      (0 < stepW → limit < watts → t.clk.level = min lowest (l + max 1 ((watts - limit + stepW - 1) / stepW))) ∧
      (limit < watts → l = lowest → s.clk.alert = false → t.clk.alert = true ∧ Msg.pwrAlert true ∈ t.sent ∧ reports unitClk srcPwrUnmet s t) ∧
      (limit < watts → l ≠ lowest → t.clk.alert = s.clk.alert ∧ t.flt = s.flt) ∧
      (watts ≤ limit → t.clk.level = (if low = true ∧ watts * 100 < limit * 95 then l - 1 else l) ∧
        t.clk.alert = (s.clk.alert && !steady) ∧ t.flt = s.flt) ∧
      (t.clk.level ≠ l → ∀ c, hasCourse s c = true → (courseOf s c).live = true → (courseOf s c).freqReq = none → movedToPoint s t c))) ∧
  (∀ (s : State) (a : RegAgent), writer a offCorrCtl → ∃ t, exec (.corrCapture a) s = .next t ∧
    (∀ d, tfind t.clk.captured d =
      if hasDomain s d = true ∧ clockOf s d = d ∧ d < 114 then some (cyclesOf s d, clockRuns s d) else tfind s.clk.captured d) ∧
    t = { s with clk := { s.clk with captured := t.clk.captured } })

/-- Set-up registers (R15, R686 to R690, R699) and the debug port (R680, R681, R702, R703; log 18). Readings and choices of the model in it: log 33, 39, 77, 95. -/
def Obligations.RegistersAndDebug : Prop :=
  (∀ (s : State) (a : RegAgent) (off size : Nat) (v : Word64), agentPresent a = true →
    (a = .host ∨ a = .sideband → size ≠ 4 ∨ off % 4 ≠ 0 → exec (.registerWrite a off size v) s = .next s ∧
      exec (.registerRead a off size) s = .next { s with sent := s.sent ++ [.regValue a off 0xFFFFFFFF] }) ∧
    (∀ k, a = .core k → size ≠ 4 ∨ off % 4 ≠ 0 → coreReady s (192 + k) = true → (coreOf s (192 + k)).prog = false →
      (coreOf s (192 + k)).ntBufs = [] →
      (coreOf s (192 + k)).deferred = [] → ∀ x ∈ [(Instr.registerRead a off size, 4, 5), (.registerWrite a off size v, 6, 7)],
      ∃ t, exec x.1 s = .next t ∧ t = { s with cores := t.cores } ∧
      trapped ⟨192 + k, (coreOf s (192 + k)).pc, (coreOf s (192 + k)).mode, 0⟩ false (if off % size ≠ 0 then x.2.1 else x.2.2)
        (BitVec.ofNat 64 (chipSelf s * 2 ^ 40 + 0xF000000000 + off)) s t) ∧
    (size = 4 → off % 4 = 0 → mayWrite a off = false ∨ regAt s off = none → exec (.registerWrite a off size v) s = .next s) ∧
    (size = 4 → off % 4 = 0 → mayRead a off = false ∨ regAt s off = none →
      exec (.registerRead a off size) s = .next { s with sent := s.sent ++ [.regValue a off 0] })) ∧
  (∀ (s : State) (a : RegAgent) (off : Nat) (r : RegId), agentPresent a = true → off % 4 = 0 → mayRead a off = true →
    regAt s off = some r → highOf r = none → tfind s.captures (agentKey a off) = none →
    exec (.registerRead a off 4) s = .next { s with sent := s.sent ++ [.regValue a off (regValue s r)] }) ∧
  (∀ (s : State) (a : RegAgent) (e : Nat), agentPresent a = true → a ≠ .sideband → hasHod s e = true → e < 32 →
    let lo := offHodBytes e
    ∃ t u, exec (.registerRead a lo 4) s = .next t ∧ t.sent = s.sent ++ [.regValue a lo (reg s lo)] ∧
      t = { s with sent := t.sent, captures := t.captures } ∧
      exec (.registerRead a (lo + 4) 4) t = .next u ∧ u.sent = t.sent ++ [.regValue a (lo + 4) (reg s (lo + 4))] ∧
      u = { s with sent := u.sent, captures := u.captures } ∧ tfind u.captures (agentKey a (lo + 4)) = none) ∧
  (∀ (s : State) (a : RegAgent) (v : Word64), writer a offWeight → s.staged = [] →
    let w : Word32 := v.setWidth 32
    (s.sealed_ = true → exec (.registerWrite a offWeight 4 v) s = .next s) ∧
    (s.sealed_ = false → ∃ t, exec (.registerWrite a offWeight 4 v) s = .next t ∧ writesReg offWeight (w &&& 0xFFFFFF) s t ∧
      t = { s with regs := t.regs })) ∧
  (∀ (s : State) (a : RegAgent) (v : Word64), writer a offLinDropCnt → s.staged = [] →
    ∃ t, exec (.registerWrite a offLinDropCnt 4 v) s = .next t ∧ writesReg offLinDropCnt (v.setWidth 32) s t ∧ t = { s with regs := t.regs }) ∧
  (∀ (s : State) (v : Word64), s.staged = [] →
    let b := mailboxOf s 0
    let w : Word32 := v.setWidth 32
    (b.busy = true ∨ b.imgBusy = true → exec (.registerWrite .host 0x3800000 4 v) s = .next s ∧
      exec (.registerWrite .host 0x3800100 4 v) s = .next s) ∧
    (b.busy = false → b.imgBusy = false →
      (∃ t, exec (.registerWrite .host 0x3800100 4 v) s = .next t ∧ mbData t 0 0 = w.toNat ∧
        (mailboxOf t 0).busy = false ∧ t = { s with kiln := { s.kiln with mailboxes := t.kiln.mailboxes } }) ∧
      ∃ t, exec (.registerWrite .host 0x3800000 4 v) s = .next t ∧ (mailboxOf t 0).service = BitVec.ofNat 8 (fieldOf w 7 0) ∧
        (mailboxOf t 0).busy = (bitOf w 31 && decide (1 ≤ fieldOf w 7 0) && decide (fieldOf w 7 0 ≤ 6)) ∧
        (bitOf w 31 = true → fieldOf w 7 0 = 0 ∨ 6 < fieldOf w 7 0 → (mailboxOf t 0).status = 0x20) ∧
        t = { s with kiln := { s.kiln with mailboxes := t.kiln.mailboxes } })) ∧
  (∀ s : State, exec .idcode s = .next { s with sent := s.sent ++ [.debugOut (regValue s .dbgIdcode).toNat 32] } ∧
    (regValue s .dbgIdcode).toNat =
      0x5831 * 2 ^ 12 + (if s.kiln.released then s.kiln.fuses.manuf.toNat else 0) * 2 + 1) ∧
  (∀ (s : State) (w : Option Word32), exec (.dtmcsAccess w) s = .next { s with sent := s.sent ++ [.debugOut 0x71 32] }) ∧
  (∀ s : State, s.dbg.haltreq = false → (coreOf s s.dbg.hartsel).prog = false →
    let out (a d : Nat) : Msg := .debugOut (a * 2 ^ 34 + d * 4) 41
    (∀ a : BitVec 7, exec (.dmiAccess a .nop) s = .next { s with sent := s.sent ++ [out a.toNat 0] }) ∧
    exec (.dmiAccess 0x04 .read) s = .next { s with sent := s.sent ++ [out 0x04 s.dbg.data0.toNat] } ∧
    (∀ v : Word32,
      (s.dbg.dmactive = true → exec (.dmiAccess 0x04 (.write v)) s = .next { s with
        dbg := { s.dbg with data0 := v }, sent := s.sent ++ [out 0x04 v.toNat] }) ∧
      (s.dbg.dmactive = false → exec (.dmiAccess 0x04 (.write v)) s = .next { s with sent := s.sent ++ [out 0x04 v.toNat] }) ∧
      (∀ i, i < 8 → s.dbg.dmactive = true → ∃ t u, exec (.dmiAccess (BitVec.ofNat 7 (0x20 + i)) (.write v)) s = .next t ∧
        t = { s with dbg := { s.dbg with progbuf := t.dbg.progbuf }, sent := s.sent ++ [out (0x20 + i) v.toNat] } ∧
        exec (.dmiAccess (BitVec.ofNat 7 (0x20 + i)) .read) t = .next u ∧ u.sent = t.sent ++ [out (0x20 + i) v.toNat]) ∧
      (bitOf v 0 = false → ∃ t, exec (.dmiAccess 0x10 (.write v)) s = .next t ∧
        t.dbg = { State.reset.dbg with courses := s.dbg.courses, cores := s.dbg.cores } ∧ t.cores = s.cores)) ∧
    (∀ (n : Nat) (v : Word32), v = BitVec.ofNat 32 (2 ^ 31 + n * 2 ^ 16 + 1) → n < 200 → hartShown s n = true →
      (coreOf s n).halted = false → (coreOf s n).prog = false → (coreOf s n).wait = none → ∃ t, exec (.dmiAccess 0x10 (.write v)) s = .next t ∧
      (coreOf t n).halted = true ∧ (coreOf t n).dpc = (coreOf s n).pc ∧ otherCores n s t ∧
      ∀ (i : BitVec 5) (w : Word32), w = BitVec.ofNat 32 (3 * 2 ^ 20 + 2 ^ 17 + 0x1000 + i.toNat) → s.dbg.cmderr = 0 →
        ∃ u, exec (.dmiAccess 0x17 (.write w)) t = .next u ∧
        u.dbg.data0.toNat + u.dbg.data1.toNat * 2 ^ 32 = (getX (coreOf s n) i).toNat ∧ u.cores = t.cores))

/-- IDCODE (R703). -/
def Obligations.IdcodeShiftsRegister : Prop :=
  ∀ s : State, exec .idcode s = .next { s with sent := s.sent ++ [.debugOut (regValue s .dbgIdcode).toNat 32] }
end

