-- ==== Sys2Proof/Laws/Tables.lean ====
section
/-! SUPPORT. Laws of the sparse tables and of byte memories: a read after a write, what a write leaves alone, and the canonical form. -/
namespace Sys2Proof.Machine

variable {α : Type}

@[simp] theorem tfind_nil (k : Nat) : tfind ([] : Table α) k = none := rfl

@[simp] theorem tget_nil (d : Nat → α) (k : Nat) : tget d [] k = d k := rfl

@[simp] theorem tfind_terase_same (t : Table α) (k : Nat) : tfind (terase t k) k = none := by
  induction t with
  | nil => rfl
  | cons p t ih => obtain ⟨k', v⟩ := p; by_cases h : k' = k <;> simp [terase, tfind, h, ih]

@[simp] theorem tfind_terase_other (t : Table α) {k m : Nat} (h : m ≠ k) : tfind (terase t k) m = tfind t m := by
  induction t with
  | nil => rfl
  | cons p t ih =>
    obtain ⟨k', v⟩ := p
    by_cases h1 : k' = k
    · subst h1; simp [terase, tfind, ih, Ne.symm h]
    · simp only [terase, h1, if_false, tfind]; split <;> simp [ih]

@[simp] theorem tfind_tinsert_same (t : Table α) (k : Nat) (v : α) : tfind (tinsert t k v) k = some v := by
  induction t with
  | nil => simp [tinsert, tfind]
  | cons p t ih =>
    obtain ⟨k', w⟩ := p
    by_cases h1 : k < k'
    · simp [tinsert, tfind, h1]
    · by_cases h2 : k = k'
      · subst h2; simp [tinsert, tfind]
      · simp [tinsert, tfind, h1, h2, Ne.symm h2, ih]

@[simp] theorem tfind_tinsert_other (t : Table α) {k m : Nat} (v : α) (h : m ≠ k) :
    tfind (tinsert t k v) m = tfind t m := by
  induction t with
  | nil => simp [tinsert, tfind, Ne.symm h]
  | cons p t ih =>
    obtain ⟨k', w⟩ := p
    by_cases h1 : k < k'
    · simp [tinsert, tfind, h1, Ne.symm h]
    · by_cases h2 : k = k'
      · subst h2; simp [tinsert, tfind, Ne.symm h]
      · simp only [tinsert, h1, h2, if_false, tfind]; split <;> simp [ih]

@[simp] theorem tget_tset_same [DecidableEq α] (d : Nat → α) (t : Table α) (k : Nat) (v : α) :
    tget d (tset d t k v) k = v := by
  by_cases h : v = d k <;> simp [tget, tset, h]

@[simp] theorem tget_tset_other [DecidableEq α] (d : Nat → α) (t : Table α) {k m : Nat} (v : α) (h : m ≠ k) :
    tget d (tset d t k v) m = tget d t m := by
  by_cases h1 : v = d k <;> simp [tget, tset, h1, h]

/-- What any key reads as after a write. -/
theorem tget_tset [DecidableEq α] (d : Nat → α) (t : Table α) (k m : Nat) (v : α) :
    tget d (tset d t k v) m = if m = k then v else tget d t m := by
  by_cases h : m = k
  · subst h; simp
  · simp [h]

/-! ## The canonical form -/

/-- The listed keys. -/
theorem keys_terase (t : Table α) (k : Nat) : (terase t k).map Prod.fst = (t.map Prod.fst).filter (· ≠ k) := by
  induction t with
  | nil => rfl
  | cons p t ih => obtain ⟨k', v⟩ := p; by_cases h : k' = k <;> simp [terase, h, ih]

/-- The canonical form, said of the list: every entry differs from its default, and the keys rise strictly. -/
theorem twf_iff [DecidableEq α] (d : Nat → α) (t : Table α) :
    twf d t = true ↔ (∀ p ∈ t, p.2 ≠ d p.1) ∧ (t.map Prod.fst).Pairwise (· < ·) := by
  induction t with
  | nil => simp [twf]
  | cons p t ih =>
    obtain ⟨k, v⟩ := p
    rw [twf.eq_def]
    simp only [Bool.and_eq_true, ih]
    cases t with
    | nil => simp
    | cons q t =>
      obtain ⟨k', v'⟩ := q
      simp only [decide_eq_true_eq, List.mem_cons, forall_eq_or_imp, List.map_cons, List.pairwise_cons]
      constructor
      · rintro ⟨⟨h1, h2⟩, h3, h4, h5⟩
        refine ⟨⟨h1, h3⟩, ⟨h2, fun a ha => Nat.lt_trans h2 (h4 a ha)⟩, h4, h5⟩
      · rintro ⟨⟨h1, h3⟩, ⟨h2, -⟩, h4, h5⟩
        exact ⟨⟨h1, h2⟩, h3, h4, h5⟩

theorem mem_terase (t : Table α) (k : Nat) {p : Nat × α} (h : p ∈ terase t k) : p ∈ t := by
  induction t with
  | nil => exact h
  | cons q t ih =>
    obtain ⟨k', v⟩ := q
    simp only [terase] at h
    split at h
    · exact List.mem_cons_of_mem _ (ih h)
    · rcases List.mem_cons.mp h with h | h
      · exact h ▸ List.mem_cons_self
      · exact List.mem_cons_of_mem _ (ih h)

theorem mem_tinsert (t : Table α) (k : Nat) (v : α) {p : Nat × α} (h : p ∈ tinsert t k v) : p = (k, v) ∨ p ∈ t := by
  induction t with
  | nil => simpa [tinsert] using h
  | cons q t ih =>
    obtain ⟨k', w⟩ := q
    simp only [tinsert] at h
    split at h
    · simpa using h
    · split at h
      · rcases List.mem_cons.mp h with h | h
        · exact .inl h
        · exact .inr (List.mem_cons_of_mem _ h)
      · rcases List.mem_cons.mp h with h | h
        · exact .inr (h ▸ List.mem_cons_self)
        · exact (ih h).imp id (List.mem_cons_of_mem _)

theorem keys_tinsert_sorted (t : Table α) (k : Nat) (v : α) (h : (t.map Prod.fst).Pairwise (· < ·)) :
    ((tinsert t k v).map Prod.fst).Pairwise (· < ·) := by
  induction t with
  | nil => simp [tinsert]
  | cons q t ih =>
    obtain ⟨k', w⟩ := q
    simp only [List.map_cons, List.pairwise_cons] at h
    simp only [tinsert]
    split
    · rename_i hlt
      simp only [List.map_cons, List.pairwise_cons, List.mem_cons, forall_eq_or_imp]
      exact ⟨⟨hlt, fun a ha => Nat.lt_trans hlt (h.1 a ha)⟩, h⟩
    · split
      · rename_i he; subst he; simpa using h
      · rename_i h1 h2
        simp only [List.map_cons, List.pairwise_cons]
        refine ⟨fun a ha => ?_, ih h.2⟩
        obtain ⟨p, hp, rfl⟩ := List.mem_map.mp ha
        rcases mem_tinsert t k v hp with rfl | hp
        · exact Nat.lt_of_le_of_ne (Nat.le_of_not_lt h1) (Ne.symm h2)
        · exact h.1 _ (List.mem_map.mpr ⟨p, hp, rfl⟩)

/-- A write keeps the canonical form. -/
theorem twf_tset [DecidableEq α] (d : Nat → α) (t : Table α) (k : Nat) (v : α) (h : twf d t = true) :
    twf d (tset d t k v) = true := by
  rw [twf_iff] at h ⊢
  by_cases hv : v = d k
  · simp only [tset, hv, if_true]
    refine ⟨fun p hp => h.1 p (mem_terase t k hp), ?_⟩
    rw [keys_terase]
    exact h.2.filter _
  · simp only [tset, hv, if_false]
    refine ⟨fun p hp => ?_, keys_tinsert_sorted t k v h.2⟩
    rcases mem_tinsert t k v hp with rfl | hp
    · exact hv
    · exact h.1 p hp

/-! ## Bytes of memory -/

theorem readByte_writeByte (m : List Host.Cell) (a b : Nat) (v : Byte) :
    readByte (writeByte m a v) b = if b = a then v else readByte m b := tget_tset _ _ _ _ _

/-- A byte of memory after a write of consecutive bytes: the byte written there, or what it was. -/
theorem readByte_writeBytes (m : List Host.Cell) (a b : Nat) (d : List Byte) :
    readByte (writeBytes m a d) b = if a ≤ b ∧ b < a + d.length then d.getD (b - a) 0 else readByte m b := by
  induction d generalizing m a with
  | nil => exact (if_neg (by simp only [List.length_nil]; omega)).symm
  | cons v d ih =>
    rw [writeBytes, ih, readByte_writeByte]
    by_cases h : b = a
    · subst h
      rw [if_neg (by omega), if_pos rfl, if_pos (by simp only [List.length_cons]; omega), Nat.sub_self]; rfl
    · by_cases h2 : a + 1 ≤ b ∧ b < a + 1 + d.length
      · have h3 : a ≤ b ∧ b < a + (v :: d).length := by simp only [List.length_cons]; omega
        have h4 : b - a = (b - (a + 1)) + 1 := by omega
        simp only [h2, h3, h4, and_self, if_true, List.getD_cons_succ]
      · have h3 : ¬ (a ≤ b ∧ b < a + (v :: d).length) := by simp only [List.length_cons]; omega
        simp only [h2, h3, h, if_false]

theorem wf_writeByte (m : List Host.Cell) (a : Nat) (v : Byte) (h : Memory.wf m = true) : Memory.wf (writeByte m a v) = true :=
  twf_tset _ _ _ _ h

/-- A write of consecutive bytes keeps the canonical form. -/
theorem wf_writeBytes (m : List Host.Cell) (a : Nat) (d : List Byte) (h : Memory.wf m = true) :
    Memory.wf (writeBytes m a d) = true := by
  induction d generalizing m a with
  | nil => exact h
  | cons v d ih => exact ih _ _ (wf_writeByte m a v h)

/-- What is read back after a write of the same place. -/
theorem readBytes_writeBytes (m : List Host.Cell) (a : Nat) (d : List Byte) : readBytes (writeBytes m a d) a d.length = d := by
  apply List.ext_getElem
  · simp [readBytes]
  · intro i h1 h2
    simp [readBytes, readByte_writeBytes, h2]

/-! ## Loops -/

/-- A loop keeps what each of its rounds keeps. -/
theorem forEach_keeps {β γ : Type} (g : State → γ) (l : List β) (f : β → State → State) (h : ∀ b s, g (f b s) = g s) (s : State) :
    g (forEach l f s) = g s := by
  induction l generalizing s with
  | nil => rfl
  | cons b l ih => exact (ih (f b s)).trans (h b s)

/-- A loop keeps an invariant that each of its rounds keeps. -/
theorem forEach_inv {β : Type} (P : State → Prop) (l : List β) (f : β → State → State) (h : ∀ b s, P s → P (f b s)) (s : State)
    (hs : P s) : P (forEach l f s) := by
  induction l generalizing s with
  | nil => exact hs
  | cons b l ih => exact ih (f b s) (h b s hs)

end Sys2Proof.Machine
end

