-- ==== Sys2Proof/Laws/State.lean ====
section
/-! SUPPORT. What each update of the state leaves alone: one lemma for each field and update, and what the part that it writes
reads as afterwards. -/
namespace Sys2Proof.Machine

@[simp] theorem coreOf_modCore (n m : Nat) (f : Core → Core) (s : State) :
    coreOf (modCore n f s) m = if m = n then f (coreOf s n) else coreOf s m := tget_tset _ _ _ _ _

@[simp] theorem tileOf_modTile (n m : Nat) (f : Tile → Tile) (s : State) :
    tileOf (modTile n f s) m = if m = n then f (tileOf s n) else tileOf s m := tget_tset _ _ _ _ _

@[simp] theorem ctlOf_modCtl (n m : Nat) (f : Ctl → Ctl) (s : State) :
    ctlOf (modCtl n f s) m = if m = n then f (ctlOf s n) else ctlOf s m := tget_tset _ _ _ _ _

@[simp] theorem jegonOf_modJegon (n m : Nat) (f : Jegon → Jegon) (s : State) :
    jegonOf (modJegon n f s) m = if m = n then f (jegonOf s n) else jegonOf s m := tget_tset _ _ _ _ _

@[simp] theorem vecOf_modVec (n m : Nat) (f : Vec → Vec) (s : State) :
    vecOf (modVec n f s) m = if m = n then f (vecOf s n) else vecOf s m := tget_tset _ _ _ _ _

@[simp] theorem hodOf_modHod (n m : Nat) (f : Hod → Hod) (s : State) :
    hodOf (modHod n f s) m = if m = n then f (hodOf s n) else hodOf s m := tget_tset _ _ _ _ _

@[simp] theorem bondOf_modBond (n m : Nat) (f : Bond → Bond) (s : State) :
    bondOf (modBond n f s) m = if m = n then f (bondOf s n) else bondOf s m := tget_tset _ _ _ _ _

@[simp] theorem courseOf_modCourse (n m : Nat) (f : Course → Course) (s : State) :
    courseOf (modCourse n f s) m = if m = n then f (courseOf s n) else courseOf s m := tget_tset _ _ _ _ _

@[simp] theorem admqOf_modAdmq (n m : Nat) (f : AdmQ → AdmQ) (s : State) :
    admqOf (modAdmq n f s) m = if m = n then f (admqOf s n) else admqOf s m := tget_tset _ _ _ _ _

@[simp] theorem mailboxOf_modMailbox (n m : Nat) (f : Mailbox → Mailbox) (s : State) :
    mailboxOf (modMailbox n f s) m = if m = n then f (mailboxOf s n) else mailboxOf s m := tget_tset _ _ _ _ _

@[simp] theorem coreOf_setCore (n m : Nat) (c : Core) (s : State) :
    coreOf (setCore n c s) m = if m = n then c else coreOf s m := tget_tset _ _ _ _ _

@[simp] theorem tileOf_setTile (n m : Nat) (c : Tile) (s : State) :
    tileOf (setTile n c s) m = if m = n then c else tileOf s m := tget_tset _ _ _ _ _

@[simp] theorem ctxOf_modCtx (n m : Nat) (f : Ctx → Ctx) (s : State) :
    ctxOf (modCtx n f s) m = if m = n then (ctxOf s n).map f else ctxOf s m := by
  by_cases h : m = n
  · subst h; unfold modCtx; split <;> simp_all [ctxOf, setCtx]
  · unfold modCtx; split <;> simp [h, ctxOf, setCtx]

@[simp] theorem ringOf_modRing (n m : Nat) (f : Ring → Ring) (s : State) :
    ringOf (modRing n f s) m = if m = n then (ringOf s n).map f else ringOf s m := by
  by_cases h : m = n
  · subst h; unfold modRing; split <;> simp_all [ringOf, setRing]
  · unfold modRing; split <;> simp [h, ringOf, setRing]

theorem sourceLevels_congr {s t : State} (h : s.build = t.build) : sourceLevels s = sourceLevels t := by
  have hj : hasJegon s = hasJegon t := by funext p; unfold hasJegon; rw [h]
  funext src
  unfold sourceLevels
  rw [hj]

/-- The reset values of the set-up registers rest on the build alone. -/
theorem resetWord_congr {s t : State} (h : s.build = t.build) : resetWord s = resetWord t := by
  funext off
  unfold resetWord
  rw [sourceLevels_congr h]

/-- The written fields of a set-up register after a write. -/
@[simp] theorem reg_setReg (o p : Nat) (v : Word32) (s : State) :
    reg (setReg o v s) p = if p = o then v else reg s p := by
  have h : resetWord (setReg o v s) = resetWord s := resetWord_congr (by rfl)
  unfold reg
  rw [h]
  simp only [setReg, tget_tset]

/-- A set-up register reads the same in states with the same build and written fields. -/
theorem reg_congr {s t : State} (hb : s.build = t.build) (hr : s.regs = t.regs) (p : Nat) : reg s p = reg t p := by
  simp only [reg, resetWord_congr hb, hr]

@[simp] theorem identOf_setIdent (path unit i path' unit' i' : Nat) (d : Ident) (s : State) :
    identOf (setIdent path unit i d s) path' unit' i' =
      if identKey path' unit' i' = identKey path unit i then d else identOf s path' unit' i' := tget_tset _ _ _ _ _

@[simp] theorem send_sent (m : Msg) (s : State) : (send m s).sent = s.sent ++ [m] := rfl

@[simp] theorem setCore_build (n : Nat) (c : Core) (s : State) : (setCore n c s).build = s.build := rfl
@[simp] theorem setCore_pending (n : Nat) (c : Core) (s : State) : (setCore n c s).pending = s.pending := rfl
@[simp] theorem setCore_ticket (n : Nat) (c : Core) (s : State) : (setCore n c s).ticket = s.ticket := rfl
@[simp] theorem setCore_sent (n : Nat) (c : Core) (s : State) : (setCore n c s).sent = s.sent := rfl
@[simp] theorem setCore_straps (n : Nat) (c : Core) (s : State) : (setCore n c s).straps = s.straps := rfl
@[simp] theorem setCore_regs (n : Nat) (c : Core) (s : State) : (setCore n c s).regs = s.regs := rfl
@[simp] theorem setCore_sealed_ (n : Nat) (c : Core) (s : State) : (setCore n c s).sealed_ = s.sealed_ := rfl
@[simp] theorem setCore_captures (n : Nat) (c : Core) (s : State) : (setCore n c s).captures = s.captures := rfl
@[simp] theorem setCore_staged (n : Nat) (c : Core) (s : State) : (setCore n c s).staged = s.staged := rfl
@[simp] theorem setCore_tiles (n : Nat) (c : Core) (s : State) : (setCore n c s).tiles = s.tiles := rfl
@[simp] theorem setCore_ops (n : Nat) (c : Core) (s : State) : (setCore n c s).ops = s.ops := rfl
@[simp] theorem setCore_idents (n : Nat) (c : Core) (s : State) : (setCore n c s).idents = s.idents := rfl
@[simp] theorem setCore_home (n : Nat) (c : Core) (s : State) : (setCore n c s).home = s.home := rfl
@[simp] theorem setCore_ctls (n : Nat) (c : Core) (s : State) : (setCore n c s).ctls = s.ctls := rfl
@[simp] theorem setCore_mem (n : Nat) (c : Core) (s : State) : (setCore n c s).mem = s.mem := rfl
@[simp] theorem setCore_xlat (n : Nat) (c : Core) (s : State) : (setCore n c s).xlat = s.xlat := rfl
@[simp] theorem setCore_jegons (n : Nat) (c : Core) (s : State) : (setCore n c s).jegons = s.jegons := rfl
@[simp] theorem setCore_link (n : Nat) (c : Core) (s : State) : (setCore n c s).link = s.link := rfl
@[simp] theorem setCore_watches (n : Nat) (c : Core) (s : State) : (setCore n c s).watches = s.watches := rfl
@[simp] theorem setCore_devWatch (n : Nat) (c : Core) (s : State) : (setCore n c s).devWatch = s.devWatch := rfl
@[simp] theorem setCore_vecs (n : Nat) (c : Core) (s : State) : (setCore n c s).vecs = s.vecs := rfl
@[simp] theorem setCore_hods (n : Nat) (c : Core) (s : State) : (setCore n c s).hods = s.hods := rfl
@[simp] theorem setCore_ctxs (n : Nat) (c : Core) (s : State) : (setCore n c s).ctxs = s.ctxs := rfl
@[simp] theorem setCore_rings (n : Nat) (c : Core) (s : State) : (setCore n c s).rings = s.rings := rfl
@[simp] theorem setCore_admqs (n : Nat) (c : Core) (s : State) : (setCore n c s).admqs = s.admqs := rfl
@[simp] theorem setCore_waits (n : Nat) (c : Core) (s : State) : (setCore n c s).waits = s.waits := rfl
@[simp] theorem setCore_inbox (n : Nat) (c : Core) (s : State) : (setCore n c s).inbox = s.inbox := rfl
@[simp] theorem setCore_bonds (n : Nat) (c : Core) (s : State) : (setCore n c s).bonds = s.bonds := rfl
@[simp] theorem setCore_sec (n : Nat) (c : Core) (s : State) : (setCore n c s).sec = s.sec := rfl
@[simp] theorem setCore_flt (n : Nat) (c : Core) (s : State) : (setCore n c s).flt = s.flt := rfl
@[simp] theorem setCore_kiln (n : Nat) (c : Core) (s : State) : (setCore n c s).kiln = s.kiln := rfl
@[simp] theorem setCore_courses (n : Nat) (c : Core) (s : State) : (setCore n c s).courses = s.courses := rfl
@[simp] theorem setCore_clk (n : Nat) (c : Core) (s : State) : (setCore n c s).clk = s.clk := rfl
@[simp] theorem setCore_dbg (n : Nat) (c : Core) (s : State) : (setCore n c s).dbg = s.dbg := rfl
@[simp] theorem setCore_mortar (n : Nat) (c : Core) (s : State) : (setCore n c s).mortar = s.mortar := rfl
@[simp] theorem setCore_front (n : Nat) (c : Core) (s : State) : (setCore n c s).front = s.front := rfl
@[simp] theorem setCore_tileOf (n : Nat) (c : Core) (m : Nat) (s : State) : tileOf (setCore n c s) m = tileOf s m := rfl
@[simp] theorem setCore_ctlOf (n : Nat) (c : Core) (m : Nat) (s : State) : ctlOf (setCore n c s) m = ctlOf s m := rfl
@[simp] theorem setCore_jegonOf (n : Nat) (c : Core) (m : Nat) (s : State) : jegonOf (setCore n c s) m = jegonOf s m := rfl
@[simp] theorem setCore_courseOf (n : Nat) (c : Core) (m : Nat) (s : State) : courseOf (setCore n c s) m = courseOf s m := rfl
@[simp] theorem setCore_bondOf (n : Nat) (c : Core) (m : Nat) (s : State) : bondOf (setCore n c s) m = bondOf s m := rfl
@[simp] theorem setCore_ctxOf (n : Nat) (c : Core) (m : Nat) (s : State) : ctxOf (setCore n c s) m = ctxOf s m := rfl
@[simp] theorem setCore_ringOf (n : Nat) (c : Core) (m : Nat) (s : State) : ringOf (setCore n c s) m = ringOf s m := rfl

@[simp] theorem modCore_build (n : Nat) (f : Core → Core) (s : State) : (modCore n f s).build = s.build := rfl
@[simp] theorem modCore_pending (n : Nat) (f : Core → Core) (s : State) : (modCore n f s).pending = s.pending := rfl
@[simp] theorem modCore_ticket (n : Nat) (f : Core → Core) (s : State) : (modCore n f s).ticket = s.ticket := rfl
@[simp] theorem modCore_sent (n : Nat) (f : Core → Core) (s : State) : (modCore n f s).sent = s.sent := rfl
@[simp] theorem modCore_straps (n : Nat) (f : Core → Core) (s : State) : (modCore n f s).straps = s.straps := rfl
@[simp] theorem modCore_regs (n : Nat) (f : Core → Core) (s : State) : (modCore n f s).regs = s.regs := rfl
@[simp] theorem modCore_sealed_ (n : Nat) (f : Core → Core) (s : State) : (modCore n f s).sealed_ = s.sealed_ := rfl
@[simp] theorem modCore_captures (n : Nat) (f : Core → Core) (s : State) : (modCore n f s).captures = s.captures := rfl
@[simp] theorem modCore_staged (n : Nat) (f : Core → Core) (s : State) : (modCore n f s).staged = s.staged := rfl
@[simp] theorem modCore_tiles (n : Nat) (f : Core → Core) (s : State) : (modCore n f s).tiles = s.tiles := rfl
@[simp] theorem modCore_ops (n : Nat) (f : Core → Core) (s : State) : (modCore n f s).ops = s.ops := rfl
@[simp] theorem modCore_idents (n : Nat) (f : Core → Core) (s : State) : (modCore n f s).idents = s.idents := rfl
@[simp] theorem modCore_home (n : Nat) (f : Core → Core) (s : State) : (modCore n f s).home = s.home := rfl
@[simp] theorem modCore_ctls (n : Nat) (f : Core → Core) (s : State) : (modCore n f s).ctls = s.ctls := rfl
@[simp] theorem modCore_mem (n : Nat) (f : Core → Core) (s : State) : (modCore n f s).mem = s.mem := rfl
@[simp] theorem modCore_xlat (n : Nat) (f : Core → Core) (s : State) : (modCore n f s).xlat = s.xlat := rfl
@[simp] theorem modCore_jegons (n : Nat) (f : Core → Core) (s : State) : (modCore n f s).jegons = s.jegons := rfl
@[simp] theorem modCore_link (n : Nat) (f : Core → Core) (s : State) : (modCore n f s).link = s.link := rfl
@[simp] theorem modCore_watches (n : Nat) (f : Core → Core) (s : State) : (modCore n f s).watches = s.watches := rfl
@[simp] theorem modCore_devWatch (n : Nat) (f : Core → Core) (s : State) : (modCore n f s).devWatch = s.devWatch := rfl
@[simp] theorem modCore_vecs (n : Nat) (f : Core → Core) (s : State) : (modCore n f s).vecs = s.vecs := rfl
@[simp] theorem modCore_hods (n : Nat) (f : Core → Core) (s : State) : (modCore n f s).hods = s.hods := rfl
@[simp] theorem modCore_ctxs (n : Nat) (f : Core → Core) (s : State) : (modCore n f s).ctxs = s.ctxs := rfl
@[simp] theorem modCore_rings (n : Nat) (f : Core → Core) (s : State) : (modCore n f s).rings = s.rings := rfl
@[simp] theorem modCore_admqs (n : Nat) (f : Core → Core) (s : State) : (modCore n f s).admqs = s.admqs := rfl
@[simp] theorem modCore_waits (n : Nat) (f : Core → Core) (s : State) : (modCore n f s).waits = s.waits := rfl
@[simp] theorem modCore_inbox (n : Nat) (f : Core → Core) (s : State) : (modCore n f s).inbox = s.inbox := rfl
@[simp] theorem modCore_bonds (n : Nat) (f : Core → Core) (s : State) : (modCore n f s).bonds = s.bonds := rfl
@[simp] theorem modCore_sec (n : Nat) (f : Core → Core) (s : State) : (modCore n f s).sec = s.sec := rfl
@[simp] theorem modCore_flt (n : Nat) (f : Core → Core) (s : State) : (modCore n f s).flt = s.flt := rfl
@[simp] theorem modCore_kiln (n : Nat) (f : Core → Core) (s : State) : (modCore n f s).kiln = s.kiln := rfl
@[simp] theorem modCore_courses (n : Nat) (f : Core → Core) (s : State) : (modCore n f s).courses = s.courses := rfl
@[simp] theorem modCore_clk (n : Nat) (f : Core → Core) (s : State) : (modCore n f s).clk = s.clk := rfl
@[simp] theorem modCore_dbg (n : Nat) (f : Core → Core) (s : State) : (modCore n f s).dbg = s.dbg := rfl
@[simp] theorem modCore_mortar (n : Nat) (f : Core → Core) (s : State) : (modCore n f s).mortar = s.mortar := rfl
@[simp] theorem modCore_front (n : Nat) (f : Core → Core) (s : State) : (modCore n f s).front = s.front := rfl
@[simp] theorem modCore_tileOf (n : Nat) (f : Core → Core) (m : Nat) (s : State) : tileOf (modCore n f s) m = tileOf s m := rfl
@[simp] theorem modCore_ctlOf (n : Nat) (f : Core → Core) (m : Nat) (s : State) : ctlOf (modCore n f s) m = ctlOf s m := rfl
@[simp] theorem modCore_jegonOf (n : Nat) (f : Core → Core) (m : Nat) (s : State) : jegonOf (modCore n f s) m = jegonOf s m := rfl
@[simp] theorem modCore_courseOf (n : Nat) (f : Core → Core) (m : Nat) (s : State) : courseOf (modCore n f s) m = courseOf s m := rfl
@[simp] theorem modCore_bondOf (n : Nat) (f : Core → Core) (m : Nat) (s : State) : bondOf (modCore n f s) m = bondOf s m := rfl
@[simp] theorem modCore_ctxOf (n : Nat) (f : Core → Core) (m : Nat) (s : State) : ctxOf (modCore n f s) m = ctxOf s m := rfl
@[simp] theorem modCore_ringOf (n : Nat) (f : Core → Core) (m : Nat) (s : State) : ringOf (modCore n f s) m = ringOf s m := rfl

@[simp] theorem setTile_build (n : Nat) (c : Tile) (s : State) : (setTile n c s).build = s.build := rfl
@[simp] theorem setTile_pending (n : Nat) (c : Tile) (s : State) : (setTile n c s).pending = s.pending := rfl
@[simp] theorem setTile_ticket (n : Nat) (c : Tile) (s : State) : (setTile n c s).ticket = s.ticket := rfl
@[simp] theorem setTile_sent (n : Nat) (c : Tile) (s : State) : (setTile n c s).sent = s.sent := rfl
@[simp] theorem setTile_straps (n : Nat) (c : Tile) (s : State) : (setTile n c s).straps = s.straps := rfl
@[simp] theorem setTile_regs (n : Nat) (c : Tile) (s : State) : (setTile n c s).regs = s.regs := rfl
@[simp] theorem setTile_sealed_ (n : Nat) (c : Tile) (s : State) : (setTile n c s).sealed_ = s.sealed_ := rfl
@[simp] theorem setTile_captures (n : Nat) (c : Tile) (s : State) : (setTile n c s).captures = s.captures := rfl
@[simp] theorem setTile_staged (n : Nat) (c : Tile) (s : State) : (setTile n c s).staged = s.staged := rfl
@[simp] theorem setTile_cores (n : Nat) (c : Tile) (s : State) : (setTile n c s).cores = s.cores := rfl
@[simp] theorem setTile_ops (n : Nat) (c : Tile) (s : State) : (setTile n c s).ops = s.ops := rfl
@[simp] theorem setTile_idents (n : Nat) (c : Tile) (s : State) : (setTile n c s).idents = s.idents := rfl
@[simp] theorem setTile_home (n : Nat) (c : Tile) (s : State) : (setTile n c s).home = s.home := rfl
@[simp] theorem setTile_ctls (n : Nat) (c : Tile) (s : State) : (setTile n c s).ctls = s.ctls := rfl
@[simp] theorem setTile_mem (n : Nat) (c : Tile) (s : State) : (setTile n c s).mem = s.mem := rfl
@[simp] theorem setTile_xlat (n : Nat) (c : Tile) (s : State) : (setTile n c s).xlat = s.xlat := rfl
@[simp] theorem setTile_jegons (n : Nat) (c : Tile) (s : State) : (setTile n c s).jegons = s.jegons := rfl
@[simp] theorem setTile_link (n : Nat) (c : Tile) (s : State) : (setTile n c s).link = s.link := rfl
@[simp] theorem setTile_watches (n : Nat) (c : Tile) (s : State) : (setTile n c s).watches = s.watches := rfl
@[simp] theorem setTile_devWatch (n : Nat) (c : Tile) (s : State) : (setTile n c s).devWatch = s.devWatch := rfl
@[simp] theorem setTile_vecs (n : Nat) (c : Tile) (s : State) : (setTile n c s).vecs = s.vecs := rfl
@[simp] theorem setTile_hods (n : Nat) (c : Tile) (s : State) : (setTile n c s).hods = s.hods := rfl
@[simp] theorem setTile_ctxs (n : Nat) (c : Tile) (s : State) : (setTile n c s).ctxs = s.ctxs := rfl
@[simp] theorem setTile_rings (n : Nat) (c : Tile) (s : State) : (setTile n c s).rings = s.rings := rfl
@[simp] theorem setTile_admqs (n : Nat) (c : Tile) (s : State) : (setTile n c s).admqs = s.admqs := rfl
@[simp] theorem setTile_waits (n : Nat) (c : Tile) (s : State) : (setTile n c s).waits = s.waits := rfl
@[simp] theorem setTile_inbox (n : Nat) (c : Tile) (s : State) : (setTile n c s).inbox = s.inbox := rfl
@[simp] theorem setTile_bonds (n : Nat) (c : Tile) (s : State) : (setTile n c s).bonds = s.bonds := rfl
@[simp] theorem setTile_sec (n : Nat) (c : Tile) (s : State) : (setTile n c s).sec = s.sec := rfl
@[simp] theorem setTile_flt (n : Nat) (c : Tile) (s : State) : (setTile n c s).flt = s.flt := rfl
@[simp] theorem setTile_kiln (n : Nat) (c : Tile) (s : State) : (setTile n c s).kiln = s.kiln := rfl
@[simp] theorem setTile_courses (n : Nat) (c : Tile) (s : State) : (setTile n c s).courses = s.courses := rfl
@[simp] theorem setTile_clk (n : Nat) (c : Tile) (s : State) : (setTile n c s).clk = s.clk := rfl
@[simp] theorem setTile_dbg (n : Nat) (c : Tile) (s : State) : (setTile n c s).dbg = s.dbg := rfl
@[simp] theorem setTile_mortar (n : Nat) (c : Tile) (s : State) : (setTile n c s).mortar = s.mortar := rfl
@[simp] theorem setTile_front (n : Nat) (c : Tile) (s : State) : (setTile n c s).front = s.front := rfl
@[simp] theorem setTile_coreOf (n : Nat) (c : Tile) (m : Nat) (s : State) : coreOf (setTile n c s) m = coreOf s m := rfl
@[simp] theorem setTile_ctlOf (n : Nat) (c : Tile) (m : Nat) (s : State) : ctlOf (setTile n c s) m = ctlOf s m := rfl
@[simp] theorem setTile_jegonOf (n : Nat) (c : Tile) (m : Nat) (s : State) : jegonOf (setTile n c s) m = jegonOf s m := rfl
@[simp] theorem setTile_courseOf (n : Nat) (c : Tile) (m : Nat) (s : State) : courseOf (setTile n c s) m = courseOf s m := rfl
@[simp] theorem setTile_bondOf (n : Nat) (c : Tile) (m : Nat) (s : State) : bondOf (setTile n c s) m = bondOf s m := rfl
@[simp] theorem setTile_ctxOf (n : Nat) (c : Tile) (m : Nat) (s : State) : ctxOf (setTile n c s) m = ctxOf s m := rfl
@[simp] theorem setTile_ringOf (n : Nat) (c : Tile) (m : Nat) (s : State) : ringOf (setTile n c s) m = ringOf s m := rfl

@[simp] theorem modTile_build (n : Nat) (f : Tile → Tile) (s : State) : (modTile n f s).build = s.build := rfl
@[simp] theorem modTile_pending (n : Nat) (f : Tile → Tile) (s : State) : (modTile n f s).pending = s.pending := rfl
@[simp] theorem modTile_ticket (n : Nat) (f : Tile → Tile) (s : State) : (modTile n f s).ticket = s.ticket := rfl
@[simp] theorem modTile_sent (n : Nat) (f : Tile → Tile) (s : State) : (modTile n f s).sent = s.sent := rfl
@[simp] theorem modTile_straps (n : Nat) (f : Tile → Tile) (s : State) : (modTile n f s).straps = s.straps := rfl
@[simp] theorem modTile_regs (n : Nat) (f : Tile → Tile) (s : State) : (modTile n f s).regs = s.regs := rfl
@[simp] theorem modTile_sealed_ (n : Nat) (f : Tile → Tile) (s : State) : (modTile n f s).sealed_ = s.sealed_ := rfl
@[simp] theorem modTile_captures (n : Nat) (f : Tile → Tile) (s : State) : (modTile n f s).captures = s.captures := rfl
@[simp] theorem modTile_staged (n : Nat) (f : Tile → Tile) (s : State) : (modTile n f s).staged = s.staged := rfl
@[simp] theorem modTile_cores (n : Nat) (f : Tile → Tile) (s : State) : (modTile n f s).cores = s.cores := rfl
@[simp] theorem modTile_ops (n : Nat) (f : Tile → Tile) (s : State) : (modTile n f s).ops = s.ops := rfl
@[simp] theorem modTile_idents (n : Nat) (f : Tile → Tile) (s : State) : (modTile n f s).idents = s.idents := rfl
@[simp] theorem modTile_home (n : Nat) (f : Tile → Tile) (s : State) : (modTile n f s).home = s.home := rfl
@[simp] theorem modTile_ctls (n : Nat) (f : Tile → Tile) (s : State) : (modTile n f s).ctls = s.ctls := rfl
@[simp] theorem modTile_mem (n : Nat) (f : Tile → Tile) (s : State) : (modTile n f s).mem = s.mem := rfl
@[simp] theorem modTile_xlat (n : Nat) (f : Tile → Tile) (s : State) : (modTile n f s).xlat = s.xlat := rfl
@[simp] theorem modTile_jegons (n : Nat) (f : Tile → Tile) (s : State) : (modTile n f s).jegons = s.jegons := rfl
@[simp] theorem modTile_link (n : Nat) (f : Tile → Tile) (s : State) : (modTile n f s).link = s.link := rfl
@[simp] theorem modTile_watches (n : Nat) (f : Tile → Tile) (s : State) : (modTile n f s).watches = s.watches := rfl
@[simp] theorem modTile_devWatch (n : Nat) (f : Tile → Tile) (s : State) : (modTile n f s).devWatch = s.devWatch := rfl
@[simp] theorem modTile_vecs (n : Nat) (f : Tile → Tile) (s : State) : (modTile n f s).vecs = s.vecs := rfl
@[simp] theorem modTile_hods (n : Nat) (f : Tile → Tile) (s : State) : (modTile n f s).hods = s.hods := rfl
@[simp] theorem modTile_ctxs (n : Nat) (f : Tile → Tile) (s : State) : (modTile n f s).ctxs = s.ctxs := rfl
@[simp] theorem modTile_rings (n : Nat) (f : Tile → Tile) (s : State) : (modTile n f s).rings = s.rings := rfl
@[simp] theorem modTile_admqs (n : Nat) (f : Tile → Tile) (s : State) : (modTile n f s).admqs = s.admqs := rfl
@[simp] theorem modTile_waits (n : Nat) (f : Tile → Tile) (s : State) : (modTile n f s).waits = s.waits := rfl
@[simp] theorem modTile_inbox (n : Nat) (f : Tile → Tile) (s : State) : (modTile n f s).inbox = s.inbox := rfl
@[simp] theorem modTile_bonds (n : Nat) (f : Tile → Tile) (s : State) : (modTile n f s).bonds = s.bonds := rfl
@[simp] theorem modTile_sec (n : Nat) (f : Tile → Tile) (s : State) : (modTile n f s).sec = s.sec := rfl
@[simp] theorem modTile_flt (n : Nat) (f : Tile → Tile) (s : State) : (modTile n f s).flt = s.flt := rfl
@[simp] theorem modTile_kiln (n : Nat) (f : Tile → Tile) (s : State) : (modTile n f s).kiln = s.kiln := rfl
@[simp] theorem modTile_courses (n : Nat) (f : Tile → Tile) (s : State) : (modTile n f s).courses = s.courses := rfl
@[simp] theorem modTile_clk (n : Nat) (f : Tile → Tile) (s : State) : (modTile n f s).clk = s.clk := rfl
@[simp] theorem modTile_dbg (n : Nat) (f : Tile → Tile) (s : State) : (modTile n f s).dbg = s.dbg := rfl
@[simp] theorem modTile_mortar (n : Nat) (f : Tile → Tile) (s : State) : (modTile n f s).mortar = s.mortar := rfl
@[simp] theorem modTile_front (n : Nat) (f : Tile → Tile) (s : State) : (modTile n f s).front = s.front := rfl
@[simp] theorem modTile_coreOf (n : Nat) (f : Tile → Tile) (m : Nat) (s : State) : coreOf (modTile n f s) m = coreOf s m := rfl
@[simp] theorem modTile_ctlOf (n : Nat) (f : Tile → Tile) (m : Nat) (s : State) : ctlOf (modTile n f s) m = ctlOf s m := rfl
@[simp] theorem modTile_jegonOf (n : Nat) (f : Tile → Tile) (m : Nat) (s : State) : jegonOf (modTile n f s) m = jegonOf s m := rfl
@[simp] theorem modTile_courseOf (n : Nat) (f : Tile → Tile) (m : Nat) (s : State) : courseOf (modTile n f s) m = courseOf s m := rfl
@[simp] theorem modTile_bondOf (n : Nat) (f : Tile → Tile) (m : Nat) (s : State) : bondOf (modTile n f s) m = bondOf s m := rfl
@[simp] theorem modTile_ctxOf (n : Nat) (f : Tile → Tile) (m : Nat) (s : State) : ctxOf (modTile n f s) m = ctxOf s m := rfl
@[simp] theorem modTile_ringOf (n : Nat) (f : Tile → Tile) (m : Nat) (s : State) : ringOf (modTile n f s) m = ringOf s m := rfl

@[simp] theorem modCtl_build (n : Nat) (f : Ctl → Ctl) (s : State) : (modCtl n f s).build = s.build := rfl
@[simp] theorem modCtl_pending (n : Nat) (f : Ctl → Ctl) (s : State) : (modCtl n f s).pending = s.pending := rfl
@[simp] theorem modCtl_ticket (n : Nat) (f : Ctl → Ctl) (s : State) : (modCtl n f s).ticket = s.ticket := rfl
@[simp] theorem modCtl_sent (n : Nat) (f : Ctl → Ctl) (s : State) : (modCtl n f s).sent = s.sent := rfl
@[simp] theorem modCtl_straps (n : Nat) (f : Ctl → Ctl) (s : State) : (modCtl n f s).straps = s.straps := rfl
@[simp] theorem modCtl_regs (n : Nat) (f : Ctl → Ctl) (s : State) : (modCtl n f s).regs = s.regs := rfl
@[simp] theorem modCtl_sealed_ (n : Nat) (f : Ctl → Ctl) (s : State) : (modCtl n f s).sealed_ = s.sealed_ := rfl
@[simp] theorem modCtl_captures (n : Nat) (f : Ctl → Ctl) (s : State) : (modCtl n f s).captures = s.captures := rfl
@[simp] theorem modCtl_staged (n : Nat) (f : Ctl → Ctl) (s : State) : (modCtl n f s).staged = s.staged := rfl
@[simp] theorem modCtl_cores (n : Nat) (f : Ctl → Ctl) (s : State) : (modCtl n f s).cores = s.cores := rfl
@[simp] theorem modCtl_tiles (n : Nat) (f : Ctl → Ctl) (s : State) : (modCtl n f s).tiles = s.tiles := rfl
@[simp] theorem modCtl_ops (n : Nat) (f : Ctl → Ctl) (s : State) : (modCtl n f s).ops = s.ops := rfl
@[simp] theorem modCtl_idents (n : Nat) (f : Ctl → Ctl) (s : State) : (modCtl n f s).idents = s.idents := rfl
@[simp] theorem modCtl_home (n : Nat) (f : Ctl → Ctl) (s : State) : (modCtl n f s).home = s.home := rfl
@[simp] theorem modCtl_mem (n : Nat) (f : Ctl → Ctl) (s : State) : (modCtl n f s).mem = s.mem := rfl
@[simp] theorem modCtl_xlat (n : Nat) (f : Ctl → Ctl) (s : State) : (modCtl n f s).xlat = s.xlat := rfl
@[simp] theorem modCtl_jegons (n : Nat) (f : Ctl → Ctl) (s : State) : (modCtl n f s).jegons = s.jegons := rfl
@[simp] theorem modCtl_link (n : Nat) (f : Ctl → Ctl) (s : State) : (modCtl n f s).link = s.link := rfl
@[simp] theorem modCtl_watches (n : Nat) (f : Ctl → Ctl) (s : State) : (modCtl n f s).watches = s.watches := rfl
@[simp] theorem modCtl_devWatch (n : Nat) (f : Ctl → Ctl) (s : State) : (modCtl n f s).devWatch = s.devWatch := rfl
@[simp] theorem modCtl_vecs (n : Nat) (f : Ctl → Ctl) (s : State) : (modCtl n f s).vecs = s.vecs := rfl
@[simp] theorem modCtl_hods (n : Nat) (f : Ctl → Ctl) (s : State) : (modCtl n f s).hods = s.hods := rfl
@[simp] theorem modCtl_ctxs (n : Nat) (f : Ctl → Ctl) (s : State) : (modCtl n f s).ctxs = s.ctxs := rfl
@[simp] theorem modCtl_rings (n : Nat) (f : Ctl → Ctl) (s : State) : (modCtl n f s).rings = s.rings := rfl
@[simp] theorem modCtl_admqs (n : Nat) (f : Ctl → Ctl) (s : State) : (modCtl n f s).admqs = s.admqs := rfl
@[simp] theorem modCtl_waits (n : Nat) (f : Ctl → Ctl) (s : State) : (modCtl n f s).waits = s.waits := rfl
@[simp] theorem modCtl_inbox (n : Nat) (f : Ctl → Ctl) (s : State) : (modCtl n f s).inbox = s.inbox := rfl
@[simp] theorem modCtl_bonds (n : Nat) (f : Ctl → Ctl) (s : State) : (modCtl n f s).bonds = s.bonds := rfl
@[simp] theorem modCtl_sec (n : Nat) (f : Ctl → Ctl) (s : State) : (modCtl n f s).sec = s.sec := rfl
@[simp] theorem modCtl_flt (n : Nat) (f : Ctl → Ctl) (s : State) : (modCtl n f s).flt = s.flt := rfl
@[simp] theorem modCtl_kiln (n : Nat) (f : Ctl → Ctl) (s : State) : (modCtl n f s).kiln = s.kiln := rfl
@[simp] theorem modCtl_courses (n : Nat) (f : Ctl → Ctl) (s : State) : (modCtl n f s).courses = s.courses := rfl
@[simp] theorem modCtl_clk (n : Nat) (f : Ctl → Ctl) (s : State) : (modCtl n f s).clk = s.clk := rfl
@[simp] theorem modCtl_dbg (n : Nat) (f : Ctl → Ctl) (s : State) : (modCtl n f s).dbg = s.dbg := rfl
@[simp] theorem modCtl_mortar (n : Nat) (f : Ctl → Ctl) (s : State) : (modCtl n f s).mortar = s.mortar := rfl
@[simp] theorem modCtl_front (n : Nat) (f : Ctl → Ctl) (s : State) : (modCtl n f s).front = s.front := rfl
@[simp] theorem modCtl_coreOf (n : Nat) (f : Ctl → Ctl) (m : Nat) (s : State) : coreOf (modCtl n f s) m = coreOf s m := rfl
@[simp] theorem modCtl_tileOf (n : Nat) (f : Ctl → Ctl) (m : Nat) (s : State) : tileOf (modCtl n f s) m = tileOf s m := rfl
@[simp] theorem modCtl_jegonOf (n : Nat) (f : Ctl → Ctl) (m : Nat) (s : State) : jegonOf (modCtl n f s) m = jegonOf s m := rfl
@[simp] theorem modCtl_courseOf (n : Nat) (f : Ctl → Ctl) (m : Nat) (s : State) : courseOf (modCtl n f s) m = courseOf s m := rfl
@[simp] theorem modCtl_bondOf (n : Nat) (f : Ctl → Ctl) (m : Nat) (s : State) : bondOf (modCtl n f s) m = bondOf s m := rfl
@[simp] theorem modCtl_ctxOf (n : Nat) (f : Ctl → Ctl) (m : Nat) (s : State) : ctxOf (modCtl n f s) m = ctxOf s m := rfl
@[simp] theorem modCtl_ringOf (n : Nat) (f : Ctl → Ctl) (m : Nat) (s : State) : ringOf (modCtl n f s) m = ringOf s m := rfl

@[simp] theorem modJegon_build (n : Nat) (f : Jegon → Jegon) (s : State) : (modJegon n f s).build = s.build := rfl
@[simp] theorem modJegon_pending (n : Nat) (f : Jegon → Jegon) (s : State) : (modJegon n f s).pending = s.pending := rfl
@[simp] theorem modJegon_ticket (n : Nat) (f : Jegon → Jegon) (s : State) : (modJegon n f s).ticket = s.ticket := rfl
@[simp] theorem modJegon_sent (n : Nat) (f : Jegon → Jegon) (s : State) : (modJegon n f s).sent = s.sent := rfl
@[simp] theorem modJegon_straps (n : Nat) (f : Jegon → Jegon) (s : State) : (modJegon n f s).straps = s.straps := rfl
@[simp] theorem modJegon_regs (n : Nat) (f : Jegon → Jegon) (s : State) : (modJegon n f s).regs = s.regs := rfl
@[simp] theorem modJegon_sealed_ (n : Nat) (f : Jegon → Jegon) (s : State) : (modJegon n f s).sealed_ = s.sealed_ := rfl
@[simp] theorem modJegon_captures (n : Nat) (f : Jegon → Jegon) (s : State) : (modJegon n f s).captures = s.captures := rfl
@[simp] theorem modJegon_staged (n : Nat) (f : Jegon → Jegon) (s : State) : (modJegon n f s).staged = s.staged := rfl
@[simp] theorem modJegon_cores (n : Nat) (f : Jegon → Jegon) (s : State) : (modJegon n f s).cores = s.cores := rfl
@[simp] theorem modJegon_tiles (n : Nat) (f : Jegon → Jegon) (s : State) : (modJegon n f s).tiles = s.tiles := rfl
@[simp] theorem modJegon_ops (n : Nat) (f : Jegon → Jegon) (s : State) : (modJegon n f s).ops = s.ops := rfl
@[simp] theorem modJegon_idents (n : Nat) (f : Jegon → Jegon) (s : State) : (modJegon n f s).idents = s.idents := rfl
@[simp] theorem modJegon_home (n : Nat) (f : Jegon → Jegon) (s : State) : (modJegon n f s).home = s.home := rfl
@[simp] theorem modJegon_ctls (n : Nat) (f : Jegon → Jegon) (s : State) : (modJegon n f s).ctls = s.ctls := rfl
@[simp] theorem modJegon_mem (n : Nat) (f : Jegon → Jegon) (s : State) : (modJegon n f s).mem = s.mem := rfl
@[simp] theorem modJegon_xlat (n : Nat) (f : Jegon → Jegon) (s : State) : (modJegon n f s).xlat = s.xlat := rfl
@[simp] theorem modJegon_link (n : Nat) (f : Jegon → Jegon) (s : State) : (modJegon n f s).link = s.link := rfl
@[simp] theorem modJegon_watches (n : Nat) (f : Jegon → Jegon) (s : State) : (modJegon n f s).watches = s.watches := rfl
@[simp] theorem modJegon_devWatch (n : Nat) (f : Jegon → Jegon) (s : State) : (modJegon n f s).devWatch = s.devWatch := rfl
@[simp] theorem modJegon_vecs (n : Nat) (f : Jegon → Jegon) (s : State) : (modJegon n f s).vecs = s.vecs := rfl
@[simp] theorem modJegon_hods (n : Nat) (f : Jegon → Jegon) (s : State) : (modJegon n f s).hods = s.hods := rfl
@[simp] theorem modJegon_ctxs (n : Nat) (f : Jegon → Jegon) (s : State) : (modJegon n f s).ctxs = s.ctxs := rfl
@[simp] theorem modJegon_rings (n : Nat) (f : Jegon → Jegon) (s : State) : (modJegon n f s).rings = s.rings := rfl
@[simp] theorem modJegon_admqs (n : Nat) (f : Jegon → Jegon) (s : State) : (modJegon n f s).admqs = s.admqs := rfl
@[simp] theorem modJegon_waits (n : Nat) (f : Jegon → Jegon) (s : State) : (modJegon n f s).waits = s.waits := rfl
@[simp] theorem modJegon_inbox (n : Nat) (f : Jegon → Jegon) (s : State) : (modJegon n f s).inbox = s.inbox := rfl
@[simp] theorem modJegon_bonds (n : Nat) (f : Jegon → Jegon) (s : State) : (modJegon n f s).bonds = s.bonds := rfl
@[simp] theorem modJegon_sec (n : Nat) (f : Jegon → Jegon) (s : State) : (modJegon n f s).sec = s.sec := rfl
@[simp] theorem modJegon_flt (n : Nat) (f : Jegon → Jegon) (s : State) : (modJegon n f s).flt = s.flt := rfl
@[simp] theorem modJegon_kiln (n : Nat) (f : Jegon → Jegon) (s : State) : (modJegon n f s).kiln = s.kiln := rfl
@[simp] theorem modJegon_courses (n : Nat) (f : Jegon → Jegon) (s : State) : (modJegon n f s).courses = s.courses := rfl
@[simp] theorem modJegon_clk (n : Nat) (f : Jegon → Jegon) (s : State) : (modJegon n f s).clk = s.clk := rfl
@[simp] theorem modJegon_dbg (n : Nat) (f : Jegon → Jegon) (s : State) : (modJegon n f s).dbg = s.dbg := rfl
@[simp] theorem modJegon_mortar (n : Nat) (f : Jegon → Jegon) (s : State) : (modJegon n f s).mortar = s.mortar := rfl
@[simp] theorem modJegon_front (n : Nat) (f : Jegon → Jegon) (s : State) : (modJegon n f s).front = s.front := rfl
@[simp] theorem modJegon_coreOf (n : Nat) (f : Jegon → Jegon) (m : Nat) (s : State) : coreOf (modJegon n f s) m = coreOf s m := rfl
@[simp] theorem modJegon_tileOf (n : Nat) (f : Jegon → Jegon) (m : Nat) (s : State) : tileOf (modJegon n f s) m = tileOf s m := rfl
@[simp] theorem modJegon_ctlOf (n : Nat) (f : Jegon → Jegon) (m : Nat) (s : State) : ctlOf (modJegon n f s) m = ctlOf s m := rfl
@[simp] theorem modJegon_courseOf (n : Nat) (f : Jegon → Jegon) (m : Nat) (s : State) : courseOf (modJegon n f s) m = courseOf s m := rfl
@[simp] theorem modJegon_bondOf (n : Nat) (f : Jegon → Jegon) (m : Nat) (s : State) : bondOf (modJegon n f s) m = bondOf s m := rfl
@[simp] theorem modJegon_ctxOf (n : Nat) (f : Jegon → Jegon) (m : Nat) (s : State) : ctxOf (modJegon n f s) m = ctxOf s m := rfl
@[simp] theorem modJegon_ringOf (n : Nat) (f : Jegon → Jegon) (m : Nat) (s : State) : ringOf (modJegon n f s) m = ringOf s m := rfl

@[simp] theorem modVec_build (n : Nat) (f : Vec → Vec) (s : State) : (modVec n f s).build = s.build := rfl
@[simp] theorem modVec_pending (n : Nat) (f : Vec → Vec) (s : State) : (modVec n f s).pending = s.pending := rfl
@[simp] theorem modVec_ticket (n : Nat) (f : Vec → Vec) (s : State) : (modVec n f s).ticket = s.ticket := rfl
@[simp] theorem modVec_sent (n : Nat) (f : Vec → Vec) (s : State) : (modVec n f s).sent = s.sent := rfl
@[simp] theorem modVec_straps (n : Nat) (f : Vec → Vec) (s : State) : (modVec n f s).straps = s.straps := rfl
@[simp] theorem modVec_regs (n : Nat) (f : Vec → Vec) (s : State) : (modVec n f s).regs = s.regs := rfl
@[simp] theorem modVec_sealed_ (n : Nat) (f : Vec → Vec) (s : State) : (modVec n f s).sealed_ = s.sealed_ := rfl
@[simp] theorem modVec_captures (n : Nat) (f : Vec → Vec) (s : State) : (modVec n f s).captures = s.captures := rfl
@[simp] theorem modVec_staged (n : Nat) (f : Vec → Vec) (s : State) : (modVec n f s).staged = s.staged := rfl
@[simp] theorem modVec_cores (n : Nat) (f : Vec → Vec) (s : State) : (modVec n f s).cores = s.cores := rfl
@[simp] theorem modVec_tiles (n : Nat) (f : Vec → Vec) (s : State) : (modVec n f s).tiles = s.tiles := rfl
@[simp] theorem modVec_ops (n : Nat) (f : Vec → Vec) (s : State) : (modVec n f s).ops = s.ops := rfl
@[simp] theorem modVec_idents (n : Nat) (f : Vec → Vec) (s : State) : (modVec n f s).idents = s.idents := rfl
@[simp] theorem modVec_home (n : Nat) (f : Vec → Vec) (s : State) : (modVec n f s).home = s.home := rfl
@[simp] theorem modVec_ctls (n : Nat) (f : Vec → Vec) (s : State) : (modVec n f s).ctls = s.ctls := rfl
@[simp] theorem modVec_mem (n : Nat) (f : Vec → Vec) (s : State) : (modVec n f s).mem = s.mem := rfl
@[simp] theorem modVec_xlat (n : Nat) (f : Vec → Vec) (s : State) : (modVec n f s).xlat = s.xlat := rfl
@[simp] theorem modVec_jegons (n : Nat) (f : Vec → Vec) (s : State) : (modVec n f s).jegons = s.jegons := rfl
@[simp] theorem modVec_link (n : Nat) (f : Vec → Vec) (s : State) : (modVec n f s).link = s.link := rfl
@[simp] theorem modVec_watches (n : Nat) (f : Vec → Vec) (s : State) : (modVec n f s).watches = s.watches := rfl
@[simp] theorem modVec_devWatch (n : Nat) (f : Vec → Vec) (s : State) : (modVec n f s).devWatch = s.devWatch := rfl
@[simp] theorem modVec_hods (n : Nat) (f : Vec → Vec) (s : State) : (modVec n f s).hods = s.hods := rfl
@[simp] theorem modVec_ctxs (n : Nat) (f : Vec → Vec) (s : State) : (modVec n f s).ctxs = s.ctxs := rfl
@[simp] theorem modVec_rings (n : Nat) (f : Vec → Vec) (s : State) : (modVec n f s).rings = s.rings := rfl
@[simp] theorem modVec_admqs (n : Nat) (f : Vec → Vec) (s : State) : (modVec n f s).admqs = s.admqs := rfl
@[simp] theorem modVec_waits (n : Nat) (f : Vec → Vec) (s : State) : (modVec n f s).waits = s.waits := rfl
@[simp] theorem modVec_inbox (n : Nat) (f : Vec → Vec) (s : State) : (modVec n f s).inbox = s.inbox := rfl
@[simp] theorem modVec_bonds (n : Nat) (f : Vec → Vec) (s : State) : (modVec n f s).bonds = s.bonds := rfl
@[simp] theorem modVec_sec (n : Nat) (f : Vec → Vec) (s : State) : (modVec n f s).sec = s.sec := rfl
@[simp] theorem modVec_flt (n : Nat) (f : Vec → Vec) (s : State) : (modVec n f s).flt = s.flt := rfl
@[simp] theorem modVec_kiln (n : Nat) (f : Vec → Vec) (s : State) : (modVec n f s).kiln = s.kiln := rfl
@[simp] theorem modVec_courses (n : Nat) (f : Vec → Vec) (s : State) : (modVec n f s).courses = s.courses := rfl
@[simp] theorem modVec_clk (n : Nat) (f : Vec → Vec) (s : State) : (modVec n f s).clk = s.clk := rfl
@[simp] theorem modVec_dbg (n : Nat) (f : Vec → Vec) (s : State) : (modVec n f s).dbg = s.dbg := rfl
@[simp] theorem modVec_mortar (n : Nat) (f : Vec → Vec) (s : State) : (modVec n f s).mortar = s.mortar := rfl
@[simp] theorem modVec_front (n : Nat) (f : Vec → Vec) (s : State) : (modVec n f s).front = s.front := rfl
@[simp] theorem modVec_coreOf (n : Nat) (f : Vec → Vec) (m : Nat) (s : State) : coreOf (modVec n f s) m = coreOf s m := rfl
@[simp] theorem modVec_tileOf (n : Nat) (f : Vec → Vec) (m : Nat) (s : State) : tileOf (modVec n f s) m = tileOf s m := rfl
@[simp] theorem modVec_ctlOf (n : Nat) (f : Vec → Vec) (m : Nat) (s : State) : ctlOf (modVec n f s) m = ctlOf s m := rfl
@[simp] theorem modVec_jegonOf (n : Nat) (f : Vec → Vec) (m : Nat) (s : State) : jegonOf (modVec n f s) m = jegonOf s m := rfl
@[simp] theorem modVec_courseOf (n : Nat) (f : Vec → Vec) (m : Nat) (s : State) : courseOf (modVec n f s) m = courseOf s m := rfl
@[simp] theorem modVec_bondOf (n : Nat) (f : Vec → Vec) (m : Nat) (s : State) : bondOf (modVec n f s) m = bondOf s m := rfl
@[simp] theorem modVec_ctxOf (n : Nat) (f : Vec → Vec) (m : Nat) (s : State) : ctxOf (modVec n f s) m = ctxOf s m := rfl
@[simp] theorem modVec_ringOf (n : Nat) (f : Vec → Vec) (m : Nat) (s : State) : ringOf (modVec n f s) m = ringOf s m := rfl

@[simp] theorem modHod_build (n : Nat) (f : Hod → Hod) (s : State) : (modHod n f s).build = s.build := rfl
@[simp] theorem modHod_pending (n : Nat) (f : Hod → Hod) (s : State) : (modHod n f s).pending = s.pending := rfl
@[simp] theorem modHod_ticket (n : Nat) (f : Hod → Hod) (s : State) : (modHod n f s).ticket = s.ticket := rfl
@[simp] theorem modHod_sent (n : Nat) (f : Hod → Hod) (s : State) : (modHod n f s).sent = s.sent := rfl
@[simp] theorem modHod_straps (n : Nat) (f : Hod → Hod) (s : State) : (modHod n f s).straps = s.straps := rfl
@[simp] theorem modHod_regs (n : Nat) (f : Hod → Hod) (s : State) : (modHod n f s).regs = s.regs := rfl
@[simp] theorem modHod_sealed_ (n : Nat) (f : Hod → Hod) (s : State) : (modHod n f s).sealed_ = s.sealed_ := rfl
@[simp] theorem modHod_captures (n : Nat) (f : Hod → Hod) (s : State) : (modHod n f s).captures = s.captures := rfl
@[simp] theorem modHod_staged (n : Nat) (f : Hod → Hod) (s : State) : (modHod n f s).staged = s.staged := rfl
@[simp] theorem modHod_cores (n : Nat) (f : Hod → Hod) (s : State) : (modHod n f s).cores = s.cores := rfl
@[simp] theorem modHod_tiles (n : Nat) (f : Hod → Hod) (s : State) : (modHod n f s).tiles = s.tiles := rfl
@[simp] theorem modHod_ops (n : Nat) (f : Hod → Hod) (s : State) : (modHod n f s).ops = s.ops := rfl
@[simp] theorem modHod_idents (n : Nat) (f : Hod → Hod) (s : State) : (modHod n f s).idents = s.idents := rfl
@[simp] theorem modHod_home (n : Nat) (f : Hod → Hod) (s : State) : (modHod n f s).home = s.home := rfl
@[simp] theorem modHod_ctls (n : Nat) (f : Hod → Hod) (s : State) : (modHod n f s).ctls = s.ctls := rfl
@[simp] theorem modHod_mem (n : Nat) (f : Hod → Hod) (s : State) : (modHod n f s).mem = s.mem := rfl
@[simp] theorem modHod_xlat (n : Nat) (f : Hod → Hod) (s : State) : (modHod n f s).xlat = s.xlat := rfl
@[simp] theorem modHod_jegons (n : Nat) (f : Hod → Hod) (s : State) : (modHod n f s).jegons = s.jegons := rfl
@[simp] theorem modHod_link (n : Nat) (f : Hod → Hod) (s : State) : (modHod n f s).link = s.link := rfl
@[simp] theorem modHod_watches (n : Nat) (f : Hod → Hod) (s : State) : (modHod n f s).watches = s.watches := rfl
@[simp] theorem modHod_devWatch (n : Nat) (f : Hod → Hod) (s : State) : (modHod n f s).devWatch = s.devWatch := rfl
@[simp] theorem modHod_vecs (n : Nat) (f : Hod → Hod) (s : State) : (modHod n f s).vecs = s.vecs := rfl
@[simp] theorem modHod_ctxs (n : Nat) (f : Hod → Hod) (s : State) : (modHod n f s).ctxs = s.ctxs := rfl
@[simp] theorem modHod_rings (n : Nat) (f : Hod → Hod) (s : State) : (modHod n f s).rings = s.rings := rfl
@[simp] theorem modHod_admqs (n : Nat) (f : Hod → Hod) (s : State) : (modHod n f s).admqs = s.admqs := rfl
@[simp] theorem modHod_waits (n : Nat) (f : Hod → Hod) (s : State) : (modHod n f s).waits = s.waits := rfl
@[simp] theorem modHod_inbox (n : Nat) (f : Hod → Hod) (s : State) : (modHod n f s).inbox = s.inbox := rfl
@[simp] theorem modHod_bonds (n : Nat) (f : Hod → Hod) (s : State) : (modHod n f s).bonds = s.bonds := rfl
@[simp] theorem modHod_sec (n : Nat) (f : Hod → Hod) (s : State) : (modHod n f s).sec = s.sec := rfl
@[simp] theorem modHod_flt (n : Nat) (f : Hod → Hod) (s : State) : (modHod n f s).flt = s.flt := rfl
@[simp] theorem modHod_kiln (n : Nat) (f : Hod → Hod) (s : State) : (modHod n f s).kiln = s.kiln := rfl
@[simp] theorem modHod_courses (n : Nat) (f : Hod → Hod) (s : State) : (modHod n f s).courses = s.courses := rfl
@[simp] theorem modHod_clk (n : Nat) (f : Hod → Hod) (s : State) : (modHod n f s).clk = s.clk := rfl
@[simp] theorem modHod_dbg (n : Nat) (f : Hod → Hod) (s : State) : (modHod n f s).dbg = s.dbg := rfl
@[simp] theorem modHod_mortar (n : Nat) (f : Hod → Hod) (s : State) : (modHod n f s).mortar = s.mortar := rfl
@[simp] theorem modHod_front (n : Nat) (f : Hod → Hod) (s : State) : (modHod n f s).front = s.front := rfl
@[simp] theorem modHod_coreOf (n : Nat) (f : Hod → Hod) (m : Nat) (s : State) : coreOf (modHod n f s) m = coreOf s m := rfl
@[simp] theorem modHod_tileOf (n : Nat) (f : Hod → Hod) (m : Nat) (s : State) : tileOf (modHod n f s) m = tileOf s m := rfl
@[simp] theorem modHod_ctlOf (n : Nat) (f : Hod → Hod) (m : Nat) (s : State) : ctlOf (modHod n f s) m = ctlOf s m := rfl
@[simp] theorem modHod_jegonOf (n : Nat) (f : Hod → Hod) (m : Nat) (s : State) : jegonOf (modHod n f s) m = jegonOf s m := rfl
@[simp] theorem modHod_courseOf (n : Nat) (f : Hod → Hod) (m : Nat) (s : State) : courseOf (modHod n f s) m = courseOf s m := rfl
@[simp] theorem modHod_bondOf (n : Nat) (f : Hod → Hod) (m : Nat) (s : State) : bondOf (modHod n f s) m = bondOf s m := rfl
@[simp] theorem modHod_ctxOf (n : Nat) (f : Hod → Hod) (m : Nat) (s : State) : ctxOf (modHod n f s) m = ctxOf s m := rfl
@[simp] theorem modHod_ringOf (n : Nat) (f : Hod → Hod) (m : Nat) (s : State) : ringOf (modHod n f s) m = ringOf s m := rfl

@[simp] theorem modBond_build (n : Nat) (f : Bond → Bond) (s : State) : (modBond n f s).build = s.build := rfl
@[simp] theorem modBond_pending (n : Nat) (f : Bond → Bond) (s : State) : (modBond n f s).pending = s.pending := rfl
@[simp] theorem modBond_ticket (n : Nat) (f : Bond → Bond) (s : State) : (modBond n f s).ticket = s.ticket := rfl
@[simp] theorem modBond_sent (n : Nat) (f : Bond → Bond) (s : State) : (modBond n f s).sent = s.sent := rfl
@[simp] theorem modBond_straps (n : Nat) (f : Bond → Bond) (s : State) : (modBond n f s).straps = s.straps := rfl
@[simp] theorem modBond_regs (n : Nat) (f : Bond → Bond) (s : State) : (modBond n f s).regs = s.regs := rfl
@[simp] theorem modBond_sealed_ (n : Nat) (f : Bond → Bond) (s : State) : (modBond n f s).sealed_ = s.sealed_ := rfl
@[simp] theorem modBond_captures (n : Nat) (f : Bond → Bond) (s : State) : (modBond n f s).captures = s.captures := rfl
@[simp] theorem modBond_staged (n : Nat) (f : Bond → Bond) (s : State) : (modBond n f s).staged = s.staged := rfl
@[simp] theorem modBond_cores (n : Nat) (f : Bond → Bond) (s : State) : (modBond n f s).cores = s.cores := rfl
@[simp] theorem modBond_tiles (n : Nat) (f : Bond → Bond) (s : State) : (modBond n f s).tiles = s.tiles := rfl
@[simp] theorem modBond_ops (n : Nat) (f : Bond → Bond) (s : State) : (modBond n f s).ops = s.ops := rfl
@[simp] theorem modBond_idents (n : Nat) (f : Bond → Bond) (s : State) : (modBond n f s).idents = s.idents := rfl
@[simp] theorem modBond_home (n : Nat) (f : Bond → Bond) (s : State) : (modBond n f s).home = s.home := rfl
@[simp] theorem modBond_ctls (n : Nat) (f : Bond → Bond) (s : State) : (modBond n f s).ctls = s.ctls := rfl
@[simp] theorem modBond_mem (n : Nat) (f : Bond → Bond) (s : State) : (modBond n f s).mem = s.mem := rfl
@[simp] theorem modBond_xlat (n : Nat) (f : Bond → Bond) (s : State) : (modBond n f s).xlat = s.xlat := rfl
@[simp] theorem modBond_jegons (n : Nat) (f : Bond → Bond) (s : State) : (modBond n f s).jegons = s.jegons := rfl
@[simp] theorem modBond_link (n : Nat) (f : Bond → Bond) (s : State) : (modBond n f s).link = s.link := rfl
@[simp] theorem modBond_watches (n : Nat) (f : Bond → Bond) (s : State) : (modBond n f s).watches = s.watches := rfl
@[simp] theorem modBond_devWatch (n : Nat) (f : Bond → Bond) (s : State) : (modBond n f s).devWatch = s.devWatch := rfl
@[simp] theorem modBond_vecs (n : Nat) (f : Bond → Bond) (s : State) : (modBond n f s).vecs = s.vecs := rfl
@[simp] theorem modBond_hods (n : Nat) (f : Bond → Bond) (s : State) : (modBond n f s).hods = s.hods := rfl
@[simp] theorem modBond_ctxs (n : Nat) (f : Bond → Bond) (s : State) : (modBond n f s).ctxs = s.ctxs := rfl
@[simp] theorem modBond_rings (n : Nat) (f : Bond → Bond) (s : State) : (modBond n f s).rings = s.rings := rfl
@[simp] theorem modBond_admqs (n : Nat) (f : Bond → Bond) (s : State) : (modBond n f s).admqs = s.admqs := rfl
@[simp] theorem modBond_waits (n : Nat) (f : Bond → Bond) (s : State) : (modBond n f s).waits = s.waits := rfl
@[simp] theorem modBond_inbox (n : Nat) (f : Bond → Bond) (s : State) : (modBond n f s).inbox = s.inbox := rfl
@[simp] theorem modBond_sec (n : Nat) (f : Bond → Bond) (s : State) : (modBond n f s).sec = s.sec := rfl
@[simp] theorem modBond_flt (n : Nat) (f : Bond → Bond) (s : State) : (modBond n f s).flt = s.flt := rfl
@[simp] theorem modBond_kiln (n : Nat) (f : Bond → Bond) (s : State) : (modBond n f s).kiln = s.kiln := rfl
@[simp] theorem modBond_courses (n : Nat) (f : Bond → Bond) (s : State) : (modBond n f s).courses = s.courses := rfl
@[simp] theorem modBond_clk (n : Nat) (f : Bond → Bond) (s : State) : (modBond n f s).clk = s.clk := rfl
@[simp] theorem modBond_dbg (n : Nat) (f : Bond → Bond) (s : State) : (modBond n f s).dbg = s.dbg := rfl
@[simp] theorem modBond_mortar (n : Nat) (f : Bond → Bond) (s : State) : (modBond n f s).mortar = s.mortar := rfl
@[simp] theorem modBond_front (n : Nat) (f : Bond → Bond) (s : State) : (modBond n f s).front = s.front := rfl
@[simp] theorem modBond_coreOf (n : Nat) (f : Bond → Bond) (m : Nat) (s : State) : coreOf (modBond n f s) m = coreOf s m := rfl
@[simp] theorem modBond_tileOf (n : Nat) (f : Bond → Bond) (m : Nat) (s : State) : tileOf (modBond n f s) m = tileOf s m := rfl
@[simp] theorem modBond_ctlOf (n : Nat) (f : Bond → Bond) (m : Nat) (s : State) : ctlOf (modBond n f s) m = ctlOf s m := rfl
@[simp] theorem modBond_jegonOf (n : Nat) (f : Bond → Bond) (m : Nat) (s : State) : jegonOf (modBond n f s) m = jegonOf s m := rfl
@[simp] theorem modBond_courseOf (n : Nat) (f : Bond → Bond) (m : Nat) (s : State) : courseOf (modBond n f s) m = courseOf s m := rfl
@[simp] theorem modBond_ctxOf (n : Nat) (f : Bond → Bond) (m : Nat) (s : State) : ctxOf (modBond n f s) m = ctxOf s m := rfl
@[simp] theorem modBond_ringOf (n : Nat) (f : Bond → Bond) (m : Nat) (s : State) : ringOf (modBond n f s) m = ringOf s m := rfl

@[simp] theorem modCourse_build (n : Nat) (f : Course → Course) (s : State) : (modCourse n f s).build = s.build := rfl
@[simp] theorem modCourse_pending (n : Nat) (f : Course → Course) (s : State) : (modCourse n f s).pending = s.pending := rfl
@[simp] theorem modCourse_ticket (n : Nat) (f : Course → Course) (s : State) : (modCourse n f s).ticket = s.ticket := rfl
@[simp] theorem modCourse_sent (n : Nat) (f : Course → Course) (s : State) : (modCourse n f s).sent = s.sent := rfl
@[simp] theorem modCourse_straps (n : Nat) (f : Course → Course) (s : State) : (modCourse n f s).straps = s.straps := rfl
@[simp] theorem modCourse_regs (n : Nat) (f : Course → Course) (s : State) : (modCourse n f s).regs = s.regs := rfl
@[simp] theorem modCourse_sealed_ (n : Nat) (f : Course → Course) (s : State) : (modCourse n f s).sealed_ = s.sealed_ := rfl
@[simp] theorem modCourse_captures (n : Nat) (f : Course → Course) (s : State) : (modCourse n f s).captures = s.captures := rfl
@[simp] theorem modCourse_staged (n : Nat) (f : Course → Course) (s : State) : (modCourse n f s).staged = s.staged := rfl
@[simp] theorem modCourse_cores (n : Nat) (f : Course → Course) (s : State) : (modCourse n f s).cores = s.cores := rfl
@[simp] theorem modCourse_tiles (n : Nat) (f : Course → Course) (s : State) : (modCourse n f s).tiles = s.tiles := rfl
@[simp] theorem modCourse_ops (n : Nat) (f : Course → Course) (s : State) : (modCourse n f s).ops = s.ops := rfl
@[simp] theorem modCourse_idents (n : Nat) (f : Course → Course) (s : State) : (modCourse n f s).idents = s.idents := rfl
@[simp] theorem modCourse_home (n : Nat) (f : Course → Course) (s : State) : (modCourse n f s).home = s.home := rfl
@[simp] theorem modCourse_ctls (n : Nat) (f : Course → Course) (s : State) : (modCourse n f s).ctls = s.ctls := rfl
@[simp] theorem modCourse_mem (n : Nat) (f : Course → Course) (s : State) : (modCourse n f s).mem = s.mem := rfl
@[simp] theorem modCourse_xlat (n : Nat) (f : Course → Course) (s : State) : (modCourse n f s).xlat = s.xlat := rfl
@[simp] theorem modCourse_jegons (n : Nat) (f : Course → Course) (s : State) : (modCourse n f s).jegons = s.jegons := rfl
@[simp] theorem modCourse_link (n : Nat) (f : Course → Course) (s : State) : (modCourse n f s).link = s.link := rfl
@[simp] theorem modCourse_watches (n : Nat) (f : Course → Course) (s : State) : (modCourse n f s).watches = s.watches := rfl
@[simp] theorem modCourse_devWatch (n : Nat) (f : Course → Course) (s : State) : (modCourse n f s).devWatch = s.devWatch := rfl
@[simp] theorem modCourse_vecs (n : Nat) (f : Course → Course) (s : State) : (modCourse n f s).vecs = s.vecs := rfl
@[simp] theorem modCourse_hods (n : Nat) (f : Course → Course) (s : State) : (modCourse n f s).hods = s.hods := rfl
@[simp] theorem modCourse_ctxs (n : Nat) (f : Course → Course) (s : State) : (modCourse n f s).ctxs = s.ctxs := rfl
@[simp] theorem modCourse_rings (n : Nat) (f : Course → Course) (s : State) : (modCourse n f s).rings = s.rings := rfl
@[simp] theorem modCourse_admqs (n : Nat) (f : Course → Course) (s : State) : (modCourse n f s).admqs = s.admqs := rfl
@[simp] theorem modCourse_waits (n : Nat) (f : Course → Course) (s : State) : (modCourse n f s).waits = s.waits := rfl
@[simp] theorem modCourse_inbox (n : Nat) (f : Course → Course) (s : State) : (modCourse n f s).inbox = s.inbox := rfl
@[simp] theorem modCourse_bonds (n : Nat) (f : Course → Course) (s : State) : (modCourse n f s).bonds = s.bonds := rfl
@[simp] theorem modCourse_sec (n : Nat) (f : Course → Course) (s : State) : (modCourse n f s).sec = s.sec := rfl
@[simp] theorem modCourse_flt (n : Nat) (f : Course → Course) (s : State) : (modCourse n f s).flt = s.flt := rfl
@[simp] theorem modCourse_kiln (n : Nat) (f : Course → Course) (s : State) : (modCourse n f s).kiln = s.kiln := rfl
@[simp] theorem modCourse_clk (n : Nat) (f : Course → Course) (s : State) : (modCourse n f s).clk = s.clk := rfl
@[simp] theorem modCourse_dbg (n : Nat) (f : Course → Course) (s : State) : (modCourse n f s).dbg = s.dbg := rfl
@[simp] theorem modCourse_mortar (n : Nat) (f : Course → Course) (s : State) : (modCourse n f s).mortar = s.mortar := rfl
@[simp] theorem modCourse_front (n : Nat) (f : Course → Course) (s : State) : (modCourse n f s).front = s.front := rfl
@[simp] theorem modCourse_coreOf (n : Nat) (f : Course → Course) (m : Nat) (s : State) : coreOf (modCourse n f s) m = coreOf s m := rfl
@[simp] theorem modCourse_tileOf (n : Nat) (f : Course → Course) (m : Nat) (s : State) : tileOf (modCourse n f s) m = tileOf s m := rfl
@[simp] theorem modCourse_ctlOf (n : Nat) (f : Course → Course) (m : Nat) (s : State) : ctlOf (modCourse n f s) m = ctlOf s m := rfl
@[simp] theorem modCourse_jegonOf (n : Nat) (f : Course → Course) (m : Nat) (s : State) : jegonOf (modCourse n f s) m = jegonOf s m := rfl
@[simp] theorem modCourse_bondOf (n : Nat) (f : Course → Course) (m : Nat) (s : State) : bondOf (modCourse n f s) m = bondOf s m := rfl
@[simp] theorem modCourse_ctxOf (n : Nat) (f : Course → Course) (m : Nat) (s : State) : ctxOf (modCourse n f s) m = ctxOf s m := rfl
@[simp] theorem modCourse_ringOf (n : Nat) (f : Course → Course) (m : Nat) (s : State) : ringOf (modCourse n f s) m = ringOf s m := rfl

@[simp] theorem modAdmq_build (n : Nat) (f : AdmQ → AdmQ) (s : State) : (modAdmq n f s).build = s.build := rfl
@[simp] theorem modAdmq_pending (n : Nat) (f : AdmQ → AdmQ) (s : State) : (modAdmq n f s).pending = s.pending := rfl
@[simp] theorem modAdmq_ticket (n : Nat) (f : AdmQ → AdmQ) (s : State) : (modAdmq n f s).ticket = s.ticket := rfl
@[simp] theorem modAdmq_sent (n : Nat) (f : AdmQ → AdmQ) (s : State) : (modAdmq n f s).sent = s.sent := rfl
@[simp] theorem modAdmq_straps (n : Nat) (f : AdmQ → AdmQ) (s : State) : (modAdmq n f s).straps = s.straps := rfl
@[simp] theorem modAdmq_regs (n : Nat) (f : AdmQ → AdmQ) (s : State) : (modAdmq n f s).regs = s.regs := rfl
@[simp] theorem modAdmq_sealed_ (n : Nat) (f : AdmQ → AdmQ) (s : State) : (modAdmq n f s).sealed_ = s.sealed_ := rfl
@[simp] theorem modAdmq_captures (n : Nat) (f : AdmQ → AdmQ) (s : State) : (modAdmq n f s).captures = s.captures := rfl
@[simp] theorem modAdmq_staged (n : Nat) (f : AdmQ → AdmQ) (s : State) : (modAdmq n f s).staged = s.staged := rfl
@[simp] theorem modAdmq_cores (n : Nat) (f : AdmQ → AdmQ) (s : State) : (modAdmq n f s).cores = s.cores := rfl
@[simp] theorem modAdmq_tiles (n : Nat) (f : AdmQ → AdmQ) (s : State) : (modAdmq n f s).tiles = s.tiles := rfl
@[simp] theorem modAdmq_ops (n : Nat) (f : AdmQ → AdmQ) (s : State) : (modAdmq n f s).ops = s.ops := rfl
@[simp] theorem modAdmq_idents (n : Nat) (f : AdmQ → AdmQ) (s : State) : (modAdmq n f s).idents = s.idents := rfl
@[simp] theorem modAdmq_home (n : Nat) (f : AdmQ → AdmQ) (s : State) : (modAdmq n f s).home = s.home := rfl
@[simp] theorem modAdmq_ctls (n : Nat) (f : AdmQ → AdmQ) (s : State) : (modAdmq n f s).ctls = s.ctls := rfl
@[simp] theorem modAdmq_mem (n : Nat) (f : AdmQ → AdmQ) (s : State) : (modAdmq n f s).mem = s.mem := rfl
@[simp] theorem modAdmq_xlat (n : Nat) (f : AdmQ → AdmQ) (s : State) : (modAdmq n f s).xlat = s.xlat := rfl
@[simp] theorem modAdmq_jegons (n : Nat) (f : AdmQ → AdmQ) (s : State) : (modAdmq n f s).jegons = s.jegons := rfl
@[simp] theorem modAdmq_link (n : Nat) (f : AdmQ → AdmQ) (s : State) : (modAdmq n f s).link = s.link := rfl
@[simp] theorem modAdmq_watches (n : Nat) (f : AdmQ → AdmQ) (s : State) : (modAdmq n f s).watches = s.watches := rfl
@[simp] theorem modAdmq_devWatch (n : Nat) (f : AdmQ → AdmQ) (s : State) : (modAdmq n f s).devWatch = s.devWatch := rfl
@[simp] theorem modAdmq_vecs (n : Nat) (f : AdmQ → AdmQ) (s : State) : (modAdmq n f s).vecs = s.vecs := rfl
@[simp] theorem modAdmq_hods (n : Nat) (f : AdmQ → AdmQ) (s : State) : (modAdmq n f s).hods = s.hods := rfl
@[simp] theorem modAdmq_ctxs (n : Nat) (f : AdmQ → AdmQ) (s : State) : (modAdmq n f s).ctxs = s.ctxs := rfl
@[simp] theorem modAdmq_rings (n : Nat) (f : AdmQ → AdmQ) (s : State) : (modAdmq n f s).rings = s.rings := rfl
@[simp] theorem modAdmq_waits (n : Nat) (f : AdmQ → AdmQ) (s : State) : (modAdmq n f s).waits = s.waits := rfl
@[simp] theorem modAdmq_inbox (n : Nat) (f : AdmQ → AdmQ) (s : State) : (modAdmq n f s).inbox = s.inbox := rfl
@[simp] theorem modAdmq_bonds (n : Nat) (f : AdmQ → AdmQ) (s : State) : (modAdmq n f s).bonds = s.bonds := rfl
@[simp] theorem modAdmq_sec (n : Nat) (f : AdmQ → AdmQ) (s : State) : (modAdmq n f s).sec = s.sec := rfl
@[simp] theorem modAdmq_flt (n : Nat) (f : AdmQ → AdmQ) (s : State) : (modAdmq n f s).flt = s.flt := rfl
@[simp] theorem modAdmq_kiln (n : Nat) (f : AdmQ → AdmQ) (s : State) : (modAdmq n f s).kiln = s.kiln := rfl
@[simp] theorem modAdmq_courses (n : Nat) (f : AdmQ → AdmQ) (s : State) : (modAdmq n f s).courses = s.courses := rfl
@[simp] theorem modAdmq_clk (n : Nat) (f : AdmQ → AdmQ) (s : State) : (modAdmq n f s).clk = s.clk := rfl
@[simp] theorem modAdmq_dbg (n : Nat) (f : AdmQ → AdmQ) (s : State) : (modAdmq n f s).dbg = s.dbg := rfl
@[simp] theorem modAdmq_mortar (n : Nat) (f : AdmQ → AdmQ) (s : State) : (modAdmq n f s).mortar = s.mortar := rfl
@[simp] theorem modAdmq_front (n : Nat) (f : AdmQ → AdmQ) (s : State) : (modAdmq n f s).front = s.front := rfl
@[simp] theorem modAdmq_coreOf (n : Nat) (f : AdmQ → AdmQ) (m : Nat) (s : State) : coreOf (modAdmq n f s) m = coreOf s m := rfl
@[simp] theorem modAdmq_tileOf (n : Nat) (f : AdmQ → AdmQ) (m : Nat) (s : State) : tileOf (modAdmq n f s) m = tileOf s m := rfl
@[simp] theorem modAdmq_ctlOf (n : Nat) (f : AdmQ → AdmQ) (m : Nat) (s : State) : ctlOf (modAdmq n f s) m = ctlOf s m := rfl
@[simp] theorem modAdmq_jegonOf (n : Nat) (f : AdmQ → AdmQ) (m : Nat) (s : State) : jegonOf (modAdmq n f s) m = jegonOf s m := rfl
@[simp] theorem modAdmq_courseOf (n : Nat) (f : AdmQ → AdmQ) (m : Nat) (s : State) : courseOf (modAdmq n f s) m = courseOf s m := rfl
@[simp] theorem modAdmq_bondOf (n : Nat) (f : AdmQ → AdmQ) (m : Nat) (s : State) : bondOf (modAdmq n f s) m = bondOf s m := rfl
@[simp] theorem modAdmq_ctxOf (n : Nat) (f : AdmQ → AdmQ) (m : Nat) (s : State) : ctxOf (modAdmq n f s) m = ctxOf s m := rfl
@[simp] theorem modAdmq_ringOf (n : Nat) (f : AdmQ → AdmQ) (m : Nat) (s : State) : ringOf (modAdmq n f s) m = ringOf s m := rfl

@[simp] theorem modMailbox_build (n : Nat) (f : Mailbox → Mailbox) (s : State) : (modMailbox n f s).build = s.build := rfl
@[simp] theorem modMailbox_pending (n : Nat) (f : Mailbox → Mailbox) (s : State) : (modMailbox n f s).pending = s.pending := rfl
@[simp] theorem modMailbox_ticket (n : Nat) (f : Mailbox → Mailbox) (s : State) : (modMailbox n f s).ticket = s.ticket := rfl
@[simp] theorem modMailbox_sent (n : Nat) (f : Mailbox → Mailbox) (s : State) : (modMailbox n f s).sent = s.sent := rfl
@[simp] theorem modMailbox_straps (n : Nat) (f : Mailbox → Mailbox) (s : State) : (modMailbox n f s).straps = s.straps := rfl
@[simp] theorem modMailbox_regs (n : Nat) (f : Mailbox → Mailbox) (s : State) : (modMailbox n f s).regs = s.regs := rfl
@[simp] theorem modMailbox_sealed_ (n : Nat) (f : Mailbox → Mailbox) (s : State) : (modMailbox n f s).sealed_ = s.sealed_ := rfl
@[simp] theorem modMailbox_captures (n : Nat) (f : Mailbox → Mailbox) (s : State) : (modMailbox n f s).captures = s.captures := rfl
@[simp] theorem modMailbox_staged (n : Nat) (f : Mailbox → Mailbox) (s : State) : (modMailbox n f s).staged = s.staged := rfl
@[simp] theorem modMailbox_cores (n : Nat) (f : Mailbox → Mailbox) (s : State) : (modMailbox n f s).cores = s.cores := rfl
@[simp] theorem modMailbox_tiles (n : Nat) (f : Mailbox → Mailbox) (s : State) : (modMailbox n f s).tiles = s.tiles := rfl
@[simp] theorem modMailbox_ops (n : Nat) (f : Mailbox → Mailbox) (s : State) : (modMailbox n f s).ops = s.ops := rfl
@[simp] theorem modMailbox_idents (n : Nat) (f : Mailbox → Mailbox) (s : State) : (modMailbox n f s).idents = s.idents := rfl
@[simp] theorem modMailbox_home (n : Nat) (f : Mailbox → Mailbox) (s : State) : (modMailbox n f s).home = s.home := rfl
@[simp] theorem modMailbox_ctls (n : Nat) (f : Mailbox → Mailbox) (s : State) : (modMailbox n f s).ctls = s.ctls := rfl
@[simp] theorem modMailbox_mem (n : Nat) (f : Mailbox → Mailbox) (s : State) : (modMailbox n f s).mem = s.mem := rfl
@[simp] theorem modMailbox_xlat (n : Nat) (f : Mailbox → Mailbox) (s : State) : (modMailbox n f s).xlat = s.xlat := rfl
@[simp] theorem modMailbox_jegons (n : Nat) (f : Mailbox → Mailbox) (s : State) : (modMailbox n f s).jegons = s.jegons := rfl
@[simp] theorem modMailbox_link (n : Nat) (f : Mailbox → Mailbox) (s : State) : (modMailbox n f s).link = s.link := rfl
@[simp] theorem modMailbox_watches (n : Nat) (f : Mailbox → Mailbox) (s : State) : (modMailbox n f s).watches = s.watches := rfl
@[simp] theorem modMailbox_devWatch (n : Nat) (f : Mailbox → Mailbox) (s : State) : (modMailbox n f s).devWatch = s.devWatch := rfl
@[simp] theorem modMailbox_vecs (n : Nat) (f : Mailbox → Mailbox) (s : State) : (modMailbox n f s).vecs = s.vecs := rfl
@[simp] theorem modMailbox_hods (n : Nat) (f : Mailbox → Mailbox) (s : State) : (modMailbox n f s).hods = s.hods := rfl
@[simp] theorem modMailbox_ctxs (n : Nat) (f : Mailbox → Mailbox) (s : State) : (modMailbox n f s).ctxs = s.ctxs := rfl
@[simp] theorem modMailbox_rings (n : Nat) (f : Mailbox → Mailbox) (s : State) : (modMailbox n f s).rings = s.rings := rfl
@[simp] theorem modMailbox_admqs (n : Nat) (f : Mailbox → Mailbox) (s : State) : (modMailbox n f s).admqs = s.admqs := rfl
@[simp] theorem modMailbox_waits (n : Nat) (f : Mailbox → Mailbox) (s : State) : (modMailbox n f s).waits = s.waits := rfl
@[simp] theorem modMailbox_inbox (n : Nat) (f : Mailbox → Mailbox) (s : State) : (modMailbox n f s).inbox = s.inbox := rfl
@[simp] theorem modMailbox_bonds (n : Nat) (f : Mailbox → Mailbox) (s : State) : (modMailbox n f s).bonds = s.bonds := rfl
@[simp] theorem modMailbox_sec (n : Nat) (f : Mailbox → Mailbox) (s : State) : (modMailbox n f s).sec = s.sec := rfl
@[simp] theorem modMailbox_flt (n : Nat) (f : Mailbox → Mailbox) (s : State) : (modMailbox n f s).flt = s.flt := rfl
@[simp] theorem modMailbox_courses (n : Nat) (f : Mailbox → Mailbox) (s : State) : (modMailbox n f s).courses = s.courses := rfl
@[simp] theorem modMailbox_clk (n : Nat) (f : Mailbox → Mailbox) (s : State) : (modMailbox n f s).clk = s.clk := rfl
@[simp] theorem modMailbox_dbg (n : Nat) (f : Mailbox → Mailbox) (s : State) : (modMailbox n f s).dbg = s.dbg := rfl
@[simp] theorem modMailbox_mortar (n : Nat) (f : Mailbox → Mailbox) (s : State) : (modMailbox n f s).mortar = s.mortar := rfl
@[simp] theorem modMailbox_front (n : Nat) (f : Mailbox → Mailbox) (s : State) : (modMailbox n f s).front = s.front := rfl
@[simp] theorem modMailbox_coreOf (n : Nat) (f : Mailbox → Mailbox) (m : Nat) (s : State) : coreOf (modMailbox n f s) m = coreOf s m := rfl
@[simp] theorem modMailbox_tileOf (n : Nat) (f : Mailbox → Mailbox) (m : Nat) (s : State) : tileOf (modMailbox n f s) m = tileOf s m := rfl
@[simp] theorem modMailbox_ctlOf (n : Nat) (f : Mailbox → Mailbox) (m : Nat) (s : State) : ctlOf (modMailbox n f s) m = ctlOf s m := rfl
@[simp] theorem modMailbox_jegonOf (n : Nat) (f : Mailbox → Mailbox) (m : Nat) (s : State) : jegonOf (modMailbox n f s) m = jegonOf s m := rfl
@[simp] theorem modMailbox_courseOf (n : Nat) (f : Mailbox → Mailbox) (m : Nat) (s : State) : courseOf (modMailbox n f s) m = courseOf s m := rfl
@[simp] theorem modMailbox_bondOf (n : Nat) (f : Mailbox → Mailbox) (m : Nat) (s : State) : bondOf (modMailbox n f s) m = bondOf s m := rfl
@[simp] theorem modMailbox_ctxOf (n : Nat) (f : Mailbox → Mailbox) (m : Nat) (s : State) : ctxOf (modMailbox n f s) m = ctxOf s m := rfl
@[simp] theorem modMailbox_ringOf (n : Nat) (f : Mailbox → Mailbox) (m : Nat) (s : State) : ringOf (modMailbox n f s) m = ringOf s m := rfl

@[simp] theorem modCtx_build (n : Nat) (f : Ctx → Ctx) (s : State) : (modCtx n f s).build = s.build := by unfold modCtx; split <;> rfl
@[simp] theorem modCtx_pending (n : Nat) (f : Ctx → Ctx) (s : State) : (modCtx n f s).pending = s.pending := by unfold modCtx; split <;> rfl
@[simp] theorem modCtx_ticket (n : Nat) (f : Ctx → Ctx) (s : State) : (modCtx n f s).ticket = s.ticket := by unfold modCtx; split <;> rfl
@[simp] theorem modCtx_sent (n : Nat) (f : Ctx → Ctx) (s : State) : (modCtx n f s).sent = s.sent := by unfold modCtx; split <;> rfl
@[simp] theorem modCtx_straps (n : Nat) (f : Ctx → Ctx) (s : State) : (modCtx n f s).straps = s.straps := by unfold modCtx; split <;> rfl
@[simp] theorem modCtx_regs (n : Nat) (f : Ctx → Ctx) (s : State) : (modCtx n f s).regs = s.regs := by unfold modCtx; split <;> rfl
@[simp] theorem modCtx_sealed_ (n : Nat) (f : Ctx → Ctx) (s : State) : (modCtx n f s).sealed_ = s.sealed_ := by unfold modCtx; split <;> rfl
@[simp] theorem modCtx_captures (n : Nat) (f : Ctx → Ctx) (s : State) : (modCtx n f s).captures = s.captures := by unfold modCtx; split <;> rfl
@[simp] theorem modCtx_staged (n : Nat) (f : Ctx → Ctx) (s : State) : (modCtx n f s).staged = s.staged := by unfold modCtx; split <;> rfl
@[simp] theorem modCtx_cores (n : Nat) (f : Ctx → Ctx) (s : State) : (modCtx n f s).cores = s.cores := by unfold modCtx; split <;> rfl
@[simp] theorem modCtx_tiles (n : Nat) (f : Ctx → Ctx) (s : State) : (modCtx n f s).tiles = s.tiles := by unfold modCtx; split <;> rfl
@[simp] theorem modCtx_ops (n : Nat) (f : Ctx → Ctx) (s : State) : (modCtx n f s).ops = s.ops := by unfold modCtx; split <;> rfl
@[simp] theorem modCtx_idents (n : Nat) (f : Ctx → Ctx) (s : State) : (modCtx n f s).idents = s.idents := by unfold modCtx; split <;> rfl
@[simp] theorem modCtx_home (n : Nat) (f : Ctx → Ctx) (s : State) : (modCtx n f s).home = s.home := by unfold modCtx; split <;> rfl
@[simp] theorem modCtx_ctls (n : Nat) (f : Ctx → Ctx) (s : State) : (modCtx n f s).ctls = s.ctls := by unfold modCtx; split <;> rfl
@[simp] theorem modCtx_mem (n : Nat) (f : Ctx → Ctx) (s : State) : (modCtx n f s).mem = s.mem := by unfold modCtx; split <;> rfl
@[simp] theorem modCtx_xlat (n : Nat) (f : Ctx → Ctx) (s : State) : (modCtx n f s).xlat = s.xlat := by unfold modCtx; split <;> rfl
@[simp] theorem modCtx_jegons (n : Nat) (f : Ctx → Ctx) (s : State) : (modCtx n f s).jegons = s.jegons := by unfold modCtx; split <;> rfl
@[simp] theorem modCtx_link (n : Nat) (f : Ctx → Ctx) (s : State) : (modCtx n f s).link = s.link := by unfold modCtx; split <;> rfl
@[simp] theorem modCtx_watches (n : Nat) (f : Ctx → Ctx) (s : State) : (modCtx n f s).watches = s.watches := by unfold modCtx; split <;> rfl
@[simp] theorem modCtx_devWatch (n : Nat) (f : Ctx → Ctx) (s : State) : (modCtx n f s).devWatch = s.devWatch := by unfold modCtx; split <;> rfl
@[simp] theorem modCtx_vecs (n : Nat) (f : Ctx → Ctx) (s : State) : (modCtx n f s).vecs = s.vecs := by unfold modCtx; split <;> rfl
@[simp] theorem modCtx_hods (n : Nat) (f : Ctx → Ctx) (s : State) : (modCtx n f s).hods = s.hods := by unfold modCtx; split <;> rfl
@[simp] theorem modCtx_rings (n : Nat) (f : Ctx → Ctx) (s : State) : (modCtx n f s).rings = s.rings := by unfold modCtx; split <;> rfl
@[simp] theorem modCtx_admqs (n : Nat) (f : Ctx → Ctx) (s : State) : (modCtx n f s).admqs = s.admqs := by unfold modCtx; split <;> rfl
@[simp] theorem modCtx_waits (n : Nat) (f : Ctx → Ctx) (s : State) : (modCtx n f s).waits = s.waits := by unfold modCtx; split <;> rfl
@[simp] theorem modCtx_inbox (n : Nat) (f : Ctx → Ctx) (s : State) : (modCtx n f s).inbox = s.inbox := by unfold modCtx; split <;> rfl
@[simp] theorem modCtx_bonds (n : Nat) (f : Ctx → Ctx) (s : State) : (modCtx n f s).bonds = s.bonds := by unfold modCtx; split <;> rfl
@[simp] theorem modCtx_sec (n : Nat) (f : Ctx → Ctx) (s : State) : (modCtx n f s).sec = s.sec := by unfold modCtx; split <;> rfl
@[simp] theorem modCtx_flt (n : Nat) (f : Ctx → Ctx) (s : State) : (modCtx n f s).flt = s.flt := by unfold modCtx; split <;> rfl
@[simp] theorem modCtx_kiln (n : Nat) (f : Ctx → Ctx) (s : State) : (modCtx n f s).kiln = s.kiln := by unfold modCtx; split <;> rfl
@[simp] theorem modCtx_courses (n : Nat) (f : Ctx → Ctx) (s : State) : (modCtx n f s).courses = s.courses := by unfold modCtx; split <;> rfl
@[simp] theorem modCtx_clk (n : Nat) (f : Ctx → Ctx) (s : State) : (modCtx n f s).clk = s.clk := by unfold modCtx; split <;> rfl
@[simp] theorem modCtx_dbg (n : Nat) (f : Ctx → Ctx) (s : State) : (modCtx n f s).dbg = s.dbg := by unfold modCtx; split <;> rfl
@[simp] theorem modCtx_mortar (n : Nat) (f : Ctx → Ctx) (s : State) : (modCtx n f s).mortar = s.mortar := by unfold modCtx; split <;> rfl
@[simp] theorem modCtx_front (n : Nat) (f : Ctx → Ctx) (s : State) : (modCtx n f s).front = s.front := by unfold modCtx; split <;> rfl
@[simp] theorem modCtx_coreOf (n : Nat) (f : Ctx → Ctx) (m : Nat) (s : State) : coreOf (modCtx n f s) m = coreOf s m := by unfold modCtx; split <;> rfl
@[simp] theorem modCtx_tileOf (n : Nat) (f : Ctx → Ctx) (m : Nat) (s : State) : tileOf (modCtx n f s) m = tileOf s m := by unfold modCtx; split <;> rfl
@[simp] theorem modCtx_ctlOf (n : Nat) (f : Ctx → Ctx) (m : Nat) (s : State) : ctlOf (modCtx n f s) m = ctlOf s m := by unfold modCtx; split <;> rfl
@[simp] theorem modCtx_jegonOf (n : Nat) (f : Ctx → Ctx) (m : Nat) (s : State) : jegonOf (modCtx n f s) m = jegonOf s m := by unfold modCtx; split <;> rfl
@[simp] theorem modCtx_courseOf (n : Nat) (f : Ctx → Ctx) (m : Nat) (s : State) : courseOf (modCtx n f s) m = courseOf s m := by unfold modCtx; split <;> rfl
@[simp] theorem modCtx_bondOf (n : Nat) (f : Ctx → Ctx) (m : Nat) (s : State) : bondOf (modCtx n f s) m = bondOf s m := by unfold modCtx; split <;> rfl
@[simp] theorem modCtx_ringOf (n : Nat) (f : Ctx → Ctx) (m : Nat) (s : State) : ringOf (modCtx n f s) m = ringOf s m := by unfold modCtx; split <;> rfl

@[simp] theorem modRing_build (n : Nat) (f : Ring → Ring) (s : State) : (modRing n f s).build = s.build := by unfold modRing; split <;> rfl
@[simp] theorem modRing_pending (n : Nat) (f : Ring → Ring) (s : State) : (modRing n f s).pending = s.pending := by unfold modRing; split <;> rfl
@[simp] theorem modRing_ticket (n : Nat) (f : Ring → Ring) (s : State) : (modRing n f s).ticket = s.ticket := by unfold modRing; split <;> rfl
@[simp] theorem modRing_sent (n : Nat) (f : Ring → Ring) (s : State) : (modRing n f s).sent = s.sent := by unfold modRing; split <;> rfl
@[simp] theorem modRing_straps (n : Nat) (f : Ring → Ring) (s : State) : (modRing n f s).straps = s.straps := by unfold modRing; split <;> rfl
@[simp] theorem modRing_regs (n : Nat) (f : Ring → Ring) (s : State) : (modRing n f s).regs = s.regs := by unfold modRing; split <;> rfl
@[simp] theorem modRing_sealed_ (n : Nat) (f : Ring → Ring) (s : State) : (modRing n f s).sealed_ = s.sealed_ := by unfold modRing; split <;> rfl
@[simp] theorem modRing_captures (n : Nat) (f : Ring → Ring) (s : State) : (modRing n f s).captures = s.captures := by unfold modRing; split <;> rfl
@[simp] theorem modRing_staged (n : Nat) (f : Ring → Ring) (s : State) : (modRing n f s).staged = s.staged := by unfold modRing; split <;> rfl
@[simp] theorem modRing_cores (n : Nat) (f : Ring → Ring) (s : State) : (modRing n f s).cores = s.cores := by unfold modRing; split <;> rfl
@[simp] theorem modRing_tiles (n : Nat) (f : Ring → Ring) (s : State) : (modRing n f s).tiles = s.tiles := by unfold modRing; split <;> rfl
@[simp] theorem modRing_ops (n : Nat) (f : Ring → Ring) (s : State) : (modRing n f s).ops = s.ops := by unfold modRing; split <;> rfl
@[simp] theorem modRing_idents (n : Nat) (f : Ring → Ring) (s : State) : (modRing n f s).idents = s.idents := by unfold modRing; split <;> rfl
@[simp] theorem modRing_home (n : Nat) (f : Ring → Ring) (s : State) : (modRing n f s).home = s.home := by unfold modRing; split <;> rfl
@[simp] theorem modRing_ctls (n : Nat) (f : Ring → Ring) (s : State) : (modRing n f s).ctls = s.ctls := by unfold modRing; split <;> rfl
@[simp] theorem modRing_mem (n : Nat) (f : Ring → Ring) (s : State) : (modRing n f s).mem = s.mem := by unfold modRing; split <;> rfl
@[simp] theorem modRing_xlat (n : Nat) (f : Ring → Ring) (s : State) : (modRing n f s).xlat = s.xlat := by unfold modRing; split <;> rfl
@[simp] theorem modRing_jegons (n : Nat) (f : Ring → Ring) (s : State) : (modRing n f s).jegons = s.jegons := by unfold modRing; split <;> rfl
@[simp] theorem modRing_link (n : Nat) (f : Ring → Ring) (s : State) : (modRing n f s).link = s.link := by unfold modRing; split <;> rfl
@[simp] theorem modRing_watches (n : Nat) (f : Ring → Ring) (s : State) : (modRing n f s).watches = s.watches := by unfold modRing; split <;> rfl
@[simp] theorem modRing_devWatch (n : Nat) (f : Ring → Ring) (s : State) : (modRing n f s).devWatch = s.devWatch := by unfold modRing; split <;> rfl
@[simp] theorem modRing_vecs (n : Nat) (f : Ring → Ring) (s : State) : (modRing n f s).vecs = s.vecs := by unfold modRing; split <;> rfl
@[simp] theorem modRing_hods (n : Nat) (f : Ring → Ring) (s : State) : (modRing n f s).hods = s.hods := by unfold modRing; split <;> rfl
@[simp] theorem modRing_ctxs (n : Nat) (f : Ring → Ring) (s : State) : (modRing n f s).ctxs = s.ctxs := by unfold modRing; split <;> rfl
@[simp] theorem modRing_admqs (n : Nat) (f : Ring → Ring) (s : State) : (modRing n f s).admqs = s.admqs := by unfold modRing; split <;> rfl
@[simp] theorem modRing_waits (n : Nat) (f : Ring → Ring) (s : State) : (modRing n f s).waits = s.waits := by unfold modRing; split <;> rfl
@[simp] theorem modRing_inbox (n : Nat) (f : Ring → Ring) (s : State) : (modRing n f s).inbox = s.inbox := by unfold modRing; split <;> rfl
@[simp] theorem modRing_bonds (n : Nat) (f : Ring → Ring) (s : State) : (modRing n f s).bonds = s.bonds := by unfold modRing; split <;> rfl
@[simp] theorem modRing_sec (n : Nat) (f : Ring → Ring) (s : State) : (modRing n f s).sec = s.sec := by unfold modRing; split <;> rfl
@[simp] theorem modRing_flt (n : Nat) (f : Ring → Ring) (s : State) : (modRing n f s).flt = s.flt := by unfold modRing; split <;> rfl
@[simp] theorem modRing_kiln (n : Nat) (f : Ring → Ring) (s : State) : (modRing n f s).kiln = s.kiln := by unfold modRing; split <;> rfl
@[simp] theorem modRing_courses (n : Nat) (f : Ring → Ring) (s : State) : (modRing n f s).courses = s.courses := by unfold modRing; split <;> rfl
@[simp] theorem modRing_clk (n : Nat) (f : Ring → Ring) (s : State) : (modRing n f s).clk = s.clk := by unfold modRing; split <;> rfl
@[simp] theorem modRing_dbg (n : Nat) (f : Ring → Ring) (s : State) : (modRing n f s).dbg = s.dbg := by unfold modRing; split <;> rfl
@[simp] theorem modRing_mortar (n : Nat) (f : Ring → Ring) (s : State) : (modRing n f s).mortar = s.mortar := by unfold modRing; split <;> rfl
@[simp] theorem modRing_front (n : Nat) (f : Ring → Ring) (s : State) : (modRing n f s).front = s.front := by unfold modRing; split <;> rfl
@[simp] theorem modRing_coreOf (n : Nat) (f : Ring → Ring) (m : Nat) (s : State) : coreOf (modRing n f s) m = coreOf s m := by unfold modRing; split <;> rfl
@[simp] theorem modRing_tileOf (n : Nat) (f : Ring → Ring) (m : Nat) (s : State) : tileOf (modRing n f s) m = tileOf s m := by unfold modRing; split <;> rfl
@[simp] theorem modRing_ctlOf (n : Nat) (f : Ring → Ring) (m : Nat) (s : State) : ctlOf (modRing n f s) m = ctlOf s m := by unfold modRing; split <;> rfl
@[simp] theorem modRing_jegonOf (n : Nat) (f : Ring → Ring) (m : Nat) (s : State) : jegonOf (modRing n f s) m = jegonOf s m := by unfold modRing; split <;> rfl
@[simp] theorem modRing_courseOf (n : Nat) (f : Ring → Ring) (m : Nat) (s : State) : courseOf (modRing n f s) m = courseOf s m := by unfold modRing; split <;> rfl
@[simp] theorem modRing_bondOf (n : Nat) (f : Ring → Ring) (m : Nat) (s : State) : bondOf (modRing n f s) m = bondOf s m := by unfold modRing; split <;> rfl
@[simp] theorem modRing_ctxOf (n : Nat) (f : Ring → Ring) (m : Nat) (s : State) : ctxOf (modRing n f s) m = ctxOf s m := by unfold modRing; split <;> rfl

@[simp] theorem setReg_build (o : Nat) (v : Word32) (s : State) : (setReg o v s).build = s.build := rfl
@[simp] theorem setReg_pending (o : Nat) (v : Word32) (s : State) : (setReg o v s).pending = s.pending := rfl
@[simp] theorem setReg_ticket (o : Nat) (v : Word32) (s : State) : (setReg o v s).ticket = s.ticket := rfl
@[simp] theorem setReg_sent (o : Nat) (v : Word32) (s : State) : (setReg o v s).sent = s.sent := rfl
@[simp] theorem setReg_straps (o : Nat) (v : Word32) (s : State) : (setReg o v s).straps = s.straps := rfl
@[simp] theorem setReg_sealed_ (o : Nat) (v : Word32) (s : State) : (setReg o v s).sealed_ = s.sealed_ := rfl
@[simp] theorem setReg_captures (o : Nat) (v : Word32) (s : State) : (setReg o v s).captures = s.captures := rfl
@[simp] theorem setReg_staged (o : Nat) (v : Word32) (s : State) : (setReg o v s).staged = s.staged := rfl
@[simp] theorem setReg_cores (o : Nat) (v : Word32) (s : State) : (setReg o v s).cores = s.cores := rfl
@[simp] theorem setReg_tiles (o : Nat) (v : Word32) (s : State) : (setReg o v s).tiles = s.tiles := rfl
@[simp] theorem setReg_ops (o : Nat) (v : Word32) (s : State) : (setReg o v s).ops = s.ops := rfl
@[simp] theorem setReg_idents (o : Nat) (v : Word32) (s : State) : (setReg o v s).idents = s.idents := rfl
@[simp] theorem setReg_home (o : Nat) (v : Word32) (s : State) : (setReg o v s).home = s.home := rfl
@[simp] theorem setReg_ctls (o : Nat) (v : Word32) (s : State) : (setReg o v s).ctls = s.ctls := rfl
@[simp] theorem setReg_mem (o : Nat) (v : Word32) (s : State) : (setReg o v s).mem = s.mem := rfl
@[simp] theorem setReg_xlat (o : Nat) (v : Word32) (s : State) : (setReg o v s).xlat = s.xlat := rfl
@[simp] theorem setReg_jegons (o : Nat) (v : Word32) (s : State) : (setReg o v s).jegons = s.jegons := rfl
@[simp] theorem setReg_link (o : Nat) (v : Word32) (s : State) : (setReg o v s).link = s.link := rfl
@[simp] theorem setReg_watches (o : Nat) (v : Word32) (s : State) : (setReg o v s).watches = s.watches := rfl
@[simp] theorem setReg_devWatch (o : Nat) (v : Word32) (s : State) : (setReg o v s).devWatch = s.devWatch := rfl
@[simp] theorem setReg_vecs (o : Nat) (v : Word32) (s : State) : (setReg o v s).vecs = s.vecs := rfl
@[simp] theorem setReg_hods (o : Nat) (v : Word32) (s : State) : (setReg o v s).hods = s.hods := rfl
@[simp] theorem setReg_ctxs (o : Nat) (v : Word32) (s : State) : (setReg o v s).ctxs = s.ctxs := rfl
@[simp] theorem setReg_rings (o : Nat) (v : Word32) (s : State) : (setReg o v s).rings = s.rings := rfl
@[simp] theorem setReg_admqs (o : Nat) (v : Word32) (s : State) : (setReg o v s).admqs = s.admqs := rfl
@[simp] theorem setReg_waits (o : Nat) (v : Word32) (s : State) : (setReg o v s).waits = s.waits := rfl
@[simp] theorem setReg_inbox (o : Nat) (v : Word32) (s : State) : (setReg o v s).inbox = s.inbox := rfl
@[simp] theorem setReg_bonds (o : Nat) (v : Word32) (s : State) : (setReg o v s).bonds = s.bonds := rfl
@[simp] theorem setReg_sec (o : Nat) (v : Word32) (s : State) : (setReg o v s).sec = s.sec := rfl
@[simp] theorem setReg_flt (o : Nat) (v : Word32) (s : State) : (setReg o v s).flt = s.flt := rfl
@[simp] theorem setReg_kiln (o : Nat) (v : Word32) (s : State) : (setReg o v s).kiln = s.kiln := rfl
@[simp] theorem setReg_courses (o : Nat) (v : Word32) (s : State) : (setReg o v s).courses = s.courses := rfl
@[simp] theorem setReg_clk (o : Nat) (v : Word32) (s : State) : (setReg o v s).clk = s.clk := rfl
@[simp] theorem setReg_dbg (o : Nat) (v : Word32) (s : State) : (setReg o v s).dbg = s.dbg := rfl
@[simp] theorem setReg_mortar (o : Nat) (v : Word32) (s : State) : (setReg o v s).mortar = s.mortar := rfl
@[simp] theorem setReg_front (o : Nat) (v : Word32) (s : State) : (setReg o v s).front = s.front := rfl
@[simp] theorem setReg_coreOf (o : Nat) (v : Word32) (m : Nat) (s : State) : coreOf (setReg o v s) m = coreOf s m := rfl
@[simp] theorem setReg_tileOf (o : Nat) (v : Word32) (m : Nat) (s : State) : tileOf (setReg o v s) m = tileOf s m := rfl
@[simp] theorem setReg_ctlOf (o : Nat) (v : Word32) (m : Nat) (s : State) : ctlOf (setReg o v s) m = ctlOf s m := rfl
@[simp] theorem setReg_jegonOf (o : Nat) (v : Word32) (m : Nat) (s : State) : jegonOf (setReg o v s) m = jegonOf s m := rfl
@[simp] theorem setReg_courseOf (o : Nat) (v : Word32) (m : Nat) (s : State) : courseOf (setReg o v s) m = courseOf s m := rfl
@[simp] theorem setReg_bondOf (o : Nat) (v : Word32) (m : Nat) (s : State) : bondOf (setReg o v s) m = bondOf s m := rfl
@[simp] theorem setReg_ctxOf (o : Nat) (v : Word32) (m : Nat) (s : State) : ctxOf (setReg o v s) m = ctxOf s m := rfl
@[simp] theorem setReg_ringOf (o : Nat) (v : Word32) (m : Nat) (s : State) : ringOf (setReg o v s) m = ringOf s m := rfl

@[simp] theorem send_build (m : Msg) (s : State) : (send m s).build = s.build := rfl
@[simp] theorem send_pending (m : Msg) (s : State) : (send m s).pending = s.pending := rfl
@[simp] theorem send_ticket (m : Msg) (s : State) : (send m s).ticket = s.ticket := rfl
@[simp] theorem send_straps (m : Msg) (s : State) : (send m s).straps = s.straps := rfl
@[simp] theorem send_regs (m : Msg) (s : State) : (send m s).regs = s.regs := rfl
@[simp] theorem send_sealed_ (m : Msg) (s : State) : (send m s).sealed_ = s.sealed_ := rfl
@[simp] theorem send_captures (m : Msg) (s : State) : (send m s).captures = s.captures := rfl
@[simp] theorem send_staged (m : Msg) (s : State) : (send m s).staged = s.staged := rfl
@[simp] theorem send_cores (m : Msg) (s : State) : (send m s).cores = s.cores := rfl
@[simp] theorem send_tiles (m : Msg) (s : State) : (send m s).tiles = s.tiles := rfl
@[simp] theorem send_ops (m : Msg) (s : State) : (send m s).ops = s.ops := rfl
@[simp] theorem send_idents (m : Msg) (s : State) : (send m s).idents = s.idents := rfl
@[simp] theorem send_home (m : Msg) (s : State) : (send m s).home = s.home := rfl
@[simp] theorem send_ctls (m : Msg) (s : State) : (send m s).ctls = s.ctls := rfl
@[simp] theorem send_mem (m : Msg) (s : State) : (send m s).mem = s.mem := rfl
@[simp] theorem send_xlat (m : Msg) (s : State) : (send m s).xlat = s.xlat := rfl
@[simp] theorem send_jegons (m : Msg) (s : State) : (send m s).jegons = s.jegons := rfl
@[simp] theorem send_link (m : Msg) (s : State) : (send m s).link = s.link := rfl
@[simp] theorem send_watches (m : Msg) (s : State) : (send m s).watches = s.watches := rfl
@[simp] theorem send_devWatch (m : Msg) (s : State) : (send m s).devWatch = s.devWatch := rfl
@[simp] theorem send_vecs (m : Msg) (s : State) : (send m s).vecs = s.vecs := rfl
@[simp] theorem send_hods (m : Msg) (s : State) : (send m s).hods = s.hods := rfl
@[simp] theorem send_ctxs (m : Msg) (s : State) : (send m s).ctxs = s.ctxs := rfl
@[simp] theorem send_rings (m : Msg) (s : State) : (send m s).rings = s.rings := rfl
@[simp] theorem send_admqs (m : Msg) (s : State) : (send m s).admqs = s.admqs := rfl
@[simp] theorem send_waits (m : Msg) (s : State) : (send m s).waits = s.waits := rfl
@[simp] theorem send_inbox (m : Msg) (s : State) : (send m s).inbox = s.inbox := rfl
@[simp] theorem send_bonds (m : Msg) (s : State) : (send m s).bonds = s.bonds := rfl
@[simp] theorem send_sec (m : Msg) (s : State) : (send m s).sec = s.sec := rfl
@[simp] theorem send_flt (m : Msg) (s : State) : (send m s).flt = s.flt := rfl
@[simp] theorem send_kiln (m : Msg) (s : State) : (send m s).kiln = s.kiln := rfl
@[simp] theorem send_courses (m : Msg) (s : State) : (send m s).courses = s.courses := rfl
@[simp] theorem send_clk (m : Msg) (s : State) : (send m s).clk = s.clk := rfl
@[simp] theorem send_dbg (m : Msg) (s : State) : (send m s).dbg = s.dbg := rfl
@[simp] theorem send_mortar (m : Msg) (s : State) : (send m s).mortar = s.mortar := rfl
@[simp] theorem send_front (m : Msg) (s : State) : (send m s).front = s.front := rfl
@[simp] theorem send_coreOf (x : Msg) (m : Nat) (s : State) : coreOf (send x s) m = coreOf s m := rfl
@[simp] theorem send_tileOf (x : Msg) (m : Nat) (s : State) : tileOf (send x s) m = tileOf s m := rfl
@[simp] theorem send_ctlOf (x : Msg) (m : Nat) (s : State) : ctlOf (send x s) m = ctlOf s m := rfl
@[simp] theorem send_jegonOf (x : Msg) (m : Nat) (s : State) : jegonOf (send x s) m = jegonOf s m := rfl
@[simp] theorem send_courseOf (x : Msg) (m : Nat) (s : State) : courseOf (send x s) m = courseOf s m := rfl
@[simp] theorem send_bondOf (x : Msg) (m : Nat) (s : State) : bondOf (send x s) m = bondOf s m := rfl
@[simp] theorem send_ctxOf (x : Msg) (m : Nat) (s : State) : ctxOf (send x s) m = ctxOf s m := rfl
@[simp] theorem send_ringOf (x : Msg) (m : Nat) (s : State) : ringOf (send x s) m = ringOf s m := rfl

@[simp] theorem raiseSyn_build (u : Nat) (y : Syndrome) (s : State) : (raiseSyn u y s).build = s.build := rfl
@[simp] theorem raiseSyn_pending (u : Nat) (y : Syndrome) (s : State) : (raiseSyn u y s).pending = s.pending := rfl
@[simp] theorem raiseSyn_ticket (u : Nat) (y : Syndrome) (s : State) : (raiseSyn u y s).ticket = s.ticket := rfl
@[simp] theorem raiseSyn_sent (u : Nat) (y : Syndrome) (s : State) : (raiseSyn u y s).sent = s.sent := rfl
@[simp] theorem raiseSyn_straps (u : Nat) (y : Syndrome) (s : State) : (raiseSyn u y s).straps = s.straps := rfl
@[simp] theorem raiseSyn_regs (u : Nat) (y : Syndrome) (s : State) : (raiseSyn u y s).regs = s.regs := rfl
@[simp] theorem raiseSyn_sealed_ (u : Nat) (y : Syndrome) (s : State) : (raiseSyn u y s).sealed_ = s.sealed_ := rfl
@[simp] theorem raiseSyn_captures (u : Nat) (y : Syndrome) (s : State) : (raiseSyn u y s).captures = s.captures := rfl
@[simp] theorem raiseSyn_staged (u : Nat) (y : Syndrome) (s : State) : (raiseSyn u y s).staged = s.staged := rfl
@[simp] theorem raiseSyn_cores (u : Nat) (y : Syndrome) (s : State) : (raiseSyn u y s).cores = s.cores := rfl
@[simp] theorem raiseSyn_tiles (u : Nat) (y : Syndrome) (s : State) : (raiseSyn u y s).tiles = s.tiles := rfl
@[simp] theorem raiseSyn_ops (u : Nat) (y : Syndrome) (s : State) : (raiseSyn u y s).ops = s.ops := rfl
@[simp] theorem raiseSyn_idents (u : Nat) (y : Syndrome) (s : State) : (raiseSyn u y s).idents = s.idents := rfl
@[simp] theorem raiseSyn_home (u : Nat) (y : Syndrome) (s : State) : (raiseSyn u y s).home = s.home := rfl
@[simp] theorem raiseSyn_ctls (u : Nat) (y : Syndrome) (s : State) : (raiseSyn u y s).ctls = s.ctls := rfl
@[simp] theorem raiseSyn_mem (u : Nat) (y : Syndrome) (s : State) : (raiseSyn u y s).mem = s.mem := rfl
@[simp] theorem raiseSyn_xlat (u : Nat) (y : Syndrome) (s : State) : (raiseSyn u y s).xlat = s.xlat := rfl
@[simp] theorem raiseSyn_jegons (u : Nat) (y : Syndrome) (s : State) : (raiseSyn u y s).jegons = s.jegons := rfl
@[simp] theorem raiseSyn_link (u : Nat) (y : Syndrome) (s : State) : (raiseSyn u y s).link = s.link := rfl
@[simp] theorem raiseSyn_watches (u : Nat) (y : Syndrome) (s : State) : (raiseSyn u y s).watches = s.watches := rfl
@[simp] theorem raiseSyn_devWatch (u : Nat) (y : Syndrome) (s : State) : (raiseSyn u y s).devWatch = s.devWatch := rfl
@[simp] theorem raiseSyn_vecs (u : Nat) (y : Syndrome) (s : State) : (raiseSyn u y s).vecs = s.vecs := rfl
@[simp] theorem raiseSyn_hods (u : Nat) (y : Syndrome) (s : State) : (raiseSyn u y s).hods = s.hods := rfl
@[simp] theorem raiseSyn_ctxs (u : Nat) (y : Syndrome) (s : State) : (raiseSyn u y s).ctxs = s.ctxs := rfl
@[simp] theorem raiseSyn_rings (u : Nat) (y : Syndrome) (s : State) : (raiseSyn u y s).rings = s.rings := rfl
@[simp] theorem raiseSyn_admqs (u : Nat) (y : Syndrome) (s : State) : (raiseSyn u y s).admqs = s.admqs := rfl
@[simp] theorem raiseSyn_waits (u : Nat) (y : Syndrome) (s : State) : (raiseSyn u y s).waits = s.waits := rfl
@[simp] theorem raiseSyn_inbox (u : Nat) (y : Syndrome) (s : State) : (raiseSyn u y s).inbox = s.inbox := rfl
@[simp] theorem raiseSyn_bonds (u : Nat) (y : Syndrome) (s : State) : (raiseSyn u y s).bonds = s.bonds := rfl
@[simp] theorem raiseSyn_sec (u : Nat) (y : Syndrome) (s : State) : (raiseSyn u y s).sec = s.sec := rfl
@[simp] theorem raiseSyn_kiln (u : Nat) (y : Syndrome) (s : State) : (raiseSyn u y s).kiln = s.kiln := rfl
@[simp] theorem raiseSyn_courses (u : Nat) (y : Syndrome) (s : State) : (raiseSyn u y s).courses = s.courses := rfl
@[simp] theorem raiseSyn_clk (u : Nat) (y : Syndrome) (s : State) : (raiseSyn u y s).clk = s.clk := rfl
@[simp] theorem raiseSyn_dbg (u : Nat) (y : Syndrome) (s : State) : (raiseSyn u y s).dbg = s.dbg := rfl
@[simp] theorem raiseSyn_mortar (u : Nat) (y : Syndrome) (s : State) : (raiseSyn u y s).mortar = s.mortar := rfl
@[simp] theorem raiseSyn_front (u : Nat) (y : Syndrome) (s : State) : (raiseSyn u y s).front = s.front := rfl
@[simp] theorem raiseSyn_coreOf (u : Nat) (y : Syndrome) (m : Nat) (s : State) : coreOf (raiseSyn u y s) m = coreOf s m := rfl
@[simp] theorem raiseSyn_tileOf (u : Nat) (y : Syndrome) (m : Nat) (s : State) : tileOf (raiseSyn u y s) m = tileOf s m := rfl
@[simp] theorem raiseSyn_ctlOf (u : Nat) (y : Syndrome) (m : Nat) (s : State) : ctlOf (raiseSyn u y s) m = ctlOf s m := rfl
@[simp] theorem raiseSyn_jegonOf (u : Nat) (y : Syndrome) (m : Nat) (s : State) : jegonOf (raiseSyn u y s) m = jegonOf s m := rfl
@[simp] theorem raiseSyn_courseOf (u : Nat) (y : Syndrome) (m : Nat) (s : State) : courseOf (raiseSyn u y s) m = courseOf s m := rfl
@[simp] theorem raiseSyn_bondOf (u : Nat) (y : Syndrome) (m : Nat) (s : State) : bondOf (raiseSyn u y s) m = bondOf s m := rfl
@[simp] theorem raiseSyn_ctxOf (u : Nat) (y : Syndrome) (m : Nat) (s : State) : ctxOf (raiseSyn u y s) m = ctxOf s m := rfl
@[simp] theorem raiseSyn_ringOf (u : Nat) (y : Syndrome) (m : Nat) (s : State) : ringOf (raiseSyn u y s) m = ringOf s m := rfl

@[simp] theorem setIdent_build (p u i : Nat) (d : Ident) (s : State) : (setIdent p u i d s).build = s.build := rfl
@[simp] theorem setIdent_pending (p u i : Nat) (d : Ident) (s : State) : (setIdent p u i d s).pending = s.pending := rfl
@[simp] theorem setIdent_ticket (p u i : Nat) (d : Ident) (s : State) : (setIdent p u i d s).ticket = s.ticket := rfl
@[simp] theorem setIdent_sent (p u i : Nat) (d : Ident) (s : State) : (setIdent p u i d s).sent = s.sent := rfl
@[simp] theorem setIdent_straps (p u i : Nat) (d : Ident) (s : State) : (setIdent p u i d s).straps = s.straps := rfl
@[simp] theorem setIdent_regs (p u i : Nat) (d : Ident) (s : State) : (setIdent p u i d s).regs = s.regs := rfl
@[simp] theorem setIdent_sealed_ (p u i : Nat) (d : Ident) (s : State) : (setIdent p u i d s).sealed_ = s.sealed_ := rfl
@[simp] theorem setIdent_captures (p u i : Nat) (d : Ident) (s : State) : (setIdent p u i d s).captures = s.captures := rfl
@[simp] theorem setIdent_staged (p u i : Nat) (d : Ident) (s : State) : (setIdent p u i d s).staged = s.staged := rfl
@[simp] theorem setIdent_cores (p u i : Nat) (d : Ident) (s : State) : (setIdent p u i d s).cores = s.cores := rfl
@[simp] theorem setIdent_tiles (p u i : Nat) (d : Ident) (s : State) : (setIdent p u i d s).tiles = s.tiles := rfl
@[simp] theorem setIdent_ops (p u i : Nat) (d : Ident) (s : State) : (setIdent p u i d s).ops = s.ops := rfl
@[simp] theorem setIdent_home (p u i : Nat) (d : Ident) (s : State) : (setIdent p u i d s).home = s.home := rfl
@[simp] theorem setIdent_ctls (p u i : Nat) (d : Ident) (s : State) : (setIdent p u i d s).ctls = s.ctls := rfl
@[simp] theorem setIdent_mem (p u i : Nat) (d : Ident) (s : State) : (setIdent p u i d s).mem = s.mem := rfl
@[simp] theorem setIdent_xlat (p u i : Nat) (d : Ident) (s : State) : (setIdent p u i d s).xlat = s.xlat := rfl
@[simp] theorem setIdent_jegons (p u i : Nat) (d : Ident) (s : State) : (setIdent p u i d s).jegons = s.jegons := rfl
@[simp] theorem setIdent_link (p u i : Nat) (d : Ident) (s : State) : (setIdent p u i d s).link = s.link := rfl
@[simp] theorem setIdent_watches (p u i : Nat) (d : Ident) (s : State) : (setIdent p u i d s).watches = s.watches := rfl
@[simp] theorem setIdent_devWatch (p u i : Nat) (d : Ident) (s : State) : (setIdent p u i d s).devWatch = s.devWatch := rfl
@[simp] theorem setIdent_vecs (p u i : Nat) (d : Ident) (s : State) : (setIdent p u i d s).vecs = s.vecs := rfl
@[simp] theorem setIdent_hods (p u i : Nat) (d : Ident) (s : State) : (setIdent p u i d s).hods = s.hods := rfl
@[simp] theorem setIdent_ctxs (p u i : Nat) (d : Ident) (s : State) : (setIdent p u i d s).ctxs = s.ctxs := rfl
@[simp] theorem setIdent_rings (p u i : Nat) (d : Ident) (s : State) : (setIdent p u i d s).rings = s.rings := rfl
@[simp] theorem setIdent_admqs (p u i : Nat) (d : Ident) (s : State) : (setIdent p u i d s).admqs = s.admqs := rfl
@[simp] theorem setIdent_waits (p u i : Nat) (d : Ident) (s : State) : (setIdent p u i d s).waits = s.waits := rfl
@[simp] theorem setIdent_inbox (p u i : Nat) (d : Ident) (s : State) : (setIdent p u i d s).inbox = s.inbox := rfl
@[simp] theorem setIdent_bonds (p u i : Nat) (d : Ident) (s : State) : (setIdent p u i d s).bonds = s.bonds := rfl
@[simp] theorem setIdent_sec (p u i : Nat) (d : Ident) (s : State) : (setIdent p u i d s).sec = s.sec := rfl
@[simp] theorem setIdent_flt (p u i : Nat) (d : Ident) (s : State) : (setIdent p u i d s).flt = s.flt := rfl
@[simp] theorem setIdent_kiln (p u i : Nat) (d : Ident) (s : State) : (setIdent p u i d s).kiln = s.kiln := rfl
@[simp] theorem setIdent_courses (p u i : Nat) (d : Ident) (s : State) : (setIdent p u i d s).courses = s.courses := rfl
@[simp] theorem setIdent_clk (p u i : Nat) (d : Ident) (s : State) : (setIdent p u i d s).clk = s.clk := rfl
@[simp] theorem setIdent_dbg (p u i : Nat) (d : Ident) (s : State) : (setIdent p u i d s).dbg = s.dbg := rfl
@[simp] theorem setIdent_mortar (p u i : Nat) (d : Ident) (s : State) : (setIdent p u i d s).mortar = s.mortar := rfl
@[simp] theorem setIdent_front (p u i : Nat) (d : Ident) (s : State) : (setIdent p u i d s).front = s.front := rfl
@[simp] theorem setIdent_coreOf (p u i : Nat) (d : Ident) (m : Nat) (s : State) : coreOf (setIdent p u i d s) m = coreOf s m := rfl
@[simp] theorem setIdent_tileOf (p u i : Nat) (d : Ident) (m : Nat) (s : State) : tileOf (setIdent p u i d s) m = tileOf s m := rfl
@[simp] theorem setIdent_ctlOf (p u i : Nat) (d : Ident) (m : Nat) (s : State) : ctlOf (setIdent p u i d s) m = ctlOf s m := rfl
@[simp] theorem setIdent_jegonOf (p u i : Nat) (d : Ident) (m : Nat) (s : State) : jegonOf (setIdent p u i d s) m = jegonOf s m := rfl
@[simp] theorem setIdent_courseOf (p u i : Nat) (d : Ident) (m : Nat) (s : State) : courseOf (setIdent p u i d s) m = courseOf s m := rfl
@[simp] theorem setIdent_bondOf (p u i : Nat) (d : Ident) (m : Nat) (s : State) : bondOf (setIdent p u i d s) m = bondOf s m := rfl
@[simp] theorem setIdent_ctxOf (p u i : Nat) (d : Ident) (m : Nat) (s : State) : ctxOf (setIdent p u i d s) m = ctxOf s m := rfl
@[simp] theorem setIdent_ringOf (p u i : Nat) (d : Ident) (m : Nat) (s : State) : ringOf (setIdent p u i d s) m = ringOf s m := rfl

@[simp] theorem modMortar_mortar (f : Mortar → Mortar) (s : State) : (modMortar f s).mortar = f s.mortar := rfl
@[simp] theorem modMortar_build (f : Mortar → Mortar) (s : State) : (modMortar f s).build = s.build := rfl
@[simp] theorem modMortar_pending (f : Mortar → Mortar) (s : State) : (modMortar f s).pending = s.pending := rfl
@[simp] theorem modMortar_ticket (f : Mortar → Mortar) (s : State) : (modMortar f s).ticket = s.ticket := rfl
@[simp] theorem modMortar_sent (f : Mortar → Mortar) (s : State) : (modMortar f s).sent = s.sent := rfl
@[simp] theorem modMortar_straps (f : Mortar → Mortar) (s : State) : (modMortar f s).straps = s.straps := rfl
@[simp] theorem modMortar_regs (f : Mortar → Mortar) (s : State) : (modMortar f s).regs = s.regs := rfl
@[simp] theorem modMortar_sealed_ (f : Mortar → Mortar) (s : State) : (modMortar f s).sealed_ = s.sealed_ := rfl
@[simp] theorem modMortar_captures (f : Mortar → Mortar) (s : State) : (modMortar f s).captures = s.captures := rfl
@[simp] theorem modMortar_staged (f : Mortar → Mortar) (s : State) : (modMortar f s).staged = s.staged := rfl
@[simp] theorem modMortar_cores (f : Mortar → Mortar) (s : State) : (modMortar f s).cores = s.cores := rfl
@[simp] theorem modMortar_tiles (f : Mortar → Mortar) (s : State) : (modMortar f s).tiles = s.tiles := rfl
@[simp] theorem modMortar_ops (f : Mortar → Mortar) (s : State) : (modMortar f s).ops = s.ops := rfl
@[simp] theorem modMortar_idents (f : Mortar → Mortar) (s : State) : (modMortar f s).idents = s.idents := rfl
@[simp] theorem modMortar_home (f : Mortar → Mortar) (s : State) : (modMortar f s).home = s.home := rfl
@[simp] theorem modMortar_ctls (f : Mortar → Mortar) (s : State) : (modMortar f s).ctls = s.ctls := rfl
@[simp] theorem modMortar_mem (f : Mortar → Mortar) (s : State) : (modMortar f s).mem = s.mem := rfl
@[simp] theorem modMortar_xlat (f : Mortar → Mortar) (s : State) : (modMortar f s).xlat = s.xlat := rfl
@[simp] theorem modMortar_jegons (f : Mortar → Mortar) (s : State) : (modMortar f s).jegons = s.jegons := rfl
@[simp] theorem modMortar_link (f : Mortar → Mortar) (s : State) : (modMortar f s).link = s.link := rfl
@[simp] theorem modMortar_watches (f : Mortar → Mortar) (s : State) : (modMortar f s).watches = s.watches := rfl
@[simp] theorem modMortar_devWatch (f : Mortar → Mortar) (s : State) : (modMortar f s).devWatch = s.devWatch := rfl
@[simp] theorem modMortar_vecs (f : Mortar → Mortar) (s : State) : (modMortar f s).vecs = s.vecs := rfl
@[simp] theorem modMortar_hods (f : Mortar → Mortar) (s : State) : (modMortar f s).hods = s.hods := rfl
@[simp] theorem modMortar_ctxs (f : Mortar → Mortar) (s : State) : (modMortar f s).ctxs = s.ctxs := rfl
@[simp] theorem modMortar_rings (f : Mortar → Mortar) (s : State) : (modMortar f s).rings = s.rings := rfl
@[simp] theorem modMortar_admqs (f : Mortar → Mortar) (s : State) : (modMortar f s).admqs = s.admqs := rfl
@[simp] theorem modMortar_waits (f : Mortar → Mortar) (s : State) : (modMortar f s).waits = s.waits := rfl
@[simp] theorem modMortar_inbox (f : Mortar → Mortar) (s : State) : (modMortar f s).inbox = s.inbox := rfl
@[simp] theorem modMortar_front (f : Mortar → Mortar) (s : State) : (modMortar f s).front = s.front := rfl
@[simp] theorem modMortar_bonds (f : Mortar → Mortar) (s : State) : (modMortar f s).bonds = s.bonds := rfl
@[simp] theorem modMortar_sec (f : Mortar → Mortar) (s : State) : (modMortar f s).sec = s.sec := rfl
@[simp] theorem modMortar_flt (f : Mortar → Mortar) (s : State) : (modMortar f s).flt = s.flt := rfl
@[simp] theorem modMortar_kiln (f : Mortar → Mortar) (s : State) : (modMortar f s).kiln = s.kiln := rfl
@[simp] theorem modMortar_courses (f : Mortar → Mortar) (s : State) : (modMortar f s).courses = s.courses := rfl
@[simp] theorem modMortar_clk (f : Mortar → Mortar) (s : State) : (modMortar f s).clk = s.clk := rfl
@[simp] theorem modMortar_dbg (f : Mortar → Mortar) (s : State) : (modMortar f s).dbg = s.dbg := rfl
@[simp] theorem modMortar_coreOf (f : Mortar → Mortar) (m : Nat) (s : State) : coreOf (modMortar f s) m = coreOf s m := rfl
@[simp] theorem modMortar_tileOf (f : Mortar → Mortar) (m : Nat) (s : State) : tileOf (modMortar f s) m = tileOf s m := rfl
@[simp] theorem modMortar_ctlOf (f : Mortar → Mortar) (m : Nat) (s : State) : ctlOf (modMortar f s) m = ctlOf s m := rfl
@[simp] theorem modMortar_jegonOf (f : Mortar → Mortar) (m : Nat) (s : State) : jegonOf (modMortar f s) m = jegonOf s m := rfl
@[simp] theorem modMortar_courseOf (f : Mortar → Mortar) (m : Nat) (s : State) : courseOf (modMortar f s) m = courseOf s m := rfl
@[simp] theorem modMortar_bondOf (f : Mortar → Mortar) (m : Nat) (s : State) : bondOf (modMortar f s) m = bondOf s m := rfl
@[simp] theorem modMortar_ctxOf (f : Mortar → Mortar) (m : Nat) (s : State) : ctxOf (modMortar f s) m = ctxOf s m := rfl
@[simp] theorem modMortar_ringOf (f : Mortar → Mortar) (m : Nat) (s : State) : ringOf (modMortar f s) m = ringOf s m := rfl

@[simp] theorem arbOf_setArb (o p : Nat) (a : Arbiter) (s : State) :
    arbOf (setArb o a s) p = if p = o then a else arbOf s p := tget_tset _ _ _ _ _

end Sys2Proof.Machine
end

