-- ==== Sys2Proof/Laws/Mortar.lean ====
section
/-! SUPPORT. What Mortar does with a message that meets no other: it passes every arbiter on its path at once and reaches the end of
the path, where it holds a credit (R350 to R358). -/
namespace Sys2Proof.Machine

/-- A round of one key gives that key its quantum and then the turn. -/
theorem drr_alone (q : Nat → Nat) (k n f turn : Nat) (h1 : 1 ≤ n) (hq : n ≤ q k) :
    drr q [(k, n)] (f + 2) turn [] = some (k, k, tset zeroOf (tset zeroOf [] k (q k)) k (q k - n)) := by
  have h0 : n ≠ 0 := by omega
  by_cases ht : turn < k <;> simp [drr, nextKey, zeroOf, ht, h0, hq]

/-- The first messages of the keys of one message. -/
theorem headsOf_alone (key : Packet → Nat) (p : Packet) : headsOf key [p] = [(key p, p.units)] := by
  simp [headsOf, List.eraseDups, List.eraseDupsBy, List.eraseDupsBy.loop]

theorem four_le_weight (s : State) (c : Nat) : 4 ≤ 4 * classWeight s c := by
  unfold classWeight; omega

/-- An arbiter at rest where nothing waits but one message that has a credit grants that message. Its bucket pays for a message of TC0 that
it covers. -/
theorem pickAt_alone (s : State) (p : Packet) (o b : Nat) (hw : s.mortar.waiting = [p]) (ho : p.outs.head? = some o)
    (hc : hasCredit s p = true) (ha : arbOf s o = { arbDefault o with bucket := b }) (hg : p.aged = false)
    (h1 : 1 ≤ p.units) (h4 : p.units ≤ 4) :
    ∃ a, pickAt s o = some (p, a) ∧ a.bucket = if arbClass (arbOf s o) p = 0 then b - 20 * p.units else b := by
  have hq (c k : Nat) : p.units ≤ 4 * max 1 (activeCount s o (k % 4096) (BitVec.ofNat 2 c)) := by omega
  have hwt (c : Nat) : p.units ≤ 4 * classWeight s c := Nat.le_trans h4 (four_le_weight s c)
  have ha' : arbOf s o = ⟨b, 1, [], [], []⟩ := ha
  unfold pickAt
  simp only [hw, List.filter_cons, List.filter_nil, ho, hc, ha', beq_self_eq_true, Bool.and_self, if_true]
  generalize hz : arbClass ⟨b, 1, [], [], []⟩ p = c
  have inner (c t : Nat) := drr_alone (fun k => 4 * max 1 (activeCount s o (k % 4096) (BitVec.ofNat 2 c))) (inputKey o c p)
    p.units 4 t h1 (hq c _)
  have outer := drr_alone (fun c => 4 * classWeight s c) c p.units 14 1 h1 (hwt c)
  by_cases h0 : c = 0
  · subst h0
    simp only [hz, headsOf_alone, List.isEmpty, if_true, beq_self_eq_true, Bool.not_false, List.length_cons, List.length_nil]
    rw [inner 0]
    exact ⟨_, by simp; rfl, rfl⟩
  · simp only [hz, h0, hg, headsOf_alone, beq_iff_eq, if_false, List.isEmpty, Bool.not_true, List.find?_cons, List.find?_nil,
      Bool.false_eq_true]
    rw [outer]
    simp only [if_true, headsOf_alone, List.length_cons, List.length_nil]
    rw [inner c]
    exact ⟨_, by simp [h0]; rfl, rfl⟩

/-- The message that waits alone is granted. -/
theorem pumpMortar_alone (n : Nat) (s : State) (p : Packet) (o b : Nat) (rest : List Nat) (hw : s.mortar.waiting = [p])
    (ho : p.outs = o :: rest) (hc : hasCredit s p = true) (ha : arbOf s o = { arbDefault o with bucket := b }) (hg : p.aged = false)
    (h1 : 1 ≤ p.units) (h4 : p.units ≤ 4) :
    ∃ a, pumpMortar (n + 1) s = pumpMortar n (grantAt o p a s) := by
  obtain ⟨a, h, -⟩ := pickAt_alone s p o b hw (by simp [ho]) hc ha hg h1 h4
  refine ⟨a, ?_⟩
  rw [pumpMortar]
  simp [hw, ho, List.eraseDups, List.eraseDupsBy, List.eraseDupsBy.loop, h]

/-- With nothing waiting Mortar does nothing. -/
theorem pumpMortar_idle (n : Nat) (s : State) (hw : s.mortar.waiting = []) : pumpMortar n s = s := by
  cases n with
  | zero => rfl
  | succ n => simp [pumpMortar, hw, List.eraseDups, List.eraseDupsBy, List.eraseDupsBy.loop]

/-- A message that has reached the end of its path. -/
def landed (load : Load) (s : State) : State :=
  match load with
  | .msg m => send m s
  | .req line r => { s with home := { s.home with input := s.home.input ++ [(line, r)] } }

/-- A grant before the last arbiter: the message waits at the next one, and the arbiter is at rest again. -/
theorem grantAt_onward (o x : Nat) (rest : List Nat) (p : Packet) (a : Arbiter) (s : State) (hw : s.mortar.waiting = [p])
    (ho : p.outs = o :: x :: rest) :
    grantAt o p a s = modMortar (fun m => { m with
      waiting := [{ p with from_ := some o, outs := x :: rest, aged := false }]
      arbs := tset arbDefault m.arbs o { arbDefault 0 with bucket := a.bucket } }) s := by
  simp [grantAt, hw, ho, removeFirst, modMortar, setArb]

/-- A grant at the last arbiter: the message takes a credit and has reached the end of its path. -/
theorem grantAt_end (o : Nat) (p : Packet) (a : Arbiter) (s : State) (hw : s.mortar.waiting = [p]) (ho : p.outs = [o]) :
    grantAt o p a s = landed p.load (modMortar (fun m => { m with
      waiting := []
      arbs := tset arbDefault m.arbs o { arbDefault 0 with bucket := a.bucket }
      used := tset zeroOf m.used (creditKey o p.cls p.tc p.source) (tget zeroOf m.used (creditKey o p.cls p.tc p.source) + 1) }) s) := by
  cases h : p.load <;> simp [grantAt, hw, ho, removeFirst, modMortar, setArb, landed, h]

/-- What Mortar is after a message has passed a free path: nothing waits, the end of the path has one credit less, the arbiters of the path
are at rest, and no other arbiter has changed. -/
def passedBy (s : State) (cls : MClass) (tc : BitVec 2) (source : Nat) (outs : List Nat) (m : Mortar) : Prop :=
  m.waiting = [] ∧
  (∀ o, outs.getLast? = some o → m.used = tset zeroOf s.mortar.used (creditKey o cls tc source)
    (tget zeroOf s.mortar.used (creditKey o cls tc source) + 1)) ∧
  ∀ x, if x ∈ outs then ∃ b, tget arbDefault m.arbs x = { arbDefault x with bucket := b } else tget arbDefault m.arbs x = arbOf s x

theorem landed_mortar (load : Load) (s : State) : (landed load s).mortar = s.mortar := by cases load <;> rfl

/-- A message of at most four units that meets a free path of two hops reaches its end at once (R350 to R358). -/
theorem carry_free (s : State) (cls : MClass) (tc : BitVec 2) (source o x units : Nat) (load : Load)
    (hf : freePath s cls tc source [o, x]) (hx : x ≠ o) (h1 : 1 ≤ units) (h4 : units ≤ 4) :
    ∃ m, carry cls tc source [o, x] units load s = landed load { s with mortar := m } ∧ passedBy s cls tc source [o, x] m := by
  obtain ⟨hw, ha, hc⟩ := hf
  let p : Packet := ⟨cls, tc, source, none, [o, x], units, false, load⟩
  let s1 := modMortar (fun m => { m with waiting := m.waiting ++ [p] }) s
  have hw1 : s1.mortar.waiting = [p] := by simp [s1, hw]
  have ha1 : arbOf s1 o = { arbDefault o with bucket := (arbOf s o).bucket } := ha o (by simp)
  obtain ⟨a, h⟩ := pumpMortar_alone 3 s1 p o _ [x] hw1 rfl (by simp [hasCredit, p, hw1]) ha1 rfl h1 h4
  rw [grantAt_onward o x [] p a s1 hw1 rfl] at h
  let q : Packet := { p with from_ := some o, outs := [x], aged := false }
  let s2 := modMortar (fun m => { m with
      waiting := [q], arbs := tset arbDefault m.arbs o { arbDefault 0 with bucket := a.bucket } }) s1
  have hc2 : hasCredit s2 q = true := decide_eq_true (hc x (by simp))
  have ha2 : arbOf s2 x = { arbDefault x with bucket := (arbOf s x).bucket } := by
    have : arbOf s2 x = arbOf s x := by simp [arbOf, s2, s1, modMortar, hx]
    rw [this]; exact ha x (by simp)
  obtain ⟨a2, h2⟩ := pumpMortar_alone 2 s2 q x _ [] rfl rfl hc2 ha2 rfl h1 h4
  rw [grantAt_end x q a2 s2 rfl rfl] at h2
  rw [pumpMortar_idle 2 _ (by rw [landed_mortar]; rfl)] at h2
  have hn : carry cls tc source [o, x] units load s = pumpMortar 4 s1 := by
    show pumpMortar (2 * s1.mortar.waiting.length + 2) s1 = _
    rw [hw1]; rfl
  refine ⟨{ waiting := [], arbs := _, used := _ }, (hn.trans h).trans h2, rfl, ?_, ?_⟩
  · intro y hy
    obtain rfl : x = y := by simpa using hy
    rfl
  · intro y
    by_cases hy : y = x
    · subst hy; simp [arbDefault]
    · by_cases hz : y = o
      · subst hz; simp [hy, arbDefault, modMortar, s2]
      · simp [hy, hz, arbOf, modMortar, s2, s1]

theorem unitsOf_bounds (n : Nat) (h : n ≤ 256) : 1 ≤ unitsOf n ∧ unitsOf n ≤ 4 := by
  unfold unitsOf; omega

theorem outSlice_ne_upOut (n source : Nat) : outSlice n ≠ upOut source := by
  unfold upOut outSlice outCourse outBridge
  split
  · omega
  · split
    · simp only [Bool.and_eq_true, decide_eq_true_eq] at *; omega
    · omega

/-- A request or a write-back that meets a free path leaves the block's agents at once (R365). -/
theorem carryUp_free (s : State) (cls : MClass) (tc : BitVec 2) (source pa bytes : Nat) (msg : Msg)
    (hf : freePath s cls tc source [upOut source, outSlice (sliceOf s pa)]) (hb : bytes ≤ 256) :
    ∃ m, carryUp cls tc source pa bytes msg s = send msg { s with mortar := m } ∧
      passedBy s cls tc source [upOut source, outSlice (sliceOf s pa)] m :=
  carry_free s cls tc source _ _ _ (.msg msg) hf
    (outSlice_ne_upOut _ _)
    (unitsOf_bounds bytes hb).1 (unitsOf_bounds bytes hb).2

/-- A probe that meets a free path reaches its agent at once (R366). -/
theorem carryProbe_free (s : State) (tc : BitVec 2) (agent line : Nat) (msg : Msg)
    (hf : freePath s .probe tc (1024 + sliceOf s (line * 64))
      [if agent < 192 then outDown (agent / 16) else outBridgeDown, outAgent agent]) :
    ∃ m, carryProbe tc agent line msg s = send msg { s with mortar := m } ∧
      passedBy s .probe tc (1024 + sliceOf s (line * 64))
        [if agent < 192 then outDown (agent / 16) else outBridgeDown, outAgent agent] m :=
  carry_free s .probe tc _ _ _ 1 (.msg msg) hf (by unfold outAgent outDown outBridgeDown; split <;> omega) (by omega) (by omega)

end Sys2Proof.Machine
end

