-- ==== Sys2Proof/Laws/Ops.lean ====
section
/-! SUPPORT. What the shared operations can do: a command of a unit, an instruction of a core, a register write, a trap. -/
namespace Sys2Proof.Machine

/-! ## Commands -/

/-- Every command has a next state: the block has no fault and no refusal. -/
theorem exec_next (i : Instr) (s : State) : ∃ t, exec i s = .next t := by
  cases i
  case resetRelease u tests => cases u <;> exact ⟨_, rfl⟩
  all_goals exact ⟨_, rfl⟩

/-- Every step has a next state. -/
theorem step_next (s : State) : ∃ t, step s = .next t := by
  unfold step
  split
  · exact ⟨_, rfl⟩
  · exact exec_next _ _

@[simp] theorem onUnit_true (s t : State) : onUnit true s t = .next t := rfl
@[simp] theorem onUnit_false (s t : State) : onUnit false s t = .next s := rfl

/-- A register command: its effect where the agent may write the register, and none otherwise. -/
theorem regCommand_eq (a : RegAgent) (off : Nat) (present : Bool) (f : State → State) (s : State) :
    regCommand a off present f s = .next (if agentPresent a && present && mayWrite a off then f s else s) := by
  unfold regCommand onUnit
  cases agentPresent a <;> cases present <;> cases mayWrite a off <;> rfl

/-! ## Instructions of a core -/

/-- An instruction of a core that can execute one, has no late fault to take and meets no trigger has its effect. -/
theorem runAt_runs (a : Site) (s : State) (f : State → State) (hc : hasCore s a.core = true) (hr : coreReady s a.core = true)
    (hp : (coreOf s a.core).prog = false) (hl : (coreOf s a.core).late = [])
    (ht : triggerHit (coreOf s a.core) a.mode 2 a.pc = none) : runAt a s f = .next (f (atSite a s)) := by
  simp [runAt, atInstruction, progHolds, hc, hr, hp, hl, ht]

/-- An instruction of a core that cannot execute one has no effect. -/
theorem runAt_waits (a : Site) (s : State) (f : State → State) (hr : coreReady s a.core = false) : runAt a s f = .next s := by
  simp [runAt, hr]

/-- A late fault of a store comes before the instruction (R343). -/
theorem runAt_late (a : Site) (s : State) (f : State → State) (addr : Word64) (rest : List Word64)
    (hc : hasCore s a.core = true)
    (hr : coreReady s a.core = true) (hp : (coreOf s a.core).prog = false) (hl : (coreOf s a.core).late = addr :: rest) :
    runAt a s f = .next (exception a causeStoreAccess addr (modCore a.core (fun c => { c with late := c.late.drop 1 }) s)) := by
  simp [runAt, atInstruction, progHolds, hc, hr, hp, hl]

/-- A trap while the program buffer runs ends it and reports an exception to the debugger. -/
theorem takeTrap_prog (n : Nat) (i : Bool) (cause : Nat) (tval : Word64) (s : State) (h : (coreOf s n).prog = true) :
    takeTrap n i cause tval s =
      modCore n (fun c => { c with prog := false, wait := none }) { s with dbg := { s.dbg with cmderr := 3 } } := by
  simp [takeTrap, h]

/-- What a core is after it has retired an instruction. -/
theorem coreOf_retire (a : Site) (s : State) :
    coreOf (retire a s) a.core = stepHalt { coreOf s a.core with
      pc := a.pc + insnLen a.bits, mode := a.mode
      csr := { (coreOf s a.core).csr with instret := (coreOf s a.core).csr.instret + 1 } } := by
  simp [retire]

/-- What a core is after an instruction has started to wait. -/
theorem coreOf_startWait (a : Site) (w : CoreWait) (s : State) :
    coreOf (startWait a w s) a.core = { coreOf s a.core with
      pc := a.pc, mode := a.mode, npc := a.pc + insnLen a.bits, wait := some w } := by
  simp [startWait]

/-- What a core is after its waiting instruction has retired. -/
theorem coreOf_endWait (n : Nat) (f : Core → Core) (s : State) :
    coreOf (endWait n f s) n =
      let c := f { coreOf s n with wait := none }
      stepHalt { c with pc := c.npc, csr := { c.csr with instret := c.csr.instret + 1 } } := by
  simp [endWait]

/-- Registers after a write of one: register 0 stays zero. -/
theorem x_setX (r q : BitVec 5) (v : Word64) (c : Core) :
    tget zeroOf (setX r v c).x q.toNat = if q = r ∧ r ≠ 0 then v else tget zeroOf c.x q.toNat := by
  by_cases h0 : r = 0
  · simp [setX, h0]
  · have hs : setX r v c = { c with x := tset zeroOf c.x r.toNat v } := if_neg h0
    by_cases hq : q = r
    · subst hq; rw [hs, if_pos ⟨rfl, h0⟩]; simp
    · have : q.toNat ≠ r.toNat := fun h => hq (BitVec.eq_of_toNat_eq h)
      rw [hs, if_neg fun h => hq h.1]; simp [this]

end Sys2Proof.Machine
end

