-- ==== Sys2Proof/WellFormed.lean ====
section
/-! DEFINITION. Well-formed commands: the lengths and alignments that the operands of a command have on its wires. The
machine is total on every command; these checks say which operands a sender can produce. -/
namespace Sys2Proof

/-- A 64-byte line address (R349). -/
def lineAddr (pa : Nat) : Bool := pa % 64 == 0

/-- A line of data: 64 bytes. -/
def lineData (d : List Byte) : Bool := d.length == 64

/-- Data of an answer that may carry a line or nothing. -/
def optLine (d : List Byte) : Bool := d.length == 64 || d.length == 0

/-- A write that reaches a home: enables for every byte, at most 256 bytes inside one Grout line (R285). -/
def HomeOp.wf (o : HomeOp) : Bool :=
  o.en.length == o.data.length && decide (o.pa % 256 + o.data.length ≤ 256)

/-- An atomic that reaches a home: 1 to 256 bytes, as `LEN` of R285 can name, with an operand of that size. Sizes and alignments that an
operation does not take are the home's to refuse (R409). -/
def Atomic.wf (a : Atomic) : Bool := decide (1 ≤ a.size) && decide (a.size ≤ 256) && a.operand.length == a.size

/-- An access size of a set-up register (R319). -/
def regSize (n : Nat) : Bool := n == 1 || n == 2 || n == 4 || n == 8

/-- The operands of a command fit its wires. -/
def Instr.wf : Instr → Bool
  | .dirtyEv _ pa l _ => lineAddr pa && lineData l.data
  | .shareRd _ pa _ => lineAddr pa
  | .ownRd _ pa _ => lineAddr pa
  | .forwardedData _ pa _ l _ => lineAddr pa && lineData l.data
  | .probeAnswer _ pa _ _ d _ => lineAddr pa && optLine d
  | .jegonSnprsp _ pa _ _ d _ => lineAddr pa && optLine d
  | .hostCacheResponse l _ d _ => lineAddr l.pa && optLine d
  | .memWr _ hpa l en _ => lineAddr hpa && lineData l.data && en.length == 64
  | .doorbellRereadDone l d _ => lineAddr l.pa && lineData d
  | .pushWr o => o.wf
  | .gopAdd a => a.wf
  | .gopAnd a => a.wf
  | .gopOr a => a.wf
  | .gopXor a => a.wf
  | .smin a => a.wf
  | .smax a => a.wf
  | .umin a => a.wf
  | .umax a => a.wf
  | .swap a => a.wf
  | .cas a => a.wf
  | .fadd32 a => a.wf
  | .fadd64 a => a.wf
  | .fmax a => a.wf
  | .xadd a => a.wf
  | .bxor a => a.wf
  | .registerWrite _ off n _ => regSize n && off % n == 0
  | .registerRead _ off n => regSize n && off % n == 0
  | _ => true

end Sys2Proof
end

