-- ==== Sys2Proof/Tests/Slice0.lean ====
section
/-! SUPPORT. Small tests: ill-formed commands are refused, commands of every family do what the spec's examples and tables say, and for
every statement with hypotheses a concrete state and operands meet them. -/
namespace Sys2Proof.Tests
open Sys2Proof Sys2Proof.Machine
set_option Elab.async false

/-! ## States for the tests -/

/-- A small machine that has been brought up: the Kiln has released the Lintel, the Plinth and Course 0 run, the chip number is valid, and
the stacks hold 16 GiB. -/
def up : State :=
  { State.reset with
    regs := [(offPartCtl, 0x60000000), (offChip, 0x80010000)]
    kiln := { State.reset.kiln with released := true }
    courses := [(0, { courseDefault 0 with state := 2, live := true, inReset := false })]
    mem := { State.reset.mem with topMib := 16384 }
    link := { State.reset.link with hostAbsent := false, up := true, cacheOn := true, memOn := true, ats := true, pasid := true, pri := true }
    clk := { State.reset.clk with inCold := false, pgCourse := true, pgPlinth := true, plinthOut := true, coursesOut := true } }

/-- The same with a core as given. -/
def withCore (n : Nat) (f : Core → Core) (s : State) : State := modCore n f s
def withTile (n : Nat) (f : Tile → Tile) (s : State) : State := modTile n f s

/-- An instruction of Trowel 0, of control core 0 and of the Kiln. -/
def at0 : Site := ⟨0, 0x1000, .m, 0x00000073⟩
def at192 : Site := ⟨192, 0x1000, .m, 0x00000073⟩
def at200 : Site := ⟨200, 0x1000, .m, 0x00000073⟩

/-- An instruction of the tile extension of Trowel 0 with its fields (R208). -/
def ext (f7 r2 f3 rd : Nat) : Site := ⟨0, 0x1000, .m, custom0 f7 r2 0 f3 rd⟩

/-- Control core 0 out of its hold. -/
def upCore : State := modCore 192 (fun c => { c with held := false }) up

/-- What a command leaves; the state itself where it stops. -/
def run (c : Instr) (s : State) : State :=
  match exec c s with
  | .next t => t
  | _ => s

/-- A command completes. -/
def completes (c : Instr) (s : State) : Bool :=
  match exec c s with
  | .next _ => true
  | _ => false

/-- A command of a Tile, as it stands in the queue. -/
def cmdAt (seq : Nat) (h : Word64) : Cmd :=
  { seq := seq, hdr := h, opw := 0, descs := [], deps := [], ctx := 0, started := false, startNo := 0, stage := .ready, todo := [],
    fetched := [], fbad := [], writes := [], bad := [], flags := 0, reason := none }

/-! ## Tile extension and cores -/

theorem test_hyp_step : up.pending = [] ∧ ({ up with pending := [.idcode] } : State).pending = .idcode :: [] := by decide +kernel
theorem test_step_runs : step { up with pending := [.idcode, .coldReset] } = exec .idcode { up with pending := [.coldReset] } := rfl
theorem test_hyp_canonical : up.memWf = true := by decide +kernel

theorem test_trowel_runs : trowelRuns at0 up := ⟨by decide +kernel, by unfold canRun; decide +kernel⟩
theorem test_core_runs : canRun at192 upCore := ⟨by decide +kernel, by decide +kernel, by decide +kernel, by decide +kernel, by decide +kernel⟩
/-- TCMD x10, x11, x12 and TCNT_WR c7, x11 as R208 encodes them, and the other encodings of the tests. -/
theorem test_encodings : tileForm 0x00C5950B = some (.tcmd 10) ∧ tileForm 0x0275B00B = some (.tcntWr 7) ∧
    tileForm 0x0005F50B = none ∧ tileForm 0x0000750B = some (.terr 10) ∧ tileForm 0x00000073 = none := by decide +kernel
theorem test_hyp_encodes : encodes (ext 0 0 0 15) (.tdld (15 : BitVec 5).toNat) ∧ encodes (ext 0 0 1 10) (.tcmd (10 : BitVec 5).toNat) ∧
    encodes (ext 0 7 2 5) (.twait (5 : BitVec 5).toNat (7 : BitVec 5).toNat) ∧ encodes (ext 0 7 3 5) (.tcntRd 5 7) ∧
    encodes (ext 1 7 3 0) (.tcntWr 7) ∧ encodes (ext 0 0 4 0) .ttok ∧ encodes (ext 0 0 5 5) (.tflags 5) ∧
    encodes (ext 0 0 6 5) (.tbar 5) ∧ encodes (ext 0 0 7 10) (.terr 10) := by unfold encodes; decide +kernel
theorem test_trowel_ext : trowelRuns (ext 0 0 7 10) up := ⟨by decide +kernel, by unfold canRun; decide +kernel⟩

/-- TERR with an entry in the log (R214). -/
theorem test_hyp_terr : (tileOf up 0).errLog = [] ∧ (tileOf (withTile 0 (fun t => { t with errLog := [⟨5, 1, 7⟩] }) up) 0).errLog = [⟨5, 1, 7⟩] := by
  decide +kernel
theorem test_terr : getX (coreOf (run (.terr (ext 0 0 7 10) 10) (withTile 0 (fun t => { t with errLog := [⟨5, 1, 7⟩], errOvf := true }) up)) 0) 10 =
    0xC005010000000007 := by decide +kernel

/-- A counter that has reached its target, one that has not, and one with its error flag (R213). -/
theorem test_hyp_twait : ((0 : Word64).toNat % 2 ^ 63 ≤ (tget zeroOf (tileOf up 0).counters 7 : Word64).toNat % 2 ^ 63) ∧
    ¬ ((1 : Word64).toNat % 2 ^ 63 ≤ (tget zeroOf (tileOf up 0).counters 7 : Word64).toNat % 2 ^ 63) := by decide +kernel
theorem test_twait_waits : (coreOf (run (.twait (ext 0 7 2 5) 5 7 1) up) 0).wait = some (.twait 5 7 1) := by decide +kernel
theorem test_tcntWr : tget zeroOf (tileOf (run (.tcntWr (ext 1 7 3 0) 7 9) up) 0).counters 7 = (9 : Word64) := by decide +kernel
theorem test_tflags : (tileOf (run (.tflags (ext 0 0 5 5) 5 1) (withTile 0 (fun t => { t with flags := 0x43 }) up)) 0).flags = 0x42 := by decide +kernel

/-- A command of the tile mover that signals token 2. -/
def moverCmd : Cmd := cmdAt 4 0x0181000000140000
theorem test_hyp_ttok : hSigEn moverCmd.hdr = false ∧ hUnit moverCmd.hdr = uMover ∧ hSigEn 0x0141000002940000 = true ∧
    hSig 0x0141000002940000 = 2 := by decide +kernel
theorem test_hyp_tbar : moverCmd ∈ (tileOf (withTile 0 (fun t => { t with queue := [moverCmd] }) up) 0).queue := by decide +kernel

/-- The example of R205: the header's fields. -/
theorem test_r205 : hVersion 0x0141000002940000 = 1 ∧ hUnit 0x0141000002940000 = 1 ∧ hOp 0x0141000002940000 = 4 ∧
    hWait 0x0141000002940000 = 2 ∧ hSigEn 0x0141000002940000 = true ∧ hSig 0x0141000002940000 = 2 ∧
    hCntEn 0x0141000002940000 = true ∧ hCnt 0x0141000002940000 = 0 := by decide +kernel

/-! ## Commands of a Tile -/

/-- A vector of n binary32 elements at a place of the tile store (R222). -/
def vec32 (base n : Nat) : List Byte :=
  leBytes 8 (1 + 2 ^ 8 + (16 + fmtB32) * 2 ^ 16 + 16 * 2 ^ 24) ++ leBytes 8 base ++ leBytes 16 0 ++ leBytes 8 (n + 2 ^ 32) ++ leBytes 24 0
theorem test_vec32 : (vec32 64 4).length = 64 ∧ descFault (vec32 64 4) = none := by decide +kernel
theorem test_desc_version : descFault (2 :: (vec32 64 4).drop 1) = some 1 := by decide +kernel

/-- A context of queue 1. -/
def ctxA : Ctx :=
  { state := .active
    queue := 1
    pasid := 5
    security := 0
    ttsbase := 0
    ntwin := []
    lossVec := 0
    hostDep := false
    fences := []
    pages := 0
    counters := []
    destroyer := none
    lossDone := false
    flagged := false }

/-- Tile 0 with four vectors in td0 to td3, bound to context 1. -/
def upTile : State := modTile 0 (fun t => { t with
  td := [(0, ⟨vec32 0 2, true⟩), (1, ⟨vec32 64 2, true⟩), (2, ⟨vec32 128 2, true⟩), (3, ⟨vec32 192 2, true⟩)], bound := some 1 })
  { up with ctxs := [(1, ctxA)] }

def hdrFma : Word64 := 0x0141000002940000
def opwFma : Word64 := 0x3001200000000000

/-- The command of R205 is taken; a bad version is refused; a full queue makes it wait (R187). -/
theorem test_hyp_tcmd : (checkCommand (tileOf upTile 0) hdrFma opwFma).isOk = true ∧
    (match checkCommand (tileOf upTile 0) (hdrFma + 2 ^ 56) opwFma with | .error r => r | _ => 0) = 1 ∧
    (tileOf (modTile 0 (fun t => { t with queue := List.replicate 64 moverCmd }) upTile) 0).queue.length = 64 := by decide +kernel
theorem test_tcmd : ((tileOf (run (.tcmd (ext 0 0 1 10) 10 hdrFma opwFma) upTile) 0).queue.map fun c => (c.seq, c.descs.length)) = [(0, 4)] := by
  decide +kernel
/-- Each check of R207 in turn. -/
theorem test_hyp_checks : hVersion 0 ≠ 1 ∧ (hVersion (3 * 2 ^ 54 + 2 ^ 56) = 1 ∧ hUnit (3 * 2 ^ 54 + 2 ^ 56) = 3) ∧
    slotUse (hdrFma + 0xF0 * 2 ^ 46) opwFma = none ∧ (slotUse hdrFma opwFma).isSome = true ∧ fieldOf (hdrFma + 1) 12 0 ≠ 0 ∧
    (tget (fun _ => (⟨[], false⟩ : DescReg)) (tileOf up 0).td (slotReg opwFma 0)).valid = false := by decide +kernel

/-- TDLD at a misaligned address, of a valid descriptor, of one with a bad version, and at the last register (R215, R216). -/
def upDesc : State :=
  modTile 0 (fun t => { t with store := writeBytes (writeBytes [] 0 (vec32 64 4)) 64 (2 :: (vec32 64 4).drop 1) })
    (modCore 0 (fun c => { c with csr := { c.csr with ttsbase := 0x4000000000 } }) up)
theorem test_hyp_tdld : untriggered (ext 0 0 0 15) 0x4000000000 upDesc ∧ (0x4000000001 : Word64).toNat % 64 ≠ 0 ∧
    (coreTarget 0 .m 0x4000000000 64 permR (bufData 0) (atSite at0 upDesc)).1 = .pa (tileBase + 0) ∧
    (loadBytes upDesc 0 tileBase 64).toOption = some (vec32 64 4, false) ∧ descFault (vec32 64 4) = none ∧
    descFault (2 :: (vec32 64 4).drop 1) = some 1 := by
  refine ⟨⟨by decide +kernel, by decide +kernel⟩, ?_⟩; decide +kernel
theorem test_tdld : (tget (fun _ => (⟨[], false⟩ : DescReg)) (tileOf (run (.tdld (ext 0 0 0 15) 15 0x4000000000) upDesc) 0).td 15) = ⟨vec32 64 4, true⟩ := by
  decide +kernel
theorem test_tdld_bad : (coreOf (run (.tdld (ext 0 0 0 15) 15 0x4000000040) upDesc) 0).csr.mcause = 24 ∧
    (coreOf (run (.tdld (ext 0 0 0 15) 15 0x4000000040) upDesc) 0).csr.mtval = 0xF01 := by decide +kernel

/-- The extension on a control core, with other bits on a Trowel, and field values out of range. -/
theorem test_hyp_illegal : canRun at192 upCore ∧ isTrowel 192 = false ∧ trowelRuns at0 up ∧ ¬ encodes at0 .ttok ∧
    tileForm (custom0 0 8 0 2 5) = none ∧ tileForm (custom0 0 0 0 0 16) = none ∧ tileForm (custom0 2 0 0 3 0) = none :=
  ⟨test_core_runs, by decide +kernel, test_trowel_runs, by unfold encodes; decide +kernel, by decide +kernel, by decide +kernel, by decide +kernel⟩

/-! ## Loads and stores of cores -/

/-- Device memory at 0x1000 holds eight bytes; control core 0 holds their line in E. -/
def upLine (st : LState) : State := modCore 192 (fun c => { c with
  lines := [(0x40, ⟨st, [1, 2, 3, 4, 5, 6, 7, 0x88] ++ zeroBytes 56, false⟩)] }) upCore

/-- A load of x and f registers and a fetch that find their bytes, one that meets poison, one that misses (R307, R369). -/
theorem test_hyp_load : untriggered at192 0x1000 (upLine .e) ∧ destOk 192 (.x 5) .b8 = true ∧ destOk 192 (.f 5) .b8 = true ∧
    destOk 192 .fetch .b4 = true ∧
    (coreTarget 192 .m 0x1000 8 (loadNeed (.x 5)) (loadBuffer 192 (.x 5)) (atSite at192 (upLine .e))).1 = .pa 0x1000 ∧
    (coreTarget 192 .m 0x1000 4 (loadNeed .fetch) (loadBuffer 192 .fetch) (atSite at192 (upLine .e))).1 = .pa 0x1000 ∧
    placeOf (upLine .e) 0x1000 = .dev 0x1000 ∧ isHost 0x1000 = false ∧ fetched (coreOf (upLine .e) 192) 0x1000 4 = false ∧
    (loadBytes (upLine .e) 192 0x1000 8).toOption = some ([1, 2, 3, 4, 5, 6, 7, 0x88], false) ∧
    (loadBytes (modCore 192 (fun c => { c with lines := [(0x40, ⟨.e, zeroBytes 64, true⟩)] }) upCore) 192 0x1000 8).toOption =
      some (zeroBytes 8, true) ∧
    (loadBytes upCore 192 0x1000 8).toOption = none ∧ tfind (coreOf upCore 192).fills 0x40 = none ∧ flushing upCore 192 0x10 = false := by
  refine ⟨⟨?_, ?_⟩, ?_⟩ <;> decide +kernel
theorem test_load_signed : getX (coreOf (run (.coreLoad at192 .listed (.x 5) .b8 true 0x1000) (upLine .e)) 192) 5 = 0x8807060504030201 := by
  decide +kernel
/-- The first identifier of the bridge's path. -/
def idB : OpId := ⟨pathBridge, 1, 0, 0⟩
theorem test_load_miss : (run (.coreLoad at192 .listed (.x 5) .b8 true 0x1000) upCore).sent = [.ask 192 0x1000 false 0 idB] := by decide +kernel
theorem test_hyp_asks : asksFreely upCore 192 0x40 idB :=
  ⟨⟨by decide +kernel, by decide +kernel, by intro o h; simp at h; subst h; decide +kernel⟩, _, rfl⟩

/-- Stores: normal, non-temporal, to a tile store and to a set-up register (R307, R319, R328). -/
def upNt : State := modCore 192 (fun c => { c with csr := { c.csr with ntwin := [(0, 12)] } }) upCore
theorem test_hyp_store :
    (coreTarget 192 .m 0x1000 8 permW (bufData 192) (atSite at192 upNt)).1 = .pa 0x1000 ∧ (placeOf upNt 0x1000).cacheable = true ∧
    isNtAddr upCore 192 0x1000 = false ∧ isNtAddr upNt 192 0xFF8 = true ∧
    (coreTarget 192 .m 0xFF8 8 permW (bufData 192) (atSite at192 upNt)).1 = .pa 0xFF8 ∧
    (coreOf upNt 192).ntBufs = [] ∧ (courseOf upDesc (0 / 16)).state ≠ 3 ∧
    placeOf upDesc tileBase = .tile 0 0 ∧ (coreTarget 0 .m 0x4000000000 8 permW (bufData 0) (atSite at0 upDesc)).1 = .pa tileBase ∧
    (tileOf upDesc 0).queue = [] ∧
    (coreTarget 192 .m 0xF000100008 4 permW (bufData 192) (atSite at192 upCore)).1 = .pa 0xF000100008 ∧
    placeOf upCore 0xF000100008 = .setup 0x100008 := by decide +kernel
theorem test_hyp_order : flushesInOrder (coreOf upNt 192) ∧ notGating upNt 192 ∧ notGating upDesc 0 :=
  ⟨⟨by decide +kernel, by decide +kernel⟩, by intro h; revert h; decide +kernel, fun _ => by decide +kernel⟩
theorem test_store_forwards : (loadByte (run (.coreStore at192 .listed .b8 0x1000 0x1122334455667788) (upLine .e)) 192 0x1007).toOption =
    some (0x11, false) := by decide +kernel
theorem test_store_register : reg (run (.coreStore at192 .listed .b4 0xF000100008 0x99) upCore) offTick = 0x99 := by decide +kernel

theorem test_hyp_traps : destOk 192 (.x 5) .b8 = true ∧ (0x1001 : Word64).toNat % widthBytes .b8 ≠ 0 ∧ (0x1004 : Word64).toNat % 8 ≠ 0 ∧
    inTileWindow upDesc 0 0x4000000000 = true ∧ untriggered at0 0x4000000000 upDesc :=
  ⟨by decide +kernel, by decide +kernel, by decide +kernel, by decide +kernel, ⟨by decide +kernel, by decide +kernel⟩⟩
theorem test_misaligned : (coreOf (run (.coreLoad at192 .listed (.x 5) .b8 false 0x1001) upCore) 192).csr.mcause = 4 ∧
    (coreOf (run (.coreStore at192 .listed .b8 0x1001 0) upCore) 192).csr.mcause = 6 := by decide +kernel

/-- LR, a failing and a passing SC, and an AMO (R310, R320, R321). -/
def upResv : State := modCore 192 (fun c => { c with resv := some 0x40 }) (upLine .e)
theorem test_hyp_lrsc : untriggered at192 0x1000 upResv ∧ inTileWindow upResv 192 0x1000 = false ∧ ntHolds (coreOf upResv 192) 0x1000 8 = false ∧
    (coreTarget 192 .m 0x1000 8 permR (bufData 192) (atSite at192 upResv)).1 = .pa 0x1000 ∧
    (coreTarget 192 .m 0x1000 8 permRW (bufData 192) (atSite at192 upResv)).1 = .pa 0x1000 ∧
    (loadBytes upResv 192 0x1000 8).isOk = true ∧ (coreOf (upLine .e) 192).resv ≠ some 0x40 ∧ (coreOf upResv 192).resv = some (0x1000 / 64) ∧
    (tfind (coreOf upResv 192).lines 0x40).isSome = true ∧ (coreOf upResv 192).storeBuf = [] ∧ (coreOf upResv 192).deferred = [] := by
  refine ⟨⟨?_, ?_⟩, ?_⟩ <;> decide +kernel
theorem test_sc : getX (coreOf (run (.sc at192 5 true 0x1000 7) upResv) 192) 5 = 0 ∧
    getX (coreOf (run (.sc at192 5 true 0x1000 7) (upLine .e)) 192) 5 = 1 := by decide +kernel
theorem test_hyp_amo : (opRoute upCore (newOp (.core 192) .coreAmo none .fetching (gopOfAmo .add) false 0 0x1000 8 (leBytes 8 7) [] 0)).isOk =
    true ∧ flushing upCore 192 (0x1000 / 256) = false := by decide +kernel
/-- The same for a Trowel, bound to a context, whose address hits in the shared buffer. -/
def upBound : State := { upTile with
  xlat := { upTile.xlat with buffers := [(bufShared, [⟨5, 4096, 0x7000, 0x2000, ⟨true, true, true⟩, false⟩])] }
  regs := [(offPartCtl, 0x60000000), (offChip, 0x80010000), (offWindow, 0)] }
theorem test_hyp_amo_trowel : (tileOf upBound 0).bound = some 1 ∧
    (match (translate (waiterOf (.core 0) .coreAmo 1 0x7008 permRW (bufData 0)) (atSite at0 upBound)).1 with
     | .hit _ => true | _ => false) = true := by decide +kernel

/-- FENCE with no predecessor store, with one that is done, and with one that waits. -/
def upStores : State := modCore 192 (fun c => { c with storeBuf := [⟨0x1000, 0x1000, [1]⟩] }) upCore
theorem test_hyp_fence : (0 : BitVec 4).getLsbD 0 = false ∧ (15 : BitVec 4).getLsbD 0 = true ∧ storesDone upCore 192 = true ∧
    (coreOf upCore 192).ntBufs = [] ∧ (coreOf upStores 192).storeBuf = [⟨0x1000, 0x1000, [1]⟩] ∧
    storeReady upStores 192 ⟨0x1000, 0x1000, [1]⟩ = false := by decide +kernel
theorem test_fence_waits : (coreOf (run (.fence at192 15 15) upStores) 192).wait = some (.fence 15 15) := by decide +kernel
theorem test_hyp_csr : isTrowel 0 = true ∧ isControlCore 192 = true ∧ at0.mode = .m ∧ ({ at0 with mode := .u } : Site).mode = .u := by decide
theorem test_csr_window : (tget zeroOf (coreOf (run (.customCsrAccess at192 0x7C7 5 (some (.rw 0xFFFFFFFFFFFFFFFF))) upCore) 192).csr.ntwin 3 :
    Word64) = 0xFFFFFFFFFFFFF03F := by decide +kernel

/-- Interrupts that are pending and enabled. -/
def upIrq : State := modCore 192 (fun c => { c with csr := { c.csr with meip := true, meie := true, mtie := true, mie := true } }) upCore
theorem test_hyp_irq : hasCore upIrq 192 = true ∧ interruptible upIrq 192 = true ∧ (coreOf upIrq 192).csr.mie = true ∧
    (coreOf upIrq 192).csr.meip = true ∧ (coreOf upIrq 192).csr.meie = true ∧ (coreOf upIrq 192).csr.mtie = true ∧
    hasCore up 0 = true ∧ interruptible up 0 = true := by decide +kernel
theorem test_irq : (coreOf (run (.externalInterrupt at192) upIrq) 192).csr.mcause = 0x800000000000000B := by decide +kernel

def upBuf : State := modCore 192 (fun c => { c with ntBufs := [⟨0x10, 0x1000, [(0x1000, 9)], 0⟩] }) upCore
theorem test_hyp_buffers : ((coreOf upBuf 192).ntBufs.find? fun b => b.line = 0x10).isSome = true ∧
    (coreOf (modCore 192 (fun c => { c with deferral := true, deferred := [(.take, 0x40, .agent 0 idB 1)] }) upCore) 192).deferred =
      [(.take, 0x40, .agent 0 idB 1)] ∧ isHost (2 ^ 56 + 0x1000) = true := by decide +kernel
theorem test_flush : (run (.ntBufferIdleFlush 192 0x10) upBuf).ops.map (fun o => (o.pa, o.into)) = [(0x1000, [0x1000])] := by decide +kernel

/-! ## Commands start and complete, sums, homes -/

/-- Tile 0 with 1.0, 2.0 in td0, 3.0, 0.5 in td1, and 10.0, -1.0 in td2; the command of R205 waits in its queue. -/
def upFma : State :=
  let st := writeBytes (writeBytes (writeBytes [] 0 (leBytes 8 0x400000003F800000)) 64 (leBytes 8 0x3F00000040400000)) 128
    (leBytes 8 0xBF80000041200000)
  run (.tcmd (ext 0 0 1 10) 10 hdrFma opwFma) (modTile 0 (fun t => { t with store := st }) upTile)
def cmdFma : Cmd := ((tileOf upFma 0).queue).headD moverCmd
theorem test_hyp_start : mayStart 0 cmdFma upFma ∧ hUnit cmdFma.hdr = 1 ∧ hOp cmdFma.hdr = 4 ∧ shapeWords cmdFma = [] ∧
    startReason cmdFma = none := by
  unfold mayStart; decide +kernel
/-- 1 * 3 + 10 = 13 and 2 * 0.5 - 1 = 0. -/
theorem test_fma : readBytes (tileOf (run (.commandComplete 0 0) (run (.fma 0 0) upFma)) 0).store 192 8 = leBytes 8 0x0000000041500000 := by
  decide +kernel
/-- COPY of td0 to td3. -/
def upCopy : State := run (.tcmd (ext 0 0 1 10) 10 0x0180400000000000 0x3000000000000000) upFma
def cmdCopy : Cmd := ((tileOf upCopy 0).queue.drop 1).headD moverCmd
theorem test_hyp_mover : mayStart 0 cmdCopy upCopy ∧ hUnit cmdCopy.hdr = 2 ∧ hOp cmdCopy.hdr = 1 ∧ shapeWords cmdCopy = [] ∧
    startReason cmdCopy = none ∧ (slotD (cmdTensors cmdCopy) sD0).space = 1 ∧ (slotD (cmdTensors cmdCopy) sS0).space = 1 ∧
    (moverWrites (tileOf upCopy 0) cmdCopy (cmdTensors cmdCopy) (movesOf (tileOf upCopy 0) cmdCopy (cmdTensors cmdCopy)).1).2.2 = false := by
  unfold mayStart; decide +kernel
theorem test_copy : readBytes (tileOf (run (.commandComplete 0 1) (run (.copy 0 1) upCopy)) 0).store 192 8 = leBytes 8 0x400000003F800000 := by
  decide +kernel
def upReady : State := run (.fma 0 0) upFma
theorem test_hyp_complete : hasTile upReady 0 = true ∧ courseRuns upReady 0 = true ∧ (coreOf upReady 0).wait = none ∧
    ((tileOf upReady 0).queue.map fun c => (c.seq, c.started, c.stage, c.reason)) = [(0, true, .ready, none)] ∧
    cmdOps upReady 0 0 = [] ∧ (tileOf upReady 0).errLog.length < 8 := by decide +kernel

theorem test_hyp_codes : fmtB32 ∈ [fmtFB16, fmtB16, fmtB32, fmtB64] ∧ 0xFFFFFFFF < 2 ^ fmtWidth fmtB32 ∧
    (decodeFloat fmtB32 0x7F800000).isNan = false ∧ (8 ≠ 2 ^ (fmtWidth fmtFB6 - 1)) := by decide
/-- compareSignalingLess of 1.0 and 2.0 writes 1.0 (R141); the class of the largest subnormal is 7 (R142). -/
theorem test_cmp : (vecCode fnCMP fmtB32 0 0 2 [fmtB32, fmtB32] [0x3F800000, 0x40000000]).1 = 0x3F800000 := by decide +kernel
theorem test_class : (vecCode fnCLASS fmtB32 0 0 0 [fmtB32] [0x007FFFFF]).1 = 0x40E00000 := by decide +kernel
theorem test_hyp_record : -(2 ^ 639) ≤ Acc.zero.a ∧ Acc.zero.a < 2 ^ 639 ∧ Acc.zero.count < 2 ^ 41 ∧ (zeroBytes 96).length = 96 ∧
    (zeroBytes 96).getD 0 0 ≠ 1 := by decide +kernel
theorem test_hyp_terms : (FVal.nan false true 0).isSig = true ∧ ((FVal.nan false false 0).isSig || (FVal.inf false).isSig) = false ∧
    ((FVal.inf true).isInf && (FVal.fin false 0 0).isZero) = true ∧ (FVal.fin false 1 0).isZero = false ∧ (FVal.fin true 1 0).isFin = true := by
  decide

/-- A line of device memory rests in the Grout, with the bytes 0 to 63. -/
def sectorA (p : Bool) : Sector := ⟨true, false, p, .i, (List.range 64).map fun i => BitVec.ofNat 8 i⟩
def upGrout (p : Bool) : State :=
  { up with home := { up.home with grout := [(0x10, ⟨sliceOf up 0x1000, 0, 0, 0, false, [(0, sectorA p)], none⟩)] } }
theorem test_stands (p : Bool) : standsInGrout (upGrout p) 0x40 := by
  cases p <;> exact ⟨by decide +kernel, by decide +kernel, by decide +kernel, ⟨by decide +kernel, by decide +kernel, by decide +kernel⟩,
    by decide +kernel, _, rfl, by decide +kernel⟩
theorem test_rests (l : Nat) (h : l = 0x40) : restsInGrout (upGrout false) l := by
  subst h; exact ⟨test_stands false, sectorA false, by decide +kernel, rfl⟩
theorem test_quiet : quietHomes (upGrout false) := ⟨⟨rfl, rfl, rfl, rfl⟩, rfl, rfl, rfl, rfl⟩
theorem test_hyp_homes : hasAgent (upGrout false) 192 = true ∧ filterRoom (upGrout false) 0x40 = .ready := ⟨rfl, rfl⟩
/-- OWN_RD of a line that another agent holds; DIRTY_EV of an owner and of a stranger (R365). -/
def upOwned : State := { upGrout false with home := { (upGrout false).home with filter := [(0x40, ⟨0, .excl, 193, 0, 0⟩)] } }
theorem test_hyp_owned : filterOf upOwned 0x40 = some ⟨0, .excl, 193, 0, 0⟩ ∧ cacheable upOwned 0x1000 = true ∧
    isHost 0x1000 = false ∧ ownerOf upOwned 0x40 = some 193 ∧ (groutOf upOwned 0x1000).isSome = true ∧
    ownerOf upOwned 0x40 ≠ some 192 ∧ tfind upOwned.home.hdm 0x40 = none := by decide +kernel
theorem test_hyp_probe_path : freePath upOwned .probe 0 (1024 + sliceOf upOwned 0x1000) [outBridgeDown, outAgent 193] ∧
    checkedLine upOwned 0x40 ∧ quietHomes upOwned :=
  ⟨⟨rfl, by decide +kernel, by intro o h; simp at h; subst h; decide +kernel⟩, ⟨by decide +kernel, by decide +kernel, by decide +kernel⟩,
    ⟨rfl, rfl, rfl, rfl⟩, rfl, rfl, rfl, rfl⟩
theorem test_shareRd : (run (.shareRd 192 0x1000 ⟨0, idB⟩) (upGrout false)).sent =
    [.data 192 0x1000 false (sectorA false).data false 0 idB, .completion 192 0x1000 .e false 0 idB] := by decide +kernel
theorem test_dirtyEv : (run (.dirtyEv 193 0x1000 ⟨(zeroBytes 64), false⟩ ⟨0, idB⟩) upOwned).sent = [.wbAck 193 0x1000 0 idB] := by decide +kernel
/-- A write-back of a stranger is acknowledged and reported (R365). -/
theorem test_dirtyEv_stranger : ((run (.dirtyEv 192 0x1000 ⟨(zeroBytes 64), false⟩ ⟨0, idB⟩) upOwned).flt.units.map fun e => e.first.source) = [0x10] := by
  decide +kernel

/-- Atomics at a home: taken, misaligned, poisoned operand, poisoned sector (R406, R409, R410). -/
def idA : OpId := ⟨pathBridge, 1, 0, 0⟩
def envA : Envelope := ⟨false, 0, 1, 1, 0⟩
def atomicA (pa : Nat) (p : Bool) : Atomic :=
  { src := .core 192, id := idA, env := envA, pa := pa, size := 8, operand := leBytes 8 5, comparand := [], fetching := true,
    poison := if p then 1 else 0 }
theorem test_hyp_atomics : placeOf (upGrout false) 0x1008 = .dev 0x1008 ∧ atomicRefused 0x01 (atomicA 0x1008 false) = false ∧
    atomicRefused 0x01 (atomicA 0x1004 false) = true ∧ atomicLines (atomicA 0x1008 false) = [0x40] ∧
    (gopBytes 0x01 (heldBytes (upGrout false) 0x1008 8) (leBytes 8 5) []).isSome = true ∧
    (atomicA 0x1008 true).poison ≠ 0 ∧ heldPoison (upGrout true) (0x40 * 64) = true := by decide +kernel
theorem test_gopAdd : heldBytes (run (.gopAdd (atomicA 0x1008 false)) (upGrout false)) 0x1008 8 = [13, 9, 10, 11, 12, 13, 14, 15] := by
  decide +kernel
theorem test_atomic_poison : heldPoison (run (.gopAdd (atomicA 0x1008 true)) (upGrout false)) 0x1008 = true := by decide +kernel
theorem test_hyp_values : (8 : Nat) ∈ [4, 8, 16] ∧ 2 ^ 63 < 2 ^ (8 * 8) ∧ 2 ^ 63 ≤ gopValue 0x20 8 (2 ^ 63) 0 0 := by decide +kernel
theorem test_smin : gopValue 0x05 4 0xFFFFFFFF 1 0 = 0xFFFFFFFF := by decide +kernel

/-- An AMO of control core 0 over a path, under way. -/
def opA (path pa : Nat) : RemoteOp :=
  { id := ⟨path, 0, 3, 0⟩
    src := .core 192
    owner := .coreAmo
    ctx := none
    kind := .fetching
    gop := 1
    ord := false
    tc := 0
    pa := pa
    addr := pa
    len := 8
    data := leBytes 8 1
    comparand := []
    poison := 0
    into := []
    sent := true
    held := false
    moved := false
    port := none
    noSnoop := false
    invals := [] }
def upAmo (path pa : Nat) : State := modCore 192 (fun c => { c with wait := some (.amo 5 .add true pa 0x1000 1 (some ⟨path, 0, 3, 0⟩)) })
  { upCore with ops := [opA path pa], idents := [(identKey path 0 3, ⟨0, true, false⟩)] }
theorem test_nothing_waits : nothingWaits (upAmo pathHost (2 ^ 56 + 0x1000)) := by unfold nothingWaits allSent; decide +kernel
theorem test_hyp_amo_ends : (upAmo pathBond (2 ^ 57)).ops = [opA pathBond (2 ^ 57)] ∧ idCurrent (upAmo pathBond (2 ^ 57)) ⟨pathBond, 0, 3, 0⟩ = true ∧
    (coreOf (upAmo pathBond (2 ^ 57)) 192).wait = some (.amo 5 .add true (2 ^ 57) 0x1000 1 (some ⟨pathBond, 0, 3, 0⟩)) ∧
    isHost (2 ^ 56 + 0x1000) = true ∧ (⟨pathHost, 0, 3, 0⟩ : OpId).unit = 0 ∧
    idCurrent (upAmo pathBond (2 ^ 57)) ⟨pathBond, 0, 3, 1⟩ = false ∧ (leBytes 8 7).length = 8 := by decide +kernel
theorem test_amo_ends : getX (coreOf (run (.remoteResponse ⟨⟨pathBond, 0, 3, 0⟩, .ok, leBytes 8 7, 0⟩) (upAmo pathBond (2 ^ 57))) 192) 5 = 7 ∧
    (coreOf (run (.remoteTimeout ⟨pathBond, 0, 3, 0⟩) (upAmo pathBond (2 ^ 57))) 192).csr.mcause = 7 := by decide +kernel
/-- A message of TC1 that waits for a credit of slice 0, and one of TC2 that has a credit; none has one in the first state (R351, R360). -/
def packetA (tc : BitVec 2) : Packet := ⟨.ask, tc, 192, none, [outSlice 0], 1, false, .req 0 (.prefetch tc)⟩
def upAge : State := { up with mortar := { up.mortar with
  waiting := [packetA 1], used := [(creditKey (outSlice 0) .ask 1 192, creditLimit .ask)] } }
def upPick : State := { up with mortar := { up.mortar with waiting := [packetA 1, packetA 0, { packetA 2 with aged := true }] } }
theorem test_hyp_age : upAge.mortar.waiting[0]? = some (packetA 1) ∧ (∀ q ∈ upAge.mortar.waiting, hasCredit upAge q = false) ∧
    hasCredit upAge { packetA 1 with aged := true } = false ∧ (packetA 1).tc ≠ 0 ∧ (packetA 0).tc = 0 := by decide +kernel
theorem test_hyp_pick : (∃ p ∈ upPick.mortar.waiting.filter (fun p => p.outs.head? == some (outSlice 0) && hasCredit upPick p),
      arbClass (arbOf upPick (outSlice 0)) p = 0) ∧
    (let s := { upPick with mortar := { upPick.mortar with waiting := [packetA 1, { packetA 2 with aged := true }] } }
     let ready := s.mortar.waiting.filter fun p => p.outs.head? == some (outSlice 0) && hasCredit s p
     (∀ p ∈ ready, arbClass (arbOf s (outSlice 0)) p ≠ 0) ∧ (ready.find? fun p => p.aged).isSome = true) := by decide +kernel
theorem test_pick : (pickAt upPick (outSlice 0)).map (fun x => x.1) = some (packetA 0) := by decide +kernel
theorem test_hyp_quarantine : (identOf { up with idents := [(identKey 4 0 3, ⟨5, false, true⟩)] } 4 0 3).quarantined = true := by decide +kernel

/-- A line in each state, one being written back, none, and a deferred probe (R323, R366). -/
theorem test_hyp_probes : tfind (coreOf (upLine .m) 192).lines (0x1000 / 64) = some ⟨.m, [1, 2, 3, 4, 5, 6, 7, 0x88] ++ zeroBytes 56, false⟩ ∧
    (coreOf (upLine .m) 192).deferral = false ∧ tfind (coreOf (upLine .m) 192).wb 0x40 = none ∧ tfind (coreOf upCore 192).lines 0x40 = none ∧
    (tfind (coreOf (modCore 192 (fun c => { c with wb := [(0x40, ⟨zeroBytes 64, false, some idB⟩)] }) upCore) 192).wb 0x40).isSome = true ∧
    (coreOf (modCore 192 (fun c => { c with deferral := true }) upResv) 192).resv = some 0x40 := by decide +kernel
theorem test_prbShare : (run (.prbShare 192 0x1000 (.home 1)) (upLine .m)).sent =
    [.answer 192 0x1000 .toHome true ([1, 2, 3, 4, 5, 6, 7, 0x88] ++ zeroBytes 56) false 1] := by decide +kernel

/-- A transaction that awaits two answers; one that has been answered. -/
def txnA : Txn := { newTxn (.own 192 0 idB) with probing := [193, 194] }
def upTxn (t : Txn) : State := { up with home := { up.home with txns := [(0x40, t)] } }
theorem test_hyp_answers : hasAgent up 193 = true ∧ (193 : Nat) ≠ 194 ∧ (upTxn txnA).home.txns = [(0x1000 / 64, txnA)] ∧
    txnA.probing = [193, 194] ∧ txnA.evicting = [] ∧ txnA.came = [] ∧ requesterOf { txnA with granted := true }.req = some 192 := by
  decide +kernel
def fillA (g : Option LState) (d : Option (List Byte × Bool × Bool)) : Fill := ⟨false, 0, some idB, g, d⟩
def upFill (f : Fill) : State := modCore 192 (fun c => { c with fills := [(0x40, f)] }) { upCore with idents := [(identKey 2 1 0, ⟨0, true, false⟩)] }
def gotA : Option (List Byte × Bool × Bool) := some (zeroBytes 64, false, false)
theorem test_hyp_fills : tfind (coreOf (upFill (fillA (some .e) none)) 192).fills 0x40 = some (fillA (some .e) none) ∧
    tfind (coreOf (upFill (fillA none gotA)) 192).fills 0x40 = some (fillA none gotA) ∧ idCurrent (upFill (fillA none none)) idB = true ∧
    (coreOf (upFill (fillA none none)) 192).lines.length < l1Lines 192 ∧ (coreOf (upFill (fillA none none)) 192).ntHeld = [] ∧
    tfind (coreOf (upFill (fillA none none)) 192).lines 0x40 = none ∧ (coreOf (upFill (fillA none none)) 192).wait = none := by decide +kernel
theorem test_hyp_fill_quiet : nothingWaits (upFill (fillA none gotA)) ∧ notGating (upFill (fillA none gotA)) 192 := by
  unfold nothingWaits allSent notGating; decide +kernel
theorem test_fill_ends : (run (.requestCompletion 192 0x1000 ⟨.e, false, idB⟩) (upFill (fillA none gotA))).sent = [.ack 192 0x1000 0] := by
  decide +kernel
/-- A write-back under its identifier. -/
def upWb : State := modCore 192 (fun c => { c with wb := [(0x40, ⟨zeroBytes 64, false, some idB⟩)] })
  { upCore with idents := [(identKey 2 1 0, ⟨0, true, false⟩)] }
theorem test_hyp_wb : idCurrent upWb idB = true ∧ tfind (coreOf upWb 192).wb 0x40 = some ⟨zeroBytes 64, false, some idB⟩ ∧
    tfind (coreOf (run (.writebackAck 192 ⟨idB, 0x1000⟩) upWb) 192).wb 0x40 = none := by decide +kernel

/-! ## Host, Grout and stacks -/

/-- A host line at 2^50 that nothing holds, that is watched, that the Grout holds dirty, and whose fill awaits the host (R379, R486). -/
def hpaA : Nat := 2 ^ 50
def lineA : Nat := (2 ^ 56 + 2 ^ 50) / 64
def upWatch (w : Watch) : State := { up with watches := [(hpaA / 64, w)] }
def upHostDirty : State :=
  { up with home := { up.home with grout := [(lineA / 4, ⟨sliceOf up (lineA * 64), 0, 0, 0, false, [(0, ⟨true, true, false, .e, zeroBytes 64⟩)], none⟩)] } }
def idH : OpId := ⟨pathHost, 0, 0, 0⟩
def watchS : Watch := ⟨true, none, false, [], false⟩
def watchR : Watch := ⟨false, some idH, false, [], false⟩
theorem test_hyp_snoops : hpaA < 2 ^ 56 ∧ hostKey hpaA / 64 = lineA ∧ homeHolds up lineA = false ∧ watchOf up (hpaA / 64) = none ∧
    watchOf (upWatch watchS) (hpaA / 64) = some watchS ∧ homeHolds (upWatch watchS) lineA = false ∧
    rereads (upWatch watchS) < 64 ∧ up.link.hostAbsent = false ∧ up.link.rereadQ = [] ∧ (takeId pathHost 0 (upWatch watchS)).map (fun x => x.1) = some idH ∧
    watchOf (upWatch watchR) (hpaA / 64) = some watchR ∧ watchR.rereading.isSome = true ∧ filterOf upHostDirty lineA = none ∧
    sectorOf upHostDirty (lineA * 64) = some ⟨true, true, false, .e, zeroBytes 64⟩ ∧ txnOf up lineA = none := by decide +kernel
theorem test_hyp_snoop_home : quietHomes upHostDirty ∧ checkedLine upHostDirty lineA :=
  ⟨⟨⟨rfl, rfl, rfl, rfl⟩, rfl, rfl, rfl, rfl⟩, by decide +kernel, by decide +kernel, by decide +kernel⟩
def upHostFill : State := { up with
  home := { up.home with
    grout := [(lineA / 4, ⟨sliceOf up (lineA * 64), 0, 0, 0, false, [], none⟩)]
    txns := [(lineA, { newTxn (.share 192 0 idB) with hostWait := some idH })] }
  idents := [(identKey pathHost 0 0, ⟨0, true, false⟩)] }
theorem test_hyp_hostFill : upHostFill.home.txns = [(lineA, { newTxn (.share 192 0 idB) with hostWait := some idH })] ∧
    (groutOf upHostFill (lineA * 64)).isSome = true ∧ sectorOf upHostFill (lineA * 64) = none ∧ (zeroBytes 64).length = 64 ∧
    idCurrent upHostFill idH = true ∧ upHostFill.sec.held = [] ∧ idCurrent up idH = false := by decide +kernel
theorem test_fill_waits : nothingWaits upHostFill := by unfold nothingWaits allSent; decide +kernel
theorem test_hostFill : ((run (.hostCacheResponse ⟨idH, hpaA⟩ .e (zeroBytes 64) false) upHostFill).sent.map fun m => match m with
    | .completion n _ g _ _ _ => some (n, g)
    | _ => none) = [none, some (192, .e)] := by decide +kernel
theorem test_snoop : (run (.hostSnpInv hpaA) (upWatch watchS)).sent = [.reread hpaA 0 idH, .snoopRsp hpaA .i none false] := by
  decide +kernel

/-- Requests of the host to device memory (R271, R380, R381). -/
def upDenied : State := { upGrout false with kiln := { up.kiln with access := [(0, 0x8000)] } }
def idBi : OpId := ⟨pathHost, 1, 0, 0⟩
def txnBi : Txn := { newTxn (.own 192 0 idB) with biWait := some idBi, probing := [193] }
def opPeek : HomeOp := { src := .core 192, id := idA, env := envA, pa := 0x1000, data := [], en := [], poison := 0 }
def upBi (t : Txn) : State :=
  { upGrout false with
    home := { (upGrout false).home with txns := [(0x40, t)] }
    idents := [(identKey pathHost 1 0, ⟨0, true, false⟩)] }
def upBiPeek : State := upBi { newTxn (.peek opPeek 8 false [] 0) with biWait := some idBi }
theorem test_hyp_bi : idCurrent (upBi txnBi) idBi = true ∧ (upBi txnBi).home.txns = [(0x1000 / 64, txnBi)] ∧ txnBi.probing = [193] ∧
    opPeek.pa / 64 = 0x1000 / 64 ∧ opPeek.pa % 64 + 8 ≤ 64 := by decide +kernel
theorem test_bi_waits : nothingWaits (upBi txnBi) ∧ nothingWaits upBiPeek := by unfold nothingWaits allSent; decide +kernel
theorem test_hyp_hostPath : hostPathFree (upGrout false) 0x40 :=
  ⟨rfl, by decide +kernel, by intro o h; simp at h; subst h; decide +kernel⟩
theorem test_hyp_hostMemory : hostMayReach up (hpaA) = false ∧ hostMayReach (upGrout false) 0x1000 = true ∧ hostOffset (upGrout false) 0x1000 = 0x1000 ∧
    admits upDenied .host 0x1000 = false ∧ admits (upGrout false) .host 0x1000 = true ∧ hostMayReach (upTxn txnBi) 0x1000 = true ∧
    txnOf (upTxn txnBi) 0x40 = some txnBi ∧ txnBi.biWait.isSome = true ∧
    (sectorOf upBiPeek 0x1000).isSome = true := by decide +kernel
theorem test_hyp_hdmRoom : hdmRoom (upGrout false) 0x40 = .ready := rfl
theorem test_memRd : (run (.memRd 5 0x1000 .inv) (upGrout false)).sent = [.memData 5 (sectorA false).data false] := by decide +kernel
theorem test_biTimeout : (run (.biTimeout 0x1000) upBiPeek).sent =
    [.response (.core 192) 0 ⟨idA, .poison, [0, 1, 2, 3, 4, 5, 6, 7], 1⟩] := by decide +kernel

/-- Prefetch, streams and maintenance (R398, R399, R404). -/
def upStream : State := { up with home := { up.home with streams := [⟨.core 0, false, 7, 3⟩] } }
theorem test_hyp_upkeep : placeOf up (0x10 * 256) = .dev (0x10 * 256) ∧ tget noHints up.home.hints (sliceOf up 0x1000) = [] ∧
    (groutOf (upGrout false) 0x1000).isSome = true ∧ (ctlOf up (sliceOf up 0x1000)).readQ = [] ∧
    upStream.home.streams = [] ++ ⟨.core 0, false, 7, 3⟩ :: [] ∧ windowAgent .host = false ∧ windowAgent (.core 0) = true ∧
    hasStack up 11 = true ∧ (maintOf up 0).status ≠ 1 := by decide +kernel
def upMaint : State := { upGrout false with home := { (upGrout false).home with
  grout := [(0x10, ⟨0, 0, 0, 0, false, [(0, ⟨true, true, false, .i, zeroBytes 64⟩)], none⟩)],
  maint := [(0, ⟨BitVec.ofNat 64 (2 ^ 56 + 2 ^ 48), 0, 0, 1, 0, false⟩)] } }
theorem test_hyp_maint : (maintOf upMaint 0).status = 1 ∧ (maintOf upMaint 0).walked = false ∧ (maintOf upMaint 0).cmd = BitVec.ofNat 64 (2 ^ 56 + 1 * 2 ^ 48) ∧
    isHost (0x10 * 256) = false ∧ groutBusy upMaint 0x10 = false ∧ (ctlOf upMaint 0).writeQ.length ≤ 124 := by decide +kernel
theorem test_maint : (maintOf (run (.maintenanceDone 0) upMaint) 0).count = 1 := by decide +kernel

/-- A stack read, a drain and a scrub (R420, R423, R427). -/
def sl : Nat := sliceOf up 0x1000
def idC : OpId := ⟨pathCtl, sl, 0, 0⟩
def upRead (s : State) : State := modCtl sl (fun c => { c with readQ := [(0x1000, 1, idC)] })
  { s with idents := [(identKey pathCtl sl 0, ⟨0, true, false⟩)] }
def upEmptyLine : State := { up with home := { up.home with grout := [(0x10, ⟨sl, 0, 0, 0, false, [], none⟩)] } }
def upDrain (k : Nat) : State := modCtl 0 (fun c => { c with
  writeQ := List.replicate k ⟨0x2000, zeroBytes 64, false⟩, draining := true, readQ := [(0x1000, 1, idC)] }) up
def upScrub : State := modCtl 0 (fun c => { c with neg := 5, live := 0xFFFFFFFF }) up
def upFillWait : State := upRead (upTxn { txnA with probing := [193], fillWait := true })
theorem test_hyp_stack : idCurrent (upRead upEmptyLine) idC = true ∧ (0x1000, (1 : BitVec 2), idC) ∈ (ctlOf (upRead upEmptyLine) sl).readQ ∧
    (ctlOf (upRead upEmptyLine) sl).shutdown = false ∧ queuedOf (upRead upEmptyLine) 0x1000 = none ∧
    (groutOf (upRead upEmptyLine) 0x1000).isSome = true ∧ sectorOf (upRead upEmptyLine) 0x1000 = none ∧
    upFillWait.home.txns = [(0x40, { txnA with probing := [193], fillWait := true })] ∧ txnA.supplied = none ∧
    (ctlOf (upDrain 1) 0).writeQ = [⟨0x2000, zeroBytes 64, false⟩] ∧ (ctlOf (upDrain 1) 0).draining = true ∧
    (0x1000, (1 : BitVec 2), idC) ∈ (ctlOf (upDrain 1) 0).readQ ∧
    (ctlOf (upDrain 119) 0).writeQ.length < 120 ∧ 120 ≤ (ctlOf (upDrain 120) 0).writeQ.length ∧
    bitOf (reg upScrub (offPln 0 + 0x20)) 31 = true ∧ (ctlOf upScrub 0).level = 0 ∧ (ctlOf upScrub 0).neg = 5 ∧ 0 < capMib upScrub 0 * 16384 ∧
    (takeId pathCtl 0 upScrub).isSome = true ∧ (ctlOf (modCtl 0 (fun c => { c with level := 1 }) up) 0).level ≠ 0 := by decide +kernel
theorem test_hyp_stack_queued : queuedOf (modCtl sl (fun c => { c with writeQ := [⟨0x1000, zeroBytes 64, true⟩] }) (upRead upEmptyLine)) 0x1000 =
    some ⟨0x1000, zeroBytes 64, true⟩ := by decide +kernel
theorem test_stack_quiet : homesIdle (upRead upEmptyLine) ∧ nothingWaits (upRead upEmptyLine) := by
  unfold homesIdle nothingWaits allSent; decide +kernel
theorem test_stackRead : (ctlOf (run (.stackReadDone ⟨idC, 0x1000⟩ (.corrected 1) ⟨0, 0, 0, 0, 0⟩) (upRead upEmptyLine)) sl).corrLog =
    [(0, ⟨0x1000, ⟨0, 0, 0, 0, 0⟩, 1, 1⟩)] := by decide +kernel

/-- Temperatures at each threshold of the reset values 0x55, 0x5F, 0x64, 0x69 (R429, R440). -/
theorem test_hyp_temperature : stackHot up 0 = false ∧ fieldOf (reg up (offPln 0 + 0x10)) 7 0 = 0x55 ∧
    fieldOf (reg up (offPln 0 + 0x10)) 31 24 = 0x69 ∧ (ctlOf up 0).level < 1 ∧
    (ctlOf (modCtl 0 (fun c => { c with level := 1 }) up) 0).level = 1 ∧ 0x52 + 3 ≤ 0x55 ∧ bitOf (ctlOf upScrub 0).live 31 = true ∧
    (ctlOf up 0).neg ≠ 5 ∧ agentPresent .kiln = true ∧ mayWrite .kiln (offPln 0 + 0x10) = true ∧
    fieldOf (0x04030201 : Word32) 7 0 < fieldOf (0x04030201 : Word32) 15 8 := by decide +kernel
theorem test_temp : (ctlOf (run (.stackTempSample 0 0x5F false) up) 0).level = 2 ∧ (ctlOf (run (.stackTempSample 0 0x5E false) up) 0).level = 1 ∧
    (ctlOf (run (.stackTempSample 0 0x69 false) up) 0).shutdown = true := by decide +kernel

/-- Stacks in each state of negotiation (R415 to R418). -/
def upNeg (k : BitVec 4) : State := modCtl 0 (fun c => { c with neg := k, live := 0xFFFFFFFF, repairBusy := true, ieeeBusy := true }) up
def infoA : StackInfo := { height := 1, density := 1, metadata := true, maxRate := 3, failing := [] }
theorem test_hyp_negotiation : (ctlOf up 0).neg = 0 ∧ (ctlOf (upNeg 1) 0).neg = 1 ∧ (ctlOf (upNeg 2) 0).neg = 2 ∧ (ctlOf (upNeg 3) 0).neg = 3 ∧
    mayWrite .kiln (offPln 0) = true ∧ mayWrite .kiln (offPln 0 + 0x200) = true ∧ mayWrite .kiln (offPln 0 + 0x1000) = true ∧
    infoA.metadata = true ∧ infoA.height ≠ 3 ∧ infoA.density ≠ 3 ∧ 3 ≤ fieldOf (reg up (offPln 0)) 26 24 ∧ 3 ≤ infoA.maxRate ∧
    channelCount (failingAt infoA (reg up (offPln 0 + 4)) 3) ≤ 4 ∧
    28 ≤ channelCount (~~~(reg up (offPln 0 + 4)) &&& ~~~(failingAt infoA (reg up (offPln 0 + 4)) 3)) ∧ up.home.inService = false ∧
    (ctlOf (upNeg 2) 0).repairBusy = true ∧ (ctlOf (modCtl 0 (fun c => { c with neg := 2 }) up) 0).repairBusy = false := by decide +kernel
/-- One stack of 12-high, 24 Gb dies with 32 channels is live, the others are mapped out. -/
def ctlsA : Table Ctl :=
  (0, { ctlDefault 0 with neg := 5, live := 0xFFFFFFFF }) :: (List.range 11).map (fun i => (i + 1, { ctlDefault 0 with neg := 6 }))
def upLiveStack : State := { up with ctls := ctlsA }
theorem test_hyp_top : (∀ m, m < 12 → (ctlOf upLiveStack m).neg = 5 ∨ (ctlOf upLiveStack m).neg = 6) ∧ up.build.stackCount = 12 ∧
    0 < (liveStacks upLiveStack).foldl (fun a m => a + capMib upLiveStack m) 0 := by decide +kernel

/-! ## Translation -/

def waiterA (buffer : Nat) : Waiter := waiterOf (.core 0) .coreAmo 1 0x7008 permR buffer
def reqA : XltReq := ⟨5, 7, true, false, false, true, [waiterA (bufData 0)]⟩
def upMiss : State := modCore 0 (fun c => { c with wait := some (.xlt 13 0x7008) })
  { upTile with xlat := { upTile.xlat with reqs := [reqA] } }
theorem test_hyp_translation : upMiss.xlat.reqs = [reqA] ∧ reqA.sent = true ∧ reqA.discard = false ∧ reqA.waiters = [waiterA (bufData 0)] ∧
    (coreOf upMiss 0).wait = some (.xlt 13 0x7008) ∧ (coreOf upMiss 0).ntBufs = [] ∧
    (∀ g ∈ entryGranules upMiss (entryFor 5 0x7000 0x2000 4096 permR), changing upMiss g = false) ∧ grants permR permR = true ∧
    entryAdmitted upMiss 1 (entryFor 5 0x7000 0x2000 4096 permR) = true ∧ entriesOf upMiss bufShared = [] ∧ bufData 0 < 1024 ∧
    grants permW permR = false ∧ upMiss.link.pri = true ∧ ctxActive upMiss 1 = true ∧ (waiterA (bufData 0)).tries < 3 := by decide +kernel
theorem test_xlt_failure : (coreOf (run (.translationCompletion 5 0x7000 .failure) upMiss) 0).csr.mcause = 13 := by decide +kernel
theorem test_hyp_ranges : 12 ≤ 34 ∧ 0x400000000 % 2 ^ 34 = 0 % 2 ^ 34 ∧ (0x123 : Nat) / 4096 = 0 / 4096 := by decide
def upPage : State := { upTile with xlat := { upTile.xlat with prgs := [(0, ⟨5, 7, permR, [waiterA (bufData 0)]⟩)] } }
theorem test_hyp_pages : upPage.xlat.prgs = [(0, ⟨5, 7, permR, [waiterA (bufData 0)]⟩)] ∧ xltEnabled upPage = true ∧
    ctxOf upPage 1 = some ctxA ∧ ctxA.state = .active := by decide +kernel
theorem test_page_fails : (ctxOf (run (.pageRequestTimeout 0) upPage) 1).map (fun c => c.state) = some .lost := by decide +kernel
def upInval : State := { up with xlat := { up.xlat with invals := [⟨9, [], []⟩] } }
theorem test_hyp_inval : 9 < ownTag ∧ (∃ i ∈ upInval.xlat.invals, i.tag = 9) ∧ (∀ i ∈ up.xlat.invals, i.tag ≠ 9) ∧
    (up.xlat.invals.filter fun i => decide (i.tag < ownTag)).length < 32 ∧ (∀ p ∈ up.cores, p.2.ntBufs = []) ∧
    (∃ o ∈ ({ upInval with ops := [{ opA pathHost 0 with invals := [9] }] } : State).ops, 9 ∈ o.invals) := by decide +kernel
theorem test_inval : (run (.invalidateCompletion 9) upInval).sent = [.invalidateDone 9] := by decide +kernel
theorem test_hyp_prefetch : quietHomes up ∧ (∀ l ∈ linesOfGrout 0x10, checkedLine up l) ∧
    ∀ n i, (identOf up pathCtl n i).busy = false ∧ (identOf up pathCtl n i).quarantined = false :=
  ⟨⟨⟨rfl, rfl, rfl, rfl⟩, rfl, rfl, rfl, rfl⟩, fun _ _ => ⟨rfl, rfl, rfl⟩, fun _ _ => ⟨rfl, rfl⟩⟩

/-! ## Jegon ports -/

/-- Jegon port 0 in several states, with context 1 active. -/
def upJeg (f : Jegon → Jegon) : State := modJegon 0 (fun j => f { j with en := true }) { up with ctxs := [(1, ctxA)] }
def jegMsg (t : Bool) (k : JegonKind) : JegonMsg := ⟨7, 1, t, 0x2000, 1, false, k⟩
def jegEntry : TlbEntry := ⟨5, 4096, 0x7000, 0x2000, permRW, false⟩
def upJegTlb : State := { upJeg id with xlat := { up.xlat with buffers := [(bufJegon 0, [jegEntry])] } }
theorem test_hyp_jegon : hasJegon up 0 = true ∧ enginesRun up = true ∧ (jegonOf up 0).reset = false ∧ (jegonOf up 0).en = false ∧
    (jegonOf up 0).quiesce = false ∧ (jegonOf (upJeg id) 0).en = true ∧ (7 : Nat) ∉ (jegonOf (upJeg id) 0).owed ∧
    (jegonOf (upJeg fun j => { j with refusing := true }) 0).refusing = true ∧ ctxActive (upJeg id) 1 = true ∧ ctxActive (upJeg id) 2 = false ∧
    (jegonOf (upJeg id) 0).barrier = none ∧ jegMsg true .shareRd ∉ (jegonOf (upJeg id) 0).heldMsgs ∧
    placeOf upJegTlb (sortHost upJegTlb 0x2000) = .dev (sortHost upJegTlb 0x2000) ∧
    (∃ e ∈ entriesOf upJegTlb (bufJegon 0), e.pasid = pasidOf upJegTlb 1 ∧ e.pbase ≤ 0x2000 ∧ 0x2000 < e.pbase + e.span ∧
      grants e.perm (jegPerm .ownRd) = true) ∧ grants jegEntry.perm (jegPerm (.writeBack [])) = true ∧
    upJegTlb.ops = [] ∧ upJegTlb.idents = [] ∧ entriesOf (upJeg id) (bufJegon 0) = [] ∧ entriesOf (upJeg id) bufShared = [] ∧
    xltEnabled (upJeg id) = true ∧ (upJeg id).xlat.reqs = [] ∧ (upJeg id).xlat.prgs = [] ∧ entriesOf upJegTlb (bufJegon 0) = [jegEntry] ∧
    covers jegEntry (pasidOf upJegTlb 1) 0x7008 = true := by decide +kernel
theorem test_jegonReq : (run (.jegonReq 0 (jegMsg true .ownRd)) upJegTlb).sent = [.ask 201 0x2000 true 1 idB] ∧
    (run (.jegonReq 0 (jegMsg true (.get 64))) (upJeg id)).sent.length = 1 := by decide +kernel
theorem test_hyp_jegBarrier : (jegonOf (upJeg id) 0).heldMsgs = [] ∧ (∀ o ∈ (upJeg id).ops, o.src ≠ .jegon 0) ∧
    (∃ o ∈ ({ upJeg id with ops := [{ opA pathBridge 0x2000 with src := .jegon 0 }] } : State).ops, o.src = .jegon 0) := by decide +kernel
theorem test_hyp_jegFault : (jegonOf (modJegon 0 (fun j => { j with reset := true }) up) 0).reset = true ∧ ctxOf (upJeg id) 1 = some ctxA ∧
    ctxA.state = .active := by decide +kernel
theorem test_jegFault : (ctxOf (run (.jegonFaultReport 0 3 2 (some 1) true) (upJeg id)) 1).map (fun c => c.state) = some .lost := by
  decide +kernel

/-- A snooped port that owns the line: an answer, and none in time (R25, R26). -/
def snoopA (f : ProbeFor) (j : Jegon) : Jegon := { j with snoops := [(0x40, .take, f)], engineAck := false }
def upSnooped : State :=
  let s := upJeg (snoopA (.agent 192 idB 1))
  { s with home := { s.home with filter := [(0x40, ⟨0, .excl, 201, 0, 0⟩)], txns := [(0x40, newTxn (.own 192 1 idB))] } }
def upOwner (f : Jegon → Jegon) : State :=
  let s := upJeg f
  { s with home := { s.home with
      filter := [(0x40, ⟨0, .excl, 201, 0, 0⟩)]
      grout := [(0x10, ⟨sliceOf up 0x1000, 0, 0, 0, false, [(0, sectorA false)], none⟩)] } }
theorem test_hyp_jegSnoop : (∀ x ∈ (jegonOf (upJeg id) 0).snoops, x.1 ≠ 0x1000 / 64) ∧
    (jegonOf upSnooped 0).snoops = (0x1000 / 64, .take, .agent 192 idB 1) :: [] ∧ (jegonOf upSnooped 0).engineAck = false ∧
    ownerOf upSnooped 0x40 = some 201 ∧ (txnOf upSnooped 0x40).isSome = true ∧ upSnooped.home.filter.length = 1 ∧
    (upOwner id).home.filter = [(0x40, ⟨0, .excl, 201, 0, 0⟩)] ∧ (upOwner id).home.txns = [] ∧ (jegonOf (upOwner id) 0).snoops = [] ∧
    sectorOf (upOwner id) (0x40 * 64) = some (sectorA false) ∧
    (∃ y ∈ (jegonOf (upOwner fun j => { j with leaving := [⟨5, 4096, 0, 0x2000, permR, false⟩] }) 0).leaving, y.vbase = 0) ∧
    0 ∈ (jegonOf (upOwner fun j => { j with ctxEnds := [0] }) 0).ctxEnds ∧ 0 ∉ (jegonOf (upOwner id) 0).ctxEnds := by decide +kernel
theorem test_snoopTimeout : (jegonOf (run (.jegonSnoopTimeout 0 0x1000) upSnooped) 0).refusing = true ∧
    (run (.jegonSnoopTimeout 0 0x1000) upSnooped).sent =
      [.data 192 0x1000 true (zeroBytes 64) true 1 idB, .answer 201 0x1000 .forwarded true [] true 1] := by decide +kernel
theorem test_hyp_jegControl : writer (.core 0) (offJegCtl 0) ∧ (jegonOf (upJeg fun j => { j with en := false, quiesce := true, engineAck := false }) 0).quiesce =
    true ∧ (jegonOf up 0).engineAck = true ∧ (jegonOf up 0).blockAck = true ∧ (jegonOf up 0).refusing = false := by
  unfold writer; decide +kernel
theorem test_jegDisable : (run (.jegEnableWrite (.core 0) 0 false) (upJeg id)).sent = [.jegCtl 0 .quiesce] := by decide +kernel

/-! ## Host link and doorbells -/

/-- A block that is host-absent with its link up and one vector pending (R515). -/
def vecA (p m h a : Bool) : Vec := ⟨0xFEE00000, 0x41, m, p, h, a⟩
def upAbsent : State := { up with link := { up.link with hostAbsent := true }, vecs := [(3, vecA true false false false)] }
theorem test_hyp_rearm : writer .host offRearm ∧ upAbsent.link.hostAbsent = true ∧ upAbsent.link.up = true ∧ hostQuiet upAbsent = true ∧
    upAbsent.vecs = [(3, vecA true false false false)] ∧ ¬ up.link.hostAbsent = true := by unfold writer; decide +kernel
theorem test_hyp_rearm_quiet : quietHomes upAbsent := ⟨⟨rfl, rfl, rfl, rfl⟩, rfl, rfl, rfl, rfl⟩
theorem test_rearm : (run (.rearm .host) upAbsent).sent = [.msix 3 0xFEE00000 0x41] ∧ (run (.rearm .host) upAbsent).link.epoch = 1 := by
  decide +kernel
/-- A context that depends on the host, and a line that the host holds (R382, R510). -/
def upDepends : State := { up with ctxs := [(1, { ctxA with hostDep := true })] }
def upHdmA : State := { upGrout false with home := { (upGrout false).home with hdm := [(0x40, .a)] } }
theorem test_hyp_absence : ctxOf upDepends 1 = some { ctxA with hostDep := true } ∧ up.link.hostAbsent = false ∧ upHdmA.ops = [] ∧
    upHdmA.xlat.reqs = [] ∧ upHdmA.xlat.prgs = [] ∧ upHdmA.xlat.faultQ = [] ∧ (∀ p ∈ upHdmA.ctxs, dependsOnHost upHdmA p.1 = false) ∧
    upHdmA.kiln.tdi ≠ .run ∧ upHdmA.home.hdm = [(0x40, .a)] ∧ isHost (0x40 * 64) = false ∧ sectorOf upHdmA (0x40 * 64) = some (sectorA false) ∧
    tfind (upGrout false).home.hdm (0x1000 / 64) = none ∧ sectorOf (upGrout false) 0x1000 = some (sectorA false) := by decide +kernel
theorem test_hyp_absence_quiet : quietHomes upHdmA ∧ rising upTile.ctxs ∧ (∀ p ∈ upTile.cores, p.2.wait = none ∧ p.2.ntBufs = []) ∧
    ctxOf { up with ctxs := [(1, { ctxA with queue := 0 })] } 1 = some { ctxA with queue := 0 } :=
  ⟨⟨⟨rfl, rfl, rfl, rfl⟩, rfl, rfl, rfl, rfl⟩, by unfold rising; decide +kernel, by decide +kernel, by decide +kernel⟩
theorem test_absence : (sectorOf (run .hostAbsentEntry upHdmA) 0x1000).map (fun c => (c.d, c.p)) = some (true, true) ∧
    (ctxOf (run .hostAbsentEntry upDepends) 1).map (fun c => c.state) = some .lost := by decide +kernel

/-- A ring of context 1 with an entry in front. -/
def ringA (kind : Nat) (oldest next tail : Nat) (started : List (Nat × List Byte)) : Ring :=
  ⟨1, kind, 2, 0x4000, 4, 0, 0, 0x8000, 0xC000, .run, tail, next, BitVec.ofNat 64 tail, oldest, [], started, [], none⟩
def entryA (kind op : Nat) (len src dst fmt : Nat) : List Byte :=
  leBytes 1 1 ++ leBytes 1 kind ++ leBytes 1 0x80 ++ leBytes 1 op ++ leBytes 4 0 ++ leBytes 8 len ++ leBytes 8 src ++ leBytes 8 dst ++
    leBytes 16 0 ++ leBytes 8 0x77 ++ leBytes 8 fmt
def upRing (r : Ring) (b : List Byte) : State :=
  { up with
    ctxs := [(1, ctxA)]
    rings := [(9, r)]
    mem := { up.mem with dev := writeBytes [] 0x4000 b } }

/-- A re-read returns, a device doorbell is rung, watched lines are polled (R486, R488, R491, R535). -/
def bellLine (n : Nat) : List Byte := leBytes 8 n ++ zeroBytes 56
def hostRing : Ring := { ringA 1 0 0 0 [] with doorbell := hostKey hpaA }
def upReread : State := { upRing hostRing [] with
  watches := [(hpaA / 64, watchR)]
  idents := [(identKey pathHost 0 0, ⟨0, true, false⟩)] }
def upBell (n : Nat) : State :=
  { upRing (ringA 1 0 0 0 []) [] with devWatch := [(0xC000 / 64, true)], mem := { up.mem with dev := writeBytes [] 0xC000 (bellLine n) } }
theorem test_hyp_reread : watchOf up (hpaA / 64) = none ∧ watchOf (upWatch watchS) (hpaA / 64) = some watchS ∧
    watchOf upReread (hpaA / 64) = some watchR ∧ idCurrent upReread idH = true ∧ (bellLine 3).length = 64 ∧ upReread.rings = [(9, hostRing)] ∧
    hostRing.doorbell / 64 = hostKey (hpaA / 64 * 64) / 64 ∧ upReread.admqs = [] ∧ upReread.link.rereadQ = [] ∧
    tailStep hostRing.tail (lineWord (bellLine 3) (hostRing.doorbell / 8 % 8)) ≤ 2 ^ hostRing.log2n - (hostRing.tail - hostRing.oldest) ∧
    (lineWord (bellLine 3) 0 : Word64) ≠ hostRing.passed ∧ 2 ^ hostRing.log2n - 0 < tailStep hostRing.tail (lineWord (bellLine 17) 0) ∧
    ctxOf upReread hostRing.ctx = some ctxA ∧ tget noB up.devWatch 0x300 = false ∧ tget noB (upBell 3).devWatch (0xC000 / 64) = true ∧
    readMem (upBell 3) (0xC000 / 64 * 64) 64 = (bellLine 3, false) ∧ (ringA 1 0 0 0 []).doorbell / 64 = 0xC000 / 64 := by decide +kernel
theorem test_doorbell : (ringOf (run (.deviceDoorbellRing 0xC000) (upBell 16)) 9).map (fun r => r.tail) = some 16 ∧
    (ctxOf (run (.deviceDoorbellRing 0xC000) (upBell 17)) 1).map (fun c => c.state) = some .lost := by decide +kernel
def upPoll : State := { upWatch watchS with regs := (offDbPoll, 5) :: up.regs }
theorem test_hyp_poll : fieldOf (reg up offDbPoll) 15 0 = 0 ∧ fieldOf (reg upPoll offDbPoll) 15 0 ≠ 0 ∧
    upPoll.watches = [(hpaA / 64, watchS)] ∧ (takeId pathHost 0 upPoll).isSome = true ∧ upPoll.link.rereadQ = [] ∧ upPoll.link.hostAbsent = false := by decide +kernel
/-- Vectors: held off with and without a further raise, pending behind a mask (R503). -/
def upVec (v : Vec) : State := { up with vecs := [(3, v)] }
theorem test_hyp_vectors : (vecOf up 3).holdoff = false ∧ vecOf (upVec (vecA false false true false)) 3 = vecA false false true false ∧
    vecOf (upVec (vecA false false true true)) 3 = vecA false false true true ∧ vecOf (upVec (vecA true true true false)) 3 = vecA true true true false ∧
    vecOf (upVec (vecA true true false false)) 3 = vecA true true false false := by decide +kernel
theorem test_unmask : (run (.msixVectorUnmask 3) (upVec (vecA true true false false))).sent = [.msix 3 0xFEE00000 0x41] := by decide +kernel

/-- Hod entries of each kind on physical addresses (R494, R497). -/
def upHod (b : List Byte) : State := upRing (ringA 1 0 0 1 []) b
theorem test_hodTurn (k : Nat) (b : List Byte) (h : (k, b) ∈ [(1, entryA 1 0 64 0x2000 0x3000 0), (2, entryA 2 0 64 5 0x3000 0),
    (3, entryA 3 1 8 0x2000 0x3000 0)]) : hodTurn 0 9 k (ringA 1 0 0 1 []) b (upHod b) := by
  simp only [List.mem_cons, Prod.mk.injEq, List.not_mem_nil, or_false] at h
  rcases h with ⟨rfl, rfl⟩ | ⟨rfl, rfl⟩ | ⟨rfl, rfl⟩ <;> (unfold hodTurn; decide +kernel)
theorem test_hyp_hod : firmPlace (upHod (entryA 1 0 64 0x2000 0x3000 0)) 0x2000 0x2000 ∧ touchesHost up 0x2000 64 = false ∧
    0x3000 % 256 + 64 ≤ 256 ∧ hodOpSize (entryField (entryA 3 1 8 0x2000 0x3000 0) 3 1) (entryField (entryA 3 1 8 0x2000 0x3000 0) 56 1) = some 8 ∧
    hasHod up 3 = true ∧ (ringA 1 0 0 1 []).engine ≠ 3 := by unfold firmPlace; decide +kernel
theorem test_hodFill : (run (.hodFill 0 9) (upHod (entryA 2 0 4 0x0403020100 0x3002 0))).sent =
    [.operation (.hod 0) .put 0 ⟨false, 0, 0, 0, 0⟩ 0x3002 4 [2, 3, 4, 0] [] 0 idB] := by decide +kernel
/-- A fill whose put has ended, and one that is under way (R498). -/
def hodRunA : HodRun := { runOfEntry 9 0 1 (entryA 2 0 64 5 0x3000 0) with issued := 64 }
def upHodEnd (ops : List RemoteOp) : State :=
  { upRing (ringA 1 0 1 1 [(0, entryA 2 0 64 5 0x3000 0)]) (entryA 2 0 64 5 0x3000 0) with hods := [(0, ⟨[hodRunA], 10⟩)], ops := ops }
theorem test_hyp_hodEnd : (hodOf (upHodEnd []) 0).started = [hodRunA] ∧ ctxActive (upHodEnd []) 1 = true ∧
    runEnded (upHodEnd []) 0 hodRunA = true ∧ hodRunA.status = 0 ∧ hodRunA.kind = 2 ∧ hodRunA.ring = 9 ∧ hodRunA.ctx = 1 ∧ hodRunA.seq = 0 ∧
    (entryA 2 0 64 5 0x3000 0).length = 64 ∧ entryField (entryA 2 0 64 5 0x3000 0) 32 8 = 0 ∧ fIntr (hFlags (entryA 2 0 64 5 0x3000 0)) = false ∧
    (0x8000 + 0 % 2 ^ 4 * 32) % 32 = 0 ∧
    runOps (upHodEnd [{ opA pathBridge 0x3000 with src := .hod 0, owner := .ring 9 0 }]) 0 9 0 = true := by decide +kernel
theorem test_hyp_plain : plainPlace (upHodEnd []) 0x8000 := by unfold plainPlace; decide +kernel
theorem test_hodComplete : (readMem (run (.hodComplete 0 9 0) (upHodEnd [])) 0x8000 20).1 =
    [1, 8, 0, 0, 0, 0, 0, 0, 0x77, 0, 0, 0, 0, 0, 0, 0, 9, 0, 1, 0] := by decide +kernel

/-! ### Paths and identifiers of the requests above -/

theorem test_hyp_jegPath : (takeId pathBridge 1 upJegTlb).map (fun x => x.1) = some idB ∧
    freePath upJegTlb .ask 1 (201 + 0) [upOut (201 + 0), outSlice (sliceOf upJegTlb 0x2000)] ∧
    freePath upJegTlb .evict 1 (201 + 0) [upOut (201 + 0), outSlice (sliceOf upJegTlb 0x2000)] :=
  ⟨by decide +kernel, ⟨rfl, by decide +kernel, by intro o h; simp at h; subst h; decide +kernel⟩,
    ⟨rfl, by decide +kernel, by intro o h; simp at h; subst h; decide +kernel⟩⟩
/-- A port whose barrier waits, one with a shared line, one that owes nothing. -/
theorem test_hyp_jegForms : (jegonOf (upJeg fun j => { j with barrier := some 9, owed := [9] }) 0).barrier.isSome = true ∧
    BitVec.ofNat 22 (2 ^ (14 + 0)) = (0x4000 : BitVec 22) ∧ (jegonOf (upJeg id) 0).xlts = [] ∧
    isOperation (JegonKind.get 4) = true ∧ isOperation .shareRd = false := by decide +kernel
theorem test_jegHeld : ((jegonOf (run (.jegonReq 0 (jegMsg true .ownRd)) (upJeg fun j => { j with barrier := some 9, owed := [9] })) 0).heldMsgs.map
    fun m => m.tag) = [7] := by decide +kernel
/-- An answer, a timeout and an acknowledgement complete in any state. -/
theorem test_jegCompletes : completes (.jegonSnprsp 0 0x1000 .clean false [] false) up && completes (.jegonInvalidateAck 0 0) up &&
    completes (.jegonXltTimeout 0 0) up && completes (.jegonQuiesceAck 0) up && completes (.jegReset (.core 0) 0) up = true := by decide +kernel
theorem test_hyp_hodSends : hodSends 0 (entryA 2 0 64 5 0x3000 0) 0x3000 (upHod (entryA 2 0 64 5 0x3000 0)) idB :=
  ⟨⟨rfl, by decide +kernel, by intro o h; simp at h; subst h; decide +kernel⟩, _, rfl⟩
theorem test_hyp_entryQuiet : entryQuiet (upHodEnd []) 9 0 := ⟨by decide +kernel, by decide +kernel, rfl⟩
theorem test_hyp_awaits : coreAwaits upMiss (waiterA (bufData 0)) 0 = some (13, 0x7008) ∧ (coreOf upMiss 0).prog = false := by decide +kernel
theorem test_absence_waits : nothingWaits upHdmA ∧ nothingWaits upReread := by unfold nothingWaits allSent; decide +kernel

/-! ## Admin queues, contexts, rings and fences -/

/-- Admin queue `q` with an entry in front. -/
def admA : AdmQ := { admqDefault 0 with
  en := true, log2n := 4, inboxLog2 := 4, entries := 0x10000, compl := 0x14000, doorbell := 0x1C000, inbox := 0x18000, tail := 1 }
def upAdm (q : Nat) (b : List Byte) (s : State) : State :=
  { s with admqs := [(q, admA)], mem := { s.mem with dev := writeBytes s.mem.dev 0x10000 b } }
/-- An entry: operation, context, ring or Tile, bytes 6 and 7, the words at 8, 16, 24 and 32. -/
def admE (op c n b6 b7 a b d e : Nat) : List Byte :=
  leBytes 1 1 ++ leBytes 1 op ++ leBytes 2 c ++ leBytes 2 n ++ leBytes 1 b6 ++ leBytes 1 b7 ++ leBytes 8 a ++ leBytes 8 b ++ leBytes 8 d ++
    leBytes 8 e ++ leBytes 8 0 ++ leBytes 8 0x55 ++ leBytes 8 0
def upCtx : State := { up with ctxs := [(1, ctxA)] }

/-- The record of queue 1 (R521). -/
def admRec (v : Nat) : List Byte :=
  leBytes 1 v ++ leBytes 1 7 ++ leBytes 1 4 ++ leBytes 1 4 ++ leBytes 4 0 ++ leBytes 8 0x10000 ++ leBytes 8 0x14000 ++ leBytes 8 0x1C000 ++
    leBytes 8 0x18000 ++ leBytes 24 0
def upAdmRec (v : Nat) : State :=
  { up with
    admqs := [(1, { admqDefault 1 with ptrLo := 0x2000 })]
    mem := { up.mem with dev := writeBytes [] 0x2000 (admRec v) } }
theorem test_hyp_admq : writer (.core 0) (0x400100 + 0x10 * 1) ∧ (admqOf (upAdmRec 1) 1).en = false ∧
    lintelRead (.enable 1) (lintelKey (upAdmRec 1) true 0x2000) 64 (upAdmRec 1) = (some (admRec 1, .ok), upAdmRec 1) ∧
    lintelRead (.enable 1) (some 0x1C000) 8 (upAdmRec 1) = (some (zeroBytes 8, .ok), upAdmRec 1) ∧ queueBad 1 (admRec 1) = false ∧ queueBad 1 (admRec 2) = true ∧
    lintelKey (upAdmRec 1) true (entryField (admRec 1) 24 8) = some 0x1C000 ∧ placeOf (upAdmRec 1) 0x1C000 = .dev 0x1C000 ∧
    (upAdmRec 1).devWatch.length < 1024 ∧ (admqOf (upAdm 1 [] up) 1).en = true := by unfold writer; decide +kernel
theorem test_admqEnable : (admqOf (run (.admqEnable (.core 0) 1) (upAdmRec 1)) 1).en = true ∧
    (admqOf (run (.admqEnable (.core 0) 1) (upAdmRec 2)) 1).bad = true := by decide +kernel
def upAdm1 (b : List Byte) : State := upAdm 1 b upCtx
theorem test_adminTurn (op : Nat) (h : op ∈ [1, 2, 3, 4, 5, 6, 7, 8, 9, 10, 11]) :
    adminOp 1 op (admE op 1 0 0 0 0 0 0 0) (upAdm1 (admE op 1 0 0 0 0 0 0 0)) := by
  simp only [List.mem_cons, List.not_mem_nil, or_false] at h
  rcases h with rfl | rfl | rfl | rfl | rfl | rfl | rfl | rfl | rfl | rfl | rfl <;> (unfold adminOp adminTurn plainPlace; decide +kernel)
theorem test_admin_bad : (readMem (run (.query 1) (upAdm1 (admE 11 1 0 0 0 0 0 0 0))) 0x14000 20).1 =
    [1, 8, 0x20, 0, 0, 0, 0, 0, 0x55, 0, 0, 0, 0, 0, 0, 0, 0xF1, 0xFF, 0xFF, 0xFF] := by decide +kernel

/-- CTX_CREATE with each of its outcomes (R525, R526, R649). -/
def ctxRec (c epoch pasid sec : Nat) : List Byte :=
  leBytes 1 1 ++ leBytes 1 5 ++ leBytes 2 c ++ leBytes 4 epoch ++ leBytes 4 pasid ++ leBytes 4 sec ++ leBytes 8 (2 ^ 21) ++ leBytes 32 0x1234 ++
    leBytes 2 0x8007 ++ leBytes 6 0
def upCreate (d : List Byte) : State :=
  let s := upAdm1 (admE 1 2 0 0 0 0x2000 0 0 0)
  { s with mem := { s.mem with dev := writeBytes s.mem.dev 0x2000 d } }
theorem test_hyp_create : adminOp 1 0x01 (admE 1 2 0 0 0 0x2000 0 0 0) (upCreate (ctxRec 2 0 6 0)) ∧
    lintelRead (.admin 1 1) (lintelKey (upCreate (ctxRec 2 0 6 0)) true 0x2000) 64 (upCreate (ctxRec 2 0 6 0)) =
      (some (ctxRec 2 0 6 0, .ok), upCreate (ctxRec 2 0 6 0)) ∧
    ctxBad 2 (ctxRec 2 0 6 0) = false ∧ ctxBad 2 (ctxRec 3 0 6 0) = true ∧ securityRefused (upCreate []) 1 6 0 = false ∧
    securityRefused (upCreate []) 1 6 0x400 = true :=
  ⟨by unfold adminOp adminTurn plainPlace; decide +kernel, by decide +kernel⟩
theorem test_ctxCreate : (ctxOf (run (.ctxCreate 1) (upCreate (ctxRec 2 0 6 0))) 2).map (fun c => (c.pasid, c.ntwin.headD 0, c.lossVec)) =
    some (6, 0x1234, 0x8007) ∧ ctxOf (run (.ctxCreate 1) (upCreate (ctxRec 2 1 6 0))) 2 = none := by decide +kernel
/-- CTX_DESTROY of a context in each state, and the ends of its destruction and loss (R527, R552). -/
def upCtxIn (st : CtxState) (f : Ctx → Ctx) : State := { up with ctxs := [(1, f { ctxA with state := st })] }
def upBusy (f : Ctx → Ctx) : State :=
  let s := upCtxIn .destroying (fun c => f { c with destroyer := some 1 })
  { s with admqs := [(1, { admA with busy := some (0, 0x55) })] }
def upLossEnd : State := upCtxIn .lost fun c => { c with fences := [0x2000] }
theorem test_hyp_destroy : mayName upCtx 1 1 ctxA ∧ (∀ c ∈ [CtxState.lost, .destroying], ctxOf (upCtxIn c id) 1 = some { ctxA with state := c }) ∧
    rising upTile.rings ∧ workEnded upLossEnd 1 = true ∧ workEnded { up with ops := [{ opA pathBridge 0x2000 with ctx := some 1 }] } 1 = false ∧
    (admqOf (upBusy id) 1).busy = some (0, 0x55) ∧ ringsOf (upBusy id) 1 = [] ∧ tilesOf (upBusy id) 1 = [] ∧ plainPlace (upBusy id) 0x14000 ∧
    plainPlace upLossEnd 0x2000 := by unfold mayName rising plainPlace; decide +kernel
theorem test_hyp_noCtx : ∀ x, ¬ mayName upCtx 1 2 x := by
  intro x h; exact absurd h.1 (by rw [show ctxOf upCtx 2 = none by decide +kernel]; exact nofun)
theorem test_ctxDestroyDone : ctxOf (run (.ctxDestroyDone 1) (upBusy id)) 1 = none ∧
    (readMem (run (.contextLossDone 1) upLossEnd) 0x2000 8).1 = [0, 0, 0, 0, 0, 0, 0, 0x80] := by decide +kernel

/-- Services to contexts at the edges of their operands (R551, R559, R561). -/
def upSvc (e : List Byte) (f : Ctx → Ctx) : State := upAdm 1 e { up with ctxs := [(1, f ctxA)] }
theorem test_hyp_services : lintelKey upCtx true (entryField (admE 6 1 0 0 0 0x2000 0 0 0) 8 8) = some 0x2000 ∧
    entryField (admE 6 1 0 0 0 0x2001 0 0 0) 8 8 % 128 ≠ 0 ∧ plainPlace (upSvc (admE 6 1 0 0 0 0x2000 0 0 0) id) (0x2000 + 64) ∧
    0x2000 + 128 ≤ 0x14000 ∧ (0 : Int) + signedOf 8 (entryField (admE 7 1 0 0 0 (2 ^ 64 - 1) 0 0 0) 8 8) < 0 ∧
    (0 : Int) + signedOf 8 (entryField (admE 7 1 0 0 0 (2 ^ 63 - 1) 0 0 0) 8 8) = (2 ^ 63 - 1 : Nat) ∧
    entryField (admE 8 1 0 0 0 0x2008 1 0 0) 8 8 % 8 = 0 ∧ entryField (admE 8 1 0 0 0 0x2008 1 0 0) 16 1 % 2 = 1 ∧
    fencePlace upCtx 0x2008 = true ∧ 0x2008 ∈ ({ ctxA with fences := [0x2008] } : Ctx).fences ∧ 16 ≤ (List.range 16).length ∧
    hasTile up 0 = true ∧ trowelHeld up 0 = true ∧ (tileOf up 0).bound = none ∧ (tileOf upTile 0).bound = some 1 ∧ (courseOf up 0).live = true ∧
    ctxA.security = (tileOf up 0).prot ∧ (tileOf upTile 0).queue = [] ∧ bitOf ctxA.security 10 = false := by unfold plainPlace; decide +kernel
theorem test_pages : (ctxOf (run (.pages 1) (upSvc (admE 7 1 0 0 0 (2 ^ 64 - 1) 0 0 0) fun c => { c with pages := 5 })) 1).map (fun c => c.pages) =
    some 4 := by decide +kernel
theorem test_fenceBind : (ctxOf (run (.fenceBind 1) (upSvc (admE 8 1 0 0 0 0x2008 1 0 0) id)) 1).map (fun c => c.fences) = some [0x2008] := by
  decide +kernel
theorem test_tileBind : (tileOf (run (.tileBind 1) (upSvc (admE 9 1 3 1 0 0 0 0 0) id)) 3).bound = some 1 := by decide +kernel

/-- RING_CREATE of a ring that does not exist and of one that does (R532, R533). -/
def createE (log2n : Nat) : List Byte := admE 3 1 9 1 0 0x4000 log2n 0x8000 0xC000
def upCreateRing : State := upAdm1 (createE 4)
theorem test_hyp_ringCreate : adminOp 1 0x03 (createE 4) upCreateRing ∧ lintelKey upCreateRing true (entryField (createE 4) 32 8) = some 0xC000 ∧
    ringBad upCreateRing 1 (createE 4) = false ∧ ringBad upCreateRing 1 (createE 3) = true ∧ wordServed upCreateRing 0xC000 = false ∧
    placeOf upCreateRing 0xC000 = .dev 0xC000 ∧ ringOf upCreateRing 9 = none ∧ mayName upCreateRing 1 1 ctxA ∧
    (∀ g ∈ rangeGranules upCreateRing 0x4000 (2 ^ 4 * 64) ++ rangeGranules upCreateRing 0x8000 (2 ^ 4 * 32) ++ rangeGranules upCreateRing 0xC000 8,
      changing upCreateRing g = false ∧ admits upCreateRing (.context 0) g = true) ∧ (ringsOf upCreateRing 1).length < 256 ∧
    (ringOf (upRing (ringA 1 0 0 1 []) []) 9).isSome = true ∧
    lintelRead (.admin 1 3) (some 0xC000) 8 upCreateRing = (some (zeroBytes 8, .ok), upCreateRing) :=
  ⟨by unfold adminOp adminTurn plainPlace; decide +kernel, by unfold mayName; decide +kernel⟩
theorem test_ringCreate : (ringOf (run (.ringCreate 1) upCreateRing) 9).map (fun r => (r.kind, r.compl, r.state)) = some (1, 0x8000, .run) := by
  decide +kernel
/-- RING_RESUME and RING_DESTROY (R536). -/
def upRingOp (e : List Byte) (r : Ring) : State := upAdm 1 e (upRing r [])
def ringHalt : Ring := { ringA 1 0 0 0 [] with state := .halt }
def ringGone : Ring := { ringA 1 0 0 0 [] with state := .stop, destroyer := some 1 }
def upGone : State := { upRing ringGone [] with admqs := [(1, { admA with busy := some (0, 0x55) })] }
theorem test_hyp_ringOps : adminOp 1 0x05 (admE 5 1 9 0 0 0 0 0 0) (upRingOp (admE 5 1 9 0 0 0 0 0 0) ringHalt) ∧
    ringOf (upRingOp (admE 5 1 9 0 0 0 0 0 0) ringHalt) 9 = some ringHalt ∧ mayName (upRingOp (admE 5 1 9 0 0 0 0 0 0) ringHalt) 1 1 ctxA ∧
    ringGone.destroyer.isSome = true ∧ ringHalt.destroyer = none ∧ ringHalt.tail ≤ ringHalt.oldest ∧ ringOf upGone 9 = some ringGone ∧
    (admqOf upGone 1).busy = some (0, 0x55) ∧ upGone.waits = [] ∧ plainPlace upGone 0x14000 :=
  ⟨by unfold adminOp adminTurn plainPlace; decide +kernel, by unfold plainPlace mayName; decide +kernel⟩
theorem test_hyp_ringWaits : let r : Ring := { ringGone with started := [(0, [])], tail := 1, next := 1 }
    r.destroyer = some 1 ∧ r.started = [(r.oldest, [])] ∧ r.done = [] ∧ r.tail = r.oldest + 1 := by decide
theorem test_ringResume : (ringOf (run (.ringResume 1) (upRingOp (admE 5 1 9 0 0 0 0 0 0) ringHalt)) 9).map (fun r => r.state) = some .run := by
  decide +kernel

/-- Scheduler entries and their completion (R547, R548). -/
def schedE' : List Byte := leBytes 1 1 ++ leBytes 1 0x21 ++ leBytes 46 0 ++ leBytes 8 0x77 ++ leBytes 8 0
def upSched (r : Ring) : State := { upRing r schedE' with admqs := [(1, admA)] }
theorem test_hyp_sched : runnable (upSched (ringA 2 0 0 1 [])) 9 (ringA 2 0 0 1 []) = true ∧
    readEntry (.entry 9 0x21) (ringA 2 0 0 1 []) 0 (upSched (ringA 2 0 0 1 [])) = (some (schedE', .ok), upSched (ringA 2 0 0 1 [])) ∧ schedE'.length = 64 ∧ fFence (hFlags schedE') = false ∧
    entryField schedE' 1 1 = 0x21 ∧ schedBad schedE' = false ∧ (admqOf up 1).en = false ∧ (0x18000 + 0 % 2 ^ 4 * 128) % 128 = 0 ∧
    plainPlace (upSched (ringA 2 0 0 1 [])) 0x18000 ∧ plainPlace (upSched (ringA 2 0 0 1 [])) (0x18000 + 64) := by unfold plainPlace; decide +kernel
theorem test_schedEntry : (run (.schedEntry 9) (upSched (ringA 2 0 0 1 []))).inbox = (1, [(9, 0)]) := by decide +kernel
def upDone : State := { upAdm 1 (admE 10 1 9 0 0 0 0 0 0) (upRing (ringA 2 0 1 1 [(0, schedE')]) schedE') with inbox := (1, [(9, 0)]) }
theorem test_hyp_done : adminOp 1 0x0A (admE 10 1 9 0 0 0 0 0 0) upDone ∧ entryEnds 9 0 (ringA 2 0 1 1 [(0, schedE')]) schedE' upDone ∧
    entryField (admE 10 1 9 0 0 0 0 0 0) 8 4 = 0 ∧ ctxActive upDone 1 = true ∧ upDone.inbox.2 = [(9, 0)] ∧
    (0x14000 : Nat) ≠ 0x8000 :=
  ⟨by unfold adminOp adminTurn plainPlace; decide +kernel, by unfold entryEnds entryQuiet plainPlace; decide +kernel, by decide +kernel⟩
theorem test_schedDone : (readMem (run (.schedDone 1) upDone) 0x8000 4).1 = [1, 8, 0, 0] ∧ (run (.schedDone 1) upDone).inbox = (1, []) := by
  decide +kernel

/-- Fence waits before, at and behind their target, and on a word with the error flag (R542 to R545). -/
def waitE (target timeout : Nat) : List Byte :=
  leBytes 1 1 ++ leBytes 1 0x20 ++ leBytes 6 0 ++ leBytes 8 0x7000 ++ leBytes 8 target ++ leBytes 4 timeout ++ leBytes 20 0 ++ leBytes 8 0x77 ++
    leBytes 8 0
def upWait (v : Nat) (r : Ring) (ws : List FenceW) : State :=
  let s := upRing r (waitE 5 0)
  { s with
    mem := { s.mem with dev := writeBytes s.mem.dev 0x2000 (leBytes 8 v) }
    xlat := { s.xlat with buffers := [(bufShared, [⟨5, 4096, 0x7000, 0x2000, permRW, false⟩])] }
    waits := ws }
theorem test_hyp_fenceWait : waitOf up 9 = none ∧ runnable (upWait 4 (ringA 2 0 0 1 []) []) 9 (ringA 2 0 0 1 []) = true ∧
    readEntry (.entry 9 0x20) (ringA 2 0 0 1 []) 0 (upWait 4 (ringA 2 0 0 1 []) []) = (some (waitE 5 0, .ok), upWait 4 (ringA 2 0 0 1 []) []) ∧ waitBad (waitE 5 0) = false ∧
    waitBad (waitE (2 ^ 63) 0) = false ∧ waitBad (leBytes 8 0x2001 ++ leBytes 8 0x7004) = true ∧ entryField (waitE 5 0) 16 8 = 5 := by decide +kernel
theorem test_hyp_fenceReads (v : Nat) (h : v ∈ [4, 5, 2 ^ 63]) : fenceReads (upWait v (ringA 2 0 0 1 []) []) (ringA 2 0 0 1 []) 0x7000 0x2000 v := by
  simp only [List.mem_cons, List.not_mem_nil, or_false] at h
  rcases h with rfl | rfl | rfl <;>
    exact ⟨rfl, rfl, by decide +kernel, rfl, ⟨⟨5, 4096, 0x7000, 0x2000, permRW, false⟩, by decide +kernel⟩, rfl, by decide +kernel, ⟨_, rfl, by decide +kernel⟩⟩
def ringW : Ring := ringA 2 0 1 1 [(0, waitE 5 0)]
def waitW (t : Nat) (w : Bool) : FenceW := ⟨9, 0, 0x7000, 0x2000, 5, t, w⟩
theorem test_hyp_waits (v : Nat) (w : FenceW) (h : v ∈ [4, 5, 2 ^ 63]) (g : w ∈ [waitW 3 false, waitW 0 true]) :
    (upWait v ringW [w]).waits = [w] ∧ entryEnds 9 0 ringW (waitE 5 0) (upWait v ringW [w]) := by
  simp only [List.mem_cons, List.not_mem_nil, or_false] at h g
  refine ⟨rfl, ?_⟩
  rcases h with rfl | rfl | rfl <;> rcases g with rfl | rfl <;> (unfold entryEnds entryQuiet plainPlace; decide +kernel)
theorem test_hyp_waitReads (v : Nat) (h : v ∈ [4, 5, 2 ^ 63]) : fenceReads (upWait v ringW [waitW 3 false]) ringW 0x7000 0x2000 v := by
  simp only [List.mem_cons, List.not_mem_nil, or_false] at h
  rcases h with rfl | rfl | rfl <;>
    exact ⟨rfl, rfl, by decide +kernel, rfl, ⟨⟨5, 4096, 0x7000, 0x2000, permRW, false⟩, by decide +kernel⟩, rfl, by decide +kernel, ⟨_, rfl, by decide +kernel⟩⟩
theorem test_fenceWait : (readMem (run (.fenceWaitTimeout 9) (upWait 4 ringW [waitW 3 true])) 0x8000 3).1 = [1, 8, 0x15] ∧
    (readMem (run (.fenceWaitEvaluate 9) (upWait 5 ringW [waitW 3 true])) 0x8000 3).1 = [1, 8, 0] ∧
    (readMem (run (.fenceWaitEvaluate 9) (upWait (2 ^ 63) ringW [waitW 3 true])) 0x8000 3).1 = [1, 8, 0x14] := by decide +kernel

/-! ## Bond ports and the securing engine -/

/-- Bond port 0 in a state, with `EN` set; another port that is up. -/
def upBond (k : BitVec 4) (f : Bond → Bond) : State :=
  modBond 0 (fun b => f { b with state := k, laneMask := 5, rateMask := 2, partnerChip := 3 })
    (setReg (offBnd 0) 0x80000000 (setReg offChip 0x80100000 up))
def capA (v : Bool) : Capability := ⟨2, 6, 7, 3, v, 4⟩
def keyingA (v : Bool) : Keying := ⟨v, 1, 3, 77⟩
theorem test_hyp_bond (k : BitVec 4) (h : k ∈ [0, 1, 2, 3, 4, 5]) : portIdle 0 (upBond k id) ∧ (bondOf (upBond k id) 0).state = k ∧
    bndEn (upBond k id) 0 = true := by
  simp only [List.mem_cons, List.not_mem_nil, or_false] at h
  rcases h with rfl | rfl | rfl | rfl | rfl | rfl <;> (unfold portIdle nothingWaits allSent; decide +kernel)
theorem test_hyp_negotiates : writer (.core 0) (offBnd 0) ∧ bndEn up 0 = false ∧ (bondOf (upBond 1 id) 0).retraining = false ∧
    (capA false).valid = false ∧ (bondOf (upBond 2 id) 0).laneMask &&& (capA true).laneMask = 4 ∧ (capA true).level ≠ 0 ∧
    bitOf (4 : BitVec 3) 2 = true ∧ (∀ k, k < 2 → bitOf (4 : BitVec 3) k = false) ∧
    (bondOf (upBond 2 id) 0).rateMask &&& (capA true).rateMask = 2 ∧ bitOf (2 : BitVec 3) 1 = true ∧ bitOf (2 : BitVec 3) 0 = false ∧
    (keyingA true).chainOk = true ∧ (upBond 3 id).kiln.fuses.minVersion ≤ (keyingA true).version ∧
    (keyingA true).self = (bondOf (upBond 3 id) 0).partnerChip.toNat ∧ (keyingA false).chainOk = false ∧ (bondOf (upBond 3 id) 0).owed = [] ∧
    (bondOf (upBond 4 fun b => { b with retraining := true }) 0).retraining = true := by unfold writer; decide +kernel
theorem test_capability : (let b := bondOf (run (.capabilityFrame 0 (capA true)) (upBond 2 id)) 0
    (b.state, b.lanes, b.rate, b.partnerChip, b.partnerPort)) = (3, 2, 1, 3, 4) := by decide +kernel
theorem test_keys : (bondOf (run (.bondKeysInstalled 0 (keyingA true)) (upBond 3 id)) 0).state = 4 ∧
    (bondOf (run (.bondKeysInstalled 0 (keyingA false)) (upBond 3 id)) 0).state = 3 := by decide +kernel
/-- A fence that had left over port 0. -/
def opBond (src : Src) : RemoteOp := { opA pathBond (remoteKey 3 0x2000) with src := src, owner := .fence, port := some 0 }
def upBondOp : State := { upBond 4 id with ops := [opBond .lintel], idents := [(identKey pathBond 0 3, ⟨0, true, false⟩)] }
theorem test_hyp_portFails : hasBond upBondOp 0 = true ∧ (bondOf upBondOp 0).state = 4 ∧ (bondOf upBondOp 0).txQ = [] ∧
    upBondOp.ops = [opBond .lintel] ∧ (opBond .lintel).sent = true ∧ (opBond .lintel).port = some 0 ∧ (opBond .lintel).owner = .fence ∧
    (opBond .lintel).src = .lintel ∧ nothingWaits upBondOp := by unfold nothingWaits allSent; decide +kernel
/-- The route table and the chip number (R268, R272). -/
def upNoChip : State := setReg offChip 0 up
def chipFits (s : State) (v : Word32) : Bool :=
  decide (fieldOf v 27 16 ≠ 0 ∧ fieldOf v 27 16 ≤ 2048 ∧ fieldOf v 10 0 < fieldOf v 27 16 ∧ fieldOf (reg s offWindow) 16 0 + fieldOf v 27 16 ≤ 2 ^ 17)
theorem test_hyp_chip : writer (.core 0) (offRoute 3) ∧ writer (.core 0) offChip ∧ chipValid up = true ∧ chipValid upNoChip = false ∧
    upNoChip.sealed_ = false ∧ chipFits upNoChip 0x80100003 = true ∧ chipFits upNoChip 0x80100010 = false ∧ chipFits upNoChip 0x88000000 = true ∧
    chipFits upNoChip 0x88010000 = false ∧ chipFits upNoChip 0x80000000 = false := by unfold writer; decide +kernel
theorem test_chip : (bondOf (run (.chipValidWrite (.core 0) 0x80100003) (modBond 0 (fun b => { b with state := 1, laneMask := 1 }) upNoChip)) 0).state = 2 := by
  decide +kernel

/-- Frames that fail, and frames that carry a message (R566 to R573). -/
def frameA (crc tag fourth : Bool) (ms : List BondMsg) : Frame := ⟨crc, tag, fourth, 1, false, 0, 0, 0, 0, ms⟩
def getMsg (dst : Nat) (ord : Bool) (hop : Nat) : BondMsg := .op .get 0 ord 1 3 dst hop 0x2000 64 [] [] 0 ⟨pathBond, 0, 9, 0⟩ 4 false
def rspMsg : BondMsg := .rsp 0 ⟨pathBond, 0, 3, 0⟩ 0 .ok (leBytes 8 7) 0 false
def upFar : State := setReg (offRoute 3) 0x40000000 (setReg (offRoute 5) 0x80040002 (modBond 1 (fun b => { b with state := 4 }) (upBond 4 id)))
/-- A port that holds the next key, to which neither direction has changed; one frame is unacknowledged. -/
def keyedTwice : State := upBond 4 (fun b => { b with updates := 1, kept := [⟨7, false, [], 0⟩], txNum := 8, rxNum := 8 })
theorem test_nextKey : keyDue (bondOf keyedTwice 0) = true ∧ (frameA true true false []).key ≠ !(bondOf keyedTwice 0).rxKey ∧
    (bondOf (run (.nextKeyInstall 0) (upBond 4 id)) 0).key = true ∧ run (.nextKeyInstall 0) keyedTwice = keyedTwice ∧
    (bondOf (run (.heartbeatFrame 0 { frameA true true false [] with seq := 8, ack := 8 }) keyedTwice) 0).key = true := by decide +kernel
theorem test_newKeyFrame :
    let f : Frame := { frameA true true false [] with key := true }
    f.key ≠ (bondOf keyedTwice 0).rxKey ∧ f.key = latestKey (bondOf keyedTwice 0) ∧ f.seq = 0 ∧ (bondOf keyedTwice 0).txQ = [] ∧
    (bondOf (run (.heartbeatFrame 0 f) keyedTwice) 0).rxNum = 1 ∧ f.key ≠ latestKey (bondOf (upBond 4 id) 0) := by decide +kernel
def upFarOp : State := { upBond 4 id with ops := [opBond (.core 192)], idents := [(identKey pathBond 0 3, ⟨0, true, false⟩)] }
theorem test_hyp_badFrames : (frameA false true false []).crcOk = false ∧ (frameA true false true []).tagOk = false ∧ (upBond 4 id).ops = [] ∧
    (bondOf (upBond 4 id) 0).txQ = [] ∧ (bondOf (upBond 3 id) 0).state ≠ 4 := by decide +kernel
theorem test_hyp_goodFrame (s : State) (h : s ∈ [upBond 4 id, upFar, upFarOp]) (ms : List BondMsg) : goodFrame 0 (frameA true true false ms) s := by
  simp only [List.mem_cons, List.not_mem_nil, or_false] at h
  rcases h with rfl | rfl | rfl <;>
    exact ⟨by decide +kernel, by decide +kernel, rfl, rfl, rfl, (by decide +kernel : false = _), (by decide +kernel : (0 : BitVec 16) = _)⟩
theorem test_hyp_messages : chipSelf upFarOp = 0 ∧ idCurrent upFarOp ⟨pathBond, 0, 3, 0⟩ = true ∧
    opOfId upFarOp ⟨pathBond, 0, 3, 0⟩ = some (opBond (.core 192)) ∧ (opBond (.core 192)).ctx = none ∧
    bitOf (reg upFar (offRoute 3)) 30 = true ∧ placeOf upFar 0x2000 = .dev 0x2000 ∧ admits upFar .bond 0x2000 = true ∧
    changing upFar 0x2000 = false ∧ upFar.ops = [] ∧ upFar.idents = [] ∧ (5 : Nat) ≠ chipSelf upFar ∧ 14 < 15 ∧
    routePort upFar 5 0x2000 true = some 1 ∧ (bondOf upFar 1).retraining = false ∧ (bondOf upFar 1).txQ = [] ∧
    (bondOf upFar 1).kept.length < 1024 ∧ (bondOf upFar 1).owed = [] ∧ msgSlots (getMsg 5 true 14) ≤ 30 ∧
    msgSlots (getMsg 5 true 14) ≤ tget creditDefault (bondOf upFar 1).credits (msgChannel (getMsg 5 true 15)) := by decide +kernel
theorem test_hyp_frame_path : (takeId pathBridge 1 upFar).map (fun x => x.1) = some idB ∧ nothingWaits upFar ∧
    freePath upFar .ask 1 (640 + 0) [outBridge, outSlice (sliceOf upFar 0x2000)] ∧ (∀ q, holdsPair upFar 3 5 q = false) :=
  ⟨by decide +kernel, by unfold nothingWaits allSent; decide +kernel, ⟨rfl, by decide +kernel, by intro o h; simp at h; subst h; decide +kernel⟩,
    fun q => match q with
      | 0 => by decide +kernel
      | 1 => by decide +kernel
      | _ + 2 => rfl⟩
theorem test_frames : (run (.dataFrame 0 (frameA true true false [rspMsg])) upFarOp).sent =
      [.response (.core 192) (opBond (.core 192)).tc ⟨⟨pathBond, 0, 3, 0⟩, .ok, leBytes 8 7, 0⟩] ∧
    (run (.dataFrame 0 (frameA true true false [getMsg 5 true 14])) upFar).sent = [.bondData 1 0 false 0 0 0 [getMsg 5 true 15]] ∧
    (bondOf (run (.dataFrame 0 (frameA true true false [getMsg 0 true 0])) upFar) 0).rxNum = 1 := by decide +kernel
/-- A port with a frame that waits for its acknowledgement (R570). -/
def upKept (r : Nat) : State := upBond 4 fun b => { b with kept := [⟨7, false, [], r⟩] }
theorem test_hyp_replay : (bondOf (upBond 4 id) 0).kept = [] ∧ (bondOf (upKept 7) 0).kept = ⟨7, false, [], 7⟩ :: [] ∧ 8 ≤ 8 ∧
    (bondOf (upKept 8) 0).retraining = false := by decide +kernel
theorem test_replay : (run (.replayTimeout 0) (upKept 7)).sent = [.bondReplay 0 7] ∧
    (bondOf (run (.replayTimeout 0) (upKept 8)) 0).retraining = true := by decide +kernel

/-- A securing table at 0x10000 with one tensor of two pages (R586 to R588). -/
def secHeader (state done secured global cmd n : Nat) : List Byte :=
  leBytes 1 1 ++ leBytes 1 0x0A ++ leBytes 1 0 ++ leBytes 1 state ++ leBytes 4 0 ++ leBytes 8 done ++ leBytes 8 secured ++ leBytes 8 global ++
    leBytes 8 0 ++ leBytes 8 cmd ++ leBytes 8 0 ++ leBytes 8 0 ++ leBytes 16 0 ++ leBytes 8 0x400000 ++ leBytes 2 0 ++ leBytes 1 n
def secRecord : List Byte :=
  leBytes 1 1 ++ leBytes 1 0x0B ++ leBytes 1 1 ++ leBytes 5 0 ++ leBytes 8 0x100000 ++ leBytes 8 0x20000 ++ leBytes 16 0 ++ leBytes 8 0x300000
def upTable (h r : List Byte) : State :=
  { setReg offSecBase 0x10 up with mem := { up.mem with dev := writeBytes (writeBytes [] 0x10000 h) 0x10100 r } }
def upArm : State := upTable (secHeader 0 0 0 0 0 1) secRecord
theorem test_hyp_arm : writer (.core 0) offSecCtl ∧ armWord false 1 ⟨0, 0⟩ = 0x81000000 ∧ bitOf (reg upArm offSecCtl) 31 = false ∧
    secOpen upArm ∧ upArm.sec.on = false ∧ upArm.sec.got = [] ∧ hasSecuring { up with build := { up.build with bondPorts := 0 } } = false := by
  unfold writer secOpen openLines homesIdle; decide +kernel
theorem test_hyp_table (h : List Byte) (b : Bool) (g : (h, b) ∈ [(secHeader 0 0 0 0 0 1, false), (secHeader 0 0 0 0 0 0, true)]) :
    headerBad (secPut 2 (leBytes 1 0) (setReg offSecCtl (secCtlWrite (upTable h secRecord) 0x81000000) (upTable h secRecord))) = b ∧
    ∀ i, i < 1 → recordBad (secPut 2 (leBytes 1 0) (setReg offSecCtl (secCtlWrite (upTable h secRecord) 0x81000000) (upTable h secRecord))) i =
      false ∧
    feedLines (secPut 2 (leBytes 1 0) (setReg offSecCtl (secCtlWrite (upTable h secRecord) 0x81000000) (upTable h secRecord))) = [] ∧
    peerLines (secPut 2 (leBytes 1 0) (setReg offSecCtl (secCtlWrite (upTable h secRecord) 0x81000000) (upTable h secRecord))) = [] := by
  simp only [List.mem_cons, Prod.mk.injEq, List.not_mem_nil, or_false] at g
  rcases g with ⟨rfl, rfl⟩ | ⟨rfl, rfl⟩ <;> decide +kernel
/-- `ARM` has read the header of the partner, chip 3, which is of a feed group. -/
def upFeed (g : Nat) : State :=
  let s := upTable (secHeader 0 0 0 0 0 1 ++ []) secRecord
  let s := setReg offSecCtl 0x81000000 { s with mem := { s.mem with dev := writeBytes s.mem.dev 0x10040 (leBytes 8 (3 * 2 ^ 40)) } }
  { s with sec := { s.sec with
    work := some (.arm true), got := [(areaKey s (3 * 2 ^ 40) 0x10000 / 64, (leBytes 2 0 ++ leBytes 1 g ++ zeroBytes 61, false))] } }
theorem test_hyp_feed (g : Nat) (h : g ∈ [0, 1]) : secOpen (upFeed g) ∧ lintelRuns (upFeed g) = true ∧ (upFeed g).sec.on = false ∧
    (upFeed g).sec.work = some (.arm true) ∧ headerBad (upFeed g) = false ∧ (∀ i, i < secWord (upFeed g) 90 1 → recordBad (upFeed g) i = false) ∧
    (∀ l ∈ feedLines (upFeed g) ++ peerLines (upFeed g), (secLine (upFeed g) l).isSome = true) ∧ bitOf (reg (upFeed g) offSecCtl) 30 = false ∧
    (feedLines (upFeed g)).any (fun l => ((secLine (upFeed g) l).map fun x => (x.1.getD 2 0).toNat == 0).getD false) = (g == 0) := by
  simp only [List.mem_cons, List.not_mem_nil, or_false] at h
  rcases h with rfl | rfl <;> (unfold secOpen openLines homesIdle; decide +kernel)
theorem test_arm_refused : secState (run (.arm (.core 0) false 1 ⟨0, 0⟩) (upTable (secHeader 0 0 0 0 0 0) secRecord)) = 5 ∧
    secState (run .secureStep (upFeed 0)) = 5 := by decide +kernel

/-- A running engine (R597 to R603). -/
def secOn (w : Option SecWork) (ts : List SecTensor) (seen : Nat) (s : State) : State :=
  { setReg offSecCtl 0x81000000 s with sec := ⟨true, w, ts, 0, [], seen, []⟩ }
def upSec (h : List Byte) : State := secOn none [] 0 (upTable h [])
theorem test_hyp_engine (h : List Byte) (g : h ∈ [secHeader 1 3 2 2 0 0, secHeader 1 0 2 0 (2 ^ 56 + 2) 0, secHeader 1 0 2 0 (2 ^ 56 + 3) 0,
    secHeader 1 0 2 0 (4 * 2 ^ 56 + 2) 0]) : secReady (upSec h) ∧ (upSec h).sec.tensors = [] ∧ secState (upSec h) = 1 ∧
    secFence (upSec h) hdrSecured = 2 ∧ secWord (upSec h) hdrRole 8 = 0 ∧ chipSelf (upSec h) = 0 := by
  simp only [List.mem_cons, List.not_mem_nil, or_false] at g
  rcases g with rfl | rfl | rfl | rfl <;> (unfold secReady openLines cleanLines homesIdle; decide +kernel)
theorem test_hyp_secStep : secFence (secOn none [] 2 (upTable (secHeader 1 3 2 2 0 0) [])) hdrGlobal = 2 ∧
    secFence (upSec (secHeader 1 3 2 2 0 0)) hdrDone = 3 ∧ secWord (upSec (secHeader 1 0 2 0 (2 ^ 56 + 3) 0)) hdrCmd 8 = 1 * 2 ^ 56 + 3 ∧
    secWord (upSec (secHeader 1 0 2 0 (4 * 2 ^ 56 + 2) 0)) hdrCmd 8 = 4 * 2 ^ 56 + 2 ∧ secWord (upSec (secHeader 1 0 2 0 0 0)) 90 1 = 0 ∧
    secWord (upSec (secHeader 1 0 2 0 0 0)) hdrArg 8 = 0 := by decide +kernel
theorem test_secure : secFence (run .secureStep (secOn none [] 2 (upTable (secHeader 1 3 2 2 0 0) []))) hdrSecured = 3 ∧
    secWord (run .restore (upSec (secHeader 1 0 2 0 (2 ^ 56 + 2) 0))) hdrCmd 8 = 2 ^ 56 + 2 ^ 48 + 2 ∧
    secWord (run .restore (upSec (secHeader 1 0 2 0 (2 ^ 56 + 3) 0))) hdrCmd 8 = 2 ^ 56 + 2 * 2 ^ 48 + 3 := by decide +kernel
def tensorA : SecTensor := ⟨0, 0x100000, 0x20000, 0x20000, 0, 0x300000, 1, 1⟩
def upPages (w : Option SecWork) (cmd : Nat) : State := secOn w [tensorA] 0 (upTable (secHeader 1 0 2 0 cmd 1) secRecord)
theorem test_hyp_images : let s := upPages (some (.step 1 [16, 17])) 0
    secLocal s % 65536 = 0 ∧ (∀ k, k < 2 → imageOff s tensorA k + tensorA.size ≤ hdmTop s) ∧ tensorA.base + tensorA.size ≤ hdmTop s ∧
    (∀ k, k < 2 → apart tensorA.base tensorA.size (imageOff s tensorA k) tensorA.size ∧
      apart (secBase s) 0x9000 (imageOff s tensorA k) tensorA.size ∧
      apart tensorA.bitmap (2 * bitmapBytes tensorA) (imageOff s tensorA k) tensorA.size) ∧
    apart (secBase s) 0x9000 tensorA.base tensorA.size ∧ apart tensorA.bitmap (2 * bitmapBytes tensorA) tensorA.base tensorA.size ∧
    apart tensorA.bitmap (2 * bitmapBytes tensorA) (secBase s) 0x9000 ∧ secFence s hdrGlobal = s.sec.seen ∧ secMirror s = 0 ∧
    tensorA.base / 65536 ≤ 16 ∧ 16 < tensorA.base / 65536 + tensorA.size / 65536 ∧ 16 ∉ [17] ∧ lintelRuns s = true ∧ s.sec.got = [] ∧
    s.ops = [] ∧ homesIdle s ∧ tensorA.assigned = 1 ∧ tensorA.areaOff % 65536 = 0 ∧ s.sec.current < 2 := by unfold apart homesIdle; decide +kernel
theorem test_hyp_openImages : let s := upPages (some (.step 1 [16, 17])) 0
    openLines s (secTable s) ∧ (∀ k, k < 2 → openLines s (rangeLines (imageOff s tensorA k) tensorA.size)) ∧
    (∀ l ∈ rangeLines (16 * 65536) 65536, placeOf s (l * 64) = .dev (l * 64) ∧ canReadLine s l = true) := by
  unfold openLines; decide +kernel
theorem test_hyp_restoreLines : let s := upPages none (2 ^ 56 + 2)
    cleanLines s (secTable s) ∧ openLines s (rangeLines tensorA.base tensorA.size) := by unfold cleanLines openLines; decide +kernel
theorem test_hyp_page : (readMem (upPages (some (.step 1 [16, 17])) 0) (16 * 65536) 65536).2 = false := by decide +kernel
theorem test_hyp_restore : let s := upPages none (2 ^ 56 + 2)
    secState s = 1 ∧ secWord s hdrCmd 8 = 2 ^ 56 + 2 ∧ 2 ≤ secFence s hdrSecured ∧ secBase s + 0x9000 ≤ hdmTop s := by decide +kernel

/-! ## Faults -/

/-- A unit with a fault that is collected at each kind of level (R612 to R614). -/
def synA (src : Nat) (c : Option Nat) (l : Option Nat) : Syndrome := ⟨src, .lintel, 0, c, 0, 0, 0, l⟩
def upFault (y : Syndrome) : State := { up with ctxs := [(1, ctxA)], flt := { up.flt with units := [⟨unitLin, y, 0⟩] } }
theorem test_hyp_faults : hasUnit up unitLin = true ∧ up.build.localFaults = false ∧ (synA 0x39 (some 1) none).source < 128 ∧
    (sourceLevels up 0x3D).isSome = true ∧ (sourceLevels up 0x24) = some (5, 5) ∧ levelOf up (synA 0x24 none none) 5 = 5 ∧
    levelOf up (synA 0x05 none (some 3)) 2 = 3 ∧ levelOf up (synA 0x03 none none) 0 = 0 ∧ (latchOf up 1).valid = false ∧
    ctxOf (upFault (synA 0x05 (some 1) (some 3))) 1 = some ctxA ∧ up.flt.fatal = false := by decide +kernel
theorem test_collect : (ctxOf (run (.faultCollect unitLin) (upFault (synA 0x05 (some 1) (some 3)))) 1).map (fun c => c.state) = some .lost ∧
    (run (.faultCollect unitLin) (upFault (synA 0x24 none none))).flt.fatal = true := by decide +kernel
def upLatch : State := { up with flt := { up.flt with latches := [(1, ⟨true, true, false, 3, some (synA 0x39 none none)⟩)] } }
def upPin (a m : BitVec 14) : State := { setReg offFltLimit 9 up with flt := { up.flt with active := a, masked := m, wired := [(5, true)] } }
theorem test_hyp_inputs : writer .host (offFltLatch 1) ∧ (latchOf upLatch 1).valid = true ∧ writer .host (offFltPend 3) ∧ hasPin up .throttleReq = true ∧
    hasPin up (.stackHot 11) = true ∧ hasPin up (.stackHot 12) = false ∧ (courseOf up 0).live = true ∧ (courseOf up 0).freqReq = none ∧
    hasCourse up 0 = true ∧ (ctlOf up 3).level < 3 ∧ bitOf up.flt.masked (pinBit (.stackHot 3)) = false ∧
    fieldOf (reg (upPin 2 0) offFltLimit) 15 0 ≠ 0 ∧ bitOf (upPin 2 0).flt.active (pinBit .extStop) = true ∧
    bitOf (upPin 2 0).flt.masked (pinBit .extStop) = false ∧ writer .host offFltInput ∧ (47 : Nat) < up.build.bridgeModules ∧
    tget noB (upPin 2 0).flt.wired 5 = true ∧ tget noB up.flt.wired 5 = false := by unfold writer; decide +kernel
theorem test_inputs : (latchOf (run (.fltLatchClear .host 1) upLatch) 1).valid = false ∧
    (run (.inputMaskClear .host 6) (upPin 2 6)).flt.masked = 2 ∧ (run (.fltPendClear .host 1 4) { up with flt := { up.flt with pend := 0x500000000 } }).flt.pend = 0x100000000 ∧
    (ctlOf (run (.inputLevelChange (.stackHot 3) true) up) 3).level = 3 := by decide +kernel

/-! ## The Kiln -/

/-- A mailbox with a service and its operands (R698 to R701). -/
def boxA (code : Nat) (d : List Nat) : Mailbox :=
  { mailboxDefault 0 with
    service := BitVec.ofNat 8 code
    busy := true
    data := (List.range d.length).foldl (fun t i => tset zeroOf t i (BitVec.ofNat 32 (d.getD i 0))) [] }
def upBox (mb code : Nat) (d : List Nat) (f : Kiln → Kiln) : State :=
  { up with kiln := f { up.kiln with mailboxes := [(mb, boxA code d)] } }
def upSlots (k : Kiln) : Kiln := { k with slots := [(2, ⟨5, 1, false, 1⟩), (3, ⟨5, 2, true, 2⟩), (4, ⟨5, 0, false, 3⟩)] }
theorem test_kilnTurn (c : Nat) (h : c ∈ [1, 2, 3, 4, 5, 6]) (mb : Nat) (g : mb ∈ [0, 1, 2]) : kilnTurn mb c (upBox mb c [7] id) := by
  simp only [List.mem_cons, List.not_mem_nil, or_false] at h g
  rcases h with rfl | rfl | rfl | rfl | rfl | rfl <;> rcases g with rfl | rfl | rfl <;> (unfold kilnTurn; decide +kernel)
theorem test_hyp_slots : mbData (upBox 1 1 [2 ^ 20] id) 1 0 = 2 ^ 20 ∧ mbData (upBox 1 1 [2 ^ 20 - 1] upSlots) 1 0 < 2 ^ 20 ∧
    up.kiln.recovery = false ∧ tfind (upBox 1 1 [7] upSlots).kiln.slots 5 = none ∧
    (∀ i, i < 5 → 2 ≤ i → (tfind (upBox 1 1 [7] upSlots).kiln.slots i).isSome = true) ∧
    (tfind (upBox 1 2 [2] upSlots).kiln.slots (mbData (upBox 1 2 [2] upSlots) 1 0)) = some ⟨5, 1, false, 1⟩ ∧
    slotNamed (upBox 1 2 [2] upSlots) 2 = false ∧ slotNamed { upBox 1 2 [2] upSlots with ctxs := [(1, { ctxA with security := 0x402 })] } 2 = true ∧
    mbData (upBox 1 2 [1024] id) 1 0 = 1024 ∧ tfind (upBox 1 2 [1023] id).kiln.slots 1023 = none := by decide +kernel
theorem test_slots : mbData (run (.slotAssign 1) (upBox 1 1 [7] upSlots)) 1 0 = 5 ∧
    tfind (run (.slotRelease 1) (upBox 1 2 [2] upSlots)).kiln.slots 2 = none ∧
    (mailboxOf (run (.slotRelease 1) (upBox 1 2 [3] upSlots)) 1).status = 0x24 := by decide +kernel
/-- Changes of granules (R650, R652): granule 1 keyed with slot 3, which is protected. -/
def upGran (d : List Nat) : State := upBox 1 3 d fun k => { upSlots k with access := [(1, 0x4003)] }
def upChange : State := { up with
  kiln := { up.kiln with access := [(1, 0x4002)], slots := [(2, ⟨5, 1, false, 1⟩)], change := [⟨some 1, 1, 2, 0x8000⟩], mailboxes := [(1, boxA 3 [])] }
  mem := { up.mem with dev := writeBytes (writeBytes (writeBytes [] 0x1FFFFF [9]) 0x200000 [7]) 0x600000 [8] } }
theorem test_hyp_granules : granuleArgsBad (upGran [2, 1, 0x8000]) 2 1 0x8000 = false ∧
    plainEntry (upGran [1, 1, 0x8000]) (granuleOf (upGran [1, 1, 0x8000]) ((1 + 0) * 2 ^ 21)) = false ∧
    plainEntry (upGran [2, 1, 0x8000]) (granuleOf (upGran [2, 1, 0x8000]) ((2 + 0) * 2 ^ 21)) = true ∧ plainEntry (upGran []) 0x8000 = true ∧
    plainEntry (upGran []) 0x4003 = false ∧ tableSize up = 393216 ∧ mbData (upGran [393215, 2]) 1 0 + mbData (upGran [393215, 2]) 1 1 = 393217 ∧
    (∀ x ∈ upChange.kiln.slots, x.2.protected_ = false) ∧ fieldOf (granuleOf upChange (1 * 2 ^ 21)) 15 14 = 1 ∧ fieldOf (0x8000 : BitVec 16) 15 14 = 2 ∧
    (let s := { upChange with kiln := { upChange.kiln with tdi := .run }, ops := [opA pathBridge 0x200000] }
     opA pathBridge 0x200000 ∈ s.ops ∧ (opA pathBridge 0x200000).sent = true ∧ 1 * 2 ^ 21 ≤ 0x200000) := by decide +kernel
theorem test_hyp_still : stillMemory (upGran [2, 1, 0x8000]) ∧ stillMemory upChange ∧ quietHomes upChange := by
  unfold stillMemory quietHomes homesIdle; decide +kernel
theorem test_granules : (run (.granuleSet 1) (upGran [2, 1, 0x8000])).kiln.change = [⟨some 1, 2, 1, 0x8000⟩] ∧
    (run .granuleChangeDone upChange).kiln.access = [(1, 0x8000), (2, 0x8000)] ∧
    (run .granuleChangeDone upChange).mem.dev = [(0x1FFFFF, 9), (0x600000, 8)] := by decide +kernel
/-- Certificates, the watchdog period, debug unlocking (R639, R659, R681). -/
def upCert : State := { upBox 1 4 [0x2000, 0, 3] id with mem := { up.mem with dev := writeBytes [] 0x2000 [1, 2, 3] } }
theorem test_hyp_services2 : lintelReadRange (.mailbox 1) (sortAgent upCert (mbData upCert 1 0 + mbData upCert 1 1 * 2 ^ 32)) (mbData upCert 1 2) upCert =
      (some ([1, 2, 3], .ok), upCert) ∧ upCert.front = [] ∧ (0 : Nat) = upCert.kiln.identity ∧ mbData (upBox 1 5 [60] id) 1 0 = 60 ∧ mbData (upBox 1 5 [61] id) 1 0 = 61 ∧
    mbData (upBox 1 6 [0xFFF, 0xFF] id) 1 0 < 2 ^ 12 ∧ mbData (upBox 1 6 [0xFFF, 0xFF] id) 1 1 < 2 ^ 8 ∧ 2 ^ 12 ≤ mbData (upBox 1 6 [0x1000] id) 1 0 ∧
    (∃ x ∈ ({ up with ctxs := [(1, { ctxA with security := 0x402 })] } : State).ctxs, bitOf x.2.security 10 = true) := by decide +kernel
theorem test_services : (run (.certLoad 1 0) upCert).kiln.chain = [1, 2, 3] ∧ (run (.wdogPet 1) (upBox 1 5 [60] id)).kiln.wdogPeriod = 60 ∧
    (run (.debugUnlock 1) (upBox 1 6 [1, 2] id)).dbg.cores = 2 := by decide +kernel
/-- Images of the sideband and of the host, and the watchdog (R698, R701, R659). -/
def upImg (mb : Nat) (final : Bool) (on : Bool) : State :=
  { up with kiln := { up.kiln with
      coresOn := on
      mailboxes := [(mb, { mailboxDefault 0 with imgFinal := final, imgBusy := true, imgAddr := 0x2000, imgLen := 256 })] } }
theorem test_hyp_images' : up.kiln.coresOn = false ∧ (upImg 0 true true).kiln.coresOn = true ∧ (mailboxOf (upImg 2 true false) 2).imgBusy = true ∧
    (up.kiln.image ++ (List.range 64).flatMap fun i => leBytes 4 (mbData (upImg 2 true false) 2 i)).length ≤ 0x1000000 ∧
    up.kiln.fuses.licenseeKey = false ∧ (upImg 0 true false).ops = [] ∧
    lintelReadRange (.mailbox 0) (lintelKey (upImg 0 true false) false 0x2000) 256 (upImg 0 true false) =
      (some (zeroBytes 256, .ok), upImg 0 true false) ∧ (upImg 0 true false).front = [] ∧ up.kiln.tdi ≠ .run := by decide +kernel
theorem test_image : (run (.imagePost 0 true false) (upImg 0 true false)).kiln.coresOn = true ∧
    (coreOf (run (.imagePost 2 true false) (upImg 2 true false)) 195).held = false ∧
    (mailboxOf (run (.imagePost 2 true false) (upImg 2 true true)) 2).imgStatus = 0x21 := by decide +kernel
theorem test_watchdog : (ctxOf (run (.watchdogExpiry none true) { upImg 0 true true with ctxs := [(1, ctxA)] }) 1).map (fun c => c.state) = some .lost := by
  decide +kernel

/-- Sessions in each state (R640, R641). -/
def spdmA (k : Nat) : Spdm := ⟨.doe, k, []⟩
def upSession (n : Nat) (fin : Bool) (f : Kiln → Kiln) : State :=
  { up with kiln := f { up.kiln with
      negotiated := [(0, 0x13)]
      sessions := (List.range n).map fun i => (i + 1, ⟨.doe, fin, 9, 0⟩)
      measurements := [(4, 0x1234)] } }
theorem test_hyp_spdm : spdmReaches (spdmA 0) up ∧ hasTransport State.reset .mctp = true ∧ State.reset.kiln.released = false ∧
    spdmSession (spdmA 1) ⟨.doe, true, 9, 0⟩ (upSession 1 true id) ∧ spdmSession (spdmA 1) ⟨.doe, false, 9, 0⟩ (upSession 1 false id) ∧
    tfind (upSession 1 true id).kiln.measurements 4 = some 0x1234 ∧ tfind (upSession 1 true id).kiln.measurements 5 = none ∧
    tfind up.kiln.negotiated (transportKey .doe) = none ∧ (tfind (upSession 1 true id).kiln.negotiated (transportKey .doe)).isSome = true ∧
    ((upSession 3 true id).kiln.sessions.filter fun p => p.2.transport = .doe).length < 4 ∧
    4 ≤ ((upSession 4 true id).kiln.sessions.filter fun p => p.2.transport = .doe).length ∧ (upSession 4 true id).kiln.sessions.length < 64 ∧
    ((upSession 4 true id).kiln.sessions.filter fun p => p.2.transport = .mctp).length < 1 := by
  unfold spdmReaches spdmSession; decide +kernel
theorem test_hyp_spdm_open : ¬ ∃ y, spdmSession (spdmA 1) y (upSession 1 false id) ∧ y.finished = true := by
  rintro ⟨y, ⟨h, -⟩, g⟩; rw [show tfind (upSession 1 false id).kiln.sessions (spdmA 1).session = some ⟨.doe, false, 9, 0⟩ by decide +kernel] at h
  cases h; cases g
theorem test_spdm : (run (.getMeasurements (spdmA 0) 4) (upSession 1 true id)).sent = [.spdm .doe 0 0x60 (leBytes 48 0x1234)] ∧
    (run (.endSession (spdmA 1)) (upSession 1 true id)).kiln.sessions = [] ∧ (run (.keyExchange (spdmA 0)) (upSession 4 true id)).kiln.sessions.length = 4 ∧
    (run (.keyExchange (spdmA 0)) (upSession 3 true id)).kiln.sessions.length = 4 := by decide +kernel
/-- IDE keys and the interface's states (R641, R653 to R656). -/
def upTdi (t : Tdi) : State :=
  { upSession 1 true (fun k => { k with tdi := t, nonce := 5, ideIo := ⟨[(1, 7)], false, true⟩, ideMem := ⟨[], true, true⟩ }) with sealed_ := true }
theorem test_hyp_tdisp : tfind (ideOf (upTdi .run) false).keys 1 = some 7 ∧ tfind (ideOf (upTdi .run) true).keys 0 = none ∧
    (upTdi .configUnlocked).sealed_ = true ∧ (upTdi .configUnlocked).dbg.courses = 0 ∧ (upTdi .configUnlocked).kiln.ideIo.live = true ∧
    (upTdi .configUnlocked).kiln.ideMem.live = true ∧ (upTdi .configUnlocked).kiln.tdi = .configUnlocked ∧ up.sealed_ = false ∧
    (∀ p ∈ (upTdi .configUnlocked).kiln.slots, p.2.protected_ = false) ∧ (upTdi .configLocked).kiln.tdi = .configLocked ∧ (upTdi .configLocked).kiln.nonce = 5 ∧ (upTdi .error).kiln.tdi = .error ∧
    (upTdi .run).ctxs = [] ∧ (upTdi .run).kiln.access = [] ∧ (upTdi .run).kiln.change = [] := by decide +kernel
theorem test_tdisp : (run (.startInterfaceRequest (spdmA 1) 5) (upTdi .configLocked)).kiln.tdi = .run ∧
    (run (.startInterfaceRequest (spdmA 1) 6) (upTdi .configLocked)).kiln.tdi = .configLocked ∧
    (run (.kSetGo (spdmA 1) false) (upTdi .run)).kiln.ideIo.use = true := by decide +kernel
def upVendor : State := { upTdi .run with kiln := upSlots { (upTdi .run).kiln with access := [(1, 0x4003)] } }
theorem test_hyp_vendor : tfind upVendor.kiln.slots 5 = none ∧ (∀ i, i < 5 → 2 ≤ i → (tfind upVendor.kiln.slots i).isSome = true) ∧
    tfind upVendor.kiln.slots 3 = some ⟨5, 2, true, 2⟩ ∧ slotNamed upVendor 3 = true ∧ slotNamed (upTdi .run) 3 = false ∧
    tfind upVendor.kiln.slots 2 = some ⟨5, 1, false, 1⟩ ∧ granuleArgsBad upVendor 2 0 0x4003 = true ∧ granuleArgsBad upVendor 1 1 0x3000 = false ∧
    tvmEntry upVendor (granuleOf upVendor ((1 + 0) * 2 ^ 21)) 0x3000 = true ∧ ctxOf upVendor 9 = none ∧
    bitOf ctxA.security 11 = false := by decide +kernel
theorem test_hyp_vendor_still : stillMemory upVendor := by unfold stillMemory quietHomes homesIdle; decide +kernel
theorem test_vendor : (run (.tdispVendorMessage (spdmA 1) (.slotAssign 6)) upVendor).sent = [.spdm .doe 1 0x7E [0, 5, 0, 0, 0]] ∧
    (run (.tdispVendorMessage (spdmA 1) (.slotRelease 3)) upVendor).sent = [.spdm .doe 1 0x7E [0x24, 0, 0, 0, 0]] := by decide +kernel

/-! ## Resets, power, registers, debug -/

def imageA (signed : Bool) (v : Nat) : KilnImage := ⟨true, signed, v, false, 0x77⟩
def fusesA : Fuses := ⟨3, false, 0x123, 9⟩
theorem test_hyp_boot : State.reset.clk.inCold = true ∧ up.clk.inCold = false ∧ fusesA.minVersion ≤ (imageA true 3).version ∧
    ¬ fusesA.minVersion ≤ (imageA true 2).version ∧ writer .kiln offSeal ∧ writer .kiln offPartCtl := by unfold writer; decide +kernel
theorem test_boot : (run (.coldResetRelease ⟨0, 0, false⟩ fusesA (imageA true 3)) State.reset).kiln.released = true ∧
    (run (.coldResetRelease ⟨0, 0, false⟩ fusesA (imageA true 2)) State.reset).kiln.released = false ∧
    (run (.coldResetRelease ⟨0, 0, true⟩ fusesA (imageA true 3)) State.reset).kiln.released = false := by decide +kernel
/-- Partitions that run and that do not (R671, R672). -/
def upPart (pln crs : Bool) : State := { up with clk := { up.clk with plinthOut := pln, coursesOut := crs }, regs := if crs then up.regs else [] }
theorem test_hyp_parts : bitOf (reg up offPartCtl) 30 = true ∧ bitOf (reg up offPartCtl) 29 = true ∧ bitOf (reg (upPart true false) offPartCtl) 29 = false ∧
    bitOf (reg (upPart true false) offPartCtl) 30 = false ∧ up.jegons = [] ∧ up.cores = [] ∧ up.tiles = [] ∧ up.hods = [] ∧ up.ctxs = [] ∧
    (upPart false false).clk.plinthOut = false ∧ coursePowered up 0 = true := by decide +kernel
theorem test_hyp_resets_quiet : buildOk State.reset.build = true ∧ buildOk { State.reset.build with tensorClkMax := 1001 } = false ∧
    up.link.rereadQ = [] ∧ rising up.ctls ∧ up.xlat.prgs = [] ∧ up.xlat.faultQ = [] ∧ nothingWaits up ∧ up.rings = [] ∧ up.jegons = [] ∧
    up.clk.pgCourse = true ∧ up.clk.coursesOut = true ∧ hasJegon up 0 = true ∧ (testOf [(3, ⟨0, 7⟩)] 3).spares = 7 := by
  unfold rising nothingWaits allSent; decide +kernel
theorem test_plnReset : (ctxOf (run (.plnReset .kiln) upTile) 1).map (fun c => c.state) = some .lost ∧
    (run (.plnReset .kiln) upChange).mem.dev = [] := by decide +kernel
/-- Courses: in reset, gated, powering up, asked for another clock (R346, R664, R684). -/
def upCourse (f : Course → Course) : State := modCourse 3 (fun c => f { c with state := 2, live := true, inReset := false }) up
def upUndrained : State := modCore 48 (fun c => { c with ntBufs := [⟨0x40, 0x4000, [(0x4000, 1)], 0⟩] }) (upCourse fun c => { c with state := 3 })
theorem test_hyp_courses : writer .kiln (0x100100 + 4 * 3) ∧ hasCourse up 3 = true ∧ (courseOf (upCourse id) 3).live = true ∧
    (courseOf (upCourse fun c => { c with inReset := true }) 3).inReset = true ∧ coursePowered (upCourse fun c => { c with inReset := true }) 3 = true ∧
    courseIdle (upCourse id) 3 = true ∧
    courseIdle (modTile 48 (fun t => { t with queue := [moverCmd] }) (modCore 48 (fun c => { c with held := true }) (upCourse id))) 3 = false ∧
    (courseOf (upCourse fun c => { c with state := 3 }) 3).state = 3 ∧ (upCourse id).ops = [] ∧ (upCourse id).cores = [] ∧
    (∀ n ∈ courseTiles (upCourse id) 3, trowelDrained (upCourse id) n = true) ∧ (courseOf (upCourse fun c => { c with state := 1 }) 3).state = 1 ∧
    (courseOf (upCourse fun c => { c with freqReq := some 5 }) 3).freqReq = some 5 ∧ (testOf [(3, ⟨2, 0⟩)] 3).worst = 2 ∧ (testOf [] 3).worst ≤ 1 ∧
    (courseOf (upCourse fun c => { c with state := 0, on := false }) 3).on = false := by unfold writer; decide +kernel
theorem test_courses : (run (.coursePowerOff 3) (upCourse fun c => { c with state := 3 })).sent = [.pwrEn 3 false] ∧
    (courseOf (run (.coursePwrOk 3 ⟨2, 0⟩) (upCourse fun c => { c with state := 1 })) 3).failed = true ∧
    (courseOf (run (.gatingRefused 3) upUndrained) 3).refused = true := by decide +kernel
theorem test_hyp_undrained : (∃ n ∈ courseTiles upUndrained 3, trowelDrained upUndrained n = false) ∧ nothingWaits (upCourse id) ∧
    (upCourse id).clk.plinthOut = true ∧ (coreOf upUndrained 48).prog = false := by unfold nothingWaits allSent; decide +kernel
/-- The power limit (R675 to R677): one level for each started step above it, one back below 95 percent of it. -/
def upLimit (l : Nat) : State := { setReg offPwrLimit 0x80000064 up with clk := { up.clk with level := l } }
theorem test_hyp_power : bitOf (reg (upLimit 0) offPwrLimit) 31 = true ∧ fieldOf (reg (upLimit 0) offPwrLimit) 15 0 = 100 ∧
    up.build.tensorClkMax / 125 - 2 + 14 = 44 ∧ bitOf (reg up offPwrLimit) 31 = false ∧ agentPresent .sideband = true ∧
    writer .kiln offCorrCtl := by unfold writer; decide +kernel
theorem test_power : (run (.powerEstimate 121 10 false false) (upLimit 2)).clk.level = 5 ∧ (run (.powerEstimate 120 10 false false) (upLimit 2)).clk.level = 4 ∧
    (run (.powerEstimate 94 10 true false) (upLimit 2)).clk.level = 1 ∧ (run (.powerEstimate 95 10 true false) (upLimit 2)).clk.level = 2 ∧
    (run (.powerEstimate 101 10 false false) (upLimit 44)).clk.alert = true := by decide +kernel

/-- Registers of each kind, and the debug port (R686 to R690, R702, R703). -/
theorem test_hyp_registers : mayWrite .host offPartCtl = false ∧ regAt up 0xFFFFFC = none ∧ mayRead .host offPwrLimit = true ∧
    (regAt up offPwrLimit).isSome = true ∧ ((regAt up offPwrLimit).bind highOf) = none ∧ tfind up.captures (agentKey .host offPwrLimit) = none ∧
    hasHod up 31 = true ∧ writer .kiln offWeight ∧ writer .host offLinDropCnt ∧ up.staged = [] ∧ (mailboxOf up 0).busy = false ∧
    (mailboxOf up 0).imgBusy = false ∧ (mailboxOf (upBox 0 1 [] id) 0).busy = true := by unfold writer; decide +kernel
theorem test_registers : (run (.registerRead .host offPwrLimit 8) up).sent = [.regValue .host offPwrLimit 0xFFFFFFFF] ∧
    (mailboxOf (run (.registerWrite .host 0x3800000 4 0x80000001) up) 0).busy = true ∧
    (mailboxOf (run (.registerWrite .host 0x3800000 4 0x80000007) up) 0).status = 0x20 := by decide +kernel
/-- A hart that the debugger may halt: control core 0, unlocked (R681). -/
def upDebug : State := { upCore with dbg := { upCore.dbg with cores := 1, dmactive := true } }
theorem test_hyp_debug : upDebug.dbg.haltreq = false ∧ hartShown upDebug 192 = true ∧ (coreOf upDebug 192).halted = false ∧
    (coreOf upDebug 192).wait = none ∧ (coreOf upDebug 192).prog = false ∧ (coreOf upDebug upDebug.dbg.hartsel).prog = false ∧ upDebug.dbg.cmderr = 0 ∧ up.dbg.dmactive = false := by decide +kernel
theorem test_debug : (coreOf (run (.dmiAccess 0x10 (.write (BitVec.ofNat 32 (2 ^ 31 + 192 * 2 ^ 16 + 1)))) upDebug) 192).halted = true ∧
    (run .idcode up).sent = [.debugOut 0x5831001 32] := by decide +kernel

/-! ## Ill-formed commands -/

def homeOpA (n e : Nat) : HomeOp := ⟨.core 0, idA, ⟨false, 1, 0, 0, 0⟩, 0x10F0, List.replicate n 0, List.replicate e true, 0⟩
theorem test_wf_line : Instr.wf (.shareRd 0 0x1001 ⟨0, idA⟩) = false ∧ Instr.wf (.ownRd 0 0x1020 ⟨0, idA⟩) = false ∧
    Instr.wf (.dirtyEv 0 0x1000 ⟨(List.replicate 63 0), false⟩ ⟨0, idA⟩) = false ∧ Instr.wf (.dirtyEv 0 0x1001 ⟨(List.replicate 64 0), false⟩ ⟨0, idA⟩) = false ∧
    Instr.wf (.forwardedData 0 0x1000 false ⟨[], false⟩ idA) = false ∧ Instr.wf (.probeAnswer 0 0x1000 .clean false [1] false) = false ∧
    Instr.wf (.jegonSnprsp 0 0x1000 .clean false [1] false) = false ∧ Instr.wf (.doorbellRereadDone ⟨idA, 0x1000⟩ [] false) = false ∧
    Instr.wf (.memWr 0 0x1000 ⟨List.replicate 64 0, false⟩ (List.replicate 63 true) .i) = false ∧
    Instr.wf (.shareRd 0 0x1000 ⟨0, idA⟩) = true ∧ Instr.wf (.probeAnswer 0 0x1000 .clean false [] false) = true := by decide +kernel
theorem test_wf_ops : Instr.wf (.pushWr (homeOpA 16 15)) = false ∧ Instr.wf (.pushWr (homeOpA 17 17)) = false ∧
    Instr.wf (.pushWr (homeOpA 16 16)) = true ∧ Instr.wf (.bxor { atomicA 0x1000 false with size := 257 }) = false ∧
    Instr.wf (.gopAdd { atomicA 0x1000 false with size := 4 }) = false ∧ Instr.wf (.gopAdd (atomicA 0x1000 false)) = true := by decide +kernel
theorem test_wf_regs : Instr.wf (.registerRead .host 0 3) = false ∧ Instr.wf (.registerWrite .host 2 4 0) = false ∧
    Instr.wf (.registerWrite .host 4 4 0) = true := by decide +kernel
/-- The table gives no row any bits, so no word spells a command. -/
theorem test_words : decodeTableWord 32 5 = none ∧ up.withFetchWord 32 5 = up := by decide +kernel
/-- A control core that reads a set-up register with 8 bytes takes the access fault (R319). -/
theorem test_badAccess : coreReady upCore 192 = true ∧ (coreOf upCore 192).prog = false ∧ (coreOf upCore 192).ntBufs = [] ∧ (coreOf upCore 192).deferred = [] ∧
    (coreOf (run (.registerRead (.core 0) offPwrLimit 8) upCore) 192).csr.mcause = 5 := by decide +kernel

end Sys2Proof.Tests
end

section
/-! ## The codes of the floating-point formats (O22)

A code is a sign and a magnitude code below `2 ^ (fmtE f + fmtM f)`. A finite magnitude code `c` stands for the integer `codeMant f c` at
the spacing `2 ^ codeExp f c` of its binade; subnormal and normal codes are then one case, and that spacing is the one `roundFin` rounds to. -/
namespace Sys2Proof.Machine

/-! ### The shape of the formats -/

theorem fmtIsFloat_iff (f : Nat) : fmtIsFloat f = true ↔ 1 ≤ f ∧ f ≤ 8 := by simp [fmtIsFloat]

theorem fmtIsFloat_lt {f : Nat} (hf : fmtIsFloat f = true) : f < 9 := Nat.lt_succ_of_le ((fmtIsFloat_iff f).mp hf).2

/-- A code is a sign bit, an exponent field and a mantissa field (R48 to R55). -/
theorem fmtWidth_eq {f : Nat} (hf : fmtIsFloat f = true) : fmtWidth f = fmtE f + fmtM f + 1 :=
  (by decide : ∀ g, g < 9 → fmtIsFloat g = true → fmtWidth g = fmtE g + fmtM g + 1) f (fmtIsFloat_lt hf) hf

theorem one_lt_two_pow_fmtE {f : Nat} (hf : fmtIsFloat f = true) : 1 < 2 ^ fmtE f :=
  (by decide : ∀ g, g < 9 → fmtIsFloat g = true → 1 < 2 ^ fmtE g) f (fmtIsFloat_lt hf) hf

theorem fmtWidth_sub_one {f : Nat} (hf : fmtIsFloat f = true) : fmtWidth f - 1 = fmtE f + fmtM f := by
  rw [fmtWidth_eq hf, Nat.add_sub_cancel]

theorem fmtMaxCode_of_hasInf {f : Nat} (h : fmtHasInf f = true) : fmtMaxCode f = (2 ^ fmtE f - 1) * 2 ^ fmtM f - 1 := by
  simp [fmtMaxCode, h]

theorem fmtMaxCode_of_not_hasInf {f : Nat} (hf : fmtIsFloat f = true) (h : fmtHasInf f = false) :
    fmtMaxCode f = 2 ^ (fmtE f + fmtM f) - 1 := by
  simp [fmtMaxCode, h, fmtWidth_sub_one hf]

/-- In a format with infinities the code after the largest finite one has the exponent field of all ones and the mantissa field 0. -/
theorem fmtMaxCode_add_one {f : Nat} (hf : fmtIsFloat f = true) (h : fmtHasInf f = true) :
    fmtMaxCode f + 1 = (2 ^ fmtE f - 1) * 2 ^ fmtM f := by
  have hE := one_lt_two_pow_fmtE hf
  have hpos : 0 < (2 ^ fmtE f - 1) * 2 ^ fmtM f := Nat.mul_pos (by omega) (Nat.two_pow_pos _)
  rw [fmtMaxCode_of_hasInf h]
  omega

theorem fmtMaxCode_lt {f : Nat} (hf : fmtIsFloat f = true) : fmtMaxCode f < 2 ^ (fmtE f + fmtM f) := by
  have hpos := Nat.two_pow_pos (fmtE f + fmtM f)
  cases h : fmtHasInf f with
  | false => rw [fmtMaxCode_of_not_hasInf hf h]; omega
  | true =>
    have hle : (2 ^ fmtE f - 1) * 2 ^ fmtM f ≤ 2 ^ (fmtE f + fmtM f) := by
      rw [Nat.pow_add]; exact Nat.mul_le_mul_right _ (Nat.sub_le _ _)
    rw [fmtMaxCode_of_hasInf h]
    omega

/-- Only a format with infinities has magnitude codes above its largest finite one. -/
theorem fmtHasInf_of_fmtMaxCode_lt {f c : Nat} (hf : fmtIsFloat f = true) (hc : fmtMaxCode f < c) (hlt : c < 2 ^ (fmtE f + fmtM f)) :
    fmtHasInf f = true := by
  cases h : fmtHasInf f with
  | true => rfl
  | false => rw [fmtMaxCode_of_not_hasInf hf h] at hc; omega

theorem signCode_eq {f : Nat} (hf : fmtIsFloat f = true) (s : Bool) : signCode f s = s.toNat * 2 ^ (fmtE f + fmtM f) := by
  cases s <;> simp [signCode, fmtWidth_sub_one hf]

/-- Every code is a sign and a magnitude code. -/
theorem exists_signCode_add {f a : Nat} (hf : fmtIsFloat f = true) (ha : a < 2 ^ fmtWidth f) :
    ∃ s c, c < 2 ^ (fmtE f + fmtM f) ∧ a = signCode f s + c := by
  rw [fmtWidth_eq hf, Nat.pow_succ] at ha
  rcases Nat.lt_or_ge a (2 ^ (fmtE f + fmtM f)) with hlt | hge
  · exact ⟨false, a, hlt, by simp [signCode]⟩
  · exact ⟨true, a - 2 ^ (fmtE f + fmtM f), by omega, by rw [signCode_eq hf, Bool.toNat_true]; omega⟩

/-! ### The fields of a code -/

section Fields
variable {f c : Nat} (hf : fmtIsFloat f = true) (s : Bool)
include hf

theorem mantField_signCode_add : (signCode f s + c) % 2 ^ fmtM f = c % 2 ^ fmtM f := by
  rw [signCode_eq hf, Nat.pow_add, ← Nat.mul_assoc, Nat.mul_add_mod_self_right]

theorem expField_signCode_add (hc : c < 2 ^ (fmtE f + fmtM f)) :
    (signCode f s + c) / 2 ^ fmtM f % 2 ^ fmtE f = c / 2 ^ fmtM f := by
  rw [Nat.pow_add] at hc
  rw [signCode_eq hf, Nat.pow_add, ← Nat.mul_assoc, Nat.add_comm, Nat.add_mul_div_right _ _ (Nat.two_pow_pos _),
    Nat.add_mul_mod_self_right, Nat.mod_eq_of_lt ((Nat.div_lt_iff_lt_mul (Nat.two_pow_pos _)).mpr hc)]

theorem signBit_signCode_add (hc : c < 2 ^ (fmtE f + fmtM f)) :
    ((signCode f s + c) / 2 ^ (fmtWidth f - 1) % 2 == 1) = s := by
  rw [signCode_eq hf, fmtWidth_sub_one hf, Nat.add_comm, Nat.add_mul_div_right _ _ (Nat.two_pow_pos _), Nat.div_eq_of_lt hc]
  cases s <;> rfl

/-- The code 0x80 of FB8e, its NaN, is the one that would be the negative zero. -/
theorem isFB8eNan_signCode_add (hc : c < 2 ^ (fmtE f + fmtM f)) :
    (f == fmtFB8e && (signCode f s + c) % 256 == 0x80) = decide (f = fmtFB8e ∧ s = true ∧ c = 0) := by
  by_cases h : f = fmtFB8e
  · subst h
    have hc' : c < 128 := hc
    have hs : signCode fmtFB8e s = s.toNat * 128 := signCode_eq hf s
    rw [hs, Bool.eq_iff_iff]
    cases s <;> simp <;> omega
  · simp [h]

end Fields

/-! ### What a code stands for -/

/-- The number of binades of a finite magnitude code above the smallest normal one; 0 for a subnormal too. -/
def codeStep (f c : Nat) : Nat := c / 2 ^ fmtM f - 1

/-- The integer significand of a finite magnitude code. -/
def codeMant (f c : Nat) : Nat := c - codeStep f c * 2 ^ fmtM f

/-- The exponent of the significand's last bit. -/
def codeExp (f c : Nat) : Int := fmtEmin f - fmtM f + codeStep f c

theorem codeStep_mul_add_codeMant (f c : Nat) : codeStep f c * 2 ^ fmtM f + codeMant f c = c := by
  have hle : codeStep f c * 2 ^ fmtM f ≤ c :=
    Nat.le_trans (Nat.mul_le_mul_right _ (Nat.sub_le _ _)) (Nat.div_mul_le_self c _)
  unfold codeMant
  omega

theorem codeMant_of_subnormal {f c : Nat} (h : c / 2 ^ fmtM f = 0) : codeMant f c = c % 2 ^ fmtM f := by
  have hs : codeStep f c = 0 := by simp [codeStep, h]
  have hc := Nat.div_add_mod' c (2 ^ fmtM f)
  rw [h, Nat.zero_mul, Nat.zero_add] at hc
  rw [codeMant, hs, Nat.zero_mul, Nat.sub_zero, hc]

theorem codeMant_of_normal {f c : Nat} (h : c / 2 ^ fmtM f ≠ 0) : codeMant f c = 2 ^ fmtM f + c % 2 ^ fmtM f := by
  obtain ⟨k, hk⟩ := Nat.exists_eq_succ_of_ne_zero h
  have hc := Nat.div_add_mod' c (2 ^ fmtM f)
  have hs : codeStep f c = k := by simp [codeStep, hk]
  rw [hk, Nat.succ_mul] at hc
  rw [codeMant, hs]
  omega

theorem codeExp_of_subnormal {f c : Nat} (h : c / 2 ^ fmtM f = 0) : codeExp f c = fmtEmin f - fmtM f := by
  simp [codeExp, codeStep, h]

theorem codeExp_of_normal {f c : Nat} (h : c / 2 ^ fmtM f ≠ 0) :
    codeExp f c = ((c / 2 ^ fmtM f : Nat) : Int) - fmtBias f - fmtM f := by
  unfold codeExp codeStep fmtEmin
  generalize c / 2 ^ fmtM f = e at *
  omega

theorem codeMant_lt (f c : Nat) : codeMant f c < 2 ^ (fmtM f + 1) := by
  have hm := Nat.mod_lt c (Nat.two_pow_pos (fmtM f))
  rw [Nat.pow_succ]
  by_cases h : c / 2 ^ fmtM f = 0
  · rw [codeMant_of_subnormal h]; omega
  · rw [codeMant_of_normal h]; omega

/-- Above the first binade the significand has its leading bit. -/
theorem codeStep_eq_zero_or_le_codeMant (f c : Nat) : codeStep f c = 0 ∨ 2 ^ fmtM f ≤ codeMant f c := by
  by_cases h : c / 2 ^ fmtM f = 0
  · exact .inl (by simp [codeStep, h])
  · exact .inr (codeMant_of_normal h ▸ Nat.le_add_right _ _)

theorem codeMant_eq_zero_iff (f c : Nat) : codeMant f c = 0 ↔ c = 0 := by
  constructor
  · intro h
    have hk := codeStep_eq_zero_or_le_codeMant f c
    have hc := codeStep_mul_add_codeMant f c
    have hpos := Nat.two_pow_pos (fmtM f)
    rw [h] at hc hk
    obtain hk | hk := hk
    · simpa [hk] using hc.symm
    · omega
  · rintro rfl
    simp [codeMant]

section Decode
variable {f c : Nat} {s : Bool} (hf : fmtIsFloat f = true)
include hf

/-- The codes up to the largest finite one are finite, but for the NaN of FB8e. -/
theorem decodeFloat_of_le_fmtMaxCode (hc : c ≤ fmtMaxCode f) (h8 : ¬ (f = fmtFB8e ∧ s = true ∧ c = 0)) :
    decodeFloat f (signCode f s + c) = .fin s (codeMant f c) (codeExp f c) := by
  have hlt := Nat.lt_of_le_of_lt hc (fmtMaxCode_lt hf)
  have hinf : (fmtHasInf f && c / 2 ^ fmtM f == 2 ^ fmtE f - 1) = false := by
    cases h : fmtHasInf f with
    | false => rfl
    | true =>
      have hmax := fmtMaxCode_add_one hf h
      have := (Nat.div_lt_iff_lt_mul (Nat.two_pow_pos (fmtM f))).mpr (show c < (2 ^ fmtE f - 1) * 2 ^ fmtM f by omega)
      simpa using Nat.ne_of_lt this
  simp only [decodeFloat, mantField_signCode_add hf, expField_signCode_add hf s hlt, signBit_signCode_add hf s hlt,
    isFB8eNan_signCode_add hf s hlt, h8, hinf, decide_false, Bool.false_eq_true, if_false, beq_iff_eq]
  split
  next h0 => rw [codeMant_of_subnormal h0, codeExp_of_subnormal h0]
  next h0 => rw [codeMant_of_normal h0, codeExp_of_normal h0]

theorem decodeFloat_fmtMaxCode :
    decodeFloat f (fmtMaxCode f) = .fin false (codeMant f (fmtMaxCode f)) (codeExp f (fmtMaxCode f)) := by
  have h := decodeFloat_of_le_fmtMaxCode (s := false) hf (Nat.le_refl (fmtMaxCode f)) (by simp)
  rwa [show signCode f false = 0 from rfl, Nat.zero_add] at h

/-- The code after the largest finite one is the infinity. -/
theorem decodeFloat_fmtMaxCode_add_one (hi : fmtHasInf f = true) :
    decodeFloat f (signCode f s + (fmtMaxCode f + 1)) = .inf s := by
  have hmax := fmtMaxCode_add_one hf hi
  have hlt : fmtMaxCode f + 1 < 2 ^ (fmtE f + fmtM f) := by
    rw [hmax, Nat.pow_add]
    exact Nat.mul_lt_mul_of_pos_right (Nat.sub_lt (Nat.two_pow_pos _) Nat.one_pos) (Nat.two_pow_pos _)
  have he : (fmtMaxCode f + 1) / 2 ^ fmtM f = 2 ^ fmtE f - 1 := by rw [hmax, Nat.mul_div_cancel _ (Nat.two_pow_pos _)]
  have hm : (fmtMaxCode f + 1) % 2 ^ fmtM f = 0 := by rw [hmax, Nat.mul_mod_left]
  simp [decodeFloat, mantField_signCode_add hf, expField_signCode_add hf s hlt, signBit_signCode_add hf s hlt,
    isFB8eNan_signCode_add hf s hlt, he, hm, hi]

/-- The codes above the infinity are NaNs. -/
theorem isNan_decodeFloat_of_fmtMaxCode_lt (hi : fmtHasInf f = true) (hc : fmtMaxCode f + 1 < c)
    (hlt : c < 2 ^ (fmtE f + fmtM f)) : (decodeFloat f (signCode f s + c)).isNan = true := by
  rw [fmtMaxCode_add_one hf hi] at hc
  have he : c / 2 ^ fmtM f = 2 ^ fmtE f - 1 := by
    have h1 := (Nat.le_div_iff_mul_le (Nat.two_pow_pos (fmtM f))).mpr (Nat.le_of_lt hc)
    have h2 := (Nat.div_lt_iff_lt_mul (Nat.two_pow_pos (fmtM f))).mpr (Nat.pow_add 2 (fmtE f) _ ▸ hlt)
    omega
  have hm : c % 2 ^ fmtM f ≠ 0 := by
    have := Nat.div_add_mod' c (2 ^ fmtM f)
    rw [he] at this
    omega
  simp only [decodeFloat, mantField_signCode_add hf, expField_signCode_add hf s hlt, signBit_signCode_add hf s hlt,
    isFB8eNan_signCode_add hf s hlt, he, hi, beq_self_eq_true, Bool.and_self, if_true, beq_iff_eq, hm, if_false]
  split <;> rfl

end Decode

/-! ### Rounding a value that a code stands for -/

@[simp] theorem roundAt_self (mode u : Nat) (s : Bool) (m : Nat) (e : Int) : roundAt mode u s m e e = (m, true) := by
  simp [roundAt]

@[simp] theorem cmpMag_self (m : Nat) (e : Int) : cmpMag m e m e = .eq := by simp [cmpMag]

/-- The spacing to which `roundFin` rounds the value of a code is that code's own. -/
theorem roundingExp_eq_codeExp {f c : Nat} (h0 : c ≠ 0) :
    max (exponentOf (codeMant f c) (codeExp f c)) (fmtEmin f) - fmtM f = codeExp f c := by
  have hm : codeMant f c ≠ 0 := mt (codeMant_eq_zero_iff f c).mp h0
  have hlog : (codeMant f c).log2 < fmtM f + 1 := (Nat.log2_lt hm).mpr (codeMant_lt f c)
  unfold exponentOf codeExp
  obtain hk | hk := codeStep_eq_zero_or_le_codeMant f c
  · rw [hk]; omega
  · have := (Nat.le_log2 hm).mpr hk
    omega

/-- The value of a finite nonzero code rounds to that code, exactly (R77). -/
theorem roundFin_codeMant {f c : Nat} (hf : fmtIsFloat f = true) (mode u : Nat) (s : Bool) (h0 : c ≠ 0) (hc : c ≤ fmtMaxCode f) :
    roundFin f mode u s (codeMant f c) (codeExp f c) = (signCode f s + c, 0) := by
  have hcode : (codeExp f c + fmtM f - fmtEmin f).toNat * 2 ^ fmtM f + codeMant f c = c := by
    have hk : (codeExp f c + fmtM f - fmtEmin f).toNat = codeStep f c := by unfold codeExp; omega
    rw [hk, codeStep_mul_add_codeMant]
  have hm : codeMant f c ≠ 0 := mt (codeMant_eq_zero_iff f c).mp h0
  obtain hlt | rfl := Nat.lt_or_eq_of_le hc
  · simp [roundFin, roundingExp_eq_codeExp h0, hcode, hm, Nat.not_lt_of_lt hlt, Nat.not_le_of_lt hlt, flagIf]
  · -- Under SR only a value above the largest finite one overflows (R78), and the value of that code is not above itself.
    simp [roundFin, roundingExp_eq_codeExp h0, hcode, hm, decodeFloat_fmtMaxCode hf, flagIf]

/-- Encoding the value of a finite code gives the code back, zeros with their signs included (R80). -/
theorem encodeFloat_fin_code {f c : Nat} (hf : fmtIsFloat f = true) (mode u : Nat) (s : Bool) (hc : c ≤ fmtMaxCode f)
    (h8 : ¬ (f = fmtFB8e ∧ s = true ∧ c = 0)) :
    encodeFloat f mode u (.fin s (codeMant f c) (codeExp f c)) = (signCode f s + c, 0) := by
  by_cases h0 : c = 0
  · subst h0
    have hz : zeroCode f s = signCode f s := by
      unfold zeroCode
      split
      next h =>
        have hs : s = false := Bool.eq_false_iff.mpr fun hs => h8 ⟨h, hs, rfl⟩
        rw [hs]
        rfl
      next => rfl
    rw [(codeMant_eq_zero_iff f 0).mpr rfl, encodeFloat, hz, Nat.add_zero]
  · obtain ⟨m, hm⟩ := Nat.exists_eq_succ_of_ne_zero (mt (codeMant_eq_zero_iff f c).mp h0)
    rw [← roundFin_codeMant hf mode u s h0 hc, hm, encodeFloat]
    exact Nat.succ_ne_zero m

theorem encodeFloat_inf {f : Nat} (mode u : Nat) (s : Bool) (hi : fmtHasInf f = true) :
    encodeFloat f mode u (.inf s) = (signCode f s + (fmtMaxCode f + 1), 0) := by
  simp [encodeFloat, hi, Nat.add_assoc]

/-- Encoding the value of a code that is not a NaN gives the code back, in each of the eight formats. -/
theorem encodeFloat_decodeFloat {f a : Nat} (hf : fmtIsFloat f = true) (mode u : Nat) (ha : a < 2 ^ fmtWidth f)
    (hn : (decodeFloat f a).isNan = false) : encodeFloat f mode u (decodeFloat f a) = (a, 0) := by
  obtain ⟨s, c, hlt, rfl⟩ := exists_signCode_add hf ha
  rcases Nat.lt_trichotomy c (fmtMaxCode f + 1) with hc | rfl | hc
  · have hle : c ≤ fmtMaxCode f := Nat.lt_succ_iff.mp hc
    have h8 : ¬ (f = fmtFB8e ∧ s = true ∧ c = 0) := by
      rintro ⟨rfl, rfl, rfl⟩
      exact absurd hn (by decide)
    rw [decodeFloat_of_le_fmtMaxCode hf hle h8, encodeFloat_fin_code hf mode u s hle h8]
  · have hi := fmtHasInf_of_fmtMaxCode_lt hf (Nat.lt_succ_self _) hlt
    rw [decodeFloat_fmtMaxCode_add_one hf hi, encodeFloat_inf mode u s hi]
  · have hi := fmtHasInf_of_fmtMaxCode_lt hf (Nat.lt_of_succ_lt hc) hlt
    rw [isNan_decodeFloat_of_fmtMaxCode_lt hf hi hc hlt] at hn
    cases hn

/-- Settles O22: it holds in each of the eight formats, for every code that is not a NaN. -/
theorem floatCodesRoundTrip : Obligations.FloatCodesRoundTrip := by
  intro f a rm u _ ha hn hcase
  have hf : fmtIsFloat f = true := by
    obtain h | ⟨h, -⟩ := hcase
    · exact (by decide : ∀ g ∈ [fmtFB8r, fmtFB16, fmtB16, fmtB32, fmtB64], fmtIsFloat g = true) f h
    · exact (by decide : ∀ g ∈ [fmtFB4, fmtFB6, fmtFB8e], fmtIsFloat g = true) f h
  exact encodeFloat_decodeFloat hf rm u ha hn

end Sys2Proof.Machine
end
